-- ==== Sys2Proof/Word.lean ====
section
/-! DEFINITION. Words, the numbered identifiers of 00_scope.md (Conventions, Numbering), and tables of a fixed
number of like things. -/

namespace Sys2Proof

/-- A byte of a notice payload or of a shelf record. -/
abbrev Byte := BitVec 8
/-- A word of the configuration image, or a two-byte field. -/
abbrev Word16 := BitVec 16

/-- A cabinet address, 0 to 15. -/
abbrev Cabinet := Fin 16
/-- A line of one cabinet, 0 to 15. -/
abbrev Line := Fin 16
/-- A hunt group, 0 to 15. -/
abbrev HuntGroup := Fin 16
/-- A pickup group, 0 to 15. -/
abbrev PickupGroup := Fin 16
/-- A member's position within a hunt group, 0 to 31. -/
abbrev OrderIndex := Fin 32
/-- A paging group, 0 to 31. -/
abbrev PagingGroup := Fin 32
/-- A zone of one cabinet, 0 to 3. -/
abbrev LocalZone := Fin 4
/-- A zone of the system, 0 to 63. -/
abbrev ZoneNumber := Fin 64
/-- An audio channel, 0 to 3. -/
abbrev Channel := Fin 4
/-- A slot of one cabinet's park orbit table, 0 to 3. -/
abbrev OrbitSlot := Fin 4
/-- An orbit of the system, 0 to 63. -/
abbrev OrbitNumber := Fin 64
/-- A sequence value of a call id or a page id, 0 to 255. -/
abbrev Seq := Fin 256
/-- A bid key, 0 to 1023. -/
abbrev BidKey := Fin 1024

/-- A set of order indices: bit i is set when i is in the set (the encoding of a tried set, 12.1). -/
abbrev IndexSet := BitVec 32
/-- A set of hunt groups: bit g is set when g is in the set (12.1). -/
abbrev GroupSet := BitVec 16
/-- A set of paging groups, as a zone entry of the image holds it (table 12-6). -/
abbrev PagingSet := BitVec 32

/-- A call's identity: its owner's cabinet and a sequence value (00_scope.md, Numbering). -/
structure CallId where
  cab : Cabinet
  seq : Seq
  deriving DecidableEq, Repr

/-- A page's identity: its originator's cabinet and a sequence value (00_scope.md, Numbering). -/
structure PageId where
  cab : Cabinet
  seq : Seq
  deriving DecidableEq, Repr

/-- A fixed number `n` of like things, in order. -/
structure Table (n : Nat) (α : Type) where
  rows : List α
  size : rows.length = n
  deriving DecidableEq, Repr

/-- Entry `i`. -/
def Table.get {n : Nat} {α : Type} (t : Table n α) (i : Fin n) : α :=
  t.rows[i.val]'(by rw [t.size]; exact i.isLt)

/-- The table with entry `i` set to `a`. -/
def Table.set {n : Nat} {α : Type} (t : Table n α) (i : Fin n) (a : α) : Table n α :=
  ⟨t.rows.set i.val a, by rw [List.length_set, t.size]⟩

/-- The table with `f` applied to entry `i`. -/
def Table.modify {n : Nat} {α : Type} (t : Table n α) (i : Fin n) (f : α → α) : Table n α :=
  t.set i (f (t.get i))

/-- The table with `f` applied to every entry. -/
def Table.map {n : Nat} {α β : Type} (t : Table n α) (f : α → β) : Table n β :=
  ⟨t.rows.map f, by rw [List.length_map, t.size]⟩

/-- The table whose entries are all `a`. -/
def Table.fill (n : Nat) {α : Type} (a : α) : Table n α :=
  ⟨List.replicate n a, List.length_replicate ..⟩

/-- The table whose entry `i` is `f i`. -/
def Table.build (n : Nat) {α : Type} (f : Fin n → α) : Table n α :=
  ⟨(List.finRange n).map f, by rw [List.length_map, List.length_finRange]⟩

end Sys2Proof
end

