-- ==== Sys2Proof/Syntax.lean ====
section
/-! DEFINITION. The commands: one constructor per row of spec/opcode_table.json. The table gives a row no operand
fields; the operands here are what the row's rule names (log 3). A heard notice carries the frame's source cabinet
and its payload fields as raw bytes, since each block checks the fields it reads itself (R186). -/

namespace Sys2Proof

/-- A two-byte call id or page id as it stands in a payload (12.1). -/
structure RawId where
  cab : Byte
  seq : Byte
  deriving DecidableEq, Repr

/-- One channel slot of a STATUS payload: the class byte (255: not held by the part) and a page id (table 12-3). -/
structure RawSlot where
  cls  : Byte
  page : RawId
  deriving DecidableEq, Repr

/-- A STATUS payload (table 12-3): the channel slots in the order of the channels. -/
structure RawStatus where
  link     : Byte
  evac     : Byte
  evacPage : RawId
  slot0    : RawSlot
  slot1    : RawSlot
  slot2    : RawSlot
  slot3    : RawSlot
  offers   : Byte
  deriving DecidableEq, Repr

/-- A CLAIM payload, and the first five fields of a REFUSED payload (table 12-3). -/
structure RawClaim where
  form  : Byte
  call  : RawId
  orbit : Byte
  cab   : Byte
  line  : Byte
  deriving DecidableEq, Repr

/-- A PAGE-START payload (table 12-3). -/
structure RawPageStart where
  page    : RawId
  cls     : Byte
  target  : Byte
  channel : Byte
  flags   : Byte
  orbit   : Byte
  deriving DecidableEq, Repr

/-- One dialled digit of a digit event (chapter 2): 0 to 9, `*` or `#`. -/
inductive Digit where
  | num (n : Fin 10)
  | star
  | hash
  deriving DecidableEq, Repr

/-- The two contact inputs (R114). -/
inductive ContactInput where
  | alarm
  | evac
  deriving DecidableEq, Repr

/-- A command: an event at the part. The row of spec/opcode_table.json of each constructor stands in LAWS.json. -/
inductive Instr where
  -- start-up (chapter 11)
  | powerOn
  | resetAssert
  | resetRelease
  | loadComplete (memory : List Byte)
  | join
  -- the part's own attempts on the link (chapter 1)
  | attemptStart
  | arbitrationLost
  | attemptAcknowledged
  | attemptFailed
  -- frames received (chapter 1)
  | frameAbandoned
  | frameCrcMismatch
  | frameUnknownKind (src : Cabinet) (kind length : BitVec 5)
  | status (src : Cabinet) (body : RawStatus)
  | probe (src : Cabinet)
  -- link timers (chapter 1)
  | statusPeriod
  | probePeriod
  | peerAgingTick
  -- Line Port events and line timers (chapter 2)
  | offHook (line : Line)
  | onHook (line : Line)
  | digit (line : Line) (d : Digit)
  | digitTimerExpiry (line : Line)
  | reservationTimerExpiry (line : Line)
  | cadenceIntervalExpiry (line : Line)
  | noAnswerTimerExpiry (line : Line)
  | verdictTimerExpiry (line : Line)
  | wrapUpTick (line : Line)
  | idleSecondTick (line : Line)
  -- calls (chapter 3)
  | callArrival (ref : Word16) (targetType : Byte) (target : Word16)
  | callGone (ref : Word16)
  | assignTimerExpiry (call : Seq)
  -- hunting (chapter 4)
  | offer (src : Cabinet) (call : RawId) (group attempt : Byte) (tried : BitVec 32)
  | bid (src : Cabinet) (key : BidKey) (call : RawId) (line index : Byte) (payloadKey : Word16)
  | sendLimitExpiry (call : CallId)
  | bidWindowClose (call : Seq)
  | recyclePauseExpiry (call : Seq)
  | queueWaitExpiry (call : Seq)
  | ringAssign (src : Cabinet) (call : RawId) (cab line cadence : Byte)
  | decline (src : Cabinet) (call : RawId) (line : Byte)
  | ringStarted (src : Cabinet) (call : RawId) (line index pickup : Byte)
  | ringEnded (src : Cabinet) (call : RawId) (line reason : Byte)
  | noAnswer (src : Cabinet) (call : RawId) (line : Byte)
  | answered (src : Cabinet) (call : RawId) (line index : Byte)
  | claim (src : Cabinet) (body : RawClaim)
  | connected (src : Cabinet) (call : RawId) (cab line group index : Byte)
  | refused (src : Cabinet) (body : RawClaim) (reason : Byte)
  | cancel (src : Cabinet) (call : RawId)
  | available (src : Cabinet) (groups : BitVec 16)
  -- park orbits (chapter 5)
  | recallTimerExpiry (slot : OrbitSlot)
  | repeatTimerExpiry (slot : OrbitSlot)
  -- pages (chapters 6 and 7)
  | contactInputActive (input : ContactInput)
  | contactInputInactive (input : ContactInput)
  | minimumTimerExpiry (input : ContactInput)
  | pageStart (src : Cabinet) (body : RawPageStart)
  | pageEnd (src : Cabinet) (page : RawId) (reason : Byte)
  | reportWindowExpiry (page : Seq)
  | codeLifeExpiry (page : Seq)
  | zoneReport (src : Cabinet) (page : RawId) (zone outcome : Byte)
  | allStop (src : Cabinet) (cab : Byte)
  -- zones, tones and levels (chapters 7, 8 and 9)
  | wakeTimerExpiry (zone : LocalZone)
  | stepTimerExpiry (zone : LocalZone)
  | patternCompletion (zone : LocalZone)
  | elapsedSecondTick (zone : LocalZone)
  | hangTimerExpiry (zone : LocalZone)
  | ampFaultActive (zone : LocalZone)
  | ampFaultInactive (zone : LocalZone)
  | ambientSample (zone : LocalZone) (code : Byte)
  -- the Shelf Port (chapter 10)
  | conditionRead
  | shelfClear
  | shelfRecordBad (bytes : List Byte)
  | recordGapTimeout (bytes : List Byte)
  | outputRecordSent
  deriving DecidableEq, Repr

end Sys2Proof
end

