-- ==== Sys2Proof/Decode.lean ====
section
/-! DEFINITION. Words of spec/opcode_table.json: every row of the table has an empty list of fields and no fixed bits, so
no word spells a command (log 3). -/

namespace Sys2Proof

/-- The command that a word of `nbits` bits spells: none, since no row of the table gives bits. -/
def decodeTableWord (_nbits _w : Nat) : Option Instr := none

end Sys2Proof
end

