-- ==== Sys2Proof/Config.lean ====
section
/-! DEFINITION. What a cabinet's configuration image fixes (chapter 11), the parameter types of R67, R125 and R157,
and the free values. -/

namespace Sys2Proof

/-- The rule by which a hunt group ranks its members (R67, R69). -/
inductive Discipline where
  | linear | circular | longestIdle | simultaneous
  deriving DecidableEq, Repr

/-- A group's overflow action as the image gives it (R67, R81). -/
inductive OverflowAction where
  | recycle | queue | forward | park
  deriving DecidableEq, Repr

/-- A group's queue-expiry action as the image gives it (R67, R85). -/
inductive QueueExpiryAction where
  | recycle | forward | park | endCall
  deriving DecidableEq, Repr

/-- The parameters of a hunt group that has an entry (R67). -/
structure GroupParams where
  discipline     : Discipline
  span           : Nat
  noAnswer       : Nat
  wrapUp         : Nat
  queueFlag      : Bool
  queueMax       : Nat
  overflow       : OverflowAction
  forward        : HuntGroup
  parkPaging     : PagingGroup
  queueExpiry    : QueueExpiryAction
  recallTime     : Nat
  repeatInterval : Nat
  repeatLimit    : Nat
  deriving DecidableEq, Repr

/-- A line's privilege (chapter 2, the line record). -/
inductive Privilege where
  | ordinary | supervisor
  deriving DecidableEq, Repr

/-- One membership of a line: a hunt group, an order index and the logged-in flag. -/
structure Membership where
  group    : HuntGroup
  index    : OrderIndex
  loggedIn : Bool
  deriving DecidableEq, Repr

/-- What the image gives a line, its memberships as R182 keeps them. -/
structure LineConfig where
  inService   : Bool
  privilege   : Privilege
  pickup      : Option PickupGroup
  memberships : List Membership
  deriving DecidableEq, Repr

/-- The level parameters of a zone (R157), under the rule's names. -/
structure LevelParams where
  base     : Nat
  refAmb   : Nat
  slope    : Nat
  floor    : Nat
  ceiling  : Nat
  ramp     : Nat
  smooth   : Nat
  rise     : Nat
  fallback : Nat
  deriving DecidableEq, Repr

/-- What the image gives a zone (R125, R157): times in ms (wake) and seconds (hang). -/
structure ZoneConfig where
  inService : Bool
  quiet     : Bool
  paging    : PagingSet
  wake      : Nat
  hang      : Nat
  level     : LevelParams
  deriving DecidableEq, Repr

/-- The values of a good image, clamped (R179, R181, R182). -/
structure Image where
  address    : Cabinet
  alarmGroup : PagingGroup
  routineMax : Nat
  alarmMax   : Nat
  mask       : BitVec 12
  lines      : Table 16 LineConfig
  groups     : Table 16 (Option GroupParams)
  zones      : Table 4 ZoneConfig
  notes      : Table 8 Nat
  deriving DecidableEq, Repr

/-- FREE VALUE (log 6). Several peers may fall silent at one tick of the aging timer, and they are then reported "in
either order" (chapter 1, worked sequence of a cut link). At the `n`-th tick the peers are taken by rising rank. -/
opaque Config.silenceRank : Nat → Cabinet → Nat

end Sys2Proof
end

