-- ==== Sys2Proof/Machine/State.lean ====
section
/-! DEFINITION. The state of one GX416: every block's state as 00_scope.md's block table and the chapters give it,
plain data throughout, and its value at reset. -/

namespace Sys2Proof.Machine

/-! ### Why a step can stop -/

/-- A fault of the machine. The spec answers every event at the part, in every state, so there is none. -/
inductive Fault where
  deriving DecidableEq, Repr

/-- A refusal. -/
inductive Refusal where
  /-- Raised by a refused arm of exec for a command that has no meaning yet; safe. No arm raises it. -/
  | notModelled (mnemonic : String)
  deriving DecidableEq, Repr

/-! ### Notices (chapters 1 and 12) -/

/-- Page classes in rising precedence (00_scope.md, Terms). -/
inductive PageClass where
  | code | routine | alarm | evac
  deriving DecidableEq, Repr

/-- A page's target (table 12-3). -/
inductive PageTarget where
  | group (g : PagingGroup)
  | all
  deriving DecidableEq, Repr

/-- Ring cadences (R38). -/
inductive Cadence where
  | hunt | direct | recall
  deriving DecidableEq, Repr

/-- The link-state field of a STATUS (R21). -/
inductive LinkField where
  | running | joining | rejoining
  deriving DecidableEq, Repr

/-- The reason of a RING-ENDED (R39). -/
inductive RingEndReason where
  | connected | cancelled | noAnswer | ownerSilent | isolated | cleared
  deriving DecidableEq, Repr

/-- The reason of a refused claim (R56, R57). -/
inductive ClaimRefusal where
  | taken | tooLate | empty | unknown
  deriving DecidableEq, Repr

/-- The reason of a PAGE-END (R117). -/
inductive PageEndReason where
  | ended | noZone | channelLost | allStop | cleared
  deriving DecidableEq, Repr

/-- What a zone did with a page (section 7.10). -/
inductive ZoneOutcome where
  | playing | pending | held | lost | timedOut | fault | busy | locked | full | dropped | ended
  deriving DecidableEq, Repr

/-- What a claim names: a call or an orbit (R54). -/
inductive ClaimTarget where
  | call (c : CallId)
  | orbit (o : OrbitNumber)
  deriving DecidableEq, Repr

/-- A channel and the page that holds it. -/
structure ChannelHold where
  page : PageId
  cls  : PageClass
  deriving DecidableEq, Repr

/-- What a STATUS carries beside its link-state field (R21). -/
structure StatusBody where
  evac     : Option PageId
  channels : Table 4 (Option ChannelHold)
  offers   : Nat
  deriving DecidableEq, Repr

/-- What a PAGE-START carries (R112, R113, R115). -/
structure PageStartBody where
  page     : PageId
  cls      : PageClass
  target   : PageTarget
  channel  : Option Channel
  seize    : Bool
  override : Bool
  orbit    : Option OrbitNumber
  deriving DecidableEq, Repr

/-- The nineteen notices, with contents inside their ranges: what the part itself sends. The class in `pageEnd` is the
page's class, which sets the arbitration class (R6) and is not in the payload. -/
inductive Notice where
  | status (link : LinkField) (body : StatusBody)
  | probe
  | offer (call : CallId) (group : HuntGroup) (attempt : Nat) (tried : IndexSet)
  | bid (call : CallId) (line : Line) (index : OrderIndex) (key : BidKey)
  | ringAssign (call : CallId) (cab : Cabinet) (line : Line) (cadence : Cadence)
  | decline (call : CallId) (line : Line)
  | ringStarted (call : CallId) (line : Line) (index : Option OrderIndex) (pickup : Option PickupGroup)
  | ringEnded (call : CallId) (line : Line) (reason : RingEndReason)
  | noAnswer (call : CallId) (line : Line)
  | answered (call : CallId) (line : Line) (index : Option OrderIndex)
  | claim (target : ClaimTarget) (cab : Cabinet) (line : Line)
  | connected (call : CallId) (cab : Cabinet) (line : Line) (group : Option HuntGroup) (index : Option OrderIndex)
  | refused (target : ClaimTarget) (cab : Cabinet) (line : Line) (reason : ClaimRefusal)
  | cancel (call : CallId)
  | available (groups : GroupSet)
  | pageStart (body : PageStartBody)
  | pageEnd (page : PageId) (cls : PageClass) (reason : PageEndReason)
  | zoneReport (page : PageId) (zone : ZoneNumber) (outcome : ZoneOutcome)
  | allStop (cab : Cabinet)
  deriving DecidableEq, Repr

/-! ### Cabinet Link Controller (chapter 1) -/

/-- Link states (section 1.5). -/
inductive LinkState where
  | loading | listening | running | isolated | listenOnly | halted
  deriving DecidableEq, Repr

/-- A block's request about a notice in an attempt, which waits for the attempt's end (R9). -/
inductive TxRequest where
  | withdraw
  | replace (n : Notice)
  deriving DecidableEq, Repr

/-- An entry of the transmit queue (R7). The order of joining is the order of the list. -/
structure TxEntry where
  notice    : Notice
  field     : Nat
  failed    : Nat
  inAttempt : Bool
  request   : Option TxRequest
  deriving DecidableEq, Repr

/-- The standing of a peer (section 1.6). -/
inductive PeerState where
  | absent | present | silent
  deriving DecidableEq, Repr

/-- An entry of the peer table (section 1.6). -/
structure Peer where
  state    : PeerState
  age      : Nat
  evac     : Option PageId
  channels : Table 4 (Option ChannelHold)
  deriving DecidableEq, Repr

/-- The state of the CLC. `driving` is the frame of the attempt in progress as put on the bus (R1), empty when none. -/
structure Clc where
  address : Cabinet
  link    : LinkState
  queue   : List TxEntry
  driving : List Bool
  dropRun : Nat
  peers   : Table 16 Peer
  deriving DecidableEq, Repr

/-! ### Line Unit (chapter 2) -/

/-- Line states (section 2.1). -/
inductive LineState where
  | outOfService | idle | dialing | ringing | answerPending | pickupPending | talking | paging | busy | wrapUp
  deriving DecidableEq, Repr

/-- A line's reservation (R35); its 100 ms timer runs while it stands. -/
structure Reservation where
  call  : CallId
  group : HuntGroup
  deriving DecidableEq, Repr

/-- A line's call field (section 2.1). `index` none is the code 255. -/
structure LineCall where
  call    : CallId
  cadence : Option Cadence
  group   : Option HuntGroup
  index   : Option OrderIndex
  deriving DecidableEq, Repr

/-- The kind of a pending verdict (section 2.1). -/
inductive VerdictKind where
  | answer | pickup
  deriving DecidableEq, Repr

/-- A line's pending verdict (section 2.1); its 2 s timer runs while it stands. -/
structure Verdict where
  target : ClaimTarget
  kind   : VerdictKind
  deriving DecidableEq, Repr

/-- The digit timer, while it runs (R26). -/
inductive DigitTimer where
  | first | interDigit
  deriving DecidableEq, Repr

/-- Tones of the Line Port (R34). -/
inductive Tone where
  | none | dial | confirm | refuse | busy | lost
  deriving DecidableEq, Repr

/-- A line record (section 2.1), with the cadence position and no-answer timer (seconds) of a ringing line and the ring
and tone orders in force. -/
structure LineRec where
  inService   : Bool
  privilege   : Privilege
  pickup      : Option PickupGroup
  memberships : List Membership
  state       : LineState
  dnd         : Bool
  idleSecs    : Nat
  wrapUp      : Option Nat
  reserved    : Option Reservation
  call        : Option LineCall
  verdict     : Option Verdict
  buffer      : List Digit
  collecting  : Bool
  digitTimer  : Option DigitTimer
  armed       : Bool
  page        : Option PageId
  available   : GroupSet
  cadenceAt   : Option Nat
  noAnswer    : Option Nat
  ring        : Bool
  tone        : Tone
  deriving DecidableEq, Repr

/-! ### Offer Manager (chapter 3) and Hunt Engine (chapter 4) -/

/-- A call's target (R45). -/
inductive CallTarget where
  | hunt (g : HuntGroup)
  | direct (cab : Cabinet) (line : Line)
  deriving DecidableEq, Repr

/-- Why a record is WAITING (R45). -/
inductive WaitReason where
  | recyclePause | queued
  deriving DecidableEq, Repr

/-- Offer states (section 3.1); WAITING carries its reason and PARKED its orbit, which are present in no other state. -/
inductive OfferState where
  | offering
  | assigned
  | ringing
  | waiting (reason : WaitReason)
  | parked (orbit : OrbitNumber)
  deriving DecidableEq, Repr

/-- A member: cabinet, line and order index (none for a DIRECT call, 255). -/
structure Member where
  cab   : Cabinet
  line  : Line
  index : Option OrderIndex
  deriving DecidableEq, Repr

/-- An entry of an open window's bid list (R77). -/
structure WindowBid where
  cab   : Cabinet
  line  : Line
  index : Option OrderIndex
  field : Nat
  deriving DecidableEq, Repr

/-- An offer record (R45). `assignTimer` says that the 500 ms timer runs; `window` is the open bid window with its bid
list (R77), none while no window is open. -/
structure Offer where
  seq         : Seq
  ref         : Word16
  target      : CallTarget
  state       : OfferState
  attempts    : Nat
  tried       : IndexSet
  ringing     : List Member
  assigned    : Option Member
  assignTimer : Bool
  depth       : Nat
  parkDone    : Bool
  window      : Option (List WindowBid)
  deriving DecidableEq, Repr

/-- The state of the OFM (R45, R46). -/
structure Ofm where
  offers  : List Offer
  counter : Seq
  wrapped : Bool
  deriving DecidableEq, Repr

/-- An entry of the heard-offer list (R70). -/
structure HeardOffer where
  call  : CallId
  group : HuntGroup
  deriving DecidableEq, Repr

/-- The standing of a member-side bid entry (section 4.3). -/
inductive BidStanding where
  | queued | sent
  deriving DecidableEq, Repr

/-- A member-side bid entry (section 4.3). `limit`: the 50 ms send limit runs. `ending`: a withdrawal waits for the end
of the BID's attempt, and the entry ends with it (R72). -/
structure BidEntry where
  call     : CallId
  line     : Line
  index    : OrderIndex
  key      : BidKey
  standing : BidStanding
  limit    : Bool
  ending   : Bool
  deriving DecidableEq, Repr

/-- A record's standing in its group's queue (R83). `expired`: its queue wait timer has expired (R85). -/
structure Standing where
  call    : Seq
  group   : HuntGroup
  expired : Bool
  deriving DecidableEq, Repr

/-- The state of the HE. `queue` holds the standings of all groups in their order of joining: a group's queue is the part
of it with that group. -/
structure He where
  groups   : Table 16 (Option GroupParams)
  rotation : Table 16 OrderIndex
  heard    : List HeardOffer
  bids     : List BidEntry
  queue    : List Standing
  deriving DecidableEq, Repr

/-! ### Pickup and Park Unit (chapter 5) -/

/-- An entry of the ring view (R89). -/
structure ViewEntry where
  call   : CallId
  cab    : Cabinet
  line   : Line
  pickup : Option PickupGroup
  marked : Bool
  deriving DecidableEq, Repr

/-- An occupied park orbit (R99): the parked call is the part's own, so its sequence value names it. `recallTime` is the
length in seconds of the recall timer, which runs while the slot is occupied. -/
structure Orbit where
  call     : Seq
  group    : HuntGroup
  paging   : PagingGroup
  page     : Option PageId
  repeats  : Nat
  limit    : Nat
  interval : Nat
  recallTime : Nat
  repeating : Bool
  deriving DecidableEq, Repr

/-- The state of the PPU (R89, R99). -/
structure Ppu where
  view   : List ViewEntry
  orbits : Table 4 (Option Orbit)
  deriving DecidableEq, Repr

/-! ### Page Originator (chapter 6) -/

/-- The source of a page (R106). -/
inductive PageOrigin where
  | line (l : Line)
  | input (i : ContactInput)
  | orbit (o : OrbitNumber)
  deriving DecidableEq, Repr

/-- Page states (R106). -/
inductive PageState where
  | claiming | reporting | onAir
  deriving DecidableEq, Repr

/-- The timer of a page record, while it runs (R106). -/
inductive PageTimer where
  | reportWindow | life | minimum
  deriving DecidableEq, Repr

/-- A page record (R106). -/
structure PageRec where
  seq         : Seq
  cls         : PageClass
  target      : PageTarget
  origin      : PageOrigin
  channel     : Option Channel
  seize       : Bool
  override    : Bool
  state       : PageState
  reports     : List (ZoneNumber × ZoneOutcome)
  connectSent : Bool
  timer       : Option PageTimer
  released    : Bool
  deriving DecidableEq, Repr

/-- The state of the PGO (R106 to R108), with the contact inputs as taken (R114). -/
structure Pgo where
  pages       : List PageRec
  view        : Table 4 (Option ChannelHold)
  counter     : Seq
  alarmGroup  : PagingGroup
  alarmActive : Bool
  evacActive  : Bool
  deriving DecidableEq, Repr

/-! ### Zone Controller (chapter 7) -/

/-- Zone states (R126). -/
inductive ZoneState where
  | outOfService | fault | released | waking | chime | live | tone | code | hang
  deriving DecidableEq, Repr

/-- The source of a page in a zone (R125). -/
inductive PageSource where
  | channel (c : Channel)
  | tone
  deriving DecidableEq, Repr

/-- A page entry (R125); `orbit` is present for a CODE page. -/
structure PageEntry where
  page   : PageId
  cls    : PageClass
  source : PageSource
  orbit  : Option OrbitNumber
  deriving DecidableEq, Repr

/-- What the active place holds (R125): a page with its elapsed seconds (its phase is the zone's state), or the
evacuation. -/
inductive Active where
  | page (e : PageEntry) (elapsed : Nat)
  | evacuation
  deriving DecidableEq, Repr

/-- What the held place holds (R125): the page with its saved phase and elapsed seconds. -/
structure Held where
  entry   : PageEntry
  phase   : ZoneState
  elapsed : Nat
  deriving DecidableEq, Repr

/-- A zone record's ZC fields (R125), with the run number the ZC keeps (R154). -/
structure ZoneRec where
  cfg      : ZoneConfig
  state    : ZoneState
  active   : Option Active
  held     : Option Held
  pending  : List PageEntry
  evac     : List PageId
  ampFault : Bool
  keptRun  : Seq
  deriving DecidableEq, Repr

/-- The state of the ZC: the four zone records and the two class maxima (R125, R136), in seconds. -/
structure Zc where
  zones      : Table 4 ZoneRec
  routineMax : Nat
  alarmMax   : Nat
  deriving DecidableEq, Repr

/-! ### Tone Sequencer (chapter 8) -/

/-- Patterns (R147). -/
inductive Pattern where
  | routinePrelude | alarmPrelude | alarmTone | evacTone
  | code (o : OrbitNumber)
  deriving DecidableEq, Repr

/-- A RUNNING sequencer's pattern and step, counted from 1 (R147). -/
structure Run where
  pattern : Pattern
  step    : Nat
  deriving DecidableEq, Repr

/-- A completion report sent and not yet taken (R150, R154). -/
structure Completion where
  pattern : Pattern
  run     : Seq
  deriving DecidableEq, Repr

/-- A zone's sequencer (R147): IDLE when `run` is none; `sound` is the divider of the last note order, none for silence. -/
structure Sequencer where
  run     : Option Run
  sound   : Option Nat
  number  : Seq
  reports : List Completion
  deriving DecidableEq, Repr

/-- The state of the TS (R145, R147). The note table holds no values before a good load. -/
structure Ts where
  notes : Option (Table 8 Nat)
  seqs  : Table 4 Sequencer
  deriving DecidableEq, Repr

/-! ### Level Unit (chapter 9) -/

/-- A zone's level state (R157). `smoothed` is A, `level` is the ambient level, `target` T and `current` C. -/
structure Level where
  faultRun : Nat
  failed   : Bool
  holdOff  : Nat
  smoothed : Nat
  level    : Nat
  target   : Nat
  current  : Nat
  deriving DecidableEq, Repr

/-! ### Shelf Port Unit (chapter 10) -/

/-- The twelve conditions, in priority order (R174). -/
inductive Condition where
  | configFault | duplicateAddress | evacActive | isolated | ampFault | sensorFailed | peerSilent | rejoined
  | peerReturned | offerTableFull | viewOverflow | shelfRecordFault
  deriving DecidableEq, Repr

/-- The block that raised a condition (R174). -/
inductive Block where
  | cfg | clc | lu | ofm | ppu | pgo | zc | lvu | spu
  deriving DecidableEq, Repr

/-- An entry of the condition set (R174). -/
structure CondEntry where
  pending  : Bool
  argument : Nat
  origin   : Block
  count    : Nat
  deriving DecidableEq, Repr

/-- Why a call was refused at arrival (R48). -/
inductive ArrivalRefusal where
  | notReady | inUse | unknownTarget | full
  deriving DecidableEq, Repr

/-- A call's outcome (R51). -/
inductive EndReason where
  | busy | noAnswer | unanswered | isolated
  deriving DecidableEq, Repr

/-- What a CONDITION record reports: a condition, or NONE (R176). -/
structure ConditionReport where
  condition : Option Condition
  argument  : Nat
  origin    : Block
  count     : Nat
  pending   : Nat
  deriving DecidableEq, Repr

/-- The nine records the part sends (R172, table 12-4). -/
inductive OutRecord where
  | accepted (ref : Word16) (call : CallId)
  | refused (ref : Word16) (reason : ArrivalRefusal)
  | connect (ref : Word16) (call : CallId) (cab : Cabinet) (line : Line)
  | callEnded (ref : Word16) (call : CallId) (reason : EndReason)
  | connectPage (line : Line) (channel : Channel)
  | disconnectPage (line : Line) (channel : Channel)
  | lineToShelf (line : Line) (digit : Fin 10)
  | lineOnHook (line : Line) (call : Option CallId)
  | condition (report : ConditionReport)
  deriving DecidableEq, Repr

/-- The state of the SPU (R169, R171, R174, R177). `incoming` is the record being received: its length byte and what has
followed, empty between records. -/
structure Spu where
  conditions : Table 12 CondEntry
  mask       : BitVec 12
  output     : List OutRecord
  incoming   : List Byte
  deriving DecidableEq, Repr

/-! ### Configuration Loader (chapter 11), pins and outputs -/

/-- Start-up phases (R179). -/
inductive Phase where
  | loading | listening | running | halted
  deriving DecidableEq, Repr

/-- The levels of the inputs that a rule reads as levels: RESET (R185) and the amplifier-fault inputs (R142). -/
structure Pins where
  reset    : Bool
  ampFault : Table 4 Bool
  deriving DecidableEq, Repr

/-- The source order of a zone (R126). -/
inductive SourceOrder where
  | none
  | channel (c : Channel)
  | tone
  deriving DecidableEq, Repr

/-- What the part sends at its ports during one command (log 8): ring and tone orders (Line Port), amplifier, source,
attenuation and tone-source orders (Zone Port; a note order carries its divider, none is the silence order), the bytes
of a shelf record that has been sent, and the acknowledgement slot of a frame received to its CRC's end. -/
inductive Output where
  | ring (line : Line) (on : Bool)
  | tone (line : Line) (t : Tone)
  | amplifier (zone : LocalZone) (enabled : Bool)
  | source (zone : LocalZone) (o : SourceOrder)
  | attenuation (zone : LocalZone) (c : Nat)
  | sound (zone : LocalZone) (divider : Option Nat)
  | shelfBytes (bytes : List Byte)
  | acknowledge (dominant : Bool)
  deriving DecidableEq, Repr

/-! ### The state -/

/-- The whole state. `outputs`, `deliveries` and `choices` are the model's own fields (logs 8, 4 and 6): what the last
command sent, own notices waiting for own delivery inside the step, and the count of free values taken. -/
structure State where
  pins       : Pins
  phase      : Phase
  clc        : Clc
  lu         : Table 16 LineRec
  ofm        : Ofm
  he         : He
  ppu        : Ppu
  pgo        : Pgo
  zc         : Zc
  ts         : Ts
  lvu        : Table 4 Level
  spu        : Spu
  outputs    : List Output
  deliveries : List Notice
  choices    : Nat
  pending    : List Instr
  deriving DecidableEq, Repr

/-! ### Reset values, block by block (R185; values the spec does not give: log 7) -/

/-- A peer-table entry after a reset (R18, R16). -/
def resetPeer : Peer := { state := .absent, age := 0, evac := none, channels := Table.fill 4 none }

/-- The CLC after a reset (R13, R18). -/
def resetClc : Clc :=
  { address := 0, link := .loading, queue := [], driving := [], dropRun := 0, peers := Table.fill 16 resetPeer }

/-- A line record after a reset (R22, R183). -/
def resetLine : LineRec :=
  { inService := false, privilege := .ordinary, pickup := none, memberships := [], state := .outOfService,
    dnd := false, idleSecs := 0, wrapUp := none, reserved := none, call := none, verdict := none, buffer := [],
    collecting := false, digitTimer := none, armed := false, page := none, available := 0, cadenceAt := none,
    noAnswer := none, ring := false, tone := .none }

/-- The OFM after a reset (R45, R46). -/
def resetOfm : Ofm := { offers := [], counter := 0, wrapped := false }

/-- The HE after a reset (R68, R70, R88). -/
def resetHe : He :=
  { groups := Table.fill 16 none, rotation := Table.fill 16 31, heard := [], bids := [], queue := [] }

/-- The PPU after a reset (R89, R99). -/
def resetPpu : Ppu := { view := [], orbits := Table.fill 4 none }

/-- The PGO after a reset (R106 to R108, R124). -/
def resetPgo : Pgo :=
  { pages := [], view := Table.fill 4 none, counter := 0, alarmGroup := 0, alarmActive := false, evacActive := false }

/-- Zone parameters before a good load (log 7): the least value of each range, with the widest attenuation range. -/
def resetZoneConfig : ZoneConfig :=
  { inService := false, quiet := false, paging := 0, wake := 0, hang := 0,
    level := { base := 0, refAmb := 0, slope := 0, floor := 0, ceiling := 127, ramp := 1, smooth := 0, rise := 0,
               fallback := 0 } }

/-- A zone record after a reset (R125). -/
def resetZone : ZoneRec :=
  { cfg := resetZoneConfig, state := .released, active := none, held := none, pending := [], evac := [],
    ampFault := false, keptRun := 0 }

/-- The ZC after a reset (R125); the maxima are the defaults R125 names. -/
def resetZc : Zc := { zones := Table.fill 4 resetZone, routineMax := 60, alarmMax := 300 }

/-- A sequencer after a reset (R147). -/
def resetSequencer : Sequencer := { run := none, sound := none, number := 0, reports := [] }

/-- The TS after a reset (R145, R147). -/
def resetTs : Ts := { notes := none, seqs := Table.fill 4 resetSequencer }

/-- A zone's level state after a reset: the attenuation ordered is 127 (R158). -/
def resetLevel : Level :=
  { faultRun := 0, failed := false, holdOff := 0, smoothed := 0, level := 0, target := 127, current := 127 }

/-- A clear entry of the condition set (R174). -/
def resetCondition : CondEntry := { pending := false, argument := 0, origin := .spu, count := 0 }

/-- The SPU after a reset: a record partly received is discarded (R169, R171, R174, R177). -/
def resetSpu : Spu := { conditions := Table.fill 12 resetCondition, mask := 0, output := [], incoming := [] }

/-- The machine right after the full reset (R185), in LOADING, with no command waiting. -/
def State.reset : State :=
  { pins := { reset := false, ampFault := Table.fill 4 false }, phase := .loading, clc := resetClc,
    lu := Table.fill 16 resetLine, ofm := resetOfm, he := resetHe, ppu := resetPpu, pgo := resetPgo, zc := resetZc,
    ts := resetTs, lvu := Table.fill 4 resetLevel, spu := resetSpu, outputs := [], deliveries := [], choices := 0,
    pending := [] }

end Sys2Proof.Machine
end

