-- ==== Sys2Proof/Machine/Flags.lean ====
section
/-! DEFINITION. The condition set, the attention mask and the ATTENTION output (R174 to R178). -/

namespace Sys2Proof.Machine

/-- A condition's place in the set, in priority order: priority 1 is place 0 (R174). -/
def conditionPlace : Condition → Fin 12
  | .configFault => 0 | .duplicateAddress => 1 | .evacActive => 2 | .isolated => 3 | .ampFault => 4
  | .sensorFailed => 5 | .peerSilent => 6 | .rejoined => 7 | .peerReturned => 8 | .offerTableFull => 9
  | .viewOverflow => 10 | .shelfRecordFault => 11

/-- The conditions in priority order, highest first (R174). -/
def conditionsByPriority : List Condition :=
  [.configFault, .duplicateAddress, .evacActive, .isolated, .ampFault, .sensorFailed, .peerSilent, .rejoined,
   .peerReturned, .offerTableFull, .viewOverflow, .shelfRecordFault]

/-- A condition's entry. -/
def conditionEntry (s : State) (c : Condition) : CondEntry := s.spu.conditions.get (conditionPlace c)

/-- A raise of an entry: on a clear flag the count becomes 1, on a set flag it rises by one, saturating at 255; argument
and origin are those of the raise (R175). -/
def raiseEntry (argument : Nat) (origin : Block) (e : CondEntry) : CondEntry :=
  { pending := true, argument := argument, origin := origin,
    count := if e.pending then min 255 (e.count + 1) else 1 }

/-- A block raises a condition (R175). The flag is set whatever the mask holds. -/
def raise (c : Condition) (argument : Nat) (origin : Block) (s : State) : State :=
  { s with spu := { s.spu with
      conditions := s.spu.conditions.modify (conditionPlace c) (raiseEntry argument origin) } }

/-- The flag of a condition that has been reported is cleared (R176). -/
def clearCondition (c : Condition) (s : State) : State :=
  { s with spu := { s.spu with
      conditions := s.spu.conditions.modify (conditionPlace c) fun e => { e with pending := false } } }

/-- The set flag of highest priority (R176). -/
def highestPending (s : State) : Option Condition :=
  conditionsByPriority.find? fun c => (conditionEntry s c).pending

/-- How many flags are set. -/
def pendingCount (s : State) : Nat := (s.spu.conditions.rows.filter (·.pending)).length

/-- A condition's enable in the attention mask: bit p - 1 for priority p (R177, table 12-5). -/
def enabled (s : State) (c : Condition) : Bool := s.spu.mask.getLsbD (conditionPlace c).val

/-- The ATTENTION output is asserted: a condition has its flag set and its enable set (R177). -/
def attention (s : State) : Bool :=
  conditionsByPriority.any fun c => (conditionEntry s c).pending && enabled s c

/-- The causes of SHELF-RECORD-FAULT (R170). -/
inductive RecordFault where
  | incomplete | badSum | unknownKind | badLength | outputOverflow
  deriving DecidableEq, Repr

/-- The number of a cause (R170). -/
def faultNumber : RecordFault → Nat
  | .incomplete => 1 | .badSum => 2 | .unknownKind => 3 | .badLength => 4 | .outputOverflow => 5

/-- SHELF-RECORD-FAULT is raised with argument 256 x cause + kind byte (R170). -/
def raiseRecordFault (cause : RecordFault) (kind : Byte) (s : State) : State :=
  raise .shelfRecordFault (256 * faultNumber cause + kind.toNat) .spu s

end Sys2Proof.Machine
end

