-- ==== Sys2Proof/Machine/Operands.lean ====
section
/-! DEFINITION. Operand forms: the field codes of 12.1 and table 12-3 read from raw bytes (none: a code outside its
table, R186), directory numbers, orbit and zone numbers, and sets. -/

namespace Sys2Proof.Machine

/-! ### Field codes (12.1, table 12-3, R186) -/

/-- A byte that holds a number below `n`. -/
def codeBelow (n : Nat) (b : Byte) : Option (Fin n) :=
  if h : b.toNat < n then some ⟨b.toNat, h⟩ else none

/-- A byte that holds a number below `n`, or 255 for none. -/
def codeOrNone (n : Nat) (b : Byte) : Option (Option (Fin n)) :=
  if b = 255 then some none else (codeBelow n b).map some

/-- A call id: owner cabinet 0 to 15, then the sequence value. -/
def codeCall (r : RawId) : Option CallId :=
  (codeBelow 16 r.cab).map fun c => ⟨c, r.seq.toFin⟩

/-- A page id: originator cabinet 0 to 15, then the sequence value. -/
def codePage (r : RawId) : Option PageId :=
  (codeBelow 16 r.cab).map fun c => ⟨c, r.seq.toFin⟩

/-- A page class. -/
def codeClass (b : Byte) : Option PageClass :=
  match b.toNat with
  | 0 => some .code | 1 => some .routine | 2 => some .alarm | 3 => some .evac
  | _ => none

/-- A page target: a paging group, or 255 for ALL. -/
def codeTarget (b : Byte) : Option PageTarget :=
  if b = 255 then some .all else (codeBelow 32 b).map .group

/-- A cadence. -/
def codeCadence (b : Byte) : Option Cadence :=
  match b.toNat with
  | 0 => some .hunt | 1 => some .direct | 2 => some .recall
  | _ => none

/-- A link-state field. -/
def codeLinkField (b : Byte) : Option LinkField :=
  match b.toNat with
  | 0 => some .running | 1 => some .joining | 2 => some .rejoining
  | _ => none

/-- A RING-ENDED reason. -/
def codeRingEnd (b : Byte) : Option RingEndReason :=
  match b.toNat with
  | 0 => some .connected | 1 => some .cancelled | 2 => some .noAnswer
  | 3 => some .ownerSilent | 4 => some .isolated | 5 => some .cleared
  | _ => none

/-- A ZONE-REPORT outcome. -/
def codeOutcome (b : Byte) : Option ZoneOutcome :=
  match b.toNat with
  | 0 => some .playing | 1 => some .pending | 2 => some .held | 3 => some .lost | 4 => some .timedOut
  | 5 => some .fault | 6 => some .busy | 7 => some .locked | 8 => some .full | 9 => some .dropped | 10 => some .ended
  | _ => none

/-- What a CLAIM or REFUSED names. In form 0 the orbit is not examined, in form 1 the call id is not examined (R186). -/
def codeClaim (r : RawClaim) : Option ClaimTarget :=
  match r.form.toNat with
  | 0 => (codeCall r.call).map .call
  | 1 => (codeBelow 64 r.orbit).map .orbit
  | _ => none

/-- The evacuation flag of a STATUS with its page id. Clear: the page id is not examined (R186). -/
def codeEvacuation (r : RawStatus) : Option (Option PageId) :=
  match r.evac.toNat with
  | 0 => some none
  | 1 => (codePage r.evacPage).map some
  | _ => none

/-- One channel slot of a STATUS. Class 255 lists no channel and its page id is not examined (R186). -/
def codeSlot (r : RawSlot) : Option (Option ChannelHold) :=
  if r.cls = 255 then some none
  else match codeClass r.cls, codePage r.page with
    | some c, some p => some (some ⟨p, c⟩)
    | _, _ => none

/-- The four channel slots of a STATUS, where each holds a code of its table. -/
def codeChannels (r : RawStatus) : Option (Table 4 (Option ChannelHold)) :=
  match codeSlot r.slot0, codeSlot r.slot1, codeSlot r.slot2, codeSlot r.slot3 with
  | some a, some b, some c, some d => some ⟨[a, b, c, d], rfl⟩
  | _, _, _, _ => none

/-- Runs `f` on the value of a field, and changes nothing where the field holds a code outside its table (R186). -/
def withCode {α : Type} (o : Option α) (f : α → State → State) (s : State) : State :=
  match o with
  | some a => f a s
  | none => s

/-! ### Numbers (00_scope.md, Numbering) -/

/-- The directory number of a line: 100 + 16 x cabinet + line. -/
def directoryNumber (cab : Cabinet) (line : Line) : Nat := 100 + 16 * cab.val + line.val

/-- The cabinet and line that a directory number names: (number - 100) div 16 and mod 16; none outside 100 to 355. -/
def directoryLine (number : Nat) : Option (Cabinet × Line) :=
  if h : 100 ≤ number ∧ number ≤ 355 then
    some (⟨(number - 100) / 16, by omega⟩, ⟨(number - 100) % 16, by omega⟩)
  else none

/-- The zone number of a local zone: 4 x cabinet + local zone. -/
def zoneNumber (cab : Cabinet) (z : LocalZone) : ZoneNumber := ⟨4 * cab.val + z.val, by omega⟩

/-- The orbit number of a slot: 4 x cabinet + slot. -/
def orbitNumber (cab : Cabinet) (slot : OrbitSlot) : OrbitNumber := ⟨4 * cab.val + slot.val, by omega⟩

/-- The cabinet of an orbit: orbit div 4. -/
def orbitCabinet (o : OrbitNumber) : Cabinet := ⟨o.val / 4, by omega⟩

/-- The slot of an orbit: orbit mod 4. -/
def orbitSlot (o : OrbitNumber) : OrbitSlot := ⟨o.val % 4, by omega⟩

/-- The next sequence value, modulo 256. -/
def nextSeq (q : Seq) : Seq := ⟨(q.val + 1) % 256, by omega⟩

/-- The rank of a page class: CODE below ROUTINE below ALARM below EVAC. -/
def classRank : PageClass → Nat
  | .code => 0 | .routine => 1 | .alarm => 2 | .evac => 3

/-! ### Lists of the numbered things, in rising order -/

def allLines : List Line := List.finRange 16
def allCabinets : List Cabinet := List.finRange 16
def allGroups : List HuntGroup := List.finRange 16
def allZones : List LocalZone := List.finRange 4
def allChannels : List Channel := List.finRange 4
def allSlots : List OrbitSlot := List.finRange 4

/-! ### Sets -/

/-- Order index `i` is in the set. -/
def hasIndex (t : IndexSet) (i : OrderIndex) : Bool := t.getLsbD i.val

/-- The set with order index `i`. -/
def insertIndex (i : OrderIndex) (t : IndexSet) : IndexSet := t ||| BitVec.twoPow 32 i.val

/-- The set without order index `i`. -/
def eraseIndex (i : OrderIndex) (t : IndexSet) : IndexSet := t &&& ~~~ BitVec.twoPow 32 i.val

/-- Hunt group `g` is in the set. -/
def hasGroup (t : GroupSet) (g : HuntGroup) : Bool := t.getLsbD g.val

/-- The set with hunt group `g`. -/
def insertGroup (g : HuntGroup) (t : GroupSet) : GroupSet := t ||| BitVec.twoPow 16 g.val

/-- The hunt groups of a set, in rising order. -/
def groupsOf (t : GroupSet) : List HuntGroup := allGroups.filter (hasGroup t)

/-- Paging group `g` is in a zone's membership. -/
def hasPaging (t : PagingSet) (g : PagingGroup) : Bool := t.getLsbD g.val

/-- Runs `f` on each element of a list in turn. -/
def forEach {α : Type} (l : List α) (f : α → State → State) (s : State) : State :=
  match l with
  | [] => s
  | a :: rest => forEach rest f (f a s)

end Sys2Proof.Machine
end

