-- ==== Sys2Proof/Machine/Records.lean ====
section
/-! DEFINITION. Shelf records as bytes (12.2, R169, R170, R187). -/

namespace Sys2Proof.Machine

/-- The high byte of a two-byte field. -/
def highByte (w : Word16) : Byte := w.extractLsb' 8 8

/-- The low byte of a two-byte field. -/
def lowByte (w : Word16) : Byte := w.extractLsb' 0 8

/-- A two-byte field, high byte first (12). -/
def twoBytes (w : Word16) : List Byte := [highByte w, lowByte w]

/-- A number below 256 as a byte. -/
def byteOf (n : Nat) : Byte := BitVec.ofNat 8 n

/-- A call id as two bytes (12.1). -/
def callBytes (c : CallId) : List Byte := [byteOf c.cab.val, byteOf c.seq.val]

/-- The kind byte of a record the part sends (table 12-4). -/
def outKind : OutRecord → Byte
  | .accepted .. => 0x81 | .refused .. => 0x82 | .connect .. => 0x83 | .callEnded .. => 0x84
  | .connectPage .. => 0x85 | .disconnectPage .. => 0x86 | .lineToShelf .. => 0x87 | .lineOnHook .. => 0x88
  | .condition .. => 0x89

/-- The code of an arrival's refusal (table 12-4). -/
def arrivalCode : ArrivalRefusal → Nat
  | .notReady => 1 | .inUse => 2 | .unknownTarget => 3 | .full => 4

/-- The code of a call's outcome (table 12-4). -/
def endCode : EndReason → Nat
  | .busy => 1 | .noAnswer => 2 | .unanswered => 3 | .isolated => 4

/-- The code of a condition: 0 NONE, else its priority (table 12-4). -/
def conditionCode : Option Condition → Nat
  | none => 0
  | some c => (conditionPlace c).val + 1

/-- The code of an origin (table 12-4). -/
def blockCode : Block → Nat
  | .cfg => 1 | .clc => 2 | .lu => 3 | .ofm => 4 | .ppu => 5 | .pgo => 6 | .zc => 7 | .lvu => 8 | .spu => 9

/-- The payload of a record the part sends, its fields in order (table 12-4). -/
def outPayload : OutRecord → List Byte
  | .accepted ref call => twoBytes ref ++ callBytes call
  | .refused ref reason => twoBytes ref ++ [byteOf (arrivalCode reason)]
  | .connect ref call cab line =>
      twoBytes ref ++ callBytes call ++ twoBytes (BitVec.ofNat 16 (directoryNumber cab line))
  | .callEnded ref call reason => twoBytes ref ++ callBytes call ++ [byteOf (endCode reason)]
  | .connectPage line channel => [byteOf line.val, byteOf channel.val]
  | .disconnectPage line channel => [byteOf line.val, byteOf channel.val]
  | .lineToShelf line d => [byteOf line.val, byteOf d.val]
  | .lineOnHook line (some call) => byteOf line.val :: callBytes call
  | .lineOnHook line none => [byteOf line.val, 255, 255]
  | .condition r =>
      [byteOf (conditionCode r.condition)] ++ twoBytes (BitVec.ofNat 16 r.argument)
        ++ [byteOf (blockCode r.origin), byteOf r.count, byteOf r.pending]

/-- The sum of bytes modulo 256. -/
def byteSum : List Byte → Byte
  | [] => 0
  | b :: rest => b + byteSum rest

/-- A record: length byte, kind byte, payload, and the sum byte that makes all bytes sum to 0 modulo 256 (R187). -/
def recordBytes (kind : Byte) (payload : List Byte) : List Byte :=
  let body := byteOf payload.length :: kind :: payload
  body ++ [- byteSum body]

/-- The bytes of a record the part sends (R187). -/
def outBytes (r : OutRecord) : List Byte := recordBytes (outKind r) (outPayload r)

/-- The payload length of a kind the shelf may send; none for any other kind byte (table 12-4). -/
def inLength (kind : Byte) : Option Nat :=
  match kind.toNat with
  | 1 => some 5 | 2 => some 2 | 3 => some 0 | 4 => some 0
  | _ => none

/-- The bytes of a record from the shelf are complete: length byte n, then n + 2 more (R169). -/
def recordComplete : List Byte → Bool
  | [] => false
  | n :: rest => rest.length == n.toNat + 2

/-- The kind byte that the bytes received so far carry, or 0 before the kind byte (R170). -/
def recordKind : List Byte → Byte
  | _ :: kind :: _ => kind
  | _ => 0

/-- The length byte that the bytes received so far carry, or 0 before it (R169). -/
def recordLength : List Byte → Byte
  | n :: _ => n
  | [] => 0

/-- The judgement of a complete record: the first check of R170 that fails, or none for a good record. -/
def judgeRecord (bytes : List Byte) : Option RecordFault :=
  if byteSum bytes ≠ 0 then some .badSum
  else match inLength (recordKind bytes) with
    | none => some .unknownKind
    | some l => if (recordLength bytes).toNat = l then none else some .badLength

/-- A two-byte field read high byte first. -/
def wordOf (high low : Byte) : Word16 := high ++ low

/-- The command of a good CALL-ARRIVAL. -/
def arrivalCommand : List Byte → Option Instr
  | [_, _, rh, rl, t, vh, vl, _] => some (.callArrival (wordOf rh rl) t (wordOf vh vl))
  | _ => none

/-- The command of a good CALL-GONE. -/
def goneCommand : List Byte → Option Instr
  | [_, _, rh, rl, _] => some (.callGone (wordOf rh rl))
  | _ => none

/-- The command of a good record (R172). -/
def goodCommand (bytes : List Byte) : Option Instr :=
  match (recordKind bytes).toNat with
  | 1 => arrivalCommand bytes
  | 2 => goneCommand bytes
  | 3 => some .conditionRead
  | 4 => some .shelfClear
  | _ => none

/-- The command that a complete record from the shelf is (R170, R172): none while the bytes are not complete. -/
def recordCommand (bytes : List Byte) : Option Instr :=
  if recordComplete bytes then
    if (judgeRecord bytes).isSome then some (.shelfRecordBad bytes) else goodCommand bytes
  else none

end Sys2Proof.Machine
end

