-- ==== Sys2Proof/Machine/Ops.lean ====
section
/-! DEFINITION. The named operations over the state: updates of each block's part, the orders at the ports, the shelf
output queue (R171) and the transmit queue (R6 to R10). -/

namespace Sys2Proof.Machine

/-! ### Updates of one block's part -/

def onPins (f : Pins → Pins) (s : State) : State := { s with pins := f s.pins }
def setPhase (p : Phase) (s : State) : State := { s with phase := p }
def onClc (f : Clc → Clc) (s : State) : State := { s with clc := f s.clc }
def onLine (l : Line) (f : LineRec → LineRec) (s : State) : State := { s with lu := s.lu.modify l f }
def onOfm (f : Ofm → Ofm) (s : State) : State := { s with ofm := f s.ofm }
def onHe (f : He → He) (s : State) : State := { s with he := f s.he }
def onPpu (f : Ppu → Ppu) (s : State) : State := { s with ppu := f s.ppu }
def onPgo (f : Pgo → Pgo) (s : State) : State := { s with pgo := f s.pgo }
def onZone (z : LocalZone) (f : ZoneRec → ZoneRec) (s : State) : State :=
  { s with zc := { s.zc with zones := s.zc.zones.modify z f } }
def onSequencer (z : LocalZone) (f : Sequencer → Sequencer) (s : State) : State :=
  { s with ts := { s.ts with seqs := s.ts.seqs.modify z f } }
def onLevel (z : LocalZone) (f : Level → Level) (s : State) : State := { s with lvu := s.lvu.modify z f }
def onSpu (f : Spu → Spu) (s : State) : State := { s with spu := f s.spu }
def setDeliveries (d : List Notice) (s : State) : State := { s with deliveries := d }

/-- An order, or another drive of a port, goes out. -/
def emit (o : Output) (s : State) : State := { s with outputs := s.outputs ++ [o] }

/-! ### Reads -/

/-- The part's own cabinet address. -/
def own (s : State) : Cabinet := s.clc.address

/-- The record of a line. -/
def lineOf (s : State) (l : Line) : LineRec := s.lu.get l

/-- The record of a zone. -/
def zoneOf (s : State) (z : LocalZone) : ZoneRec := s.zc.zones.get z

/-- The zone number of a local zone of this part. -/
def numberOf (s : State) (z : LocalZone) : ZoneNumber := zoneNumber (own s) z

/-- The part is in ISOLATED or LISTEN-ONLY, where its notices are delivered to its own blocks alone (R10). -/
def cutOff (s : State) : Bool :=
  match s.clc.link with
  | .isolated | .listenOnly => true
  | .loading | .listening | .running | .halted => false

/-! ### The shelf output queue (R171) -/

/-- The output queue holds up to 64 records. -/
def outputCapacity : Nat := 64

/-- A block sends a record to the shelf: it joins the output queue, or is discarded with SHELF-RECORD-FAULT, cause
OUTPUT-OVERFLOW, while the queue holds 64 records (R171). -/
def shelfSend (r : OutRecord) (s : State) : State :=
  if s.spu.output.length < outputCapacity then
    onSpu (fun u => { u with output := u.output ++ [r] }) s
  else raiseRecordFault .outputOverflow (outKind r) s

/-! ### Arbitration fields (R3, R6) -/

/-- The arbitration class of a page's PAGE-START and PAGE-END (R6). -/
def pageArbClass : PageClass → Nat
  | .alarm | .evac => 0
  | .code | .routine => 2

/-- The arbitration class of a notice (R6). -/
def arbClass : Notice → Nat
  | .pageStart b => pageArbClass b.cls
  | .pageEnd _ cls _ => pageArbClass cls
  | .allStop _ => 0
  | .answered .. | .claim .. | .connected .. | .refused .. | .cancel _ => 1
  | .offer .. | .bid .. | .ringAssign .. | .decline .. | .ringStarted .. | .ringEnded .. | .noAnswer ..
  | .available _ | .zoneReport .. => 2
  | .status .. | .probe => 3

/-- The key of a notice: a BID's key, 0 for every other kind (R6). -/
def arbKey : Notice → Nat
  | .bid _ _ _ key => key.val
  | .status .. | .probe | .offer .. | .ringAssign .. | .decline .. | .ringStarted .. | .ringEnded .. | .noAnswer ..
  | .answered .. | .claim .. | .connected .. | .refused .. | .cancel _ | .available _ | .pageStart _ | .pageEnd ..
  | .zoneReport .. | .allStop _ => 0

/-- The number of an arbitration field: class x 4096 + key x 16 + source (R3; log 5). -/
def arbNumber (cls key : Nat) (src : Cabinet) : Nat := cls * 4096 + key * 16 + src.val

/-- The arbitration field of a notice the part sends. -/
def noticeField (src : Cabinet) (n : Notice) : Nat := arbNumber (arbClass n) (arbKey n) src

/-! ### The transmit queue (R7 to R10) -/

/-- The transmit queue holds up to 24 notices (R7). -/
def txCapacity : Nat := 24

/-- A notice is a STATUS. -/
def isStatus : Notice → Bool
  | .status .. => true
  | _ => false

/-- A notice is a PROBE. -/
def isProbe : Notice → Bool
  | .probe => true
  | _ => false

/-- A STATUS or a PROBE: never delivered to the part's own blocks (R10). -/
def isHousekeeping (n : Notice) : Bool := isStatus n || isProbe n

/-- A STATUS or PROBE of the same kind is queued already (R7: at most one of each). -/
def sameHousekeepingQueued (n : Notice) (q : List TxEntry) : Bool :=
  (isStatus n && q.any fun e => isStatus e.notice) || (isProbe n && q.any fun e => isProbe e.notice)

/-- A notice waits for delivery to the part's own blocks within this step (R10, log 4); an own STATUS or PROBE goes to no
block. -/
def deliverLater (n : Notice) (s : State) : State :=
  if isHousekeeping n then s else setDeliveries (s.deliveries ++ [n]) s

/-- The highest arbitration field among the entries that are not in an attempt. -/
def highestField : List TxEntry → Nat
  | [] => 0
  | e :: rest => if e.inAttempt then highestField rest else max e.field (highestField rest)

/-- The last-joined entry that is not in an attempt and has arbitration field `f`, with the rest of the queue. -/
def takeLast (f : Nat) : List TxEntry → Option (TxEntry × List TxEntry)
  | [] => none
  | e :: rest =>
    match takeLast f rest with
    | some (v, kept) => some (v, e :: kept)
    | none => if !e.inAttempt && e.field == f then some (e, rest) else none

/-- A new entry of the transmit queue. -/
def newEntry (src : Cabinet) (n : Notice) : TxEntry :=
  { notice := n, field := noticeField src n, failed := 0, inAttempt := false, request := none }

/-- A notice joins the transmit queue; on a full queue the notice with the highest field that is not in an attempt, the
last to join among equals and counting the new one, is removed, and delivered to the own blocks (R8). -/
def joinQueue (n : Notice) (s : State) : State :=
  if sameHousekeepingQueued n s.clc.queue then s
  else
    let q := s.clc.queue ++ [newEntry (own s) n]
    if s.clc.queue.length < txCapacity then onClc (fun c => { c with queue := q }) s
    else match takeLast (highestField q) q with
      | some (victim, kept) => deliverLater victim.notice (onClc (fun c => { c with queue := kept }) s)
      | none => s

/-- A block queues a notice (R7, R8, R10, R13). In ISOLATED only a PROBE is queued and every other notice is delivered at
once; in LISTEN-ONLY all are. In HALTED, and in LOADING, where no block acts, it is discarded. -/
def queueNotice (n : Notice) (s : State) : State :=
  match s.clc.link with
  | .loading | .halted => s
  | .listenOnly => deliverLater n s
  | .isolated => if isProbe n then joinQueue n s else deliverLater n s
  | .listening | .running => joinQueue n s

/-- The queue after a request to withdraw the notices that `p` picks: an entry in an attempt keeps the request until the
attempt ends, any other leaves (R9). -/
def withdrawFrom (p : Notice → Bool) (q : List TxEntry) : List TxEntry :=
  q.filterMap fun e =>
    if p e.notice then (if e.inAttempt then some { e with request := some .withdraw } else none) else some e

/-- A block asks the CLC to withdraw the notices that `p` picks (R9). -/
def withdraw (p : Notice → Bool) (s : State) : State :=
  onClc (fun c => { c with queue := withdrawFrom p c.queue }) s

/-- The queue after a request to replace the contents of the notices that `p` picks; place, failed-attempt count and
field stay (R9). -/
def replaceIn (p : Notice → Bool) (n : Notice) (q : List TxEntry) : List TxEntry :=
  q.map fun e =>
    if p e.notice then
      (if e.inAttempt then { e with request := some (.replace n) } else { e with notice := n })
    else e

/-- A block asks the CLC to replace the contents of the notices that `p` picks (R9). -/
def replaceNotice (p : Notice → Bool) (n : Notice) (s : State) : State :=
  onClc (fun c => { c with queue := replaceIn p n c.queue }) s

/-- A notice is the OFFER or a RING-ASSIGN of a call. -/
def isOfferOf (c : CallId) : Notice → Bool
  | .offer call .. => decide (call = c)
  | .ringAssign call .. => decide (call = c)
  | _ => false

/-- A notice is a RING-ASSIGN that names a line of a cabinet. -/
def isAssignTo (cab : Cabinet) : Notice → Bool
  | .ringAssign _ c _ _ => decide (c = cab)
  | _ => false

/-- A notice is a BID for a call. -/
def isBidFor (c : CallId) : Notice → Bool
  | .bid call .. => decide (call = c)
  | _ => false

/-- A notice is the PAGE-START of a page. -/
def isStartOf (p : PageId) : Notice → Bool
  | .pageStart b => decide (b.page = p)
  | _ => false

end Sys2Proof.Machine
end

