-- ==== Sys2Proof/Machine/Frame.lean ====
section
/-! DEFINITION. Frames of the Cabinet Link as bits (R1, R4, 12.1, R186): payload bytes of the notices, CRC, bit stuffing,
the frame as driven, and the judgement of a received frame. A bit is true for recessive (1), false for dominant (0). -/

namespace Sys2Proof.Machine

/-! ### Kind codes and lengths (table 12-2) -/

/-- The kind code of a notice. -/
def kindCode : Notice → Nat
  | .status .. => 1 | .probe => 2 | .offer .. => 3 | .bid .. => 4 | .ringAssign .. => 5 | .decline .. => 6
  | .ringStarted .. => 7 | .ringEnded .. => 8 | .noAnswer .. => 9 | .answered .. => 10 | .connected .. => 11
  | .refused .. => 12 | .cancel _ => 13 | .available _ => 14 | .pageStart _ => 15 | .pageEnd .. => 16
  | .zoneReport .. => 17 | .allStop _ => 18 | .claim .. => 19

/-- The payload length of a kind; none for a code that names no kind. -/
def kindLength : Nat → Option Nat
  | 1 => some 17 | 2 => some 0 | 3 => some 8 | 4 => some 6 | 5 => some 5 | 6 => some 3 | 7 => some 5 | 8 => some 4
  | 9 => some 3 | 10 => some 4 | 11 => some 6 | 12 => some 7 | 13 => some 2 | 14 => some 2 | 15 => some 7
  | 16 => some 3 | 17 => some 4 | 18 => some 1 | 19 => some 6
  | _ => none

/-! ### Payloads (table 12-3) -/

/-- A page id as two bytes. -/
def pageBytes (p : PageId) : List Byte := [byteOf p.cab.val, byteOf p.seq.val]

/-- A number as one byte, 255 for none. -/
def optByte {n : Nat} (o : Option (Fin n)) : Byte := byteOf ((o.map (·.val)).getD 255)

/-- A 32-bit set as four bytes, high byte first. -/
def setBytes (t : IndexSet) : List Byte :=
  [t.extractLsb' 24 8, t.extractLsb' 16 8, t.extractLsb' 8 8, t.extractLsb' 0 8]

/-- The code of a page class. -/
def classByte (c : PageClass) : Byte := byteOf (classRank c)

/-- The code of a page target. -/
def targetByte : PageTarget → Byte
  | .group g => byteOf g.val
  | .all => 255

/-- The code of a cadence. -/
def cadenceByte : Cadence → Byte
  | .hunt => 0 | .direct => 1 | .recall => 2

/-- The code of a link-state field. -/
def linkByte : LinkField → Byte
  | .running => 0 | .joining => 1 | .rejoining => 2

/-- The code of a RING-ENDED reason. -/
def ringEndByte : RingEndReason → Byte
  | .connected => 0 | .cancelled => 1 | .noAnswer => 2 | .ownerSilent => 3 | .isolated => 4 | .cleared => 5

/-- The code of a REFUSED reason. -/
def refusalByte : ClaimRefusal → Byte
  | .taken => 0 | .tooLate => 1 | .empty => 2 | .unknown => 3

/-- The code of a PAGE-END reason. -/
def pageEndByte : PageEndReason → Byte
  | .ended => 0 | .noZone => 1 | .channelLost => 2 | .allStop => 3 | .cleared => 4

/-- The code of a ZONE-REPORT outcome. -/
def outcomeByte : ZoneOutcome → Byte
  | .playing => 0 | .pending => 1 | .held => 2 | .lost => 3 | .timedOut => 4 | .fault => 5 | .busy => 6 | .locked => 7
  | .full => 8 | .dropped => 9 | .ended => 10

/-- Form, call id and orbit of a CLAIM or REFUSED (table 12-3): the unused one of the two carries 255, or 0, 0. -/
def claimBytes : ClaimTarget → List Byte
  | .call c => [0] ++ callBytes c ++ [255]
  | .orbit o => [1, 0, 0, byteOf o.val]

/-- One channel slot of a STATUS. A slot not held by the part carries page id 0, 0. -/
def slotBytes : Option ChannelHold → List Byte
  | some h => classByte h.cls :: pageBytes h.page
  | none => [255, 0, 0]

/-- Flag and page id of the evacuation in a STATUS; with the flag clear the page id is 0, 0. -/
def evacuationBytes : Option PageId → List Byte
  | some p => 1 :: pageBytes p
  | none => [0, 0, 0]

/-- The flags byte of a PAGE-START: bit 0 seize, bit 1 override, the others 0 (R186). -/
def flagsByte (seize override : Bool) : Byte := byteOf (seize.toNat + 2 * override.toNat)

/-- The payload of a notice, in the order of table 12-3. -/
def payloadBytes : Notice → List Byte
  | .status link b =>
      [linkByte link] ++ evacuationBytes b.evac ++ (b.channels.rows.map slotBytes).flatten ++ [byteOf b.offers]
  | .probe => []
  | .offer c g a t => callBytes c ++ [byteOf g.val, byteOf a] ++ setBytes t
  | .bid c l i k => callBytes c ++ [byteOf l.val, byteOf i.val] ++ twoBytes (BitVec.ofNat 16 k.val)
  | .ringAssign c cab l cad => callBytes c ++ [byteOf cab.val, byteOf l.val, cadenceByte cad]
  | .decline c l => callBytes c ++ [byteOf l.val]
  | .ringStarted c l i p => callBytes c ++ [byteOf l.val, optByte i, optByte p]
  | .ringEnded c l r => callBytes c ++ [byteOf l.val, ringEndByte r]
  | .noAnswer c l => callBytes c ++ [byteOf l.val]
  | .answered c l i => callBytes c ++ [byteOf l.val, optByte i]
  | .claim t cab l => claimBytes t ++ [byteOf cab.val, byteOf l.val]
  | .connected c cab l g i => callBytes c ++ [byteOf cab.val, byteOf l.val, optByte g, optByte i]
  | .refused t cab l r => claimBytes t ++ [byteOf cab.val, byteOf l.val, refusalByte r]
  | .cancel c => callBytes c
  | .available g => twoBytes g
  | .pageStart b =>
      pageBytes b.page ++ [classByte b.cls, targetByte b.target, optByte b.channel, flagsByte b.seize b.override,
        optByte b.orbit]
  | .pageEnd p _ r => pageBytes p ++ [pageEndByte r]
  | .zoneReport p z o => pageBytes p ++ [byteOf z.val, outcomeByte o]
  | .allStop cab => [byteOf cab.val]

/-! ### Bits (R1) -/

/-- The low `w` bits of a number, most significant first. -/
def natBits : Nat → Nat → List Bool
  | 0, _ => []
  | w + 1, n => n.testBit w :: natBits w n

/-- The number that bits spell, most significant first. -/
def bitsNat (bs : List Bool) : Nat := bs.foldl (fun n b => 2 * n + b.toNat) 0

/-- Bytes as bits, each most significant bit first. -/
def byteBits (bs : List Byte) : List Bool := (bs.map fun b => natBits 8 b.toNat).flatten

/-- The sixteen bits of an arbitration field: class in bits 15 and 14, key in 13 to 4, source in 3 to 0 (12.1, log 5). -/
def fieldBits (cls key : Nat) (src : Cabinet) : List Bool := natBits 2 cls ++ natBits 10 key ++ natBits 4 src.val

/-- The bits of a frame's arbitration field, kind, length and payload, in order of transmission. -/
def contentBits (src : Cabinet) (n : Notice) : List Bool :=
  fieldBits (arbClass n) (arbKey n) src ++ natBits 5 (kindCode n) ++ natBits 5 (payloadBytes n).length
    ++ byteBits (payloadBytes n)

/-- One bit through the CRC register: generator x^16 + x^12 + x^5 + 1 (R4). -/
def crcBit (r : Word16) (b : Bool) : Word16 :=
  if xor r.msb b then (r <<< 1) ^^^ 0x1021#16 else r <<< 1

/-- The CRC of bits: the register set to all ones before the first, no inversion of the result (R4). -/
def crc (bs : List Bool) : Word16 := bs.foldl crcBit 0xFFFF#16

/-- Bit stuffing (R1): after six consecutive equal bits, inserted ones included, one opposite bit is inserted. `last` and
`run` are the last bit sent and the length of its run. -/
def stuffFrom (last : Bool) (run : Nat) : List Bool → List Bool
  | [] => []
  | b :: rest =>
    if b = last ∧ run ≥ 5 then b :: (!b) :: stuffFrom (!b) 1 rest
    else b :: stuffFrom b (if b = last then run + 1 else 1) rest

/-- Bit stuffing from the start bit on. -/
def stuff (bs : List Bool) : List Bool := stuffFrom true 0 bs

/-- A frame before stuffing: start bit, content, CRC. -/
def plainFrame (src : Cabinet) (n : Notice) : List Bool :=
  false :: (contentBits src n ++ natBits 16 (crc (contentBits src n)).toNat)

/-- A frame as its sender drives it: the stuffed part, the acknowledgement slot recessive, seven recessive end bits
(12.1). -/
def frameBits (src : Cabinet) (n : Notice) : List Bool := stuff (plainFrame src n) ++ List.replicate 8 true

/-! ### Reception (R1, R4) -/

/-- What a receiver makes of the stuffed bits of a frame. -/
inductive Reading where
  | bits (bs : List Bool)
  | violation
  deriving DecidableEq, Repr

/-- Adds a bit in front of a reading. -/
def Reading.cons (b : Bool) : Reading → Reading
  | .bits bs => .bits (b :: bs)
  | .violation => .violation

/-- Removal of inserted bits by the same count; a seventh equal bit is a stuffing violation (R1). -/
def unstuffFrom (last : Bool) (run : Nat) : List Bool → Reading
  | [] => .bits []
  | b :: rest =>
    if run ≥ 6 then (if b = last then .violation else unstuffFrom b 1 rest)
    else Reading.cons b (unstuffFrom b (if b = last then run + 1 else 1) rest)

/-- The unstuffed bits from the start bit on. -/
def unstuff (bs : List Bool) : Reading := unstuffFrom true 0 bs

/-- Bits as bytes. -/
def bitsBytes : Nat → List Bool → List Byte
  | 0, _ => []
  | n + 1, bs => byteOf (bitsNat (bs.take 8)) :: bitsBytes n (bs.drop 8)

/-! ### Payloads read (table 12-3): the command of each kind, by the number of its payload bytes -/

/-- A STATUS payload. -/
def readStatus (src : Cabinet) : List Byte → Option Instr
  | [l, e, ec, es, c0, p0, q0, c1, p1, q1, c2, p2, q2, c3, p3, q3, n] =>
      some (.status src ⟨l, e, ⟨ec, es⟩, ⟨c0, ⟨p0, q0⟩⟩, ⟨c1, ⟨p1, q1⟩⟩, ⟨c2, ⟨p2, q2⟩⟩, ⟨c3, ⟨p3, q3⟩⟩, n⟩)
  | _ => none

/-- A payload of no bytes. -/
def read0 (f : Instr) : List Byte → Option Instr
  | [] => some f
  | _ => none

/-- A payload of one byte. -/
def read1 (f : Byte → Instr) : List Byte → Option Instr
  | [a] => some (f a)
  | _ => none

/-- A payload of two bytes. -/
def read2 (f : Byte → Byte → Instr) : List Byte → Option Instr
  | [a, b] => some (f a b)
  | _ => none

/-- A payload of three bytes. -/
def read3 (f : Byte → Byte → Byte → Instr) : List Byte → Option Instr
  | [a, b, c] => some (f a b c)
  | _ => none

/-- A payload of four bytes. -/
def read4 (f : Byte → Byte → Byte → Byte → Instr) : List Byte → Option Instr
  | [a, b, c, d] => some (f a b c d)
  | _ => none

/-- A payload of five bytes. -/
def read5 (f : Byte → Byte → Byte → Byte → Byte → Instr) : List Byte → Option Instr
  | [a, b, c, d, e] => some (f a b c d e)
  | _ => none

/-- A payload of six bytes. -/
def read6 (f : Byte → Byte → Byte → Byte → Byte → Byte → Instr) : List Byte → Option Instr
  | [a, b, c, d, e, g] => some (f a b c d e g)
  | _ => none

/-- A payload of seven bytes. -/
def read7 (f : Byte → Byte → Byte → Byte → Byte → Byte → Byte → Instr) : List Byte → Option Instr
  | [a, b, c, d, e, g, h] => some (f a b c d e g h)
  | _ => none

/-- A payload of eight bytes. -/
def read8 (f : Byte → Byte → Byte → Byte → Byte → Byte → Byte → Byte → Instr) : List Byte → Option Instr
  | [a, b, c, d, e, g, h, i] => some (f a b c d e g h i)
  | _ => none

/-- How the payload of a kind is read; none for a code that names no kind. -/
def readPayload (src : Cabinet) (key : BidKey) (p : List Byte) : Nat → Option Instr
  | 1 => readStatus src p
  | 2 => read0 (.probe src) p
  | 3 => read8 (fun c q g a t3 t2 t1 t0 => .offer src ⟨c, q⟩ g a (t3 ++ t2 ++ t1 ++ t0)) p
  | 4 => read6 (fun c q l i kh kl => .bid src key ⟨c, q⟩ l i (wordOf kh kl)) p
  | 5 => read5 (fun c q cab l cad => .ringAssign src ⟨c, q⟩ cab l cad) p
  | 6 => read3 (fun c q l => .decline src ⟨c, q⟩ l) p
  | 7 => read5 (fun c q l i g => .ringStarted src ⟨c, q⟩ l i g) p
  | 8 => read4 (fun c q l r => .ringEnded src ⟨c, q⟩ l r) p
  | 9 => read3 (fun c q l => .noAnswer src ⟨c, q⟩ l) p
  | 10 => read4 (fun c q l i => .answered src ⟨c, q⟩ l i) p
  | 11 => read6 (fun c q cab l g i => .connected src ⟨c, q⟩ cab l g i) p
  | 12 => read7 (fun f c q o cab l r => .refused src ⟨f, ⟨c, q⟩, o, cab, l⟩ r) p
  | 13 => read2 (fun c q => .cancel src ⟨c, q⟩) p
  | 14 => read2 (fun h l => .available src (wordOf h l)) p
  | 15 => read7 (fun c q cls t ch fl o => .pageStart src ⟨⟨c, q⟩, cls, t, ch, fl, o⟩) p
  | 16 => read3 (fun c q r => .pageEnd src ⟨c, q⟩ r) p
  | 17 => read4 (fun c q z o => .zoneReport src ⟨c, q⟩ z o) p
  | 18 => read1 (fun c => .allStop src c) p
  | 19 => read6 (fun f c q o cab l => .claim src ⟨f, ⟨c, q⟩, o, cab, l⟩) p
  | _ => none

/-- The command that a heard frame's kind and payload make: of unknown kind where the code names none, or the length is not
the kind's (R12). -/
def noticeCommand (src : Cabinet) (key : BidKey) (kind : BitVec 5) (p : List Byte) : Instr :=
  (readPayload src key p kind.toNat).getD (.frameUnknownKind src kind (BitVec.ofNat 5 p.length))

/-- The source, key and kind of a frame from its unstuffed bits after the start bit. -/
def frameSource (bs : List Bool) : Cabinet := ⟨bitsNat ((bs.drop 12).take 4) % 16, by omega⟩
def frameKey (bs : List Bool) : BidKey := ⟨bitsNat ((bs.drop 2).take 10) % 1024, by omega⟩
def frameKind (bs : List Bool) : BitVec 5 := BitVec.ofNat 5 (bitsNat ((bs.drop 16).take 5))
def frameLength (bs : List Bool) : Nat := bitsNat ((bs.drop 21).take 5)

/-- The judgement of a frame received to the end of its CRC (R4), from its unstuffed bits after the start bit: the event
of the table that it is. -/
def judgeFrame (bs : List Bool) : Instr :=
  let n := frameLength bs
  let content := bs.take (26 + 8 * n)
  if n > 24 then .frameAbandoned
  else if bitsNat ((bs.drop (26 + 8 * n)).take 16) ≠ (crc content).toNat then .frameCrcMismatch
  else noticeCommand (frameSource bs) (frameKey bs) (frameKind bs) (bitsBytes n (bs.drop 26))

/-- The command that the stuffed bits of a received frame are, start bit to the last inserted or CRC bit (R1, R4, log
25). -/
def frameCommand (bs : List Bool) : Instr :=
  match unstuff bs with
  | .bits (_ :: content) => judgeFrame content
  | .bits [] => .frameAbandoned
  | .violation => .frameAbandoned

end Sys2Proof.Machine
end

