-- ==== Sys2Proof/Machine/LineOps.lean ====
section
/-! DEFINITION. The ring view's entries (section 5.1) and the Line Unit's own operations on a line: orders,
availability, reservations, ringing, verdicts and page outcomes (chapter 2). -/

namespace Sys2Proof.Machine

/-! ### The ring view (R89 to R93) -/

/-- The ring view holds up to 24 entries (R89). -/
def viewCapacity : Nat := 24

/-- A ringing start is entered at the end of the ring view: not when call id, ringing cabinet and line match an entry, and
with VIEW-OVERFLOW instead when the view is full (R90). -/
def viewEnter (call : CallId) (cab : Cabinet) (line : Line) (pickup : Option PickupGroup) (s : State) : State :=
  if s.ppu.view.any fun e => decide (e.call = call ∧ e.cab = cab ∧ e.line = line) then s
  else if s.ppu.view.length < viewCapacity then
    onPpu (fun p => { p with view := p.view ++ [⟨call, cab, line, pickup, false⟩] }) s
  else raise .viewOverflow (directoryNumber cab line) .ppu s

/-- Entries that `p` picks leave the ring view (R91, R93). -/
def viewRemove (p : ViewEntry → Bool) (s : State) : State :=
  onPpu (fun u => { u with view := u.view.filter fun e => !p e }) s

/-- The entry of one line's ringing for a call leaves the ring view (R91). -/
def viewRemoveLine (call : CallId) (cab : Cabinet) (line : Line) (s : State) : State :=
  viewRemove (fun e => decide (e.call = call ∧ e.cab = cab ∧ e.line = line)) s

/-- Every entry of a call leaves the ring view (R91). -/
def viewRemoveCall (call : CallId) (s : State) : State := viewRemove (fun e => decide (e.call = call)) s

/-- The claimed mark is set on every entry of a call (R92). -/
def viewMark (call : CallId) (s : State) : State :=
  onPpu (fun u => { u with view := u.view.map fun e => if e.call = call then { e with marked := true } else e }) s

/-! ### Orders to the line circuits (R34, R38) -/

/-- A ring order. -/
def orderRing (l : Line) (on : Bool) (s : State) : State :=
  emit (.ring l on) (onLine l (fun r => { r with ring := on }) s)

/-- A tone order, which replaces the one before (R34). -/
def orderTone (l : Line) (t : Tone) (s : State) : State :=
  emit (.tone l t) (onLine l (fun r => { r with tone := t }) s)

/-! ### Availability and reservation (R35, R36, R73) -/

/-- The hunt groups to which a line is logged in. -/
def loggedGroups (ms : List Membership) : GroupSet :=
  ms.foldr (fun m t => if m.loggedIn then insertGroup m.group t else t) 0

/-- The hunt groups for which a line is available: in service, IDLE, logged in, not in do-not-disturb, unreserved (R36). -/
def availableSet (r : LineRec) : GroupSet :=
  if r.inService ∧ r.state = .idle ∧ r.dnd = false ∧ r.reserved = none then loggedGroups r.memberships else 0

/-- A line is available for a group (R36). -/
def isAvailable (r : LineRec) (g : HuntGroup) : Bool := hasGroup (availableSet r) g

/-- A line's available set is recomputed; groups new to it are named in one AVAILABLE notice (R36). -/
def refresh (l : Line) (s : State) : State :=
  let r := lineOf s l
  let new := availableSet r
  let added := new &&& ~~~ r.available
  let s := onLine l (fun r => { r with available := new }) s
  if added = 0 then s else queueNotice (.available added) s

/-- The member side's bid entry for a call ends, and its BID, if still queued, is withdrawn (R73). -/
def dropBid (call : CallId) (s : State) : State :=
  withdraw (isBidFor call) (onHe (fun h => { h with bids := h.bids.filter fun b => !decide (b.call = call) }) s)

/-- A line's reservation ends, and with it the bid entry for its call; the line's availability is not yet recomputed
(R35, R73). -/
def endReservation (l : Line) (s : State) : State :=
  match (lineOf s l).reserved with
  | none => s
  | some r => dropBid r.call (onLine l (fun r => { r with reserved := none }) s)

/-- A line's reservation ends and its availability is recomputed (R35). -/
def releaseReservation (l : Line) (s : State) : State :=
  if (lineOf s l).reserved.isSome then refresh l (endReservation l s) else s

/-- The line that holds the reservation for a call. -/
def reservedLine (s : State) (call : CallId) : Option Line :=
  allLines.find? fun l => match (lineOf s l).reserved with
    | some r => decide (r.call = call)
    | none => false

/-- The reservation for a call ends, on whichever line (R35, R73). -/
def releaseCall (call : CallId) (s : State) : State := withCode (reservedLine s call) releaseReservation s

/-- The line asks for a reservation that the LU grants when it is available for the group (R35). -/
def reserve (l : Line) (call : CallId) (g : HuntGroup) (s : State) : State :=
  refresh l (onLine l (fun r => { r with reserved := some ⟨call, g⟩ }) s)

/-! ### Becoming IDLE, ringing (R24, R37 to R39) -/

/-- A line becomes IDLE: ring OFF and tone NONE are ordered, call and verdict are removed, availability is recomputed
(R24, R34, R36, R39). -/
def becomeIdle (l : Line) (s : State) : State :=
  refresh l <| orderTone l .none <| orderRing l false <|
    onLine l (fun r => { r with state := .idle, call := none, verdict := none, cadenceAt := none, noAnswer := none }) s

/-- The order index of a line in a group. -/
def indexIn (ms : List Membership) (g : HuntGroup) : Option OrderIndex :=
  (ms.find? fun m => decide (m.group = g)).map (·.index)

/-- The no-answer time of a group, 20 s where the part holds no entry (R67). -/
def groupNoAnswer (s : State) (g : HuntGroup) : Nat :=
  match s.he.groups.get g with
  | some p => p.noAnswer
  | none => 20

/-- The wrap-up time of a group, 5 s where the part holds no entry (R67). -/
def groupWrapUp (s : State) (g : HuntGroup) : Nat :=
  match s.he.groups.get g with
  | some p => p.wrapUp
  | none => 5

/-- The no-answer time of a ringing: the group's for HUNT and RECALL cadence, 20 s for DIRECT (R38). -/
def noAnswerTime (s : State) (g : Option HuntGroup) : Nat :=
  match g with
  | some g => groupNoAnswer s g
  | none => 20

/-- A ring request is accepted: the line rings, the reservation is consumed, the cadence starts, RING-STARTED is queued
and the ring view gets its entry (R37, R38, R90). -/
def startRinging (l : Line) (call : CallId) (cad : Cadence) (g : Option HuntGroup) (s : State) : State :=
  let r := lineOf s l
  let idx := g.bind (indexIn r.memberships)
  let t := noAnswerTime s g
  let s := endReservation l s
  let s := onLine l (fun r => { r with
    state := .ringing, call := some ⟨call, some cad, g, idx⟩, cadenceAt := some 0, noAnswer := some t }) s
  refresh l <| viewEnter call (own s) l r.pickup <| queueNotice (.ringStarted call l idx r.pickup) <| orderRing l true s

/-- The intervals of a cadence, in ms, with the ring order of each (R38). -/
def cadenceIntervals : Cadence → List (Nat × Bool)
  | .hunt => [(400, true), (200, false), (400, true), (2000, false)]
  | .direct => [(1000, true), (2000, false)]
  | .recall => [(200, true), (200, false), (200, true), (200, false), (200, true), (200, false), (2000, false)]

/-- A ringing line stops: its entry leaves the ring view, the line becomes IDLE, and RING-ENDED is queued with its reason,
after NO-ANSWER when its no-answer timer expired (R39, R91). -/
def stopRinging (l : Line) (reason : RingEndReason) (s : State) : State :=
  match (lineOf s l).call with
  | none => s
  | some c =>
    let s := viewRemoveLine c.call (own s) l s
    let s := onLine l (fun r => { r with
      state := .idle, call := none, cadenceAt := none, noAnswer := none }) s
    let s := orderTone l .none (orderRing l false s)
    let s := if reason = .noAnswer then queueNotice (.noAnswer c.call l) s else s
    refresh l (queueNotice (.ringEnded c.call l reason) s)

/-! ### Verdicts (R41) -/

/-- A verdict resolves for the line: TALKING, with the call field of the CONNECTED (R41). -/
def resolveTalking (l : Line) (call : CallId) (g : Option HuntGroup) (idx : Option OrderIndex) (s : State) : State :=
  orderTone l .none <| onLine l (fun r => { r with
    state := .talking, call := some ⟨call, none, g, idx⟩, verdict := none }) s

/-- A verdict resolves against the line: tone LOST, BUSY (R41). -/
def resolveLost (l : Line) (s : State) : State :=
  orderTone l .lost <| onLine l (fun r => { r with state := .busy, call := none, verdict := none }) s

/-- The line's pending verdict names the target. -/
def awaits (r : LineRec) (t : ClaimTarget) : Bool :=
  match r.verdict with
  | some v => decide (v.target = t)
  | none => false

/-- The line rings for the call. -/
def ringsFor (r : LineRec) (call : CallId) : Bool :=
  match r.state, r.call with
  | .ringing, some c => decide (c.call = call)
  | _, _ => false

/-- A refusal of a claim naming a line of this part: LOST if the line's verdict on that target is pending (R41, R58). -/
def takeRefusal (t : ClaimTarget) (l : Line) (s : State) : State :=
  if awaits (lineOf s l) t then resolveLost l s else s

/-- A CONNECTED at the line it names: TALKING on a pending verdict for the call or for an orbit, otherwise a late verdict,
which sends LINE-ON-HOOK and leaves the line as it is (R41). -/
def connectedHere (l : Line) (call : CallId) (g : Option HuntGroup) (idx : Option OrderIndex) (s : State) : State :=
  match (lineOf s l).verdict with
  | some ⟨.orbit _, _⟩ => resolveTalking l call g idx s
  | some ⟨.call c, _⟩ =>
      if c = call then resolveTalking l call g idx s else shelfSend (.lineOnHook l (some call)) s
  | none => shelfSend (.lineOnHook l (some call)) s

/-- A CONNECTED at any other line: LOST on a pending verdict for the call, ringing for the call stops (R39, R41). -/
def connectedElsewhere (call : CallId) (l : Line) (s : State) : State :=
  if awaits (lineOf s l) (.call call) then resolveLost l s
  else if ringsFor (lineOf s l) call then stopRinging l .connected s
  else s

/-- A CONNECTED at the lines of this part (R39, R41). -/
def lineConnected (call : CallId) (cab : Cabinet) (line : Line) (g : Option HuntGroup) (idx : Option OrderIndex)
    (s : State) : State :=
  forEach allLines (fun l s =>
    if cab = own s ∧ l = line then connectedHere l call g idx s else connectedElsewhere call l s) s

/-- A CANCEL at a line: LOST on a pending verdict for the call, ringing stops with reason CANCELLED (R39, R41). -/
def cancelAt (call : CallId) (l : Line) (s : State) : State :=
  if awaits (lineOf s l) (.call call) then resolveLost l s
  else if ringsFor (lineOf s l) call then stopRinging l .cancelled s
  else s

/-- A CANCEL at the lines of this part: reservations for the call end as well (R35). -/
def lineCancel (call : CallId) (s : State) : State :=
  releaseCall call (forEach allLines (cancelAt call) s)

/-! ### Loss of owners (R43) -/

/-- The cabinet that owns what a verdict is awaited on. -/
def targetOwner : ClaimTarget → Cabinet
  | .call c => c.cab
  | .orbit o => orbitCabinet o

/-- A line that rings for a call of a lost owner stops (R43). -/
def ringingLoses (lost : Cabinet → Bool) (reason : RingEndReason) (l : Line) (r : LineRec) (s : State) : State :=
  match r.state, r.call with
  | .ringing, some c => if lost c.call.cab then stopRinging l reason s else s
  | _, _ => s

/-- A pending verdict on a call or orbit of a lost owner resolves as LOST (R43). -/
def verdictLoses (lost : Cabinet → Bool) (l : Line) (r : LineRec) (s : State) : State :=
  match r.verdict with
  | some v => if lost (targetOwner v.target) then resolveLost l s else s
  | none => s

/-- A reservation for a call of a lost owner ends (R43). -/
def reservationLoses (lost : Cabinet → Bool) (l : Line) (r : LineRec) (s : State) : State :=
  match r.reserved with
  | some v => if lost v.call.cab then releaseReservation l s else s
  | none => s

/-- The three actions of R43 at one line, for the owners that `lost` picks. -/
def lineLosesOwner (lost : Cabinet → Bool) (reason : RingEndReason) (l : Line) (s : State) : State :=
  let r := lineOf s l
  reservationLoses lost l r (verdictLoses lost l r (ringingLoses lost reason l r s))

/-- The LU at the silence of a peer (R43). -/
def linePeerSilent (p : Cabinet) (s : State) : State :=
  forEach allLines (lineLosesOwner (fun c => decide (c = p)) .ownerSilent) s

/-- The LU at entry to ISOLATED, or to LISTEN-ONLY from LISTENING or RUNNING (R43). -/
def lineIsolated (s : State) : State :=
  forEach allLines (lineLosesOwner (fun c => !decide (c = own s)) .isolated) s

/-! ### Outcomes the Page Originator reports (R32) -/

/-- The PGO reports a page id for a line's request (R112). -/
def linePageGiven (l : Line) (p : PageId) (s : State) : State := onLine l (fun r => { r with page := some p }) s

/-- The PGO reports the page on air: tone CONFIRM (R32). -/
def linePageOnAir (l : Line) (s : State) : State := orderTone l .confirm s

/-- The PGO reports the page ended or refused with a tone: the originated page is removed and the line becomes BUSY (R32). -/
def linePageEnded (l : Line) (t : Tone) (s : State) : State :=
  orderTone l t <| onLine l (fun r => { r with state := .busy, page := none }) s

end Sys2Proof.Machine
end

