-- ==== Sys2Proof/Machine/Pages.lean ====
section
/-! DEFINITION. The Page Originator: page table, channel view, origination, ends and reports (chapter 6). -/

namespace Sys2Proof.Machine

/-! ### The page table (R106, R107) -/

/-- The table holds records from at most 6 line or orbit sources (R106). -/
def sharedPlaces : Nat := 6

/-- The report list of a page holds up to 16 entries (R106). -/
def reportCapacity : Nat := 16

/-- The record of a page id's sequence value. -/
def findPage (s : State) (q : Seq) : Option PageRec := s.pgo.pages.find? fun r => decide (r.seq = q)

/-- The page id of a record of this part. -/
def pageIdOf (s : State) (q : Seq) : PageId := ⟨own s, q⟩

/-- The record of a sequence value changes. -/
def modPage (q : Seq) (f : PageRec → PageRec) (s : State) : State :=
  onPgo (fun p => { p with pages := p.pages.map fun r => if r.seq = q then f r else r }) s

/-- A record leaves the table. -/
def freePage (q : Seq) (s : State) : State :=
  onPgo (fun p => { p with pages := p.pages.filter fun r => !decide (r.seq = q) }) s

/-- How many records have a line or an orbit as their source (R106). -/
def sharedCount (s : State) : Nat :=
  (s.pgo.pages.filter fun r => match r.origin with
    | .line _ | .orbit _ => true
    | .input _ => false).length

/-- The record of an input's page. -/
def inputPage (s : State) (i : ContactInput) : Option PageRec :=
  s.pgo.pages.find? fun r => decide (r.origin = .input i)

/-- The record of a line's page. -/
def linePage (s : State) (l : Line) : Option PageRec :=
  s.pgo.pages.find? fun r => decide (r.origin = .line l)

/-- A sequence value is held by a record, or by a view entry that names the part's own page (R107). -/
def pageSeqHeld (s : State) (q : Seq) : Bool :=
  (findPage s q).isSome || s.pgo.view.rows.any fun h => decide (h.map (·.page) = some (pageIdOf s q))

/-- The first sequence value from a candidate on that is not held, within `fuel` tries (R46, R107). -/
def firstFree (held : Seq → Bool) : Nat → Seq → Seq
  | 0, q => q
  | fuel + 1, q => if held q then firstFree held fuel (nextSeq q) else q

/-- The sequence value of the next page (R107). -/
def nextPageSeq (s : State) : Seq := firstFree (pageSeqHeld s) 13 s.pgo.counter

/-- A new record is written with state CLAIMING, and the counter moves on (R107). -/
def writePage (r : PageRec) (s : State) : State :=
  onPgo (fun p => { p with pages := p.pages ++ [r], counter := nextSeq r.seq }) s

/-- The PAGE-START of a record (R112, R113, R115). -/
def startBody (s : State) (r : PageRec) : PageStartBody :=
  { page := pageIdOf s r.seq, cls := r.cls, target := r.target, channel := r.channel, seize := r.seize,
    override := r.override
    orbit := match r.origin with
      | .orbit o => some o
      | .line _ | .input _ => none }

/-- A record's PAGE-START is queued. -/
def queueStart (q : Seq) (s : State) : State :=
  match findPage s q with
  | some r => queueNotice (.pageStart (startBody s r)) s
  | none => s

/-! ### The channel view (R108, R109) -/

/-- An entry of the view. -/
def setView (c : Channel) (h : Option ChannelHold) (s : State) : State :=
  onPgo (fun p => { p with view := p.view.set c h }) s

/-- The entries of the view that `p` picks become free (R108). -/
def freeView (p : ChannelHold → Bool) (s : State) : State :=
  onPgo (fun u => { u with view := u.view.map fun h => match h with
    | some x => if p x then none else some x
    | none => none }) s

/-- The entry that holds a page id becomes free (R108). -/
def freeViewPage (p : PageId) (s : State) : State := freeView (fun h => decide (h.page = p)) s

/-- A line page's choice of channel: the lowest free one; else for ALARM the lowest that holds a ROUTINE page, with the
seize flag; else refused (R109). -/
def chooseChannel (view : Table 4 (Option ChannelHold)) (cls : PageClass) : Option (Channel × Bool) :=
  match allChannels.find? fun c => (view.get c).isNone with
  | some c => some (c, false)
  | none =>
    if cls = .alarm then
      (allChannels.find? fun c => match view.get c with
        | some h => decide (h.cls = .routine)
        | none => false).map fun c => (c, true)
    else none

/-- The record that holds a channel. -/
def channelRecord (s : State) (c : Channel) : Option PageRec :=
  s.pgo.pages.find? fun r => decide (r.channel = some c)

/-! ### Ending a page (R117, R118) -/

/-- The Pickup and Park Unit is told that a page has gone: a slot whose code page it is loses the id (R102, R117). -/
def clearCodePage (p : PageId) (s : State) : State :=
  onPpu (fun u => { u with orbits := u.orbits.map fun o => match o with
    | some x => some (if x.page = some p then { x with page := none } else x)
    | none => none }) s

/-- A page of a CLAIMING record ends: its PAGE-START is withdrawn, the record and its view entry are freed, and no PAGE-END
is sent; the PPU is told of an orbit's page directly (R117). -/
def endClaiming (r : PageRec) (s : State) : State :=
  let id := pageIdOf s r.seq
  clearCodePage id (freeViewPage id (freePage r.seq (withdraw (isStartOf id) s)))

/-- A page of a REPORTING or ON-AIR record ends: PAGE-END is queued and the record is freed (R117). -/
def endAnnounced (r : PageRec) (reason : PageEndReason) (s : State) : State :=
  freePage r.seq (queueNotice (.pageEnd (pageIdOf s r.seq) r.cls reason) s)

/-- The end of a line's page at the line and the shelf: the tone is reported, unless none is due, and DISCONNECT-PAGE is
sent if CONNECT-PAGE was (R117). -/
def endAtLine (r : PageRec) (tone : Option Tone) (s : State) : State :=
  match r.origin with
  | .line l =>
    let s := match tone with
      | some t => linePageEnded l t s
      | none => s
    match r.connectSent, r.channel with
    | true, some c => shelfSend (.disconnectPage l c) s
    | _, _ => s
  | .input _ | .orbit _ => s

/-- A page ends (R117). -/
def endPage (r : PageRec) (reason : PageEndReason) (tone : Option Tone) (s : State) : State :=
  endAtLine r tone (if r.state = .claiming then endClaiming r s else endAnnounced r reason s)

/-- The page of a sequence value ends, if a record holds it. -/
def endPageSeq (q : Seq) (reason : PageEndReason) (tone : Option Tone) (s : State) : State :=
  match findPage s q with
  | some r => endPage r reason tone s
  | none => s

/-- The PPU asks for the end of a code page (R118): nothing where no record holds it. -/
def endCodePage (p : PageId) (s : State) : State := endPageSeq p.seq .ended none s

/-- The LU reports that the line of a page has gone on-hook (R118). -/
def pageOnHook (l : Line) (s : State) : State :=
  match linePage s l with
  | some r => endPage r .ended none s
  | none => s

/-! ### Taking a channel (R109, R112) -/

/-- A seized entry that holds a page of the part's own with a record: that page ends with CHANNEL-LOST (R109). -/
def endSeized (c : Channel) (s : State) : State :=
  match s.pgo.view.get c with
  | some h => if h.page.cab = own s then endPageSeq h.page.seq .channelLost (some .lost) s else s
  | none => s

/-- A record takes a channel: the view entry is written at once (R108, R109). -/
def takeChannel (q : Seq) (cls : PageClass) (c : Channel) (seize : Bool) (s : State) : State :=
  let s := if seize then endSeized c s else s
  setView c (some ⟨pageIdOf s q, cls⟩) (modPage q (fun r => { r with channel := some c, seize := seize }) s)

/-- A record with what every new page starts from. -/
def newPage (q : Seq) (cls : PageClass) (target : PageTarget) (origin : PageOrigin) (override : Bool) : PageRec :=
  { seq := q, cls := cls, target := target, origin := origin, channel := none, seize := false, override := override,
    state := .claiming, reports := [], connectSent := false, timer := none, released := false }

/-- A page request from a line (R112). -/
def pageRequest (l : Line) (cls : PageClass) (target : PageTarget) (override : Bool) (s : State) : State :=
  if s.clc.link ≠ .running then linePageEnded l .refuse s
  else if sharedCount s ≥ sharedPlaces then linePageEnded l .busy s
  else
    let q := nextPageSeq s
    let s := writePage (newPage q cls target (.line l) override) s
    let s := linePageGiven l (pageIdOf s q) s
    match chooseChannel s.pgo.view cls with
    | none => linePageEnded l .busy (freePage q s)
    | some (c, seize) => queueStart q (takeChannel q cls c seize s)

/-- A code page request from the PPU (R113) is given a page id: the sequence value, or none where it is refused. -/
def codeRequestSeq (s : State) : Option Seq :=
  if sharedCount s ≥ sharedPlaces ∨ s.clc.link ≠ .running then none else some (nextPageSeq s)

/-- A code page is originated under a sequence value that has been given (R113). -/
def originateCode (q : Seq) (o : OrbitNumber) (g : PagingGroup) (s : State) : State :=
  queueStart q (writePage (newPage q .code (.group g) (.orbit o) false) s)

/-- The contact input has been taken as active or inactive (R114). -/
def setInput (i : ContactInput) (on : Bool) (s : State) : State :=
  onPgo (fun p => match i with
    | .alarm => { p with alarmActive := on }
    | .evac => { p with evacActive := on }) s

/-- A contact input as taken. -/
def inputActive (s : State) : ContactInput → Bool
  | .alarm => s.pgo.alarmActive
  | .evac => s.pgo.evacActive

/-- An input page is originated; the EVAC page raises EVAC-ACTIVE (R115). -/
def originateInput (i : ContactInput) (s : State) : State :=
  let q := nextPageSeq s
  match i with
  | .alarm => queueStart q (writePage (newPage q .alarm (.group s.pgo.alarmGroup) (.input .alarm) false) s)
  | .evac =>
      raise .evacActive q.val .pgo (queueStart q (writePage (newPage q .evac .all (.input .evac) false) s))

/-- The contact inputs are read from LISTENING on (R114). -/
def inputsRead (p : Phase) : Bool :=
  match p with
  | .listening | .running => true
  | .loading | .halted => false

/-- A contact input becomes active (R114). -/
def inputBecomesActive (i : ContactInput) (s : State) : State :=
  if inputsRead s.phase && !inputActive s i then
    let s := setInput i true s
    match inputPage s i with
    | some r => modPage r.seq (fun r => { r with released := false }) s
    | none => originateInput i s
  else s

/-- An input page's minimum is past: ON-AIR with its minimum timer expired (R115). -/
def minimumPast (r : PageRec) : Bool := decide (r.state = .onAir ∧ r.timer = none)

/-- A contact input becomes inactive (R114, R115). -/
def inputBecomesInactive (i : ContactInput) (s : State) : State :=
  if inputsRead s.phase && inputActive s i then
    let s := setInput i false s
    match inputPage s i with
    | some r =>
      let s := modPage r.seq (fun r => { r with released := true }) s
      if minimumPast r then endPage r .ended none s else s
    | none => s
  else s

/-- Expiry of an input page's minimum timer (R115). -/
def minimumExpiry (i : ContactInput) (s : State) : State :=
  match inputPage s i with
  | some r =>
    if r.timer = some .minimum then
      if r.released then endPage r .ended none s else modPage r.seq (fun r => { r with timer := none }) s
    else s
  | none => s

/-! ### Announcement, reports (R116, R119 to R121) -/

/-- What a CLAIMING record becomes at the own delivery of its PAGE-START, by its source (R116). -/
def announced (r : PageRec) : PageRec :=
  match r.origin with
  | .line _ => { r with state := .reporting, reports := [], timer := some .reportWindow }
  | .orbit _ => { r with state := .onAir, timer := some .life }
  | .input _ => { r with state := .onAir, timer := some .minimum }

/-- The part's own PAGE-START is delivered to the PGO (R108, R116). -/
def ownPageStart (b : PageStartBody) (s : State) : State :=
  match findPage s b.page.seq with
  | some r => if r.state = .claiming then modPage r.seq announced s else s
  | none => queueNotice (.pageEnd b.page b.cls .ended) s

/-- A PAGE-END at the PGO, heard or the part's own: the view entry that holds the page becomes free (R108). -/
def pgoPageEnd (p : PageId) (s : State) : State := freeViewPage p s

/-- Live outcomes; every other is terminal (R119). -/
def live : ZoneOutcome → Bool
  | .playing | .pending | .held => true
  | .lost | .timedOut | .fault | .busy | .locked | .full | .dropped | .ended => false

/-- A report list takes a report (R119). -/
def takeReport (z : ZoneNumber) (o : ZoneOutcome) (l : List (ZoneNumber × ZoneOutcome)) : List (ZoneNumber × ZoneOutcome) :=
  if l.any (fun e => decide (e.1 = z)) then l.map fun e => if e.1 = z then (z, o) else e
  else if l.length < reportCapacity then l ++ [(z, o)] else l

/-- A record takes zone reports: a line's page that is REPORTING or ON-AIR (R119). -/
def takesReports (r : PageRec) : Bool :=
  match r.origin with
  | .line _ => decide (r.state ≠ .claiming)
  | .input _ | .orbit _ => false

/-- A ZONE-REPORT at the PGO; an ON-AIR page whose every entry is terminal ends with NO-ZONE (R119, R121). -/
def pgoReport (p : PageId) (z : ZoneNumber) (o : ZoneOutcome) (s : State) : State :=
  if p.cab = own s then
    match findPage s p.seq with
    | some r =>
      if takesReports r then
        let l := takeReport z o r.reports
        let s := modPage r.seq (fun r => { r with reports := l }) s
        if decide (r.state = .onAir) && l.all (fun e => !live e.2) then endPageSeq r.seq .noZone (some .lost) s else s
      else s
    | none => s
  else s

/-- Expiry of a report window (R120). -/
def reportWindowExpiry (q : Seq) (s : State) : State :=
  match findPage s q with
  | some r =>
    match r.timer, r.origin, r.channel with
    | some .reportWindow, .line l, some c =>
      if r.reports.any (fun e => live e.2) then
        linePageOnAir l <| shelfSend (.connectPage l c) <|
          modPage q (fun r => { r with state := .onAir, connectSent := true, timer := none }) s
      else endPage r .noZone (some .refuse) s
    | _, _, _ => s
  | none => s

/-- Expiry of a CODE page's life timer (R118). -/
def codeLifeExpiry (q : Seq) (s : State) : State :=
  match findPage s q with
  | some r => if r.timer = some .life then endPage r .ended none s else s
  | none => s

/-! ### STATUS contents (R21) -/

/-- The channels held by pages that the part originated (R21). -/
def ownChannels (s : State) : Table 4 (Option ChannelHold) :=
  Table.build 4 fun c => (channelRecord s c).map fun r => ⟨pageIdOf s r.seq, r.cls⟩

/-- What a STATUS carries, assembled from the state of the part (R21). -/
def assembleStatus (s : State) : StatusBody :=
  { evac := (inputPage s .evac).map fun r => pageIdOf s r.seq
    channels := ownChannels s
    offers := s.ofm.offers.length }

/-- A STATUS is queued (R7, R21). -/
def queueStatus (link : LinkField) (s : State) : State := queueNotice (.status link (assembleStatus s)) s

/-! ### Pages of other cabinets on a channel (R108, R110, R111) -/

/-- The other page prevails over the record's page (R111). -/
def prevails (other : ChannelHold) (r : PageRec) (ownCab : Cabinet) : Bool :=
  decide (classRank other.cls > classRank r.cls) || decide (other.cls = r.cls ∧ other.page.cab < ownCab)

/-- A CLAIMING record chooses again, its channel having been taken (R110). -/
def repick (r : PageRec) (s : State) : State :=
  let id := pageIdOf s r.seq
  match chooseChannel s.pgo.view r.cls with
  | some (c, seize) =>
    let s := takeChannel r.seq r.cls c seize s
    match findPage s r.seq with
    | some r => replaceNotice (isStartOf id) (.pageStart (startBody s r)) s
    | none => s
  | none => endAtLine r (some .busy) (freePage r.seq (withdraw (isStartOf id) s))

/-- A PAGE-START heard from another cabinet, or a STATUS, names channel `c` as held by that cabinet's page (R108, R110,
R111). That a slot whose page id names the part's own cabinet is taken as another cabinet's page too, by the frame's source
alone, is the model's choice (log 37). -/
def channelSeen (c : Channel) (other : ChannelHold) (s : State) : State :=
  match channelRecord s c with
  | none => setView c (some other) s
  | some r =>
    if r.state = .claiming then repick r (setView c (some other) s)
    else if prevails other r (own s) then setView c (some other) (endPage r .channelLost (some .lost) s)
    else queueStatus .running s

/-- A PAGE-START heard from another cabinet at the PGO (R108). -/
def heardPageStart (p : PageId) (cls : PageClass) (c : Option Channel) (s : State) : State :=
  match c with
  | some c => channelSeen c ⟨p, cls⟩ s
  | none => s

/-- A STATUS at the PGO: the channels that the peer table records for the peer are entered, then the entries that hold a
page of the peer and are not so recorded become free (R108). That they are entered by rising channel number, which decides
the CLAIMING record that chooses again first, is the model's choice (log 14). -/
def pgoStatus (p : Cabinet) (s : State) : State :=
  let recorded := (s.clc.peers.get p).channels
  let s := forEach allChannels (fun c s => match recorded.get c with
    | some h => channelSeen c h s
    | none => s) s
  onPgo (fun u => { u with view := Table.build 4 fun c => match u.view.get c with
    | some h => if h.page.cab = p ∧ recorded.get c ≠ some h then none else some h
    | none => none }) s

/-- The PGO at a peer's silence (R123). -/
def pgoPeerSilent (p : Cabinet) (s : State) : State := freeView (fun h => decide (h.page.cab = p)) s

/-- The PGO at REJOIN (R123). -/
def pgoRejoin (s : State) : State := freeView (fun h => !decide (h.page.cab = own s)) s

/-! ### All-stop and SHELF-CLEAR (R122, R124) -/

/-- An all-stop request from a line (R122). -/
def allStopRequest (s : State) : State := queueNotice (.allStop (own s)) s

/-- An ALL-STOP at the PGO: every ROUTINE record ends (R122). -/
def pgoAllStop (s : State) : State :=
  forEach (s.pgo.pages.filter fun r => decide (r.cls = .routine))
    (fun r s => endPageSeq r.seq .allStop (some .lost) s) s

/-- SHELF-CLEAR at the PGO: every line page ends with CLEARED; input pages are kept (R124). -/
def pgoShelfClear (s : State) : State :=
  forEach (s.pgo.pages.filter fun r => match r.origin with
      | .line _ => true
      | .input _ | .orbit _ => false)
    (fun r s => endPageSeq r.seq .cleared (some .lost) s) s

end Sys2Proof.Machine
end

