-- ==== Sys2Proof/Machine/Calls.lean ====
section
/-! DEFINITION. Calls at their owner: the offer table and its decisions (chapter 3), the owner side of the Hunt Engine
(sections 4.4 to 4.6) and the park orbits (section 5.3), which drive one another. -/

namespace Sys2Proof.Machine

/-! ### The offer table (R45, R46) -/

/-- The offer table holds up to 8 records (R45). -/
def offerCapacity : Nat := 8

/-- A ringing set holds up to 16 entries (R45). -/
def ringingCapacity : Nat := 16

/-- The record of a call of this part. -/
def findOffer (s : State) (q : Seq) : Option Offer := s.ofm.offers.find? fun o => decide (o.seq = q)

/-- The record of a call id, which names no record unless the part owns it (R54). -/
def ownOffer (s : State) (c : CallId) : Option Offer := if c.cab = own s then findOffer s c.seq else none

/-- The call id of a record. -/
def callIdOf (s : State) (q : Seq) : CallId := ⟨own s, q⟩

/-- A record changes. -/
def modOffer (q : Seq) (f : Offer → Offer) (s : State) : State :=
  onOfm (fun m => { m with offers := m.offers.map fun o => if o.seq = q then f o else o }) s

/-- A sequence value has been issued since the last power-on or RESET (R46). -/
def issued (s : State) (q : Seq) : Bool := s.ofm.wrapped || decide (q < s.ofm.counter)

/-- The sequence value of the next call (R46). -/
def nextCallSeq (s : State) : Seq := firstFree (fun q => (findOffer s q).isSome) 9 s.ofm.counter

/-- A record has parties out: it is OFFERING, has an assigned member, or has a ringing member (R51). -/
def partiesOut (o : Offer) : Bool := decide (o.state = .offering) || o.assigned.isSome || !o.ringing.isEmpty

/-- The hunt group of a target. -/
def targetGroup : CallTarget → Option HuntGroup
  | .hunt g => some g
  | .direct .. => none

/-- The record is of a DIRECT call. -/
def isDirect (o : Offer) : Bool := (targetGroup o.target).isNone

/-- The owner's group entry for a record's target. -/
def groupOf (s : State) (o : Offer) : Option GroupParams := (targetGroup o.target).bind s.he.groups.get

/-- A member is at a cabinet and line. -/
def atLine (cab : Cabinet) (line : Line) (m : Member) : Bool := decide (m.cab = cab ∧ m.line = line)

/-- A tried set gains an order index, unless an entry of the ringing set holds it (R45). -/
def addTried (idx : Option OrderIndex) (ringing : List Member) (t : IndexSet) : IndexSet :=
  match idx with
  | some i => if ringing.any fun m => decide (m.index = some i) then t else insertIndex i t
  | none => t

/-- A HUNT record counts a member as tried; a DIRECT record's tried set stays empty (R52, R60). -/
def countTried (idx : Option OrderIndex) (o : Offer) : Offer :=
  if isDirect o then o else { o with tried := addTried idx o.ringing o.tried }

/-! ### Queue standings (R83) -/

/-- A record's standing is removed, and the records behind it move up (R83). -/
def dropStanding (q : Seq) (s : State) : State :=
  onHe (fun h => { h with queue := h.queue.filter fun x => !decide (x.call = q) }) s

/-- A record's standing. -/
def standingOf (s : State) (q : Seq) : Option Standing := s.he.queue.find? fun x => decide (x.call = q)

/-- A group's queue at this owner, oldest first (R83). -/
def groupQueue (s : State) (g : HuntGroup) : List Standing := s.he.queue.filter fun x => decide (x.group = g)

/-- The queue order field of a WAITING record: its position in its group's queue, 1 for the oldest (R83). -/
def queueOrder (s : State) (o : Offer) : Option Nat :=
  match o.state, targetGroup o.target with
  | .waiting .queued, some g => (((groupQueue s g).map (·.call)).idxOf? o.seq).map (· + 1)
  | _, _ => none

/-! ### Freeing, connecting and ending (R47, R50, R51, R103) -/

/-- An orbit slot. -/
def slotOf (s : State) (i : OrbitSlot) : Option Orbit := s.ppu.orbits.get i

/-- A slot is set. -/
def setSlot (i : OrbitSlot) (o : Option Orbit) (s : State) : State :=
  onPpu (fun u => { u with orbits := u.orbits.set i o }) s

/-- An orbit is freed: timers stop, its code page is ended, the slot becomes empty (R103). -/
def freeSlot (i : OrbitSlot) (s : State) : State :=
  match slotOf s i with
  | some o =>
    let s := setSlot i none s
    match o.page with
    | some p => endCodePage p s
    | none => s
  | none => s

/-- The orbit of a PARKED record is freed (R50 step 3, R51 step 3). -/
def freeOrbitOf (o : Offer) (s : State) : State :=
  match o.state with
  | .parked n => freeSlot (orbitSlot n) s
  | _ => s

/-- A record leaves the table: its timers, window and queue standing go, and its queued OFFER and RING-ASSIGN are withdrawn
(R47). -/
def freeOffer (q : Seq) (s : State) : State :=
  dropStanding q <| withdraw (isOfferOf (callIdOf s q)) <|
    onOfm (fun m => { m with offers := m.offers.filter fun o => !decide (o.seq = q) }) s

/-- A call is connected to a line (R50). -/
def connectCall (o : Offer) (cab : Cabinet) (line : Line) (idx : Option OrderIndex) (s : State) : State :=
  let id := callIdOf s o.seq
  let s := queueNotice (.connected id cab line (targetGroup o.target) idx) s
  let s := shelfSend (.connect o.ref id cab line) s
  freeOffer o.seq (freeOrbitOf o s)

/-- A call is ended, with an outcome to the shelf or without (R51). -/
def endCall (o : Offer) (outcome : Option EndReason) (s : State) : State :=
  let id := callIdOf s o.seq
  let s := if partiesOut o then queueNotice (.cancel id) s else s
  let s := match outcome with
    | some r => shelfSend (.callEnded o.ref id r) s
    | none => s
  freeOffer o.seq (freeOrbitOf o s)

/-- The call of a sequence value is ended, if a record holds it. -/
def endCallSeq (q : Seq) (outcome : Option EndReason) (s : State) : State := withCode (findOffer s q) (endCall · outcome) s

/-! ### Offering (R76) and the overflow step (R81 to R87) -/

/-- An OFFER is queued for a record that becomes OFFERING (R76). -/
def offerCall (q : Seq) (s : State) : State :=
  let s := modOffer q (fun o => { o with state := .offering, window := none }) s
  match findOffer s q with
  | some o =>
    match targetGroup o.target with
    | some g => queueNotice (.offer (callIdOf s q) g o.attempts o.tried) s
    | none => s
  | none => s

/-- A re-offer: the attempt count rises by one, saturating at 255, and an OFFER is queued. In ISOLATED and LISTEN-ONLY the
record ends with outcome ISOLATED instead (R65, R76). -/
def reoffer (q : Seq) (s : State) : State :=
  if cutOff s then endCallSeq q (some .isolated) s
  else offerCall q (modOffer q (fun o => { o with attempts := min 255 (o.attempts + 1) }) s)

/-- A re-offer with the tried set cleared. -/
def reofferAfresh (q : Seq) (s : State) : State := reoffer q (modOffer q (fun o => { o with tried := 0 }) s)

/-- What an overflow or queue-expiry action comes to, once a rule has turned it (R81). -/
inductive OverflowStep where
  | recycle | queue | forward | park | endCall
  deriving DecidableEq, Repr

/-- The lowest-numbered free orbit slot (R100). -/
def freeSlotIndex (s : State) : Option OrbitSlot := allSlots.find? fun i => (slotOf s i).isNone

/-- FORWARD goes on: the depth is below 2 and the owner holds an entry for the forward group (R86). -/
def canForward (s : State) (o : Offer) (p : GroupParams) : Bool :=
  decide (o.depth < 2) && (s.he.groups.get p.forward).isSome

/-- FORWARD, or END where it cannot go on (R86). -/
def forwardStep (s : State) (o : Offer) (p : GroupParams) : OverflowStep :=
  if canForward s o p then .forward else .endCall

/-- PARK, or RECYCLE once the call has been parked or while no slot is free (R87). -/
def parkStep (s : State) (o : Offer) : OverflowStep :=
  if o.parkDone = false ∧ (freeSlotIndex s).isSome then .park else .recycle

/-- The queue-expiry action of a group (R85). -/
def expiryStep (s : State) (o : Offer) (p : GroupParams) : OverflowStep :=
  match p.queueExpiry with
  | .recycle => .recycle
  | .forward => forwardStep s o p
  | .park => parkStep s o
  | .endCall => .endCall

/-- QUEUE: RECYCLE with the queue flag off, the queue-expiry action on a standing whose wait has expired (R83). -/
def queueStep (s : State) (o : Offer) (p : GroupParams) : OverflowStep :=
  if p.queueFlag = false then .recycle
  else match standingOf s o.seq with
    | some x => if x.expired then expiryStep s o p else .queue
    | none => .queue

/-- The overflow action of a group (R81). -/
def actionStep (s : State) (o : Offer) (p : GroupParams) : OverflowStep :=
  match p.overflow with
  | .recycle => .recycle
  | .queue => queueStep s o p
  | .forward => forwardStep s o p
  | .park => parkStep s o

/-- RECYCLE: WAITING with reason RECYCLE-PAUSE; the 5 s pause runs (R82). -/
def recycleCall (q : Seq) (s : State) : State :=
  modOffer q (fun o => { o with state := .waiting .recyclePause, window := none }) (dropStanding q s)

/-- QUEUE: the record takes or keeps its place and is WAITING with reason QUEUED (R83). -/
def queueCall (q : Seq) (g : HuntGroup) (s : State) : State :=
  let s := if (standingOf s q).isSome then s else onHe (fun h => { h with queue := h.queue ++ [⟨q, g, false⟩] }) s
  modOffer q (fun o => { o with state := .waiting .queued, window := none }) s

/-- FORWARD: depth and target change, tried set and standing go, the call is re-offered (R86). -/
def forwardCall (q : Seq) (p : GroupParams) (s : State) : State :=
  reofferAfresh q <| modOffer q (fun o => { o with depth := o.depth + 1, target := .hunt p.forward }) (dropStanding q s)

/-- An orbit's code page id is recorded. -/
def withPage (p : PageId) (o : Option Orbit) : Option Orbit := o.map (fun x => { x with page := some p })

/-- The orbit's code page is requested, and its page id recorded where one is given (R100, R101, R113). -/
def requestCodePage (i : OrbitSlot) (g : PagingGroup) (s : State) : State :=
  match codeRequestSeq s with
  | some q =>
    let s := onPpu (fun u => { u with orbits := u.orbits.modify i (withPage (pageIdOf s q)) }) s
    originateCode q (orbitNumber (own s) i) g s
  | none => s

/-- PARK: the lowest free slot is filled, the record is PARKED, the code page is requested, both timers run (R100). -/
def parkCall (q : Seq) (g : HuntGroup) (p : GroupParams) (s : State) : State :=
  match freeSlotIndex s with
  | some i =>
    let s := setSlot i (some { call := q, group := g, paging := p.parkPaging, page := none, repeats := 0,
                               limit := p.repeatLimit, interval := p.repeatInterval, recallTime := p.recallTime,
                               repeating := true }) s
    let s := modOffer q (fun o => { o with state := .parked (orbitNumber (own s) i), window := none }) (dropStanding q s)
    requestCodePage i p.parkPaging s
  | none => s

/-- A resolved step is applied. In ISOLATED and LISTEN-ONLY every step but END ends the call with outcome ISOLATED (R65,
R81). -/
def applyStep (o : Offer) (g : HuntGroup) (p : GroupParams) (step : OverflowStep) (s : State) : State :=
  if step = .endCall then endCall o (some .unanswered) s
  else if cutOff s then endCall o (some .isolated) s
  else match step with
    | .recycle => recycleCall o.seq s
    | .queue => queueCall o.seq g s
    | .forward => forwardCall o.seq p s
    | .park => parkCall o.seq g p s
    | .endCall => s

/-- The overflow step, by the owner's entry for the record's target group at that moment (R81). -/
def overflow (q : Seq) (s : State) : State :=
  match findOffer s q with
  | some o =>
    match targetGroup o.target, groupOf s o with
    | some g, some p => applyStep o g p (actionStep s o p) s
    | _, _ => endCall o (some .unanswered) s
  | none => s

/-! ### Next-step decision (R79) -/

/-- A record becomes RINGING; its queue standing is removed (R59, R78 to R80, R83). -/
def becomeRinging (q : Seq) (s : State) : State :=
  modOffer q (fun o => { o with state := .ringing, window := none }) (dropStanding q s)

/-- The tried set holds every order index from 0 to span - 1 (R79). -/
def exhausted (t : IndexSet) (span : Nat) : Bool :=
  (List.finRange 32).all fun i => decide (span ≤ i.val) || hasIndex t i

/-- The next-step decision (R79). -/
def nextStep (q : Seq) (s : State) : State :=
  match findOffer s q with
  | some o =>
    if !o.ringing.isEmpty then becomeRinging q s
    else match groupOf s o with
      | some p => if exhausted o.tried p.span then overflow q s else reoffer q s
      | none => overflow q s
  | none => s

/-! ### Bid window and assignment (R77, R78, R80) -/

/-- A BID at the owner side (R77). -/
def enterBid (b : WindowBid) (o : Offer) : Offer :=
  match o.window with
  | none => o
  | some l =>
    if (match b.index with
        | some i => hasIndex o.tried i
        | none => false) then o
    else if l.any fun x => decide (x.cab = b.cab) then
      { o with window := some (l.map fun x => if x.cab = b.cab then b else x) }
    else { o with window := some (l ++ [b]) }

/-- A BID for one of the part's calls (R77). -/
def ownerBid (c : CallId) (b : WindowBid) (s : State) : State :=
  if c.cab = own s then modOffer c.seq (enterBid b) s else s

/-- The bid with the lowest arbitration field. -/
def lowestBid : List WindowBid → Option WindowBid
  | [] => none
  | b :: rest =>
    match lowestBid rest with
    | none => some b
    | some x => if x.field < b.field then some x else some b

/-- The winner is assigned and its RING-ASSIGN queued, RECALL once the call has been parked (R78). -/
def assignWinner (o : Offer) (b : WindowBid) (s : State) : State :=
  queueNotice (.ringAssign (callIdOf s o.seq) b.cab b.line (if o.parkDone then .recall else .hunt)) <|
    modOffer o.seq (fun o => { o with
      state := .assigned, assigned := some ⟨b.cab, b.line, b.index⟩, assignTimer := false, window := none }) s

/-- The bid window of a record closes (R78). -/
def closeWindow (q : Seq) (s : State) : State :=
  match findOffer s q with
  | some o =>
    match o.window with
    | none => s
    | some l =>
      if !o.ringing.isEmpty then becomeRinging q s
      else match lowestBid l with
        | some b => assignWinner o b s
        | none => overflow q (modOffer q (fun o => { o with window := none }) s)
  | none => s

/-- The bid window opens at the own delivery of the OFFER (R76). -/
def openWindow (c : CallId) (s : State) : State :=
  if c.cab = own s then
    modOffer c.seq (fun o => if o.state = .offering then { o with window := some [] } else o) s
  else s

/-- The assign timer starts at the own delivery of the RING-ASSIGN (R49, R80). -/
def startAssignTimer (c : CallId) (cab : Cabinet) (line : Line) (s : State) : State :=
  if c.cab = own s then
    modOffer c.seq (fun o =>
      if o.state = .assigned ∧ o.assigned.any (atLine cab line) then { o with assignTimer := true } else o) s
  else s

/-- The assigned member is removed and the assign timer stopped; a HUNT record counts it as tried (R60, R63, R80). -/
def loseAssigned (o : Offer) : Offer :=
  match o.assigned with
  | some m => countTried m.index { o with assigned := none, assignTimer := false }
  | none => o

/-- The assign wait fails, by a DECLINE or by expiry: a HUNT record counts the member as tried and makes the next-step
decision (R80). -/
def failAssign (q : Seq) (s : State) : State := nextStep q (modOffer q loseAssigned s)

/-- Expiry of the assign timer (R53, R80). -/
def assignExpiry (q : Seq) (s : State) : State :=
  match findOffer s q with
  | some o =>
    if o.assignTimer then
      if isDirect o then endCall o (some .busy) s else failAssign q s
    else s
  | none => s

/-! ### Arrival (R46, R48, R49) -/

/-- The target that a CALL-ARRIVAL names, checked against check 3 of R48. -/
def arrivalTarget (s : State) (targetType : Byte) (value : Word16) : Option CallTarget :=
  match targetType.toNat with
  | 1 => if h : value.toNat < 16 then
      (if (s.he.groups.get ⟨value.toNat, h⟩).isSome then some (.hunt ⟨value.toNat, h⟩) else none) else none
  | 2 => (directoryLine value.toNat).map fun x => .direct x.1 x.2
  | _ => none

/-- The checks of R48 in order: the reason of a refusal, or the target of an accepted call. -/
def checkArrival (s : State) (ref : Word16) (targetType : Byte) (value : Word16) : Sum ArrivalRefusal CallTarget :=
  if s.clc.link ≠ .running then .inl .notReady
  else if s.ofm.offers.any fun o => decide (o.ref = ref) then .inl .inUse
  else match arrivalTarget s targetType value with
    | none => .inl .unknownTarget
    | some t => if s.ofm.offers.length ≥ offerCapacity then .inl .full else .inr t

/-- A record as it stands at arrival (R45). -/
def arrivalRecord (q : Seq) (ref : Word16) (t : CallTarget) : Offer :=
  { seq := q, ref := ref, target := t
    state := match t with
      | .hunt _ => .offering
      | .direct .. => .assigned
    attempts := 0, tried := 0, ringing := []
    assigned := match t with
      | .hunt _ => none
      | .direct cab line => some ⟨cab, line, none⟩
    assignTimer := false, depth := 0, parkDone := false, window := none }

/-- A call is given an id and a record: the counter moves on, and the wrap flag is set when it passes 255 (R46, R49). -/
def enterCall (q : Seq) (ref : Word16) (t : CallTarget) (s : State) : State :=
  onOfm (fun m => { offers := m.offers ++ [arrivalRecord q ref t], counter := nextSeq q,
                    wrapped := m.wrapped || decide (q.val = 255) }) s

/-- An accepted call (R49). -/
def acceptCall (ref : Word16) (t : CallTarget) (s : State) : State :=
  let q := nextCallSeq s
  let s := shelfSend (.accepted ref (callIdOf s q)) (enterCall q ref t s)
  match t with
  | .hunt _ => offerCall q s
  | .direct cab line => queueNotice (.ringAssign (callIdOf s q) cab line .direct) s

/-- A refused call; FULL raises OFFER-TABLE-FULL (R48). -/
def refuseCall (ref : Word16) (reason : ArrivalRefusal) (s : State) : State :=
  let s := shelfSend (.refused ref reason) s
  if reason = .full then raise .offerTableFull ref.toNat .ofm s else s

/-- A CALL-ARRIVAL record (R48, R49). -/
def callArrival (ref : Word16) (targetType : Byte) (value : Word16) (s : State) : State :=
  match checkArrival s ref targetType value with
  | .inl reason => refuseCall ref reason s
  | .inr t => acceptCall ref t s

/-- A CALL-GONE record (R62). -/
def callGone (ref : Word16) (s : State) : State :=
  withCode (s.ofm.offers.find? fun o => decide (o.ref = ref)) (endCall · none) s

/-! ### The owner's arbitration (R54 to R61) -/

/-- An answer, by an ANSWERED or by a line of this part (R55). -/
def takeAnswer (c : CallId) (cab : Cabinet) (line : Line) (idx : Option OrderIndex) (s : State) : State :=
  if c.cab = own s then
    match findOffer s c.seq with
    | some o => connectCall o cab line idx s
    | none => queueNotice (.cancel c) s
  else s

/-- A claim is refused: a REFUSED notice, or for a claim of this part's own line a refusal handed to the Line Unit (R58). -/
def refuseClaim (t : ClaimTarget) (cab : Cabinet) (line : Line) (here : Bool) (reason : ClaimRefusal) (s : State) : State :=
  if here then takeRefusal t line s else queueNotice (.refused t cab line reason) s

/-- A claim by call id (R56). -/
def claimCall (c : CallId) (cab : Cabinet) (line : Line) (here : Bool) (s : State) : State :=
  match findOffer s c.seq with
  | some o =>
    match o.state with
    | .assigned | .ringing => connectCall o cab line none s
    | .offering | .waiting _ | .parked _ => refuseClaim (.call c) cab line here .tooLate s
  | none => refuseClaim (.call c) cab line here (if issued s c.seq then .taken else .unknown) s

/-- A claim by orbit (R57). -/
def claimOrbit (n : OrbitNumber) (cab : Cabinet) (line : Line) (here : Bool) (s : State) : State :=
  match (slotOf s (orbitSlot n)).bind fun x => findOffer s x.call with
  | some o => connectCall o cab line none s
  | none => refuseClaim (.orbit n) cab line here .empty s

/-- A claim at the Offer Manager: only those toward the part's own calls and orbits are taken (R54). -/
def takeClaim (t : ClaimTarget) (cab : Cabinet) (line : Line) (here : Bool) (s : State) : State :=
  if targetOwner t = own s then
    match t with
    | .call c => claimCall c cab line here s
    | .orbit n => claimOrbit n cab line here s
  else s

/-- A member is recorded in the ringing set: its index leaves the tried set first; an entry already there, or a full set,
adds nothing (R59). -/
def recordMember (m : Member) (o : Offer) : Offer :=
  let o := match m.index with
    | some i => { o with tried := eraseIndex i o.tried }
    | none => o
  if o.ringing.any (atLine m.cab m.line) ∨ o.ringing.length ≥ ringingCapacity then o
  else { o with ringing := o.ringing ++ [m] }

/-- A RING-STARTED at its owner (R52, R59). -/
def takeRingStarted (c : CallId) (m : Member) (s : State) : State :=
  if c.cab = own s then
    match findOffer s c.seq with
    | none => queueNotice (.cancel c) s
    | some o =>
      match o.state with
      | .parked _ => queueNotice (.cancel c) s
      | .offering | .ringing | .assigned | .waiting _ =>
        let member := if isDirect o then { m with index := none } else m
        let o' := recordMember member o
        let s := modOffer c.seq (fun _ => o') s
        if o'.ringing.any (atLine m.cab m.line) then
          match o.state with
          | .assigned =>
            if o.assigned.any (atLine m.cab m.line) then
              becomeRinging c.seq (modOffer c.seq (fun o => { o with assigned := none, assignTimer := false }) s)
            else s
          | .waiting _ => becomeRinging c.seq s
          | .offering | .ringing | .parked _ => s
        else s
  else s

/-- The members of a record that `p` picks are lost: ringing members leave the ringing set and the assigned member its
place, and a HUNT record counts each as tried (R60, R63). -/
def loseMembers (p : Member → Bool) (o : Offer) : Offer :=
  let gone := o.ringing.filter p
  let o := { o with ringing := o.ringing.filter fun m => !p m }
  let o := gone.foldl (fun o m => countTried m.index o) o
  if o.assigned.any p then loseAssigned o else o

/-- The loss of members concludes a record's wait: its assigned member was removed, or it is RINGING with nothing left
ringing (R53, R60, R63). -/
def lossConcludes (before after : Offer) : Bool :=
  (before.assigned.isSome && after.assigned.isNone) || (after.ringing.isEmpty && decide (after.state = .ringing))

/-- What follows the loss of members (R53, R60, R63): where it concludes the wait, a DIRECT record ends with NO-ANSWER and a
HUNT record makes the next-step decision; any other record keeps its state (for a DIRECT one: log 34). -/
def afterLoss (before after : Offer) (s : State) : State :=
  if lossConcludes before after then
    if isDirect after then endCall after (some .noAnswer) s else nextStep after.seq s
  else s

/-- The members of a record that `p` picks are lost, if it holds any (R60, R63). -/
def loseAt (p : Member → Bool) (q : Seq) (s : State) : State :=
  match findOffer s q with
  | some o =>
    if o.ringing.any p ∨ o.assigned.any p then
      let o' := loseMembers p o
      afterLoss o o' (modOffer q (fun _ => o') s)
    else s
  | none => s

/-- A NO-ANSWER, or a RING-ENDED taken as one, at its owner (R60). -/
def takeNoAnswer (c : CallId) (cab : Cabinet) (line : Line) (s : State) : State :=
  if c.cab = own s then loseAt (atLine cab line) c.seq s else s

/-- A RING-ENDED is taken as a NO-ANSWER for three reasons (R60). -/
def lossReason : RingEndReason → Bool
  | .noAnswer | .ownerSilent | .cleared => true
  | .connected | .cancelled | .isolated => false

/-- A DECLINE at its owner: from the assigned member of an ASSIGNED record (R53, R61, R80). -/
def takeDecline (c : CallId) (cab : Cabinet) (line : Line) (s : State) : State :=
  match ownOffer s c with
  | some o =>
    if o.state = .assigned ∧ o.assigned.any (atLine cab line) then
      if isDirect o then
        endCall { o with assigned := none, assignTimer := false } (some .busy) s
      else failAssign c.seq s
    else s
  | none => s

/-! ### Waiting (R82, R84, R85) -/

/-- Expiry of the recycle pause (R82). -/
def recycleExpiry (q : Seq) (s : State) : State :=
  match findOffer s q with
  | some o => if o.state = .waiting .recyclePause then reofferAfresh q s else s
  | none => s

/-- The oldest record of a group's queue that is WAITING with reason QUEUED (R84). -/
def oldestQueued (s : State) (g : HuntGroup) : Option Seq :=
  ((groupQueue s g).map (·.call)).find? fun q =>
    (findOffer s q).any fun o => decide (o.state = .waiting .queued)

/-- An AVAILABLE at the owner side: for each group it names, the oldest QUEUED record is re-offered (R84). -/
def takeAvailable (groups : GroupSet) (s : State) : State :=
  forEach (groupsOf groups) (fun g s => withCode (oldestQueued s g) reofferAfresh s) s

/-- Expiry of a record's queue wait timer (R85). -/
def queueWaitExpiry (q : Seq) (s : State) : State :=
  match findOffer s q, standingOf s q with
  | some o, some x =>
    if x.expired then s
    else match o.state with
      | .waiting .queued =>
        match targetGroup o.target, groupOf s o with
        | some g, some p => applyStep o g p (expiryStep s o p) (dropStanding q s)
        | _, _ => endCall o (some .unanswered) s
      | .offering | .assigned =>
        onHe (fun h => { h with queue := h.queue.map fun y => if y.call = q then { y with expired := true } else y }) s
      | .ringing | .waiting .recyclePause | .parked _ => s
  | _, _ => s

/-! ### Park orbits (R101, R102, R104, R105) -/

/-- Expiry of an orbit's repeat timer (R101). -/
def repeatExpiry (i : OrbitSlot) (s : State) : State :=
  match slotOf s i with
  | some o =>
    if o.repeating then
      if o.repeats < o.limit then
        let s := setSlot i (some { o with page := none, repeats := o.repeats + 1 }) s
        let s := withCode o.page endCodePage s
        requestCodePage i o.paging s
      else setSlot i (some { o with repeating := false }) s
    else s
  | none => s

/-- Expiry of an orbit's recall timer (R104). -/
def recallExpiry (i : OrbitSlot) (s : State) : State :=
  match slotOf s i with
  | some o => reofferAfresh o.call (modOffer o.call (fun r => { r with parkDone := true }) (freeSlot i s))
  | none => s

/-- An ALL-STOP at the PPU: the repeat timer of every occupied slot stops (R102). -/
def ppuAllStop (s : State) : State :=
  onPpu (fun u => { u with orbits := u.orbits.map fun o => o.map fun x => { x with repeating := false } }) s

/-! ### Silence, isolation and SHELF-CLEAR (R63, R64, R66, R88) -/

/-- The sequence values of the records in the table. -/
def offerSeqs (s : State) : List Seq := s.ofm.offers.map (·.seq)

/-- The HE's owner side at a peer's silence: its bids leave every open window, and queued RING-ASSIGNs to it are withdrawn
(R88). -/
def ownerPeerSilent (p : Cabinet) (s : State) : State :=
  withdraw (isAssignTo p) <|
    onOfm (fun m => { m with offers := m.offers.map fun o =>
      { o with window := o.window.map fun l => l.filter fun b => !decide (b.cab = p) } }) s

/-- The OFM at a peer's silence (R63). -/
def ofmPeerSilent (p : Cabinet) (s : State) : State :=
  let s := ownerPeerSilent p s
  forEach (offerSeqs s) (loseAt fun m => decide (m.cab = p)) s

/-- A record ends at isolation: it is OFFERING, WAITING or PARKED, or has a member at another cabinet (R64). -/
def endsIsolated (ownCab : Cabinet) (o : Offer) : Bool :=
  (match o.state with
    | .offering | .waiting _ | .parked _ => true
    | .assigned | .ringing => false)
  || o.assigned.any (fun m => !decide (m.cab = ownCab)) || o.ringing.any (fun m => !decide (m.cab = ownCab))

/-- The OFM at entry to ISOLATED, or to LISTEN-ONLY from LISTENING or RUNNING (R64). -/
def ofmIsolated (s : State) : State :=
  forEach (s.ofm.offers.filter (endsIsolated (own s))) (fun o s => endCallSeq o.seq (some .isolated) s) s

/-- SHELF-CLEAR at the OFM: every record ends without outcome (R66). -/
def ofmShelfClear (s : State) : State := forEach (offerSeqs s) (fun q s => endCallSeq q none s) s

end Sys2Proof.Machine
end

