-- ==== Sys2Proof/Machine/Members.lean ====
section
/-! DEFINITION. The member side of the Hunt Engine: heard offers, bids, simultaneous rings, ring assignments
(sections 4.2 and 4.3, R37, R68 to R75). -/

namespace Sys2Proof.Machine

/-! ### The heard-offer list (R70) -/

/-- The heard-offer list holds up to 32 entries. -/
def heardCapacity : Nat := 32

/-- The entry of a call leaves the heard-offer list. -/
def forgetOffer (c : CallId) (s : State) : State :=
  onHe (fun h => { h with heard := h.heard.filter fun e => !decide (e.call = c) }) s

/-- An OFFER enters the heard-offer list at the newest place, in place of an entry for the same call; on a full list the
oldest leaves first (R70). -/
def hearOffer (c : CallId) (g : HuntGroup) (s : State) : State :=
  onHe (fun h =>
    let others := h.heard.filter fun e => !decide (e.call = c)
    let kept := if others.length < heardCapacity then others else others.drop 1
    { h with heard := kept ++ [⟨c, g⟩] }) s

/-- The group the HE supplies for a RING-ASSIGN (R70). -/
def heardGroup (s : State) (c : CallId) : Option HuntGroup :=
  (s.he.heard.find? fun e => decide (e.call = c)).map (·.group)

/-! ### Ranking (R69) -/

/-- The part's own discipline for a group, LINEAR where it holds no entry (R67). -/
def disciplineOf (s : State) (g : HuntGroup) : Discipline :=
  match s.he.groups.get g with
  | some p => p.discipline
  | none => .linear

/-- The CIRCULAR key: (i - last - 1) mod 32, in 0 to 31 (R69). -/
def circularKey (i last : OrderIndex) : BidKey := ⟨(i.val + 63 - last.val) % 32, by omega⟩

/-- The LONGEST-IDLE key: 1023 - min(idle seconds, 1023) (R69). -/
def idleKey (idleSecs : Nat) : BidKey := ⟨1023 - min idleSecs 1023, by omega⟩

/-- The key of a candidate line with an order index in a group (R69). -/
def bidKey (s : State) (g : HuntGroup) (l : Line) (i : OrderIndex) : BidKey :=
  match disciplineOf s g with
  | .linear | .simultaneous => ⟨i.val, by omega⟩
  | .circular => circularKey i (s.he.rotation.get g)
  | .longestIdle => idleKey (lineOf s l).idleSecs

/-- A candidate of one OFFER: its key, order index and line. -/
structure Candidate where
  key   : BidKey
  index : OrderIndex
  line  : Line
  deriving DecidableEq, Repr

/-- A candidate is better than another: lower key, then lower order index, then lower line number (R69). -/
def better (a b : Candidate) : Bool :=
  decide (a.key < b.key ∨ (a.key = b.key ∧ (a.index < b.index ∨ (a.index = b.index ∧ a.line < b.line))))

/-- A candidate takes its place in a ranked list. -/
def rankInto (a : Candidate) : List Candidate → List Candidate
  | [] => [a]
  | b :: rest => if better a b then a :: b :: rest else b :: rankInto a rest

/-- Candidates in their ranking, best first (R69, R71 step 3). -/
def rank : List Candidate → List Candidate
  | [] => []
  | a :: rest => rankInto a (rank rest)

/-- A line's candidacy: a membership for the group, an order index outside the tried set, available (R71 step 2). -/
def candidateAt (s : State) (g : HuntGroup) (tried : IndexSet) (l : Line) : Option Candidate :=
  match indexIn (lineOf s l).memberships g with
  | some i =>
    if !hasIndex tried i && isAvailable (lineOf s l) g then some ⟨bidKey s g l i, i, l⟩ else none
  | none => none

/-- The candidates for an OFFER, in order of line number. -/
def candidates (s : State) (g : HuntGroup) (tried : IndexSet) : List Candidate :=
  allLines.filterMap (candidateAt s g tried)

/-! ### OFFER at the member side (R71, R74) -/

/-- The bid of a candidate whose reservation the LU has granted: a bid entry QUEUED with its 50 ms send limit running,
and a BID (R71 step 5). -/
def formBid (c : CallId) (x : Candidate) (s : State) : State :=
  queueNotice (.bid c x.line x.index x.key) <|
    onHe (fun h => { h with bids := h.bids ++ [⟨c, x.line, x.index, x.key, .queued, true, false⟩] }) s

/-- The member side asks the LU for the best candidate, then the next, until one is granted (R71 steps 3 to 5). -/
def bidFor (c : CallId) (g : HuntGroup) (tried : IndexSet) (s : State) : State :=
  match (rank (candidates s g tried)).find? fun x => isAvailable (lineOf s x.line) g with
  | some x => formBid c x (reserve x.line c g s)
  | none => s

/-- A simultaneous ring request at the LU: the line rings with HUNT cadence if it is available for the group (R37, R74). -/
def simultaneousRequest (c : CallId) (g : HuntGroup) (x : Candidate) (s : State) : State :=
  if isAvailable (lineOf s x.line) g then startRinging x.line c .hunt (some g) s else s

/-- A SIMULTANEOUS offer: one ring request for each candidate, in order of line number (R74). -/
def ringAll (c : CallId) (g : HuntGroup) (tried : IndexSet) (s : State) : State :=
  forEach (candidates s g tried) (simultaneousRequest c g) s

/-- An OFFER at the member side: it enters the heard-offer list, an earlier bid for the call is ended, and the member side
bids or rings by its own discipline (R70, R71, R74). -/
def memberOffer (c : CallId) (g : HuntGroup) (tried : IndexSet) (s : State) : State :=
  let s := releaseCall c (hearOffer c g s)
  match disciplineOf s g with
  | .simultaneous => ringAll c g tried s
  | .linear | .circular | .longestIdle => bidFor c g tried s

/-! ### The bid entry (R72) -/

/-- Bid entries of a call change. -/
def modBid (c : CallId) (f : BidEntry → BidEntry) (s : State) : State :=
  onHe (fun h => { h with bids := h.bids.map fun b => if b.call = c then f b else b }) s

/-- The bid entry of a call. -/
def bidOf (s : State) (c : CallId) : Option BidEntry := s.he.bids.find? fun b => decide (b.call = c)

/-- The BID of a call is in an attempt. -/
def bidInAttempt (s : State) (c : CallId) : Bool :=
  s.clc.queue.any fun e => e.inAttempt && isBidFor c e.notice

/-- The member side withdraws a BID that is not sent: the entry ends with its reservation, or, while the BID is in an
attempt, the request waits for the attempt's end (R9, R72, R73). -/
def withdrawBid (c : CallId) (s : State) : State :=
  if bidInAttempt s c then withdraw (isBidFor c) (modBid c (fun b => { b with limit := false, ending := true }) s)
  else releaseCall c s

/-- A withdrawal that waited for the end of the BID's attempt has taken effect: the entry ends (R9, R72). -/
def bidWithdrawn (c : CallId) (s : State) : State :=
  match bidOf s c with
  | some b => if b.ending then releaseCall c s else s
  | none => s

/-- A BID heard from another cabinet at the member side: a better one for the same call makes a QUEUED bid withdraw
(R72). -/
def memberBid (c : CallId) (field : Nat) (s : State) : State :=
  match bidOf s c with
  | some b =>
    if b.standing = .queued ∧ field < arbNumber 2 b.key.val (own s) then withdrawBid c s else s
  | none => s

/-- Own delivery of the BID: the entry becomes SENT and the send limit is stopped (R72). -/
def bidSent (c : CallId) (s : State) : State :=
  modBid c (fun b => { b with standing := .sent, limit := false, ending := false }) s

/-- Expiry of the send limit of a bid entry (R72). -/
def sendLimitExpiry (c : CallId) (s : State) : State :=
  match bidOf s c with
  | some b => if b.limit then withdrawBid c (modBid c (fun b => { b with limit := false }) s) else s
  | none => s

/-! ### RING-ASSIGN (R37, R75) -/

/-- The line holds the reservation for a call. -/
def reservedFor (r : LineRec) (c : CallId) : Bool :=
  match r.reserved with
  | some v => decide (v.call = c)
  | none => false

/-- A RING-ASSIGN that names a line of the part is accepted (R37); the reservation still counts for it (R75). -/
def assignAccepted (s : State) (c : CallId) (l : Line) (cad : Cadence) : Bool :=
  let r := lineOf s l
  match cad with
  | .direct => decide (r.inService = true ∧ r.state = .idle ∧ r.dnd = false ∧ r.reserved = none)
  | .hunt | .recall =>
    reservedFor r c || (match heardGroup s c with
      | some g => isAvailable r g
      | none => false)

/-- The group of a ringing (R37): none for DIRECT, else the reservation's, else the one the heard-offer list supplies
(log 12). -/
def assignGroup (s : State) (c : CallId) (l : Line) (cad : Cadence) : Option HuntGroup :=
  match cad with
  | .direct => none
  | .hunt | .recall =>
    match (lineOf s l).reserved with
    | some v => if v.call = c then some v.group else heardGroup s c
    | none => heardGroup s c

/-- The RING-ASSIGN's line of this part rings, declines, or rings on (R37). -/
def decideAssign (c : CallId) (l : Line) (cad : Cadence) (accepted : Bool) (g : Option HuntGroup) (s : State) : State :=
  if ringsFor (lineOf s l) c then s
  else if accepted then startRinging l c cad g s
  else queueNotice (.decline c l) s

/-- A RING-ASSIGN at the Line Unit: it ends the reservation for the call, whichever line it names, and decides a line of
this part (R35, R37, R75). That the named line's DECLINE or RING-STARTED is queued before the AVAILABLE of another line that
held the reservation is the model's choice (log 14). -/
def lineAssign (c : CallId) (cab : Cabinet) (l : Line) (cad : Cadence) (s : State) : State :=
  let accepted := assignAccepted s c l cad
  let group := assignGroup s c l cad
  let holder := reservedLine s c
  let s := withCode holder endReservation s
  let s := if cab = own s then decideAssign c l cad accepted group s else s
  withCode holder refresh s

/-! ### CONNECTED and CANCEL at the Hunt Engine (R68, R70, R73) -/

/-- The rotation pointer of a group is set by a CONNECTED that names a group and an index (R68). -/
def rotate (g : Option HuntGroup) (i : Option OrderIndex) (s : State) : State :=
  match g, i with
  | some g, some i => onHe (fun h => { h with rotation := h.rotation.set g i }) s
  | _, _ => s

/-- A CONNECTED at the Hunt Engine: pointer, heard-offer list, and the release of a reservation for the call. -/
def huntConnected (c : CallId) (g : Option HuntGroup) (i : Option OrderIndex) (s : State) : State :=
  releaseCall c (forgetOffer c (rotate g i s))

/-- A CANCEL at the Hunt Engine; the bid entry ends with the reservation, which the LU ends (R73). -/
def huntCancel (c : CallId) (s : State) : State := forgetOffer c s

end Sys2Proof.Machine
end

