-- ==== Sys2Proof/Machine/Lines.lean ====
section
/-! DEFINITION. Line Port events, feature codes, line timers and SHELF-CLEAR at the Line Unit (chapter 2), and the claims
that the Pickup and Park Unit forms for a line (section 5.2). -/

namespace Sys2Proof.Machine

/-! ### Off-hook (R23, R40) -/

/-- An IDLE or WRAP-UP line goes off-hook: DIALING with collection OPEN (R23). -/
def openDialling (l : Line) (s : State) : State :=
  let s := onLine l (fun r => { r with
    state := .dialing, collecting := true, buffer := [], digitTimer := some .first, wrapUp := none }) s
  refresh l (orderTone l .dial (endReservation l s))

/-- An answer goes to the owner: to the own Offer Manager directly, else as ANSWERED (R40). -/
def passAnswer (l : Line) (c : CallId) (idx : Option OrderIndex) (s : State) : State :=
  if c.cab = own s then takeAnswer c (own s) l idx s else queueNotice (.answered c l idx) s

/-- A RINGING line goes off-hook: an answer (R40). -/
def answerLine (l : Line) (s : State) : State :=
  match (lineOf s l).call with
  | some c =>
    let s := onLine l (fun r => { r with
      state := .answerPending, cadenceAt := none, noAnswer := none
      call := some { c with cadence := none }, verdict := some ⟨.call c.call, .answer⟩ }) s
    passAnswer l c.call c.index (orderTone l .none (orderRing l false s))
  | none => s

/-- An off-hook event (R22, R23). -/
def takeOffHook (l : Line) (s : State) : State :=
  match (lineOf s l).state with
  | .idle | .wrapUp => openDialling l s
  | .ringing => answerLine l s
  | .outOfService => if s.phase = .halted then orderTone l .refuse s else s
  | .dialing | .answerPending | .pickupPending | .talking | .paging | .busy => s

/-! ### On-hook (R24, R42) -/

/-- The wrap-up time that follows a talk: above 0, and only for a group in which the line has a membership (R42). -/
def wrapUpAfter (s : State) (r : LineRec) : Option Nat :=
  match r.call.bind (·.group) with
  | some g =>
    if (indexIn r.memberships g).isSome ∧ 0 < groupWrapUp s g then some (groupWrapUp s g) else none
  | none => none

/-- The line enters WRAP-UP (R24, R42). -/
def enterWrapUp (l : Line) (t : Nat) (s : State) : State :=
  refresh l <| orderTone l .none <| orderRing l false <|
    onLine l (fun r => { r with state := .wrapUp, wrapUp := some t, call := none }) s

/-- A TALKING line goes on-hook (R24, R42). -/
def endTalking (l : Line) (s : State) : State :=
  let r := lineOf s l
  let s := shelfSend (.lineOnHook l (r.call.map (·.call))) (onLine l (fun r => { r with idleSecs := 0 }) s)
  match wrapUpAfter s r with
  | some t => enterWrapUp l t s
  | none => becomeIdle l s

/-- An on-hook event by the line's state (R22, R24). -/
def hangUp (l : Line) (s : State) : State :=
  match (lineOf s l).state with
  | .dialing => becomeIdle l (onLine l (fun r => { r with buffer := [], digitTimer := none }) s)
  | .answerPending | .pickupPending => becomeIdle l s
  | .talking => endTalking l s
  | .paging => becomeIdle l (onLine l (fun r => { r with page := none }) (pageOnHook l s))
  | .busy => becomeIdle l (shelfSend (.lineOnHook l none) s)
  | .outOfService => if s.phase = .halted then orderTone l .none s else s
  | .idle | .ringing | .wrapUp => s

/-- An on-hook event: the override armed flag is cleared in every case (R24). -/
def takeOnHook (l : Line) (s : State) : State := hangUp l (onLine l (fun r => { r with armed := false }) s)

/-! ### Feature codes (R27) -/

/-- The feature codes of R27. -/
inductive Code where
  | login | logout | groupPickup | directedPickup | retrieve | routinePage | alarmPage | dnd | allStop
  | overrideRoutine | overrideAlarm
  deriving DecidableEq, Repr

/-- A position of a code: a fixed digit, or a place holder for a digit 0 to 9. -/
inductive Place where
  | lit (d : Digit)
  | number
  deriving DecidableEq, Repr

/-- A fixed decimal digit. -/
def lit (n : Fin 10) : Place := .lit (.num n)

/-- The positions of a code (R27). -/
def codePlaces : Code → List Place
  | .login => [.lit .star, lit 1, .number, .number]
  | .logout => [.lit .star, lit 2, .number, .number]
  | .groupPickup => [.lit .star, lit 3]
  | .directedPickup => [.lit .star, lit 4, .number, .number, .number]
  | .retrieve => [.lit .star, lit 5, .number, .number]
  | .routinePage => [.lit .star, lit 6, .number, .number]
  | .alarmPage => [.lit .star, lit 7, .number, .number]
  | .dnd => [.lit .star, lit 8]
  | .allStop => [.lit .star, lit 9]
  | .overrideRoutine => [.lit .hash, .lit .star, lit 6, .number, .number]
  | .overrideAlarm => [.lit .hash, .lit .star, lit 7, .number, .number]

/-- The codes in the order of the table of R27. -/
def allCodes : List Code :=
  [.login, .logout, .groupPickup, .directedPickup, .retrieve, .routinePage, .alarmPage, .dnd, .allStop,
   .overrideRoutine, .overrideAlarm]

/-- A digit fits a position. -/
def fitsPlace : Place → Digit → Bool
  | .lit d, x => decide (x = d)
  | .number, .num _ => true
  | .number, _ => false

/-- The buffer equals the code (R27). -/
def equalsCode : List Place → List Digit → Bool
  | [], [] => true
  | p :: ps, d :: ds => fitsPlace p d && equalsCode ps ds
  | _, _ => false

/-- The buffer is a proper beginning of the code (R27). -/
def beginsCode : List Place → List Digit → Bool
  | _ :: _, [] => true
  | p :: ps, d :: ds => fitsPlace p d && beginsCode ps ds
  | [], _ => false

/-- The number in the place holders of a code. -/
def placedNumber (ps : List Place) (ds : List Digit) : Nat :=
  (ps.zip ds).foldl (fun n x => match x with
    | (.number, .num d) => 10 * n + d.val
    | _ => n) 0

/-- The comparison of a buffer with the codes (R27): a complete code with its number, a proper beginning, or neither. -/
inductive Comparison where
  | complete (c : Code) (number : Nat)
  | beginning
  | neither
  deriving DecidableEq, Repr

/-- The comparison of a buffer with the codes (R27). -/
def compareBuffer (b : List Digit) : Comparison :=
  match allCodes.find? fun c => equalsCode (codePlaces c) b with
  | some c => .complete c (placedNumber (codePlaces c) b)
  | none => if allCodes.any fun c => beginsCode (codePlaces c) b then .beginning else .neither

/-! ### Checks and refusal (R28) -/

/-- A code that needs SUPERVISOR privilege: `*7PP`, `*9`, and every code that begins with `#` (R28). -/
def needsSupervisor : Code → Bool
  | .alarmPage | .allStop | .overrideRoutine | .overrideAlarm => true
  | .login | .logout | .groupPickup | .directedPickup | .retrieve | .routinePage | .dnd => false

/-- The number of a code is in the range that R28 checks. -/
def numberAllowed (c : Code) (n : Nat) : Bool :=
  match c with
  | .login | .logout => decide (n ≤ 15)
  | .routinePage | .alarmPage | .overrideRoutine | .overrideAlarm => decide (n ≤ 31 ∨ n = 99)
  | .directedPickup => decide (100 ≤ n ∧ n ≤ 355)
  | .retrieve => decide (n ≤ 63)
  | .groupPickup | .dnd | .allStop => true

/-- A complete code passes the checks of R28. -/
def passesChecks (r : LineRec) (c : Code) (n : Nat) : Bool :=
  (decide (r.privilege = .supervisor) || !needsSupervisor c) && numberAllowed c n

/-- Refusal of a code: tone REFUSE, buffer, timer and arm cleared, collection CLOSED (R28). -/
def refuseCode (l : Line) (s : State) : State :=
  orderTone l .refuse <| onLine l (fun r => { r with
    buffer := [], digitTimer := none, armed := false, collecting := false }) s

/-- A code has succeeded and the line goes on dialling: tone CONFIRM, empty buffer, first-digit timer (R29, R30, R32). -/
def confirmCode (l : Line) (s : State) : State :=
  orderTone l .confirm <| onLine l (fun r => { r with
    buffer := [], digitTimer := some .first, collecting := true }) s

/-! ### Features of the Line Unit (R29, R30) -/

/-- A membership's logged-in flag is set as asked (R29). -/
def setLogin (g : HuntGroup) (on : Bool) (ms : List Membership) : List Membership :=
  ms.map fun m => if m.group = g then { m with loggedIn := on } else m

/-- `*1GG` and `*2GG` (R29). -/
def logInOut (l : Line) (g : HuntGroup) (on : Bool) (s : State) : State :=
  if (indexIn (lineOf s l).memberships g).isSome then
    confirmCode l (onLine l (fun r => { r with memberships := setLogin g on r.memberships }) s)
  else refuseCode l s

/-- `*8` (R30). -/
def toggleDnd (l : Line) (s : State) : State := confirmCode l (onLine l (fun r => { r with dnd := !r.dnd }) s)

/-! ### Pages and all-stop (R31, R32) -/

/-- The line enters PAGING and its request goes to the Page Originator; the arm is handed over with it (R31, R32). -/
def requestPage (l : Line) (cls : PageClass) (target : PageTarget) (s : State) : State :=
  let override := (lineOf s l).armed
  let s := orderTone l .none <| onLine l (fun r => { r with state := .paging, buffer := [], armed := false }) s
  pageRequest l cls target override s

/-- The page target of a code's number, 99 meaning ALL (R27). -/
def pageTargetOf (n : Nat) : Option PageTarget :=
  if n = 99 then some .all else if h : n < 32 then some (.group ⟨n, h⟩) else none

/-- `*9`: an all-stop request (R32). -/
def requestAllStop (l : Line) (s : State) : State := confirmCode l (allStopRequest s)

/-! ### Pickup and retrieve claims (R33, R94 to R98) -/

/-- The owner of a call or orbit is reachable (R94). -/
def reachable (s : State) (cab : Cabinet) : Bool :=
  decide (cab = own s) || decide (s.clc.link = .running ∧ (s.clc.peers.get cab).state = .present)

/-- A view entry names the claimer's own line. -/
def isClaimer (s : State) (l : Line) (e : ViewEntry) : Bool := decide (e.cab = own s ∧ e.line = l)

/-- The entry that a group pickup selects (R95). -/
def groupSelection (s : State) (l : Line) : Option ViewEntry :=
  match (lineOf s l).pickup with
  | none => none
  | some g => s.ppu.view.find? fun e =>
      decide (e.pickup = some g) && !e.marked && !isClaimer s l e && reachable s e.call.cab

/-- The entry that a directed pickup selects (R96). -/
def directedSelection (s : State) (l : Line) (number : Nat) : Option ViewEntry :=
  match directoryLine number with
  | none => none
  | some (cab, line) =>
    if cab = own s ∧ line = l then none
    else s.ppu.view.find? fun e => decide (e.cab = cab ∧ e.line = line) && reachable s e.call.cab

/-- What a retrieve claims (R97). -/
def retrieveSelection (s : State) (number : Nat) : Option ClaimTarget :=
  if h : number < 64 then
    (if reachable s (orbitCabinet ⟨number, h⟩) then some (.orbit ⟨number, h⟩) else none)
  else none

/-- The claim goes out: to the own Offer Manager, or as a CLAIM to a peer (R98 step 3). -/
def dispatchClaim (l : Line) (t : ClaimTarget) (s : State) : State :=
  if targetOwner t = own s then takeClaim t (own s) l true s else queueNotice (.claim t (own s) l) s

/-- The claimed mark is set by a claim by call id (R92). -/
def markClaim (t : ClaimTarget) (s : State) : State :=
  match t with
  | .call c => viewMark c s
  | .orbit _ => s

/-- A claim is formed: the line is PICKUP-PENDING, the marks are set, the claim goes out (R33, R98). -/
def formClaim (l : Line) (t : ClaimTarget) (s : State) : State :=
  let s := orderTone l .none <| onLine l (fun r => { r with
    state := .pickupPending, buffer := [], verdict := some ⟨t, .pickup⟩ }) s
  dispatchClaim l t (markClaim t s)

/-- The Pickup and Park Unit's answer to a claim request: formed or refused (R33). -/
def claimRequest (l : Line) (t : Option ClaimTarget) (s : State) : State :=
  match t with
  | some t => formClaim l t s
  | none => refuseCode l s

/-- The call of a selected entry as a claim. -/
def claimOf (e : Option ViewEntry) : Option ClaimTarget := e.map fun e => .call e.call

/-! ### A complete code is acted on (R28) -/

/-- The page request of a code and number. -/
def pageCode (l : Line) (cls : PageClass) (n : Nat) (s : State) : State :=
  match pageTargetOf n with
  | some t => requestPage l cls t s
  | none => refuseCode l s

/-- The login or logout of a code and number. -/
def groupCode (l : Line) (n : Nat) (on : Bool) (s : State) : State :=
  if h : n < 16 then logInOut l ⟨n, h⟩ on s else refuseCode l s

/-- A code that has passed its checks is acted on (R28 to R33). -/
def actOnCode (l : Line) (c : Code) (n : Nat) (s : State) : State :=
  match c with
  | .login => groupCode l n true s
  | .logout => groupCode l n false s
  | .groupPickup => claimRequest l (claimOf (groupSelection s l)) s
  | .directedPickup => claimRequest l (claimOf (directedSelection s l n)) s
  | .retrieve => claimRequest l (retrieveSelection s n) s
  | .routinePage | .overrideRoutine => pageCode l .routine n s
  | .alarmPage | .overrideAlarm => pageCode l .alarm n s
  | .dnd => toggleDnd l s
  | .allStop => requestAllStop l s

/-- The buffer is judged (R27, R28). -/
def judgeBuffer (l : Line) (s : State) : State :=
  match compareBuffer (lineOf s l).buffer with
  | .complete c n => if passesChecks (lineOf s l) c n then actOnCode l c n s else refuseCode l s
  | .beginning => onLine l (fun r => { r with digitTimer := some .interDigit }) s
  | .neither => refuseCode l s

/-! ### Digits (R25, R26) -/

/-- An ordinary first digit: the line is handed to the shelf and becomes BUSY (R25). -/
def handToShelf (l : Line) (n : Fin 10) (s : State) : State :=
  shelfSend (.lineToShelf l n) (onLine l (fun r => { r with state := .busy, buffer := [] }) s)

/-- A digit joins the buffer, a first `#` arms the override, and the buffer is judged (R25, R27, R31). -/
def joinBuffer (l : Line) (d : Digit) (s : State) : State :=
  judgeBuffer l (onLine l (fun r => { r with
    armed := r.armed || decide (r.buffer = [] ∧ d = .hash), buffer := r.buffer ++ [d] }) s)

/-- A digit that the line takes, its timer stopped and tone NONE ordered (R25). -/
def placeDigit (l : Line) (d : Digit) (s : State) : State :=
  if (lineOf s l).buffer = [] then
    match d with
    | .num n => handToShelf l n s
    | .star | .hash => if s.phase = .running then joinBuffer l d s else refuseCode l s
  else joinBuffer l d s

/-- A line takes digits: DIALING with collection OPEN (R25). -/
def takesDigits (r : LineRec) : Bool := decide (r.state = .dialing) && r.collecting

/-- A digit event (R25). -/
def takeDigit (l : Line) (d : Digit) (s : State) : State :=
  if takesDigits (lineOf s l) then
    placeDigit l d (orderTone l .none (onLine l (fun r => { r with digitTimer := none }) s))
  else s

/-- Expiry of the digit timer refuses the code (R26, R28). -/
def digitExpiry (l : Line) (s : State) : State :=
  if (lineOf s l).digitTimer.isSome then refuseCode l s else s

/-! ### Line timers (R35, R38, R41, R42) -/

/-- The end of a cadence interval: the ring order of the next interval (R38). -/
def cadenceExpiry (l : Line) (s : State) : State :=
  let r := lineOf s l
  match r.state, r.cadenceAt, r.call.bind (·.cadence) with
  | .ringing, some k, some cad =>
    let next := (k + 1) % (cadenceIntervals cad).length
    match (cadenceIntervals cad)[next]? with
    | some (_, on) => orderRing l on (onLine l (fun r => { r with cadenceAt := some next }) s)
    | none => s
  | _, _, _ => s

/-- Expiry of a ringing line's no-answer timer (R38, R39). -/
def noAnswerExpiry (l : Line) (s : State) : State :=
  if (lineOf s l).state = .ringing ∧ (lineOf s l).noAnswer.isSome then stopRinging l .noAnswer s else s

/-- Expiry of the verdict timer (R41). -/
def verdictExpiry (l : Line) (s : State) : State :=
  if (lineOf s l).verdict.isSome then resolveLost l s else s

/-- A one-second expiry in WRAP-UP (R42). -/
def wrapUpSecond (l : Line) (s : State) : State :=
  match (lineOf s l).state, (lineOf s l).wrapUp with
  | .wrapUp, some n =>
    if n ≤ 1 then becomeIdle l (onLine l (fun r => { r with wrapUp := none }) s)
    else onLine l (fun r => { r with wrapUp := some (n - 1) }) s
  | _, _ => s

/-- A one-second expiry while IDLE (R42). -/
def idleSecond (l : Line) (s : State) : State :=
  if (lineOf s l).state = .idle then onLine l (fun r => { r with idleSecs := min 1023 (r.idleSecs + 1) }) s else s

/-! ### SHELF-CLEAR (R44) and JOIN (R36) -/

/-- A TALKING line at SHELF-CLEAR (R44). -/
def clearTalking (l : Line) (s : State) : State :=
  orderTone l .busy <| onLine l (fun r => { r with state := .busy, call := none, idleSecs := 0 }) s

/-- SHELF-CLEAR at one line; a PAGING line follows the Page Originator's report (R44). -/
def clearLine (l : Line) (s : State) : State :=
  match (lineOf s l).state with
  | .ringing => stopRinging l .cleared s
  | .answerPending | .pickupPending => resolveLost l s
  | .talking => clearTalking l s
  | .paging | .dialing | .busy | .wrapUp | .idle | .outOfService => s

/-- SHELF-CLEAR at the Line Unit (R44). -/
def lineShelfClear (s : State) : State := forEach allLines clearLine s

/-- The groups for which at least one line is available. -/
def allAvailable (s : State) : GroupSet := allLines.foldr (fun l t => (lineOf s l).available ||| t) 0

/-- JOIN at the Line Unit: one AVAILABLE for every group with an available line, if there is one (R36). -/
def announceAvailable (s : State) : State :=
  if allAvailable s = 0 then s else queueNotice (.available (allAvailable s)) s

end Sys2Proof.Machine
end

