-- ==== Sys2Proof/Machine/Levels.lean ====
section
/-! DEFINITION. The Level Unit: smoothing, target and current attenuation of a zone (chapter 9). -/

namespace Sys2Proof.Machine

/-! ### What the Zone Controller tells (R126, R157) -/

/-- The zone is active: WAKING, CHIME, LIVE, TONE, CODE (R126, R157). -/
def zoneActive : ZoneState → Bool
  | .waking | .chime | .live | .tone | .code => true
  | .outOfService | .fault | .released | .hang => false

/-- The class of what the active place holds. -/
def activeClass : Option Active → Option PageClass
  | none => none
  | some .evacuation => some .evac
  | some (.page e _) => some e.cls

/-- The level class: EVAC while the evacuation set is non-empty, else the class of the active page, or none (R157). -/
def levelClass (r : ZoneRec) : Option PageClass :=
  if r.evac ≠ [] then some .evac else activeClass r.active

/-! ### Arithmetic (R162 to R164, R167) -/

/-- The filter: A moves by (16 x used - A) divided by 2^shift, truncated toward zero (R162). -/
def filterStep (smoothed used shift : Nat) : Nat :=
  ((smoothed : Int) + Int.tdiv (16 * (used : Int) - (smoothed : Int)) ((2 ^ shift : Nat) : Int)).toNat

/-- The ambient level: (A + 8) divided by 16, truncated (R163). -/
def ambientLevel (smoothed : Nat) : Nat := (smoothed + 8) / 16

/-- The compensation: S x (level - Rf), divided by 4 and truncated toward zero (R163). -/
def compensation (p : LevelParams) (level : Nat) : Int :=
  Int.tdiv ((p.slope : Int) * ((level : Int) - (p.refAmb : Int))) 4

/-- The target attenuation (R164). -/
def targetOf (p : LevelParams) (level : Nat) (cls : Option PageClass) : Nat :=
  let raw : Int := (p.base : Int) - compensation p level - (if cls = some .alarm then 12 else 0)
  if cls = some .evac then p.floor
  else (max (p.floor : Int) (min (p.ceiling : Int) raw)).toNat

/-- A ramp step from C toward T by at most P (R167). -/
def rampStep (current target step : Nat) : Nat :=
  if current ≤ target then (if target - current ≤ step then target else current + step)
  else (if current - target ≤ step then target else current - step)

/-! ### The level state of a zone -/

/-- The level state of a zone. -/
def levelOf (s : State) (z : LocalZone) : Level := s.lvu.get z

/-- C changes: the new C is sent as the attenuation order; an equal one sends nothing (R166). -/
def setCurrent (z : LocalZone) (c : Nat) (s : State) : State :=
  if (levelOf s z).current = c then s
  else emit (.attenuation z c) (onLevel z (fun v => { v with current := c }) s)

/-- T is recomputed for the level class the zone has now (R164, R165). -/
def retarget (z : LocalZone) (s : State) : State :=
  onLevel z (fun v => { v with target := targetOf (zoneOf s z).cfg.level v.level (levelClass (zoneOf s z)) }) s

/-- T is recomputed and C set equal to T, in one change (R166): a report of a new active page, of the last page leaving or
of entry to FAULT, and a change of the evacuation set in FAULT. The zone's other orders of that event, amplifier, source and
note, go out before its attenuation order (the model's choice, log 14). -/
def jumpLevel (z : LocalZone) (s : State) : State :=
  let s := retarget z s
  setCurrent z (levelOf s z).target s

/-- The report that the last page has left an active zone: the hold-off count becomes 2 and C becomes T (R166, R168). -/
def lastPageLevel (z : LocalZone) (s : State) : State :=
  jumpLevel z (onLevel z (fun v => { v with holdOff := 2 }) s)

/-- C after a sample: a ramp step in an active zone, T in any other (R166, R167). -/
def followTarget (z : LocalZone) (s : State) : State :=
  let v := levelOf s z
  let c := if zoneActive (zoneOf s z).state then rampStep v.current v.target (zoneOf s z).cfg.level.ramp else v.target
  setCurrent z c s

/-- A is set, and the level and T are recomputed from it (R163 to R165). -/
def setSmoothed (z : LocalZone) (a : Nat) (s : State) : State :=
  retarget z (onLevel z (fun v => { v with smoothed := a, level := ambientLevel a }) s)

/-- A fault sample (R159). -/
def faultSample (z : LocalZone) (s : State) : State :=
  let v := levelOf s z
  if v.failed then followTarget z s
  else if v.faultRun < 7 then followTarget z (onLevel z (fun v => { v with faultRun := v.faultRun + 1 }) s)
  else
    let s := onLevel z (fun v => { v with faultRun := 8, failed := true }) s
    let s := setSmoothed z (16 * (zoneOf s z).cfg.level.fallback) s
    followTarget z (raise .sensorFailed (numberOf s z).val .lvu s)

/-- The used value and shift of a valid sample: clipped and slower while the zone is active (R161). -/
def usedAndShift (s : State) (z : LocalZone) (a : Nat) : Nat × Nat :=
  let p := (zoneOf s z).cfg.level
  if zoneActive (zoneOf s z).state then (min a ((levelOf s z).level + p.rise), p.smooth + 2) else (a, p.smooth)

/-- A valid sample: a reseed while the sensor is failed (R160), held off, or used (R161). -/
def validSample (z : LocalZone) (a : Nat) (s : State) : State :=
  let v := levelOf s z
  if v.failed then
    followTarget z (setSmoothed z (16 * a) (onLevel z (fun v => { v with faultRun := 0, failed := false }) s))
  else
    let s := onLevel z (fun v => { v with faultRun := 0 }) s
    if v.holdOff > 0 then followTarget z (onLevel z (fun v => { v with holdOff := v.holdOff - 1 }) s)
    else
      let u := usedAndShift s z a
      followTarget z (setSmoothed z (filterStep v.smoothed u.1 u.2) s)

/-- A sample: code 255 is a fault sample, 0 to 254 a valid reading (R159 to R161). -/
def takeSample (z : LocalZone) (code : Byte) (s : State) : State :=
  if code = 255 then faultSample z s else validSample z code.toNat s

/-- The level state at a good load (R158): A from the fallback, C equal to T, and C is sent. -/
def loadLevel (z : LocalZone) (s : State) : State :=
  let p := (zoneOf s z).cfg.level
  let a := 16 * p.fallback
  let t := targetOf p (ambientLevel a) none
  emit (.attenuation z t) <| onLevel z (fun _ =>
    { faultRun := 0, failed := false, holdOff := 0, smoothed := a, level := ambientLevel a, target := t, current := t }) s

end Sys2Proof.Machine
end

