-- ==== Sys2Proof/Machine/Tones.lean ====
section
/-! DEFINITION. The Tone Sequencer: patterns and the sequencer of each zone (chapter 8). -/

namespace Sys2Proof.Machine

/-! ### Patterns (R151 to R153) -/

/-- A note of the note table, or silence. -/
abbrev StepSound := Option (Fin 8)

/-- The strike count of a digit: its value, and 10 for the digit 0 (R153). -/
def strikeCount (digit : Nat) : Nat := if digit = 0 then 10 else digit

/-- `n` strikes: note 3 for 150 ms, then silence for 150 ms (R153). -/
def strikes : Nat → List (StepSound × Nat)
  | 0 => []
  | n + 1 => (some 3, 150) :: (none, 150) :: strikes n

/-- The steps of a pattern: sound and time in ms (R151 to R153). -/
def patternSteps : Pattern → List (StepSound × Nat)
  | .routinePrelude => [(some 0, 300), (some 1, 300)]
  | .alarmPrelude => [(some 2, 200), (some 1, 200), (some 0, 200), (some 2, 200), (some 1, 200), (some 0, 200)]
  | .alarmTone => [(some 4, 250), (some 5, 250)]
  | .evacTone => [(some 6, 500), (some 7, 500)]
  | .code o =>
      [(some 2, 400), (none, 400)] ++ strikes (strikeCount (o.val / 10)) ++ [(none, 800)]
        ++ strikes (strikeCount (o.val % 10))

/-- The two tones are cyclic, every other pattern is finite (R151 to R153). -/
def cyclic : Pattern → Bool
  | .alarmTone | .evacTone => true
  | .routinePrelude | .alarmPrelude | .code _ => false

/-- The time of the step a run stands at: the length of its step timer (R147). -/
def stepTime (r : Run) : Option Nat := ((patternSteps r.pattern)[r.step - 1]?).map (·.2)

/-- How long a pattern lasts. -/
def patternLength (p : Pattern) : Nat := ((patternSteps p).map (·.2)).sum

/-! ### Orders and runs (R146 to R150) -/

/-- The sequencer of a zone. -/
def seqOf (s : State) (z : LocalZone) : Sequencer := s.ts.seqs.get z

/-- A tone order: a note order with its divider, or silence; it becomes the sound field (R146, R147). -/
def orderSound (z : LocalZone) (sound : Option Nat) (s : State) : State :=
  emit (.sound z sound) (onSequencer z (fun q => { q with sound := sound }) s)

/-- A tone order, sent only when the sound differs from the sound field (R147). -/
def changeSound (z : LocalZone) (sound : Option Nat) (s : State) : State :=
  if (seqOf s z).sound = sound then s else orderSound z sound s

/-- The divider of a step's note; silence for a silence step (R145, R147). -/
def stepDivider (notes : Table 8 Nat) (x : StepSound) : Option Nat := x.map notes.get

/-- A start order (R148): the run number rises by one modulo 256, the sequencer is RUNNING at step 1, and the note order of
step 1 is sent always. No sequencer starts while the note table holds no values (R145). -/
def startPattern (z : LocalZone) (p : Pattern) (s : State) : State :=
  match s.ts.notes, patternSteps p with
  | some notes, (x, _) :: _ =>
      orderSound z (stepDivider notes x) <|
        onSequencer z (fun q => { q with run := some ⟨p, 1⟩, number := nextSeq q.number }) s
  | _, _ => s

/-- A stop order (R149). -/
def stopPattern (z : LocalZone) (s : State) : State :=
  if (seqOf s z).run.isSome then
    changeSound z none (onSequencer z (fun q => { q with run := none }) s)
  else s

/-- The sequencer moves to a step and sends its tone order (R147, R150). -/
def enterStep (z : LocalZone) (p : Pattern) (step : Nat) (x : StepSound) (s : State) : State :=
  match s.ts.notes with
  | some notes =>
      changeSound z (stepDivider notes x) (onSequencer z (fun q => { q with run := some ⟨p, step⟩ }) s)
  | none => s

/-- A finite pattern has ended: IDLE, silence, and a completion report that the ZC takes later (R150, R154). -/
def finishPattern (z : LocalZone) (p : Pattern) (s : State) : State :=
  changeSound z none <|
    onSequencer z (fun q => { q with run := none, reports := q.reports ++ [⟨p, q.number⟩] }) s

/-- Expiry of the step timer of a RUNNING sequencer (R150). -/
def stepExpiry (z : LocalZone) (s : State) : State :=
  match (seqOf s z).run with
  | none => s
  | some r =>
    match (patternSteps r.pattern)[r.step]? with
    | some (x, _) => enterStep z r.pattern (r.step + 1) x s
    | none =>
      if cyclic r.pattern then
        match patternSteps r.pattern with
        | (x, _) :: _ => enterStep z r.pattern 1 x s
        | [] => s
      else finishPattern z r.pattern s

end Sys2Proof.Machine
end

