-- ==== Sys2Proof/Machine/Zones.lean ====
section
/-! DEFINITION. The Zone Controller: states and orders, acceptance by class, preemption, resume, the evacuation, and the
amplifier fault (chapter 7). -/

namespace Sys2Proof.Machine

/-! ### States and orders (R126, R133) -/

/-- CHIME, TONE and CODE: the states in which the zone's sequencer plays. -/
def sounding : ZoneState → Bool
  | .chime | .tone | .code => true
  | .outOfService | .fault | .released | .waking | .live | .hang => false

/-- The amplifier order of a state (R126). -/
def amplifierOrder (st : ZoneState) : Bool := zoneActive st || decide (st = .hang)

/-- The source order of a state; in LIVE it is the active page's channel (R126). -/
def sourceOrder (r : ZoneRec) : SourceOrder :=
  match r.state with
  | .chime | .tone | .code => .tone
  | .live => match r.active with
    | some (.page ⟨_, _, .channel c, _⟩ _) => .channel c
    | _ => .none
  | .outOfService | .fault | .released | .waking | .hang => .none

/-- The output selector sends the amplifier and source orders of the zone's state (R126). -/
def selectOutputs (z : LocalZone) (s : State) : State :=
  emit (.source z (sourceOrder (zoneOf s z))) (emit (.amplifier z (amplifierOrder (zoneOf s z).state)) s)

/-- The zone enters a state: its sequencer is stopped when it leaves CHIME, TONE and CODE for any other state (R149), and
the output selector sends the state's orders (R126). -/
def enterState (z : LocalZone) (st : ZoneState) (s : State) : State :=
  let s := if sounding (zoneOf s z).state && !sounding st then stopPattern z s else s
  selectOutputs z (onZone z (fun r => { r with state := st }) s)

/-- The first sounding phase of what becomes active (R133). -/
def firstPhase : Active → ZoneState
  | .evacuation => .tone
  | .page e _ =>
    match e.cls, e.source with
    | .code, _ => .code
    | .routine, _ => .chime
    | .alarm, .channel _ => .chime
    | .alarm, .tone => .tone
    | .evac, _ => .tone

/-- The pattern ordered for what is active, in the phases that sound one (R133). -/
def patternFor : Active → Pattern
  | .evacuation => .evacTone
  | .page e _ =>
    match e.cls, e.source with
    | .code, _ => .code (e.orbit.getD 0)
    | .routine, _ => .routinePrelude
    | .alarm, .channel _ => .alarmPrelude
    | .alarm, .tone => .alarmTone
    | .evac, _ => .evacTone

/-- The zone enters a phase of its active page; CHIME, TONE and CODE start its pattern, and the run number given is kept
(R133, R148, R154). -/
def enterPhase (z : LocalZone) (phase : ZoneState) (a : Active) (s : State) : State :=
  let s := enterState z phase s
  if sounding phase then
    let s := startPattern z (patternFor a) s
    onZone z (fun r => { r with keptRun := (seqOf s z).number }) s
  else s

/-- A page, or the evacuation, becomes active with the phase it starts in: from RELEASED through WAKING, in WAKING by taking
over the running wake timer, from HANG and from a sounding state or LIVE at once (R133). The Level Unit is told of a new
active page (R126), so the attenuation order goes out after the amplifier, source and note orders (the model's choice, log
14). -/
def activate (z : LocalZone) (a : Active) (phase : ZoneState) (s : State) : State :=
  let r := zoneOf s z
  let s := onZone z (fun r => { r with active := some a }) s
  let s := match r.state with
    | .released => if r.cfg.wake = 0 then enterPhase z phase a s else enterState z .waking s
    | .waking => s
    | .hang | .chime | .live | .tone | .code => enterPhase z phase a s
    | .fault | .outOfService => s
  jumpLevel z s

/-! ### Reports (R128, section 7.10) -/

/-- A ZONE-REPORT on a page is queued; in the start-up phase LISTENING no report is sent (R128, R140, log 11). -/
def report (z : LocalZone) (p : PageId) (o : ZoneOutcome) (s : State) : State :=
  if s.phase = .running then queueNotice (.zoneReport p (numberOf s z) o) s else s

/-- One report for each page of a list. -/
def reportAll (z : LocalZone) (ps : List PageId) (o : ZoneOutcome) (s : State) : State :=
  forEach ps (fun p s => report z p o s) s

/-! ### The pending list (R127) -/

/-- The pending list holds up to 4 pages. -/
def pendingCapacity : Nat := 4

/-- A page is placed by class, highest first: behind the entries of its class, or in front of them when it comes from the
held place (R127). -/
def placePending (front : Bool) (e : PageEntry) : List PageEntry → List PageEntry
  | [] => [e]
  | x :: rest =>
    if classRank x.cls > classRank e.cls ∨ (classRank x.cls = classRank e.cls ∧ front = false) then
      x :: placePending front e rest
    else e :: x :: rest

/-- The insertion of R127: the new list, and the entry that a fifth entry makes leave. -/
def insertPending (front : Bool) (e : PageEntry) (l : List PageEntry) : List PageEntry × Option PageEntry :=
  let placed := placePending front e l
  if placed.length > pendingCapacity then (placed.take pendingCapacity, placed[pendingCapacity]?) else (placed, none)

/-- A page moved from the held place enters the pending list and is reported PENDING, or DROPPED if the insertion removes
it; another page removed is reported DROPPED (R127, R131). -/
def holdToPending (z : LocalZone) (e : PageEntry) (s : State) : State :=
  let ins := insertPending true e (zoneOf s z).pending
  let s := onZone z (fun r => { r with pending := ins.1 }) s
  match ins.2 with
  | none => report z e.page .pending s
  | some x => if x = e then report z e.page .dropped s else report z x.page .dropped (report z e.page .pending s)

/-- An arriving page is made pending: PENDING, or FULL if it is itself the entry removed; another page removed is reported
DROPPED (R127, R132). -/
def arriveToPending (z : LocalZone) (e : PageEntry) (s : State) : State :=
  let ins := insertPending false e (zoneOf s z).pending
  let s := onZone z (fun r => { r with pending := ins.1 }) s
  match ins.2 with
  | none => report z e.page .pending s
  | some x => if x = e then report z e.page .full s else report z e.page .pending (report z x.page .dropped s)

/-! ### Resume choice (R135) -/

/-- The phase in which a held page resumes (R135): an ALARM page in its saved LIVE or TONE, else at the start of its first
sounding phase; a CODE page from the lead note. -/
def resumePhase (h : Held) (a : Active) : ZoneState :=
  match h.entry.cls, h.phase with
  | .alarm, .live => .live
  | .alarm, .tone => .tone
  | _, _ => firstPhase a

/-- The held page resumes: it is of a class at least that of the first pending entry, or nothing is pending (R135). -/
def heldResumes (h : Held) : List PageEntry → Bool
  | [] => true
  | p :: _ => decide (classRank p.cls ≤ classRank h.entry.cls)

/-- The first pending page starts, with elapsed seconds 0 (R135). -/
def startPending (z : LocalZone) (p : PageEntry) (rest : List PageEntry) (s : State) : State :=
  let a := Active.page p 0
  report z p.page .playing (activate z a (firstPhase a) (onZone z (fun r => { r with pending := rest }) s))

/-- The held page resumes with its saved elapsed seconds (R135). -/
def resumeHeld (z : LocalZone) (h : Held) (s : State) : State :=
  let a := Active.page h.entry h.elapsed
  report z h.entry.page .playing (activate z a (resumePhase h a) (onZone z (fun r => { r with held := none }) s))

/-- The last page is gone: HANG, or RELEASED with a hang time of 0; the Level Unit is told (R135, R137). -/
def lastPageGone (z : LocalZone) (s : State) : State :=
  lastPageLevel z (enterState z (if (zoneOf s z).cfg.hang = 0 then .released else .hang) s)

/-- The resume choice, made when the active place has been emptied (R135). -/
def resumeChoice (z : LocalZone) (s : State) : State :=
  let r := zoneOf s z
  match r.held, r.pending with
  | some h, ps =>
      if heldResumes h ps then resumeHeld z h s
      else match ps with
        | p :: rest => startPending z p rest s
        | [] => s
  | none, p :: rest => startPending z p rest s
  | none, [] => lastPageGone z s

/-- The active place is emptied, and the zone makes the resume choice (R135). -/
def leaveActive (z : LocalZone) (s : State) : State :=
  resumeChoice z (onZone z (fun r => { r with active := none }) s)

/-! ### Removal (R129, R138, R141, R144) -/

/-- The active page, if the active place holds a page that `p` picks. -/
def pickActive (p : PageEntry → Bool) (r : ZoneRec) : Option PageEntry :=
  match r.active with
  | some (.page e _) => if p e then some e else none
  | _ => none

/-- The held page, if `p` picks it. -/
def pickHeld (p : PageEntry → Bool) (r : ZoneRec) : Option PageEntry :=
  match r.held with
  | some h => if p h.entry then some h.entry else none
  | none => none

/-- The pages that `p` picks leave the active, held and pending places; those of a seizure are reported (in that order)
before the resume choice that an emptied active place brings (R129, R138, R141, R144). -/
def removePages (z : LocalZone) (p : PageEntry → Bool) (outcome : Option ZoneOutcome) (s : State) : State :=
  let r := zoneOf s z
  let gone := (pickActive p r).toList ++ (pickHeld p r).toList ++ r.pending.filter p
  let s := onZone z (fun r => { r with
    held := if (pickHeld p r).isSome then none else r.held
    pending := r.pending.filter fun e => !p e }) s
  let s := match outcome with
    | some o => reportAll z (gone.map (·.page)) o s
    | none => s
  if (pickActive p r).isSome then leaveActive z s else s

/-- The evacuation is what the zone's active place holds. -/
def evacuating (r : ZoneRec) : Bool :=
  match r.active with
  | some .evacuation => true
  | _ => false

/-- Entries that `p` picks leave the evacuation set. When the set becomes empty the evacuation leaves the active place and
the zone makes the resume choice; in FAULT only the level follows (R139, R165). -/
def removeEvac (z : LocalZone) (p : PageId → Bool) (s : State) : State :=
  let before := (zoneOf s z).evac
  let after := before.filter fun e => !p e
  let s := onZone z (fun r => { r with evac := after }) s
  if before ≠ [] ∧ after = [] then
    if evacuating (zoneOf s z) then leaveActive z s else jumpLevel z s
  else s

/-! ### The evacuation (R139) -/

/-- The set with a page id, unless it holds an entry from the same originator (R139). -/
def joinEvac (p : PageId) (set : List PageId) : List PageId :=
  if set.any fun e => decide (e.cab = p.cab) then set else set ++ [p]

/-- An EVAC page reaches a FAULT zone: it joins the set and is reported FAULT; a set that was empty raises EVAC-ACTIVE, and
the level follows (R139, R165). -/
def evacInFault (z : LocalZone) (p : PageId) (s : State) : State :=
  let r := zoneOf s z
  let s := onZone z (fun r => { r with evac := joinEvac p r.evac }) s
  let s := if r.evac = [] then jumpLevel z (raise .evacActive (numberOf s z).val .zc s) else s
  report z p .fault s

/-! ### Preemption and acceptance (R130 to R132) -/

/-- The active page gives way to a page of higher class: ROUTINE is removed with LOST; CODE and ALARM go to the held place
with HELD, and a page held before moves to the pending list (R131). -/
def displaceActive (z : LocalZone) (s : State) : State :=
  let r := zoneOf s z
  match r.active with
  | some (.page e elapsed) =>
    if e.cls = .routine then report z e.page .lost s
    else
      let s := onZone z (fun r => { r with held := some ⟨e, r.state, elapsed⟩ }) s
      let s := report z e.page .held s
      match r.held with
      | some h => holdToPending z h.entry s
      | none => s
  | _ => s

/-- An EVAC page is accepted by a zone that can play: a set that was empty starts the evacuation and raises EVAC-ACTIVE, and
the page is reported PLAYING (R130 to R132, R139). That a page whose originator has an entry in the set already, and which
therefore does not join it, is reported PLAYING too is the model's choice (log 35). -/
def evacAccept (z : LocalZone) (p : PageId) (s : State) : State :=
  if (zoneOf s z).evac = [] then
    let s := displaceActive z s
    let s := onZone z (fun r => { r with evac := joinEvac p r.evac }) s
    let s := activate z .evacuation .tone s
    report z p .playing (raise .evacActive (numberOf s z).val .zc s)
  else report z p .playing (onZone z (fun r => { r with evac := joinEvac p r.evac }) s)

/-- A page becomes active by acceptance and is reported PLAYING (R130, R131). -/
def acceptPlaying (z : LocalZone) (e : PageEntry) (s : State) : State :=
  let a := Active.page e 0
  report z e.page .playing (activate z a (firstPhase a) s)

/-- A page of class CODE, ROUTINE or ALARM meets a zone with an active class (R131, R132). -/
def acceptAgainst (z : LocalZone) (e : PageEntry) (x : PageClass) (s : State) : State :=
  if classRank e.cls > classRank x then acceptPlaying z e (displaceActive z s)
  else if e.cls = .routine then report z e.page .busy s
  else arriveToPending z e s

/-- A zone that belongs to the target decides a new page (R130 to R132). -/
def accept (z : LocalZone) (e : PageEntry) (override : Bool) (s : State) : State :=
  let r := zoneOf s z
  if r.state = .outOfService then report z e.page .fault s
  else if r.state = .fault then
    (if e.cls = .evac then evacInFault z e.page s else report z e.page .fault s)
  else if (e.cls = .routine ∨ e.cls = .code) ∧ r.cfg.quiet ∧ override = false then report z e.page .locked s
  else if e.cls = .evac then evacAccept z e.page s
  else match activeClass r.active with
    | none => acceptPlaying z e s
    | some x => acceptAgainst z e x s

/-- A zone's places or evacuation set hold the page id (R128). -/
def holdsPage (r : ZoneRec) (p : PageId) : Bool :=
  (pickActive (fun e => decide (e.page = p)) r).isSome || (pickHeld (fun e => decide (e.page = p)) r).isSome
    || r.pending.any (fun e => decide (e.page = p)) || r.evac.any (fun e => decide (e = p))

/-- A zone belongs to a page's target (R128). -/
def inTarget (r : ZoneRec) : PageTarget → Bool
  | .all => true
  | .group g => hasPaging r.cfg.paging g

/-- The page entry that a PAGE-START makes: source CHANNEL n, or TONE where it names no channel (R125). -/
def entryOf (b : PageStartBody) : PageEntry :=
  { page := b.page, cls := b.cls,
    source := match b.channel with
      | some c => .channel c
      | none => .tone
    orbit := b.orbit }

/-- The acceptance pass at one zone: zones outside the target, and zones that hold the page id, are passed over (R128). -/
def acceptAt (b : PageStartBody) (z : LocalZone) (s : State) : State :=
  let r := zoneOf s z
  if inTarget r b.target && !holdsPage r b.page then accept z (entryOf b) b.override s else s

/-- The seizure pass at one zone: every page but the new one whose source is the seized channel is removed with LOST
(R129). -/
def seizeAt (b : PageStartBody) (c : Channel) (z : LocalZone) (s : State) : State :=
  removePages z (fun e => decide (e.source = .channel c ∧ e.page ≠ b.page)) (some .lost) s

/-- The part's start-up phase lets its zones take a page of a class (R128). -/
def takesClass (p : Phase) (c : PageClass) : Bool :=
  match p with
  | .running => true
  | .listening => decide (c = .evac)
  | .loading | .halted => false

/-- A PAGE-START lacks what its class needs: a channel for ROUTINE, an orbit for CODE (R128). -/
def lacksNeeded (b : PageStartBody) : Bool :=
  (decide (b.cls = .routine) && b.channel.isNone) || (decide (b.cls = .code) && b.orbit.isNone)

/-- The ZC takes a PAGE-START: the seizure pass over the four zones, then the acceptance pass (R128). -/
def zonePageStart (b : PageStartBody) (s : State) : State :=
  if takesClass s.phase b.cls && !lacksNeeded b then
    let s := match b.seize, b.channel with
      | true, some c => forEach allZones (seizeAt b c) s
      | _, _ => s
    forEach allZones (acceptAt b) s
  else s

/-- The ZC takes a PAGE-END (R138). -/
def zonePageEnd (p : PageId) (s : State) : State :=
  forEach allZones (fun z s =>
    removeEvac z (fun e => decide (e = p)) (removePages z (fun e => decide (e.page = p)) none s)) s

/-- The ZC takes an ALL-STOP: ROUTINE and CODE pages leave, without reports (R141). -/
def zoneAllStop (s : State) : State :=
  forEach allZones (fun z s => removePages z (fun e => decide (e.cls = .routine ∨ e.cls = .code)) none s) s

/-- The ZC takes the evacuation state that the peer table records for a peer after its STATUS (R140). The page id joins as it
reads, whatever cabinet it names (the model's choice, log 37). -/
def zoneStatus (p : Cabinet) (s : State) : State :=
  match (s.clc.peers.get p).evac with
  | some e => forEach allZones (fun z s =>
      if (zoneOf s z).evac.any (fun x => decide (x.cab = p)) then s
      else acceptAt ⟨e, .evac, .all, none, false, false, none⟩ z s) s
  | none => forEach allZones (fun z s => removeEvac z (fun x => decide (x.cab = p)) s) s

/-- The ZC at a peer's silence: the peer's pages leave, its evacuation entries stay (R144). -/
def zonePeerSilent (p : Cabinet) (s : State) : State :=
  forEach allZones (fun z s => removePages z (fun e => decide (e.page.cab = p)) none s) s

/-- The ZC at REJOIN: the other cabinets' pages leave, the evacuation set stays (R144). -/
def zoneRejoin (s : State) : State :=
  let cab := own s
  forEach allZones (removePages · (fun e => !decide (e.page.cab = cab)) none) s

/-! ### Timers, completions (R134, R136, R137, R154) -/

/-- Wake timer expiry in WAKING: the active page's first sounding phase (R134). -/
def wakeExpiry (z : LocalZone) (s : State) : State :=
  match (zoneOf s z).state, (zoneOf s z).active with
  | .waking, some a => enterPhase z (firstPhase a) a s
  | _, _ => s

/-- Hang timer expiry in HANG: RELEASED (R137). -/
def hangExpiry (z : LocalZone) (s : State) : State :=
  if (zoneOf s z).state = .hang then enterState z .released s else s

/-- The active page leaves with a report (R135). -/
def leaveWith (z : LocalZone) (p : PageId) (o : ZoneOutcome) (s : State) : State := leaveActive z (report z p o s)

/-- The class maximum of an active page; CODE pages and the evacuation have none (R136). -/
def classMaximum (s : State) : PageClass → Option Nat
  | .routine => some s.zc.routineMax
  | .alarm => some s.zc.alarmMax
  | .code | .evac => none

/-- A one-second expiry at an active ROUTINE or ALARM page: the count rises, and at the class maximum the page leaves with
TIMED-OUT (R136). -/
def elapsedTick (z : LocalZone) (s : State) : State :=
  match (zoneOf s z).active with
  | some (.page e n) =>
    match classMaximum s e.cls with
    | none => s
    | some m =>
      let s := onZone z (fun r => { r with active := some (.page e (n + 1)) }) s
      if m ≤ n + 1 then leaveWith z e.page .timedOut s else s
  | _ => s

/-- A completion report is acted on: a prelude goes to LIVE, a code chime makes its page leave with ENDED (R134, R154). -/
def completed (z : LocalZone) (s : State) : State :=
  match (zoneOf s z).state, (zoneOf s z).active with
  | .chime, some a => enterPhase z .live a s
  | .code, some (.page e _) => leaveWith z e.page .ended s
  | _, _ => s

/-- The ZC takes the oldest completion report of a zone; it acts on it when its run number is the kept one (R154). -/
def takeCompletion (z : LocalZone) (s : State) : State :=
  match (seqOf s z).reports with
  | [] => s
  | c :: rest =>
    let s := onSequencer z (fun q => { q with reports := rest }) s
    if c.run = (zoneOf s z).keptRun then completed z s else s

/-! ### Amplifier fault (R142, R143) -/

/-- The page ids of a zone's places in the order active, held, pending. -/
def placedPages (r : ZoneRec) : List PageId :=
  ((pickActive (fun _ => true) r).toList ++ (pickHeld (fun _ => true) r).toList ++ r.pending).map (·.page)

/-- A zone enters FAULT: its pages leave with FAULT reports, so do the evacuation set's, which stay; timers and sequencer
stop, the amplifier is disabled, AMP-FAULT is raised, and a level report follows an emptied active place (R126, R142). -/
def enterFault (z : LocalZone) (s : State) : State :=
  let r := zoneOf s z
  let s := reportAll z (placedPages r ++ r.evac) .fault s
  let s := enterState z .fault (onZone z (fun r => { r with active := none, held := none, pending := [] }) s)
  let s := raise .ampFault (numberOf s z).val .zc s
  if r.active.isSome then jumpLevel z s else s

/-- The amplifier-fault input of a zone has become active (R142). -/
def faultActive (z : LocalZone) (s : State) : State :=
  let s := onZone z (fun r => { r with ampFault := true }) s
  if (zoneOf s z).state = .outOfService then s else enterFault z s

/-- The amplifier-fault input of a zone has become inactive: RELEASED, and an evacuation still in the set starts (R143). -/
def faultInactive (z : LocalZone) (s : State) : State :=
  let s := onZone z (fun r => { r with ampFault := false }) s
  if (zoneOf s z).state = .fault then
    let s := enterState z .released s
    if (zoneOf s z).evac ≠ [] then activate z .evacuation .tone s else s
  else s

end Sys2Proof.Machine
end

