-- ==== Sys2Proof/Machine/Link.lean ====
section
/-! DEFINITION. The Cabinet Link Controller: own delivery, the peer table, attempts, link states, and the handing over of
heard notices to the blocks (chapter 1). -/

namespace Sys2Proof.Machine

/-! ### Own delivery (R10, R12) -/

/-- A RING-ASSIGN at the Hunt Engine and the Line Unit (R12, R75). -/
def takeAssign (c : CallId) (cab : Cabinet) (l : Line) (cad : Cadence) (s : State) : State :=
  lineAssign c cab l cad (dropBid c s)

/-- A CONNECTED at the Hunt Engine, the Line Unit and the Pickup and Park Unit (R12). -/
def takeConnected (c : CallId) (cab : Cabinet) (l : Line) (g : Option HuntGroup) (i : Option OrderIndex) (s : State) :
    State :=
  viewRemoveCall c (lineConnected c cab l g i (huntConnected c g i s))

/-- A CANCEL at the Hunt Engine, the Line Unit and the Pickup and Park Unit (R12). -/
def takeCancel (c : CallId) (s : State) : State := viewRemoveCall c (lineCancel c (huntCancel c s))

/-- A PAGE-END at the Page Originator, the Zone Controller and the Pickup and Park Unit (R12). -/
def takePageEnd (p : PageId) (s : State) : State := clearCodePage p (zonePageEnd p (pgoPageEnd p s))

/-- An ALL-STOP at the Page Originator, the Pickup and Park Unit and the Zone Controller (R12). -/
def takeAllStop (s : State) : State := zoneAllStop (ppuAllStop (pgoAllStop s))

/-- A RING-ENDED at the Offer Manager (R60). -/
def takeRingEnded (c : CallId) (cab : Cabinet) (l : Line) (r : RingEndReason) (s : State) : State :=
  if lossReason r then takeNoAnswer c cab l s else s

/-- A REFUSED at the Line Unit, for a claimer line of this part (R41). -/
def takeRefused (t : ClaimTarget) (cab : Cabinet) (l : Line) (s : State) : State :=
  if cab = own s then takeRefusal t l s else s

/-- An own notice is delivered to the blocks that R12 names for its kind, as if it had been received from the link (R10). The
Pickup and Park Unit ignores the own RING-STARTED and RING-ENDED (R90, R91); it takes an own CLAIM as a heard one, and so
marks the entries of the call that have joined since the claim was formed (R92). -/
def deliverOwn (n : Notice) (s : State) : State :=
  match n with
  | .status .. | .probe => s
  | .offer c g _ t => memberOffer c g t (openWindow c s)
  | .bid c l i k => ownerBid c ⟨own s, l, some i, arbNumber 2 k.val (own s)⟩ (bidSent c s)
  | .ringAssign c cab l cad => startAssignTimer c cab l (takeAssign c cab l cad s)
  | .decline c l => takeDecline c (own s) l s
  | .ringStarted c l i _ => takeRingStarted c ⟨own s, l, i⟩ s
  | .ringEnded c l r => takeRingEnded c (own s) l r s
  | .noAnswer c l => takeNoAnswer c (own s) l s
  | .answered c l i => takeAnswer c (own s) l i s
  | .claim t cab l => markClaim t (takeClaim t cab l false s)
  | .connected c cab l g i => takeConnected c cab l g i s
  | .refused t cab l _ => takeRefused t cab l s
  | .cancel c => takeCancel c s
  | .available g => takeAvailable g s
  | .pageStart b => zonePageStart b (ownPageStart b s)
  | .pageEnd p _ _ => takePageEnd p s
  | .zoneReport p z o => pgoReport p z o s
  | .allStop _ => takeAllStop s

/-- Own notices that wait for own delivery are delivered, oldest first (R10, log 4), at most `fuel` of them. -/
def drain : Nat → State → State
  | 0, s => s
  | fuel + 1, s =>
    match s.deliveries with
    | [] => s
    | n :: rest => drain fuel (deliverOwn n (setDeliveries rest s))

/-- The bound on the deliveries of one step (log 4). -/
def deliveryFuel : Nat := 4096

/-- Every waiting own notice is delivered. -/
def deliverAll (s : State) : State := drain deliveryFuel s

/-! ### The peer table (R19, R20) -/

/-- An entry of the peer table changes. -/
def modPeer (p : Cabinet) (f : Peer → Peer) (s : State) : State :=
  onClc (fun c => { c with peers := c.peers.modify p f }) s

/-- The entry of a peer. -/
def peerOf (s : State) (p : Cabinet) : Peer := s.clc.peers.get p

/-- A frame heard from another address: PRESENT, age 0, and PEER-RETURNED for an entry that was not PRESENT (R19). -/
def touchPeer (p : Cabinet) (s : State) : State :=
  let returned := (peerOf s p).state ≠ .present
  let s := modPeer p (fun e => { e with state := .present, age := 0 }) s
  if returned then raise .peerReturned p.val .clc s else s

/-- A STATUS replaces the recorded evacuation flag, unless its fields hold codes outside their tables (R19, R186, log
10). -/
def recordEvacuation (p : Cabinet) (b : RawStatus) (s : State) : State :=
  withCode (codeEvacuation b) (fun e => modPeer p fun r => { r with evac := e }) s

/-- A STATUS replaces the recorded channels, unless its fields hold codes outside their tables (R19, R186, log 10). -/
def recordChannels (p : Cabinet) (b : RawStatus) (s : State) : State :=
  withCode (codeChannels b) (fun t => modPeer p fun r => { r with channels := t }) s

/-- The age of an entry after a tick of the aging timer: an ABSENT entry keeps its age (R20). -/
def agedPeer (e : Peer) : Peer :=
  match e.state with
  | .absent => e
  | .present | .silent => { e with age := min 255 (e.age + 1) }

/-- Every entry but the own one ages (R20). -/
def agePeers (s : State) : State :=
  forEach allCabinets (fun p s => if p = own s then s else modPeer p agedPeer s) s

/-- The age at which a PRESENT entry becomes SILENT (R20). -/
def silentAge : Nat := 30

/-- A PRESENT entry other than the own one whose age has reached 30 (R20). -/
def fallsSilent (s : State) (p : Cabinet) : Bool :=
  decide (p ≠ own s ∧ (peerOf s p).state = .present ∧ silentAge ≤ (peerOf s p).age)

/-- A peer takes its place in a list ordered by a rank. -/
def orderInto (rank : Cabinet → Nat) (p : Cabinet) : List Cabinet → List Cabinet
  | [] => [p]
  | q :: rest => if rank p ≤ rank q then p :: q :: rest else q :: orderInto rank p rest

/-- Peers in rising order of a rank. -/
def orderBy (rank : Cabinet → Nat) : List Cabinet → List Cabinet
  | [] => []
  | p :: rest => orderInto rank p (orderBy rank rest)

/-- A peer becomes SILENT: its channels are cleared, its evacuation flag kept, PEER-SILENT is raised, and OFM, LU, PPU,
PGO and ZC are told (R20, R43, R63, R93, R123, R144). -/
def peerSilent (p : Cabinet) (s : State) : State :=
  let s := modPeer p (fun e => { e with state := .silent, channels := Table.fill 4 none }) s
  let s := raise .peerSilent p.val .clc s
  let s := linePeerSilent p (ofmPeerSilent p s)
  let s := viewRemove (fun e => decide (e.call.cab = p ∨ e.cab = p)) s
  zonePeerSilent p (pgoPeerSilent p s)

/-- The free values of one tick are taken (log 6). -/
def takeChoice (s : State) : State := { s with choices := s.choices + 1 }

/-- An expiry of the peer aging timer, which runs in every link state but LOADING and HALTED (R20). Peers that fall silent
together are reported in a free order (log 6). -/
def agingTick (s : State) : State :=
  match s.clc.link with
  | .loading | .halted => s
  | .listening | .running | .isolated | .listenOnly =>
    let s := agePeers s
    let silent := orderBy (Config.silenceRank s.choices) (allCabinets.filter (fallsSilent s))
    forEach silent peerSilent (takeChoice s)

/-! ### Leaving the link (R15, R17) -/

/-- The link state changes. -/
def setLink (l : LinkState) (s : State) : State := onClc (fun c => { c with link := l }) s

/-- Every notice in the transmit queue is delivered to the own blocks in its order of joining, and the queue is empty; a
STATUS or PROBE is discarded (R15 step 1). -/
def flushQueue (s : State) : State :=
  let notices := s.clc.queue.map (·.notice)
  deliverAll (forEach notices deliverLater (onClc (fun c => { c with queue := [], driving := [] }) s))

/-- OFM and LU act on the entry to ISOLATED; the PGO keeps its records (R15 step 3, R64, R43, R123). -/
def tellIsolated (s : State) : State := lineIsolated (ofmIsolated s)

/-- Entry to ISOLATED (R15). -/
def enterIsolated (s : State) : State := tellIsolated (flushQueue (setLink .isolated s))

/-! ### Attempts (R2, R3, R5, R7, R9, R11) -/

/-- The entry of the transmit queue that is in an attempt. -/
def attemptEntry (s : State) : Option TxEntry := s.clc.queue.find? (·.inAttempt)

/-- The lowest arbitration field in a queue. -/
def lowestField : List TxEntry → Option Nat
  | [] => none
  | e :: rest =>
    match lowestField rest with
    | none => some e.field
    | some m => some (min e.field m)

/-- The first-joined entry with an arbitration field goes into an attempt, with the contents that `f` gives it. -/
def markFirst (m : Nat) (f : Notice → Notice) : List TxEntry → List TxEntry
  | [] => []
  | e :: rest =>
    if e.field = m then { e with inAttempt := true, notice := f e.notice } :: rest else e :: markFirst m f rest

/-- A STATUS gets its contents at the start of each of its attempts (R7, R21). -/
def assembled (s : State) : Notice → Notice
  | .status link _ => .status link (assembleStatus s)
  | n => n

/-- The link states in which the part starts attempts (R2, section 1.5). -/
def transmits : LinkState → Bool
  | .running | .isolated => true
  | .loading | .listening | .listenOnly | .halted => false

/-- The bits of the frame of the attempt in progress. -/
def drivenBits (s : State) : List Bool :=
  match attemptEntry s with
  | some e => frameBits (own s) e.notice
  | none => []

/-- A transmission attempt starts: the notice with the lowest field, the first joined among equals (R2, R7). -/
def startAttempt (s : State) : State :=
  if transmits s.clc.link && (attemptEntry s).isNone then
    match lowestField s.clc.queue with
    | none => s
    | some m =>
      let s := onClc (fun c => { c with queue := markFirst m (assembled s) c.queue }) s
      onClc (fun c => { c with driving := drivenBits s }) s
  else s

/-- An entry after the end of its attempt, when it has not been sent: a request that waited takes effect (R9). -/
def settleEntry (e : TxEntry) : Option TxEntry :=
  match e.request with
  | some .withdraw => none
  | some (.replace n) => some { e with notice := n, inAttempt := false, request := none }
  | none => some { e with inAttempt := false }

/-- The queue after the end of an attempt that did not send its notice. -/
def settleQueue (q : List TxEntry) : List TxEntry := q.filterMap fun e => if e.inAttempt then settleEntry e else some e

/-- The queue without the entry of the attempt. -/
def dropAttempt (q : List TxEntry) : List TxEntry := q.filter fun e => !e.inAttempt

/-- One more failed attempt for the entry of the attempt (R5). -/
def countFailure (q : List TxEntry) : List TxEntry :=
  q.map fun e => if e.inAttempt then { e with failed := e.failed + 1 } else e

/-- The end of the attempt on the bus: the part drives nothing more, and the queue becomes what `f` makes of it. -/
def endAttempt (f : List TxEntry → List TxEntry) (s : State) : State :=
  onClc (fun c => { c with queue := f c.queue, driving := [] }) s

/-- The member side is told that a withdrawal of a BID has taken effect at the end of its attempt (R72). -/
def tellWithdrawn (e : TxEntry) (s : State) : State :=
  match e.request, e.notice with
  | some .withdraw, .bid c _ _ _ => bidWithdrawn c s
  | _, _ => s

/-- A lost arbitration (R3, R9): the notice stays queued, its failed-attempt count unchanged. -/
def loseArbitration (s : State) : State :=
  match attemptEntry s with
  | some e => tellWithdrawn e (endAttempt settleQueue s)
  | none => s

/-- What is delivered to the own blocks of a notice that is dropped: nothing where a withdrawal waited, the new contents
where a replacement did (R9, R10). -/
def dropDelivery (e : TxEntry) (s : State) : State :=
  match e.request with
  | some .withdraw => tellWithdrawn e s
  | some (.replace n) => deliverLater n s
  | none => deliverLater e.notice s

/-- The drop run at which the part enters ISOLATED (R11). -/
def dropLimit : Nat := 8

/-- The drop run counts a dropped notice in RUNNING; at 8 the part enters ISOLATED, with the kind of that notice as the
condition's argument (R11, R15). -/
def countDrop (kind : Nat) (s : State) : State :=
  if s.clc.link = .running then
    let s := onClc (fun c => { c with dropRun := min dropLimit (c.dropRun + 1) }) s
    if s.clc.dropRun = dropLimit then enterIsolated (raise .isolated kind .clc s) else s
  else s

/-- Each notice gets at most four failed attempts (R5). -/
def failureLimit : Nat := 4

/-- A failed attempt (R5, R9 to R11). -/
def failAttempt (s : State) : State :=
  match attemptEntry s with
  | some e =>
    if e.failed + 1 < failureLimit then tellWithdrawn e (endAttempt (fun q => settleQueue (countFailure q)) s)
    else countDrop (kindCode e.notice) (deliverAll (dropDelivery e (endAttempt dropAttempt s)))
  | none => s

/-! ### REJOIN, JOIN and the periods (R14, R16, R21, R184) -/

/-- Every peer-table entry but the own one is ABSENT (R16 step 2). -/
def forgetPeers (s : State) : State :=
  onClc (fun c => { c with peers := Table.build 16 fun p => if p = c.address then c.peers.get p else resetPeer }) s

/-- REJOIN, once the PROBE has been acknowledged and the drop run is 0 (R16, R93, R123, R144). -/
def rejoin (s : State) : State :=
  let s := queueStatus .rejoining (setLink .running (forgetPeers s))
  let s := viewRemove (fun _ => true) (raise .rejoined 0 .clc s)
  zoneRejoin (pgoRejoin s)

/-- The drop run is 0 (R11). -/
def clearDrops (s : State) : State := onClc (fun c => { c with dropRun := 0 }) s

/-- An acknowledged attempt (R5, R10, R11, R16). -/
def acknowledge (s : State) : State :=
  match attemptEntry s with
  | some e =>
    let s := clearDrops (endAttempt dropAttempt s)
    if isProbe e.notice && decide (s.clc.link = .isolated) then rejoin s else deliverLater e.notice s
  | none => s

/-- Expiry of the listening timer: JOIN (R14, R36, R184). -/
def joinLink (s : State) : State :=
  if s.clc.link = .listening then
    announceAvailable (queueStatus .joining (setLink .running (setPhase .running s)))
  else s

/-- Expiry of the STATUS period, which runs in RUNNING (R21). -/
def statusPeriod (s : State) : State := if s.clc.link = .running then queueStatus .running s else s

/-- Expiry of the PROBE period, which runs in ISOLATED (R16). -/
def probePeriod (s : State) : State := if s.clc.link = .isolated then queueNotice .probe s else s

/-! ### Heard frames (R4, R12, R17, R19) -/

/-- The link states in which the part reads frames (section 1.5). -/
def readsBus : LinkState → Bool
  | .listening | .running | .isolated | .listenOnly => true
  | .loading | .halted => false

/-- The OFM, LU and PGO are told of the entry to LISTEN-ONLY as of an entry to ISOLATED, from LISTENING or RUNNING
(R17). -/
def tellsIsolation : LinkState → Bool
  | .listening | .running => true
  | .isolated | .loading | .listenOnly | .halted => false

/-- A heard frame carries the own address: DUPLICATE-ADDRESS and LISTEN-ONLY; in LISTEN-ONLY it changes nothing (R17). -/
def duplicateAddress (s : State) : State :=
  if s.clc.link = .listenOnly then s
  else
    let tells := tellsIsolation s.clc.link
    let s := raise .duplicateAddress (own s).val .clc (loseArbitration s)
    let s := flushQueue (setLink .listenOnly s)
    if tells then tellIsolated s else s

/-- A heard notice of a known kind goes to the blocks: in RUNNING every kind, elsewhere the four kinds that R12 names. -/
def handsOver (everywhere : Bool) (l : LinkState) : Bool := everywhere || decide (l = .running)

/-- A frame received to its end with a good CRC (R4): the acknowledgement slot is driven, but in LISTEN-ONLY, the peer
table is updated, and the notice is handed over. A frame with the own address reveals a duplicate and is handed to no
block (R17, log 9). -/
def hear (src : Cabinet) (everywhere : Bool) (take : State → State) (s : State) : State :=
  if readsBus s.clc.link then
    let s := emit (.acknowledge (decide (s.clc.link ≠ .listenOnly))) s
    if src = own s then duplicateAddress s
    else
      let s := touchPeer src s
      if handsOver everywhere s.clc.link then take s else s
  else s

/-- A frame with a bad CRC: the acknowledgement slot is left recessive (R4). -/
def ignoreFrame (s : State) : State := if readsBus s.clc.link then emit (.acknowledge false) s else s

/-! ### What the blocks make of a heard notice (R12, R186) -/

/-- A STATUS that asks for one in return (R21). -/
def asksStatus : LinkField → Bool
  | .joining | .rejoining => true
  | .running => false

/-- A STATUS heard in RUNNING with link-state field JOINING or REJOINING is answered (R21). -/
def answerStatus (b : RawStatus) (s : State) : State :=
  withCode (codeLinkField b.link) (fun f s =>
    if asksStatus f && decide (s.clc.link = .running) then queueStatus .running s else s) s

/-- A STATUS: peer table, answer, channel view, evacuation sets (R19, R21, R108, R140). -/
def heardStatus (src : Cabinet) (b : RawStatus) (s : State) : State :=
  let s := answerStatus b (recordChannels src b (recordEvacuation src b s))
  let s := withCode (codeChannels b) (fun _ => pgoStatus src) s
  withCode (codeEvacuation b) (fun _ => zoneStatus src) s

/-- An OFFER at the HE; a group code 255 names no group to offer (log 28). -/
def heardOffer (call : RawId) (group : Byte) (tried : IndexSet) (s : State) : State :=
  withCode (codeCall call) (fun c => withCode (codeBelow 16 group) fun g => memberOffer c g tried) s

/-- A BID at the HE's two sides, ranked by the arbitration field alone (R72, R77, R186). The HE is one block, which reads the
line and the order index for its owner side (R77): that its member side, which uses the call id and the field alone (R72),
ignores a BID with a bad line or order index too is the model's choice (log 10). -/
def heardBid (src : Cabinet) (key : BidKey) (call : RawId) (line index : Byte) (s : State) : State :=
  withCode (codeCall call) (fun c => withCode (codeBelow 16 line) fun l => withCode (codeOrNone 32 index) fun i s =>
    ownerBid c ⟨src, l, i, arbNumber 2 key.val src⟩ (memberBid c (arbNumber 2 key.val src) s)) s

/-- A RING-ASSIGN: the HE reads the call id alone, the LU all fields (R75, R186). -/
def heardRingAssign (call : RawId) (cab line cadence : Byte) (s : State) : State :=
  withCode (codeCall call) (fun c s =>
    let s := dropBid c s
    withCode (codeBelow 16 cab) (fun cab => withCode (codeBelow 16 line) fun l => withCode (codeCadence cadence) fun cad =>
      lineAssign c cab l cad) s) s

/-- A DECLINE at the OFM and HE. -/
def heardDecline (src : Cabinet) (call : RawId) (line : Byte) (s : State) : State :=
  withCode (codeCall call) (fun c => withCode (codeBelow 16 line) fun l => takeDecline c src l) s

/-- A RING-STARTED at the OFM and HE, and at the PPU. -/
def heardRingStarted (src : Cabinet) (call : RawId) (line index pickup : Byte) (s : State) : State :=
  withCode (codeCall call) (fun c => withCode (codeBelow 16 line) fun l s =>
    let s := withCode (codeOrNone 32 index) (fun i => takeRingStarted c ⟨src, l, i⟩) s
    withCode (codeOrNone 16 pickup) (fun p => viewEnter c src l p) s) s

/-- A RING-ENDED at the OFM and at the PPU, which does not read the reason (R91). -/
def heardRingEnded (src : Cabinet) (call : RawId) (line reason : Byte) (s : State) : State :=
  withCode (codeCall call) (fun c => withCode (codeBelow 16 line) fun l s =>
    viewRemoveLine c src l (withCode (codeRingEnd reason) (takeRingEnded c src l) s)) s

/-- A NO-ANSWER at the OFM and HE. -/
def heardNoAnswer (src : Cabinet) (call : RawId) (line : Byte) (s : State) : State :=
  withCode (codeCall call) (fun c => withCode (codeBelow 16 line) fun l => takeNoAnswer c src l) s

/-- An ANSWERED at the OFM. -/
def heardAnswered (src : Cabinet) (call : RawId) (line index : Byte) (s : State) : State :=
  withCode (codeCall call) (fun c => withCode (codeBelow 16 line) fun l => withCode (codeOrNone 32 index) fun i =>
    takeAnswer c src l i) s

/-- A CLAIM at the OFM, and at the PPU, which marks the call's entries (R54, R92). -/
def heardClaim (b : RawClaim) (s : State) : State :=
  withCode (codeClaim b) (fun t s =>
    let s := withCode (codeBelow 16 b.cab) (fun cab => withCode (codeBelow 16 b.line) fun l => takeClaim t cab l false) s
    markClaim t s) s

/-- A CONNECTED at the HE, the LU and the PPU, each by the fields it reads (R186). The LU reads group and order index for the
line that the notice names (R41): that it ignores a CONNECTED with a bad group or order index for its other lines too, where
it uses call id, cabinet and line alone (R39, R41), is the model's choice (log 10). -/
def heardConnected (call : RawId) (cab line group index : Byte) (s : State) : State :=
  withCode (codeCall call) (fun c s =>
    let s := withCode (codeOrNone 16 group) (fun g => withCode (codeOrNone 32 index) fun i => huntConnected c g i) s
    let s := withCode (codeOrNone 16 group) (fun g => withCode (codeOrNone 32 index) fun i =>
      withCode (codeBelow 16 cab) fun cab => withCode (codeBelow 16 line) fun l => lineConnected c cab l g i) s
    viewRemoveCall c s) s

/-- A REFUSED at the LU, which does not read the reason: R41 resolves the verdict for any reason (log 10). -/
def heardRefused (b : RawClaim) (s : State) : State :=
  withCode (codeClaim b) (fun t => withCode (codeBelow 16 b.cab) fun cab => withCode (codeBelow 16 b.line) fun l =>
    takeRefused t cab l) s

/-- A CANCEL at the HE, the LU and the PPU. -/
def heardCancel (call : RawId) (s : State) : State := withCode (codeCall call) takeCancel s

/-- A PAGE-START at the PGO, which reads page, class and channel (R108). -/
def pgoHeardStart (b : RawPageStart) (s : State) : State :=
  withCode (codePage b.page) (fun p => withCode (codeClass b.cls) fun c => withCode (codeOrNone 4 b.channel) fun ch =>
    heardPageStart p c ch) s

/-- A PAGE-START at the ZC, which reads every field (R128). That it reads the orbit byte of every class, though it keeps an orbit
for a CODE page only (R125), and so ignores a PAGE-START of any class with a code outside its table there (R186), is the
model's choice (log 10). -/
def zoneHeardStart (b : RawPageStart) (s : State) : State :=
  withCode (codePage b.page) (fun p => withCode (codeClass b.cls) fun c => withCode (codeTarget b.target) fun t =>
    withCode (codeOrNone 4 b.channel) fun ch => withCode (codeOrNone 64 b.orbit) fun o =>
      zonePageStart ⟨p, c, t, ch, b.flags.getLsbD 0, b.flags.getLsbD 1, o⟩) s

/-- A PAGE-START at the PGO and the ZC. -/
def heardStart (b : RawPageStart) (s : State) : State := zoneHeardStart b (pgoHeardStart b s)

/-- A PAGE-END; no block reads its reason. -/
def heardPageEnd (page : RawId) (s : State) : State := withCode (codePage page) takePageEnd s

/-- A ZONE-REPORT at the PGO. -/
def heardZoneReport (page : RawId) (zone outcome : Byte) (s : State) : State :=
  withCode (codePage page) (fun p => withCode (codeBelow 64 zone) fun z => withCode (codeOutcome outcome) fun o =>
    pgoReport p z o) s

end Sys2Proof.Machine
end

