-- ==== Sys2Proof/Machine/Load.lean ====
section
/-! DEFINITION. The Configuration Loader: the image read from the memory's bytes, the load's outcome at every block, and the full
reset (chapter 11, R180 to R183, R185, R188). -/

namespace Sys2Proof.Machine

/-! ### Words and clamps (R180, R181, R188) -/

/-- The image of format version 1 is 244 words long (12.3). -/
def imageLength : Nat := 244

/-- A byte of the memory; one past the operand's end reads as all ones, as a memory that does not answer (R180, log 15). -/
def byteAt (memory : List Byte) (i : Nat) : Byte := memory.getD i 0xFF#8

/-- Word `i` of the memory: the high byte at its even address, followed by the low byte (R188). -/
def wordAt (memory : List Byte) (i : Nat) : Word16 := wordOf (byteAt memory (2 * i)) (byteAt memory (2 * i + 1))

/-- The high and the low byte of a word, as numbers. -/
def highOf (w : Word16) : Nat := (highByte w).toNat
def lowOf (w : Word16) : Nat := (lowByte w).toNat

/-- A value clamped to a range (R181). -/
def clamp (lo hi n : Nat) : Nat := max lo (min hi n)

/-- A value clamped to 0 to n (R181). -/
def clampFin (n : Nat) (x : Nat) : Fin (n + 1) := ⟨min n x, by omega⟩

/-- The sum of the first `n` words, modulo 65536. -/
def wordSum (memory : List Byte) : Nat → Word16
  | 0 => 0
  | n + 1 => wordSum memory n + wordAt memory n

/-- The judgement of an image (R180): the argument of CONFIG-FAULT of the first check that fails, none for a good image. -/
def judgeImage (memory : List Byte) : Option Nat :=
  let length := wordAt memory 0
  if length = 0 ∨ length = 0xFFFF#16 then some 1
  else if wordAt memory 1 ≠ 1 then some 2
  else if length.toNat ≠ imageLength then some 2
  else if wordSum memory imageLength ≠ 0 then some 3
  else none

/-! ### Entries (table 12-6) -/

/-- A discipline code; a code beyond the list takes its last value (R181, R188). -/
def disciplineCode : Nat → Discipline
  | 0 => .linear | 1 => .circular | 2 => .longestIdle
  | _ => .simultaneous

/-- An overflow action code. -/
def overflowCode : Nat → OverflowAction
  | 0 => .recycle | 1 => .queue | 2 => .forward
  | _ => .park

/-- A queue-expiry action code. -/
def expiryCode : Nat → QueueExpiryAction
  | 0 => .recycle | 1 => .forward | 2 => .park
  | _ => .endCall

/-- A membership slot: none when empty (R188). -/
def membershipSlot (w : Word16) : Option Membership :=
  if w.getLsbD 15 then
    some { group := clampFin 15 (w.extractLsb' 8 6).toNat, index := clampFin 31 (lowOf w), loggedIn := w.getLsbD 14 }
  else none

/-- The occupied membership slots of a line, in their order. -/
def lineSlots (memory : List Byte) (l : Line) : List Membership :=
  ([1, 2, 3, 4] : List Nat).filterMap fun k => membershipSlot (wordAt memory (7 + 5 * l.val + k))

/-- A membership is kept: its group and index are not kept for a line of this part, nor its group for the same line
(R182). -/
def keeps (all mine : List Membership) (m : Membership) : Bool :=
  !(all.any fun x => decide (x.group = m.group ∧ x.index = m.index)) && !(mine.any fun x => decide (x.group = m.group))

/-- The memberships of one line that are kept, after those kept for earlier lines (R182). -/
def keepSlots (earlier : List Membership) : List Membership → List Membership → List Membership
  | mine, [] => mine
  | mine, m :: rest => keepSlots earlier (if keeps (earlier ++ mine) mine m then mine ++ [m] else mine) rest

/-- The membership lists of lines in their order (R182). -/
def buildMemberships (earlier : List Membership) : List (List Membership) → List (List Membership)
  | [] => []
  | slots :: rest =>
    let kept := keepSlots earlier [] slots
    kept :: buildMemberships (earlier ++ kept) rest

/-- The sixteen membership lists of an image. -/
def membershipLists (memory : List Byte) : List (List Membership) :=
  buildMemberships [] (allLines.map (lineSlots memory))

/-- A pickup-group byte: 255 none, any other clamped (R188). -/
def pickupCode (b : Nat) : Option PickupGroup := if b = 255 then none else some (clampFin 15 b)

/-- A line entry. -/
def lineConfig (memory : List Byte) (ms : List (List Membership)) (l : Line) : LineConfig :=
  let w := wordAt memory (7 + 5 * l.val)
  { inService := w.getLsbD 15
    privilege := if w.getLsbD 14 then .supervisor else .ordinary
    pickup := pickupCode (lowOf w)
    memberships := ms.getD l.val [] }

/-- A group entry, none when its present flag is clear (R67, R188). -/
def groupConfig (memory : List Byte) (g : HuntGroup) : Option GroupParams :=
  let w (k : Nat) := wordAt memory (87 + 7 * g.val + k)
  if (w 0).getLsbD 15 then
    some { discipline := disciplineCode ((w 0).extractLsb' 8 3).toNat
           span := clamp 1 32 (highOf (w 1))
           noAnswer := clamp 6 120 (lowOf (w 1))
           wrapUp := clamp 0 255 (highOf (w 2))
           queueFlag := (w 0).getLsbD 14
           queueMax := clamp 10 600 (w 3).toNat
           overflow := overflowCode ((w 0).extractLsb' 4 3).toNat
           forward := clampFin 15 (lowOf (w 2))
           parkPaging := clampFin 31 (highOf (w 4))
           queueExpiry := expiryCode ((w 0).extractLsb' 0 3).toNat
           recallTime := clamp 30 600 (w 5).toNat
           repeatInterval := clamp 15 120 (w 6).toNat
           repeatLimit := clamp 1 15 (lowOf (w 4)) }
  else none

/-- A wake time: clamped, then rounded down to a multiple of 50 ms (R181). -/
def wakeTime (n : Nat) : Nat := clamp 0 1000 n / 50 * 50

/-- A zone entry; Cmax is clamped to the range from the clamped F (R181). -/
def zoneConfig (memory : List Byte) (z : LocalZone) : ZoneConfig :=
  let w (k : Nat) := wordAt memory (199 + 9 * z.val + k)
  let floor := clamp 0 127 (lowOf (w 5))
  { inService := (w 0).getLsbD 15
    quiet := (w 0).getLsbD 14
    paging := w 1 ++ w 2
    wake := wakeTime (w 3).toNat
    hang := clamp 0 10 (lowOf (w 0))
    level := { base := clamp 0 127 (highOf (w 4))
               refAmb := clamp 0 254 (lowOf (w 4))
               slope := clamp 0 8 (highOf (w 5))
               floor := floor
               ceiling := clamp floor 127 (highOf (w 6))
               ramp := clamp 1 16 (lowOf (w 6))
               smooth := clamp 0 6 (highOf (w 7))
               rise := clamp 0 40 (lowOf (w 7))
               fallback := clamp 0 254 (highOf (w 8)) } }

/-- The values of a good image (table 12-5, R181, R182, R188). -/
def readImage (memory : List Byte) : Image :=
  let ms := membershipLists memory
  { address := clampFin 15 (wordAt memory 2).toNat
    alarmGroup := clampFin 31 (wordAt memory 3).toNat
    routineMax := clamp 10 240 (wordAt memory 4).toNat
    alarmMax := clamp 30 900 (wordAt memory 5).toNat
    mask := (wordAt memory 6).extractLsb' 0 12
    lines := Table.build 16 (lineConfig memory ms)
    groups := Table.build 16 (groupConfig memory)
    zones := Table.build 4 (zoneConfig memory)
    notes := Table.build 8 fun n => clamp 64 1023 (wordAt memory (235 + n.val)).toNat }

/-! ### A good load (R13, R22, R125, R145, R158, R177, R179) -/

/-- The CLC at a good load: address, own entry PRESENT, LISTENING (R13). -/
def loadClc (img : Image) (s : State) : State :=
  onClc (fun c => { c with
    address := img.address, link := .listening
    peers := c.peers.modify img.address fun e => { e with state := .present } }) s

/-- A line record at a good load (R22). -/
def loadedLine (c : LineConfig) : LineRec :=
  let r := { resetLine with
    inService := c.inService, privilege := c.privilege, pickup := c.pickup, memberships := c.memberships
    state := if c.inService then .idle else .outOfService }
  { r with available := availableSet r }

/-- The LU at a good load: no AVAILABLE is queued (R22). The lines start IDLE with the orders that the full reset gave them;
that no ring or tone order goes out again here is the model's choice (log 32). -/
def loadLines (img : Image) (s : State) : State := { s with lu := img.lines.map loadedLine }

/-- A zone record at a good load (R125). -/
def loadedZone (c : ZoneConfig) : ZoneRec :=
  { resetZone with cfg := c, state := if c.inService then .released else .outOfService }

/-- The ZC at a good load (R125). That the amplifier and source orders of the state go out again at each zone, also where it was
RELEASED before, is the model's choice (log 36). -/
def loadZones (img : Image) (s : State) : State :=
  forEach allZones selectOutputs
    { s with zc := { zones := img.zones.map loadedZone, routineMax := img.routineMax, alarmMax := img.alarmMax } }

/-- A zone whose amplifier-fault input reads active at the load takes it (R125, R142). -/
def loadFault (z : LocalZone) (s : State) : State := if s.pins.ampFault.get z then faultActive z s else s

/-- A good load at every block (R179). -/
def goodLoad (img : Image) (s : State) : State :=
  let s := loadLines img (loadClc img (setPhase .listening s))
  let s := onPgo (fun p => { p with alarmGroup := img.alarmGroup }) (onHe (fun h => { h with groups := img.groups }) s)
  let s := { s with ts := { s.ts with notes := some img.notes } }
  let s := onSpu (fun u => { u with mask := img.mask }) s
  let s := forEach allZones loadLevel (loadZones img s)
  forEach allZones loadFault s

/-! ### A bad load (R13, R177, R183) -/

/-- The attention mask of HALTED: CONFIG-FAULT alone (R177). -/
def haltedMask : BitVec 12 := 1

/-- A bad load with an argument of CONFIG-FAULT (R183). -/
def badLoad (argument : Nat) (s : State) : State :=
  raise .configFault argument .cfg <|
    onSpu (fun u => { u with mask := haltedMask }) (setLink .halted (setPhase .halted s))

/-- The load's outcome (R179, R180); the memory is read once, in LOADING. -/
def completeLoad (memory : List Byte) (s : State) : State :=
  if s.phase = .loading then
    match judgeImage memory with
    | some argument => badLoad argument s
    | none => goodLoad (readImage memory) s
  else s

/-! ### The full reset (R185) -/

/-- The orders at the start of LOADING: silence and attenuation 127 at each zone (R147, R158). That they go out zone by zone,
silence before attenuation, is the model's choice (log 14). -/
def loadingOrders : List Output := (allZones.map fun z => [Output.sound z none, Output.attenuation z 127]).flatten

/-- The orders of the reset: ring OFF and tone NONE at each line, each amplifier disabled with source none, silence and
attenuation 127 (R22, R125, R185). -/
def resetOrders : List Output :=
  (allLines.map fun l => [Output.ring l false, Output.tone l .none]).flatten
    ++ (allZones.map fun z => [Output.amplifier z false, Output.source z .none]).flatten ++ loadingOrders

/-- The full reset: every block at its reset values (R185). The levels at the pins, the waiting commands and the count of
free values are outside it (logs 6 and 17). -/
def fullReset (s : State) : State :=
  { State.reset with pins := s.pins, outputs := resetOrders, choices := s.choices, pending := s.pending }

end Sys2Proof.Machine
end

