-- ==== Sys2Proof/Machine/Act.lean ====
section
/-! DEFINITION. What every command shares: the outputs of the command before are gone, nothing happens while RESET is held
(R185, log 18), and the own notices that the command leaves for own delivery are delivered (R10, log 4). -/

namespace Sys2Proof.Machine

/-- What a command answers. -/
abbrev Result := Host.Outcome State Fault Refusal

/-- The outputs of the command before are gone (log 8). -/
def fresh (s : State) : State := { s with outputs := [] }

/-- A command with effect `f`: while RESET is held asserted the part acts on no port and no timer (R185, log 18). -/
def act (f : State → State) (s : State) : Result :=
  if s.pins.reset then .next (fresh s) else .next (deliverAll (f (fresh s)))

end Sys2Proof.Machine
end

