-- ==== Sys2Proof/Machine/CallCommands.lean ====
section
/-! DEFINITION. Calls, hunting, pickup and park orbits (chapters 3 to 5): shelf records, timers and heard notices. -/

namespace Sys2Proof.Machine

/-- CALL_ARRIVAL (R48, R49). -/
def execCallArrival (ref : Word16) (targetType : Byte) (target : Word16) (s : State) : Result :=
  act (callArrival ref targetType target) s

/-- CALL_GONE (R62). -/
def execCallGone (ref : Word16) (s : State) : Result := act (callGone ref) s

/-- ASSIGN_TIMER_EXPIRY (R53, R80). -/
def execAssignTimerExpiry (call : Seq) (s : State) : Result := act (assignExpiry call) s

/-- OFFER (R70, R71, R74). -/
def execOffer (src : Cabinet) (call : RawId) (group _attempt : Byte) (tried : BitVec 32) (s : State) : Result :=
  act (hear src false (heardOffer call group tried)) s

/-- BID (R72, R77). -/
def execBid (src : Cabinet) (key : BidKey) (call : RawId) (line index : Byte) (_payloadKey : Word16) (s : State) :
    Result :=
  act (hear src false (heardBid src key call line index)) s

/-- SEND_LIMIT_EXPIRY (R72). -/
def execSendLimitExpiry (call : CallId) (s : State) : Result := act (sendLimitExpiry call) s

/-- BID_WINDOW_CLOSE (R78). -/
def execBidWindowClose (call : Seq) (s : State) : Result := act (closeWindow call) s

/-- RECYCLE_PAUSE_EXPIRY (R82). -/
def execRecyclePauseExpiry (call : Seq) (s : State) : Result := act (recycleExpiry call) s

/-- QUEUE_WAIT_EXPIRY (R85). -/
def execQueueWaitExpiry (call : Seq) (s : State) : Result := act (queueWaitExpiry call) s

/-- RING_ASSIGN (R37, R75). -/
def execRingAssign (src : Cabinet) (call : RawId) (cab line cadence : Byte) (s : State) : Result :=
  act (hear src false (heardRingAssign call cab line cadence)) s

/-- DECLINE (R53, R61, R80). -/
def execDecline (src : Cabinet) (call : RawId) (line : Byte) (s : State) : Result :=
  act (hear src false (heardDecline src call line)) s

/-- RING_STARTED (R52, R59, R90). -/
def execRingStarted (src : Cabinet) (call : RawId) (line index pickup : Byte) (s : State) : Result :=
  act (hear src false (heardRingStarted src call line index pickup)) s

/-- RING_ENDED (R60, R91). -/
def execRingEnded (src : Cabinet) (call : RawId) (line reason : Byte) (s : State) : Result :=
  act (hear src false (heardRingEnded src call line reason)) s

/-- NO_ANSWER (R60). -/
def execNoAnswer (src : Cabinet) (call : RawId) (line : Byte) (s : State) : Result :=
  act (hear src false (heardNoAnswer src call line)) s

/-- ANSWERED (R55). -/
def execAnswered (src : Cabinet) (call : RawId) (line index : Byte) (s : State) : Result :=
  act (hear src false (heardAnswered src call line index)) s

/-- CLAIM (R56, R57, R92). -/
def execClaim (src : Cabinet) (body : RawClaim) (s : State) : Result := act (hear src false (heardClaim body)) s

/-- CONNECTED (R39, R41, R68, R70, R73, R91). -/
def execConnected (src : Cabinet) (call : RawId) (cab line group index : Byte) (s : State) : Result :=
  act (hear src false (heardConnected call cab line group index)) s

/-- REFUSED (R41). -/
def execRefused (src : Cabinet) (body : RawClaim) (_reason : Byte) (s : State) : Result :=
  act (hear src false (heardRefused body)) s

/-- CANCEL (R35, R39, R41, R70, R91). -/
def execCancel (src : Cabinet) (call : RawId) (s : State) : Result := act (hear src false (heardCancel call)) s

/-- AVAILABLE (R84). -/
def execAvailable (src : Cabinet) (groups : BitVec 16) (s : State) : Result :=
  act (hear src false (takeAvailable groups)) s

/-- RECALL_TIMER_EXPIRY (R104). -/
def execRecallTimerExpiry (slot : OrbitSlot) (s : State) : Result := act (recallExpiry slot) s

/-- REPEAT_TIMER_EXPIRY (R101). -/
def execRepeatTimerExpiry (slot : OrbitSlot) (s : State) : Result := act (repeatExpiry slot) s

end Sys2Proof.Machine
end

