-- ==== Sys2Proof/Machine/LineCommands.lean ====
section
/-! DEFINITION. Line Port events and line timers (chapter 2). -/

namespace Sys2Proof.Machine

/-- OFF_HOOK (R22, R23, R40). -/
def execOffHook (line : Line) (s : State) : Result := act (takeOffHook line) s

/-- ON_HOOK (R24, R42). -/
def execOnHook (line : Line) (s : State) : Result := act (takeOnHook line) s

/-- DIGIT (R25 to R33). -/
def execDigit (line : Line) (d : Digit) (s : State) : Result := act (takeDigit line d) s

/-- DIGIT_TIMER_EXPIRY (R26). -/
def execDigitTimerExpiry (line : Line) (s : State) : Result := act (digitExpiry line) s

/-- RESERVATION_TIMER_EXPIRY (R35): the timer runs while the line holds a reservation. -/
def execReservationTimerExpiry (line : Line) (s : State) : Result := act (releaseReservation line) s

/-- CADENCE_INTERVAL_EXPIRY (R38). -/
def execCadenceIntervalExpiry (line : Line) (s : State) : Result := act (cadenceExpiry line) s

/-- NO_ANSWER_TIMER_EXPIRY (R38, R39). -/
def execNoAnswerTimerExpiry (line : Line) (s : State) : Result := act (noAnswerExpiry line) s

/-- VERDICT_TIMER_EXPIRY (R41). -/
def execVerdictTimerExpiry (line : Line) (s : State) : Result := act (verdictExpiry line) s

/-- WRAP_UP_TICK (R42). -/
def execWrapUpTick (line : Line) (s : State) : Result := act (wrapUpSecond line) s

/-- IDLE_SECOND_TICK (R42). -/
def execIdleSecondTick (line : Line) (s : State) : Result := act (idleSecond line) s

end Sys2Proof.Machine
end

