-- ==== Sys2Proof/Machine/LinkCommands.lean ====
section
/-! DEFINITION. The part's own attempts, frames that carry no notice, STATUS, PROBE and the link timers (chapter 1). -/

namespace Sys2Proof.Machine

/-- ATTEMPT_START (R2, R7). -/
def execAttemptStart (s : State) : Result := act startAttempt s

/-- ARBITRATION_LOST (R3). -/
def execArbitrationLost (s : State) : Result := act loseArbitration s

/-- ATTEMPT_ACKNOWLEDGED (R5, R10, R16). -/
def execAttemptAcknowledged (s : State) : Result := act acknowledge s

/-- ATTEMPT_FAILED (R5, R9 to R11, R15). -/
def execAttemptFailed (s : State) : Result := act failAttempt s

/-- FRAME_ABANDONED (R1, R4): not acknowledged, not heard; nothing in the part changes. -/
def execFrameAbandoned (s : State) : Result := act id s

/-- FRAME_CRC_MISMATCH (R4): the acknowledgement slot is left recessive, the frame is not heard. -/
def execFrameCrcMismatch (s : State) : Result := act ignoreFrame s

/-- FRAME_UNKNOWN_KIND (R4, R19): acknowledged, counted as heard, handed to no block. -/
def execFrameUnknownKind (src : Cabinet) (_kind _length : BitVec 5) (s : State) : Result := act (hear src false id) s

/-- STATUS (R12, R19, R21, R108, R140). -/
def execStatus (src : Cabinet) (body : RawStatus) (s : State) : Result := act (hear src true (heardStatus src body)) s

/-- PROBE (R19): the peer table alone. -/
def execProbe (src : Cabinet) (s : State) : Result := act (hear src false id) s

/-- STATUS_PERIOD (R21). -/
def execStatusPeriod (s : State) : Result := act statusPeriod s

/-- PROBE_PERIOD (R16). -/
def execProbePeriod (s : State) : Result := act probePeriod s

/-- PEER_AGING_TICK (R20). -/
def execPeerAgingTick (s : State) : Result := act agingTick s

end Sys2Proof.Machine
end

