-- ==== Sys2Proof/Machine/PageCommands.lean ====
section
/-! DEFINITION. Pages (chapters 6 and 7): contact inputs, page timers and heard page notices. -/

namespace Sys2Proof.Machine

/-- CONTACT_INPUT_ACTIVE (R114, R115). -/
def execContactInputActive (input : ContactInput) (s : State) : Result := act (inputBecomesActive input) s

/-- CONTACT_INPUT_INACTIVE (R114, R115). -/
def execContactInputInactive (input : ContactInput) (s : State) : Result := act (inputBecomesInactive input) s

/-- MINIMUM_TIMER_EXPIRY (R115). -/
def execMinimumTimerExpiry (input : ContactInput) (s : State) : Result := act (minimumExpiry input) s

/-- PAGE_START (R108 to R111, R128 to R132). -/
def execPageStart (src : Cabinet) (body : RawPageStart) (s : State) : Result := act (hear src true (heardStart body)) s

/-- PAGE_END (R102, R108, R138). -/
def execPageEnd (src : Cabinet) (page : RawId) (_reason : Byte) (s : State) : Result :=
  act (hear src true (heardPageEnd page)) s

/-- REPORT_WINDOW_EXPIRY (R120). -/
def execReportWindowExpiry (page : Seq) (s : State) : Result := act (reportWindowExpiry page) s

/-- CODE_LIFE_EXPIRY (R118). -/
def execCodeLifeExpiry (page : Seq) (s : State) : Result := act (codeLifeExpiry page) s

/-- ZONE_REPORT (R119, R121). -/
def execZoneReport (src : Cabinet) (page : RawId) (zone outcome : Byte) (s : State) : Result :=
  act (hear src false (heardZoneReport page zone outcome)) s

/-- ALL_STOP (R102, R122, R141). -/
def execAllStop (src : Cabinet) (_cab : Byte) (s : State) : Result := act (hear src true takeAllStop) s

end Sys2Proof.Machine
end

