-- ==== Sys2Proof/Machine/ShelfCommands.lean ====
section
/-! DEFINITION. The Shelf Port (chapter 10): reads, clears, bad records and records sent. -/

namespace Sys2Proof.Machine

/-- The CONDITION record of no flag set (R176). -/
def noneReport : ConditionReport := { condition := none, argument := 0, origin := .spu, count := 0, pending := 0 }

/-- The answer to a CONDITION-READ, its flag cleared (R176). -/
def answerRead (s : State) : State :=
  match highestPending s with
  | none => shelfSend (.condition noneReport) s
  | some c =>
    let e := conditionEntry s c
    let s := clearCondition c s
    shelfSend (.condition ⟨some c, e.argument, e.origin, e.count, pendingCount s⟩) s

/-- A CONDITION-READ: not answered while the output queue is full (R176). -/
def readCondition (s : State) : State :=
  if s.spu.output.length < outputCapacity then answerRead s
  else raiseRecordFault .outputOverflow (outKind (.condition noneReport)) s

/-- CONDITION_READ (R176). -/
def execConditionRead (s : State) : Result := act readCondition s

/-- A SHELF-CLEAR at the blocks (R66, R44, R124, R173). That the OFM acts before the LU and the LU before the PGO, which is
the order in which their notices join the transmit queue, is the model's choice (log 14). -/
def clearShelf (s : State) : State := pgoShelfClear (lineShelfClear (ofmShelfClear s))

/-- SHELF_CLEAR (R173). -/
def execShelfClear (s : State) : Result := act clearShelf s

/-- A complete record that fails a check is discarded (R170); bytes that are no such record change nothing (log 21). -/
def badRecord (bytes : List Byte) (s : State) : State :=
  if recordComplete bytes then
    match judgeRecord bytes with
    | some cause => raiseRecordFault cause (recordKind bytes) s
    | none => s
  else s

/-- SHELF_RECORD_BAD (R170). -/
def execShelfRecordBad (bytes : List Byte) (s : State) : Result := act (badRecord bytes) s

/-- Bytes received, and then a gap: the record that they leave incomplete is abandoned, and the next byte is a length byte
(R169, R170). With nothing received no gap runs (log 1); bytes that are complete contradict the gap and change nothing
(log 21). -/
def abandonRecord (bytes : List Byte) (s : State) : State :=
  match s.spu.incoming ++ bytes with
  | [] => s
  | n :: rest =>
    if rest.length < n.toNat + 2 then
      raiseRecordFault .incomplete (recordKind (n :: rest)) (onSpu (fun u => { u with incoming := [] }) s)
    else s

/-- RECORD_GAP_TIMEOUT (R169). Its operand is the bytes that the gap ends, less those that State.spu.incoming holds (log 3). -/
def execRecordGapTimeout (bytes : List Byte) (s : State) : Result := act (abandonRecord bytes) s

/-- A byte from the shelf, no command but what frames the commands of the Shelf Port (R169, log 3): the first byte after a
reset, a gap or a sum byte is a length byte; at its sum byte a record becomes its command, which joins the queue, since
records are taken in the order of their sum bytes. A part held in RESET receives none. -/
def shelfByte (b : Byte) (s : State) : State :=
  if s.pins.reset then s
  else
    let bytes := s.spu.incoming ++ [b]
    if recordComplete bytes then
      { onSpu (fun u => { u with incoming := [] }) s with pending := s.pending ++ (recordCommand bytes).toList }
    else onSpu (fun u => { u with incoming := bytes }) s

/-- The oldest record of the output queue has been sent (R171, R187). -/
def recordSent (s : State) : State :=
  match s.spu.output with
  | [] => s
  | r :: rest => emit (.shelfBytes (outBytes r)) (onSpu (fun u => { u with output := rest }) s)

/-- OUTPUT_RECORD_SENT (R171). -/
def execOutputRecordSent (s : State) : Result := act recordSent s

end Sys2Proof.Machine
end

