-- ==== Sys2Proof/Machine/StartUp.lean ====
section
/-! DEFINITION. Start-up commands (chapter 11). -/

namespace Sys2Proof.Machine

/-- POWER_ON (R185): the full reset; LOADING begins. -/
def execPowerOn (s : State) : Result := .next (fullReset s)

/-- RESET_ASSERT (R185): the full reset, and the part is inert while the input stays asserted. -/
def execResetAssert (s : State) : Result := .next (onPins (fun p => { p with reset := true }) (fullReset s))

/-- RESET_RELEASE (R179): LOADING begins, with the orders at its start (R147, R158). -/
def execResetRelease (s : State) : Result :=
  if s.pins.reset then
    .next { setPhase .loading (onPins (fun p => { p with reset := false }) s) with outputs := loadingOrders }
  else .next (fresh s)

/-- LOAD_COMPLETE (R179, R180). -/
def execLoadComplete (memory : List Byte) (s : State) : Result := act (completeLoad memory) s

/-- JOIN (R14, R184). -/
def execJoin (s : State) : Result := act joinLink s

end Sys2Proof.Machine
end

