-- ==== Sys2Proof/Machine/ZoneCommands.lean ====
section
/-! DEFINITION. Zone timers, sequencers, amplifier faults and ambient samples (chapters 7 to 9). -/

namespace Sys2Proof.Machine

/-- WAKE_TIMER_EXPIRY (R134). -/
def execWakeTimerExpiry (zone : LocalZone) (s : State) : Result := act (wakeExpiry zone) s

/-- STEP_TIMER_EXPIRY (R150). -/
def execStepTimerExpiry (zone : LocalZone) (s : State) : Result := act (stepExpiry zone) s

/-- PATTERN_COMPLETION (R134, R154). -/
def execPatternCompletion (zone : LocalZone) (s : State) : Result := act (takeCompletion zone) s

/-- ELAPSED_SECOND_TICK (R136). -/
def execElapsedSecondTick (zone : LocalZone) (s : State) : Result := act (elapsedTick zone) s

/-- HANG_TIMER_EXPIRY (R137). -/
def execHangTimerExpiry (zone : LocalZone) (s : State) : Result := act (hangExpiry zone) s

/-- The level at an amplifier-fault input (log 17). -/
def setFaultPin (z : LocalZone) (on : Bool) (s : State) : State :=
  onPins (fun p => { p with ampFault := p.ampFault.set z on }) s

/-- The ZC acts on the amplifier-fault inputs, and the LVU takes samples, from a good load on (R125, R142, R158). -/
def zonesServed (p : Phase) : Bool :=
  match p with
  | .listening | .running => true
  | .loading | .halted => false

/-- A change of an amplifier-fault input to active. -/
def faultBecomesActive (z : LocalZone) (before : Bool) (s : State) : State :=
  if zonesServed s.phase && !before then faultActive z s else s

/-- A change of an amplifier-fault input to inactive. -/
def faultBecomesInactive (z : LocalZone) (before : Bool) (s : State) : State :=
  if zonesServed s.phase && before then faultInactive z s else s

/-- AMP_FAULT_ACTIVE (R142): the pin's level is kept also where no block acts on it (log 17). -/
def execAmpFaultActive (zone : LocalZone) (s : State) : Result :=
  act (faultBecomesActive zone (s.pins.ampFault.get zone)) (setFaultPin zone true s)

/-- AMP_FAULT_INACTIVE (R143). -/
def execAmpFaultInactive (zone : LocalZone) (s : State) : Result :=
  act (faultBecomesInactive zone (s.pins.ampFault.get zone)) (setFaultPin zone false s)

/-- A sample at the LVU: taken in an in-service zone (R158). -/
def sampleArrives (z : LocalZone) (code : Byte) (s : State) : State :=
  if zonesServed s.phase && (zoneOf s z).cfg.inService then takeSample z code s else s

/-- AMBIENT_SAMPLE (R158 to R168). -/
def execAmbientSample (zone : LocalZone) (code : Byte) (s : State) : Result := act (sampleArrives zone code) s

end Sys2Proof.Machine
end

