-- ==== Sys2Proof/Machine/Dispatch.lean ====
section
/-! DEFINITION. exec: one arm per command, each a direct call of its meaning. -/

namespace Sys2Proof.Machine

/-- The effect of a command on everything but the queue. -/
def exec (i : Instr) (s : State) : Host.Outcome State Fault Refusal :=
  match i with
  | .powerOn => Sys2Proof.Machine.execPowerOn s
  | .resetAssert => Sys2Proof.Machine.execResetAssert s
  | .resetRelease => Sys2Proof.Machine.execResetRelease s
  | .loadComplete memory => Sys2Proof.Machine.execLoadComplete memory s
  | .join => Sys2Proof.Machine.execJoin s
  | .attemptStart => Sys2Proof.Machine.execAttemptStart s
  | .arbitrationLost => Sys2Proof.Machine.execArbitrationLost s
  | .attemptAcknowledged => Sys2Proof.Machine.execAttemptAcknowledged s
  | .attemptFailed => Sys2Proof.Machine.execAttemptFailed s
  | .frameAbandoned => Sys2Proof.Machine.execFrameAbandoned s
  | .frameCrcMismatch => Sys2Proof.Machine.execFrameCrcMismatch s
  | .frameUnknownKind src kind length => Sys2Proof.Machine.execFrameUnknownKind src kind length s
  | .status src body => Sys2Proof.Machine.execStatus src body s
  | .probe src => Sys2Proof.Machine.execProbe src s
  | .statusPeriod => Sys2Proof.Machine.execStatusPeriod s
  | .probePeriod => Sys2Proof.Machine.execProbePeriod s
  | .peerAgingTick => Sys2Proof.Machine.execPeerAgingTick s
  | .offHook line => Sys2Proof.Machine.execOffHook line s
  | .onHook line => Sys2Proof.Machine.execOnHook line s
  | .digit line d => Sys2Proof.Machine.execDigit line d s
  | .digitTimerExpiry line => Sys2Proof.Machine.execDigitTimerExpiry line s
  | .reservationTimerExpiry line => Sys2Proof.Machine.execReservationTimerExpiry line s
  | .cadenceIntervalExpiry line => Sys2Proof.Machine.execCadenceIntervalExpiry line s
  | .noAnswerTimerExpiry line => Sys2Proof.Machine.execNoAnswerTimerExpiry line s
  | .verdictTimerExpiry line => Sys2Proof.Machine.execVerdictTimerExpiry line s
  | .wrapUpTick line => Sys2Proof.Machine.execWrapUpTick line s
  | .idleSecondTick line => Sys2Proof.Machine.execIdleSecondTick line s
  | .callArrival ref targetType target => Sys2Proof.Machine.execCallArrival ref targetType target s
  | .callGone ref => Sys2Proof.Machine.execCallGone ref s
  | .assignTimerExpiry call => Sys2Proof.Machine.execAssignTimerExpiry call s
  | .offer src call group attempt tried => Sys2Proof.Machine.execOffer src call group attempt tried s
  | .bid src key call line index payloadKey => Sys2Proof.Machine.execBid src key call line index payloadKey s
  | .sendLimitExpiry call => Sys2Proof.Machine.execSendLimitExpiry call s
  | .bidWindowClose call => Sys2Proof.Machine.execBidWindowClose call s
  | .recyclePauseExpiry call => Sys2Proof.Machine.execRecyclePauseExpiry call s
  | .queueWaitExpiry call => Sys2Proof.Machine.execQueueWaitExpiry call s
  | .ringAssign src call cab line cadence => Sys2Proof.Machine.execRingAssign src call cab line cadence s
  | .decline src call line => Sys2Proof.Machine.execDecline src call line s
  | .ringStarted src call line index pickup => Sys2Proof.Machine.execRingStarted src call line index pickup s
  | .ringEnded src call line reason => Sys2Proof.Machine.execRingEnded src call line reason s
  | .noAnswer src call line => Sys2Proof.Machine.execNoAnswer src call line s
  | .answered src call line index => Sys2Proof.Machine.execAnswered src call line index s
  | .claim src body => Sys2Proof.Machine.execClaim src body s
  | .connected src call cab line group index => Sys2Proof.Machine.execConnected src call cab line group index s
  | .refused src body reason => Sys2Proof.Machine.execRefused src body reason s
  | .cancel src call => Sys2Proof.Machine.execCancel src call s
  | .available src groups => Sys2Proof.Machine.execAvailable src groups s
  | .recallTimerExpiry slot => Sys2Proof.Machine.execRecallTimerExpiry slot s
  | .repeatTimerExpiry slot => Sys2Proof.Machine.execRepeatTimerExpiry slot s
  | .contactInputActive input => Sys2Proof.Machine.execContactInputActive input s
  | .contactInputInactive input => Sys2Proof.Machine.execContactInputInactive input s
  | .minimumTimerExpiry input => Sys2Proof.Machine.execMinimumTimerExpiry input s
  | .pageStart src body => Sys2Proof.Machine.execPageStart src body s
  | .pageEnd src page reason => Sys2Proof.Machine.execPageEnd src page reason s
  | .reportWindowExpiry page => Sys2Proof.Machine.execReportWindowExpiry page s
  | .codeLifeExpiry page => Sys2Proof.Machine.execCodeLifeExpiry page s
  | .zoneReport src page zone outcome => Sys2Proof.Machine.execZoneReport src page zone outcome s
  | .allStop src cab => Sys2Proof.Machine.execAllStop src cab s
  | .wakeTimerExpiry zone => Sys2Proof.Machine.execWakeTimerExpiry zone s
  | .stepTimerExpiry zone => Sys2Proof.Machine.execStepTimerExpiry zone s
  | .patternCompletion zone => Sys2Proof.Machine.execPatternCompletion zone s
  | .elapsedSecondTick zone => Sys2Proof.Machine.execElapsedSecondTick zone s
  | .hangTimerExpiry zone => Sys2Proof.Machine.execHangTimerExpiry zone s
  | .ampFaultActive zone => Sys2Proof.Machine.execAmpFaultActive zone s
  | .ampFaultInactive zone => Sys2Proof.Machine.execAmpFaultInactive zone s
  | .ambientSample zone code => Sys2Proof.Machine.execAmbientSample zone code s
  | .conditionRead => Sys2Proof.Machine.execConditionRead s
  | .shelfClear => Sys2Proof.Machine.execShelfClear s
  | .shelfRecordBad bytes => Sys2Proof.Machine.execShelfRecordBad bytes s
  | .recordGapTimeout bytes => Sys2Proof.Machine.execRecordGapTimeout bytes s
  | .outputRecordSent => Sys2Proof.Machine.execOutputRecordSent s

end Sys2Proof.Machine
end

