-- ==== Sys2Proof/WellFormed.lean ====
section
/-! DEFINITION. What makes a command one that the part's ports can bring: a command whose operands contradict its own name
is ill-formed. Every other operand value is well-formed, the raw bytes of a heard notice included (R186). -/

namespace Sys2Proof

/-- Why a command is ill-formed. -/
inductive IllFormed where
  /-- A FRAME_UNKNOWN_KIND whose kind is known and whose length is that kind's (R4, table 12-2). -/
  | knownKind
  /-- A FRAME_UNKNOWN_KIND whose length is above 24: such a frame is abandoned (R4). -/
  | lengthAbove24
  /-- A SHELF_RECORD_BAD whose bytes are not one complete record (R169). -/
  | recordNotComplete
  /-- A SHELF_RECORD_BAD whose bytes are a good record (R170). -/
  | recordGood
  deriving DecidableEq, Repr

/-- The first thing that makes a command ill-formed, none for a well-formed command. -/
def check (i : Instr) : Option IllFormed :=
  match i with
  | .frameUnknownKind _ kind length =>
    if length.toNat > 24 then some .lengthAbove24
    else if Machine.kindLength kind.toNat = some length.toNat then some .knownKind
    else none
  | .shelfRecordBad bytes =>
    if !Machine.recordComplete bytes then some .recordNotComplete
    else if (Machine.judgeRecord bytes).isNone then some .recordGood
    else none
  | _ => none

/-- A command is well-formed. -/
def wellFormed (i : Instr) : Bool := (check i).isNone

/-- The source cabinet of the heard frame that a command is, none for a command that is no heard frame. -/
def heardSource (i : Instr) : Option Cabinet :=
  match i with
  | .frameUnknownKind src _ _ => some src
  | .status src _ => some src
  | .probe src => some src
  | .offer src _ _ _ _ => some src
  | .bid src _ _ _ _ _ => some src
  | .ringAssign src _ _ _ _ => some src
  | .decline src _ _ => some src
  | .ringStarted src _ _ _ _ => some src
  | .ringEnded src _ _ _ => some src
  | .noAnswer src _ _ => some src
  | .answered src _ _ _ => some src
  | .claim src _ => some src
  | .connected src _ _ _ _ _ => some src
  | .refused src _ _ => some src
  | .cancel src _ => some src
  | .available src _ => some src
  | .pageStart src _ => some src
  | .pageEnd src _ _ => some src
  | .zoneReport src _ _ _ => some src
  | .allStop src _ => some src
  | _ => none

end Sys2Proof
end

