-- ==== Sys2Proof/Safety.lean ====
section
/-! DEFINITION. The vocabulary of the statements: when a command acts, what a next state looks like, and the invariants of
the part. -/

namespace Sys2Proof.Machine

/-! ### When a command acts -/

/-- The part takes a command: RESET is not asserted (R185), and no own notice waits for own delivery, as between any two
steps (log 4). -/
abbrev Ready (s : State) : Prop := s.pins.reset = false ∧ s.deliveries = []

/-- The part is RUNNING on the link, and its transmit queue has room for `n` more notices (R7). -/
abbrev Sending (n : Nat) (s : State) : Prop :=
  Ready s ∧ s.clc.link = .running ∧ s.clc.queue.length + n ≤ txCapacity

/-- The output queue has room for `n` more records (R171). -/
abbrev ShelfRoom (n : Nat) (s : State) : Prop := s.spu.output.length + n ≤ outputCapacity

/-- A peer that has been heard: its entry is PRESENT, so hearing it again raises nothing (R19). -/
abbrev Known (p : Cabinet) (s : State) : Prop := p ≠ own s ∧ (peerOf s p).state = .present

/-! ### Parts of a next state -/

/-- Notices join the end of the transmit queue. -/
def withQueued (ns : List Notice) (s : State) : State :=
  { s with clc := { s.clc with queue := s.clc.queue ++ ns.map (newEntry (own s)) } }

/-- A notice is queued at a full transmit queue (R8): of it and the queued notices that are not in an attempt, the one with the highest
arbitration field leaves, among equal fields the last to join; a STATUS or PROBE is discarded, any other waits for own delivery. -/
def QueuedWhenFull (n : Notice) (s t : State) : Prop :=
  s.clc.queue.length = 24 ∧ ∃ before x after, s.clc.queue ++ [newEntry (own s) n] = before ++ x :: after ∧ x.inAttempt = false
    ∧ (∀ y ∈ before, y.inAttempt = true ∨ y.field ≤ x.field) ∧ (∀ y ∈ after, y.inAttempt = true ∨ y.field < x.field)
    ∧ t = { s with
        clc := { s.clc with queue := before ++ after }
        deliveries := s.deliveries ++ if isHousekeeping x.notice then [] else [x.notice] }

/-- Notices of a block go out: they join the transmit queue, or, where the part is cut off from the link, wait for own delivery (R7,
R10). -/
def noticed (ns : List Notice) (s : State) : State :=
  if cutOff s then { s with deliveries := s.deliveries ++ ns } else withQueued ns s

/-- `n` more notices can go out without loss: there is room in the transmit queue (R7), or the part is cut off and queues none. -/
abbrev Room (n : Nat) (s : State) : Prop :=
  cutOff s = true ∨ (s.clc.link = .running ∧ s.clc.queue.length + n ≤ txCapacity)

/-- The notices that a request picks leave the transmit queue, or wait for the end of their attempt (R9). -/
def withWithdrawn (p : Notice → Bool) (s : State) : State :=
  { s with clc := { s.clc with queue := withdrawFrom p s.clc.queue } }

/-- Records join the end of the output queue. -/
def withSent (rs : List OutRecord) (s : State) : State :=
  { s with spu := { s.spu with output := s.spu.output ++ rs } }

/-- A line has a record. -/
def withLine (l : Line) (r : LineRec) (s : State) : State := { s with lu := s.lu.set l r }

/-- A zone has a record. -/
def withZone (z : LocalZone) (r : ZoneRec) (s : State) : State :=
  { s with zc := { s.zc with zones := s.zc.zones.set z r } }

/-- A zone has a level state. -/
def withLevel (z : LocalZone) (v : Level) (s : State) : State := { s with lvu := s.lvu.set z v }

/-- A zone has a sequencer. -/
def withSequencer (z : LocalZone) (q : Sequencer) (s : State) : State :=
  { s with ts := { s.ts with seqs := s.ts.seqs.set z q } }

/-- The offer table holds these records. -/
def withOffers (l : List Offer) (s : State) : State := { s with ofm := { s.ofm with offers := l } }

/-- The page table holds these records. -/
def withPages (l : List PageRec) (s : State) : State := { s with pgo := { s.pgo with pages := l } }

/-- These orders went out. -/
def withOutputs (os : List Output) (s : State) : State := { s with outputs := os }

/-- A peer has an entry. -/
def withPeer (p : Cabinet) (e : Peer) (s : State) : State :=
  { s with clc := { s.clc with peers := s.clc.peers.set p e } }

/-- What hearing a frame from a known peer leaves in the peer table: age 0 (R19). -/
def heardFrom (p : Cabinet) (s : State) : State := withPeer p { peerOf s p with age := 0 } s

/-- The AVAILABLE for the groups that are new to a line's available set; none where no group is new (R36). -/
def newGroups (added : GroupSet) : List Notice := if added = 0 then [] else [.available added]

/-- A line's record with its available set recomputed (R36). -/
def refreshed (r : LineRec) : LineRec := { r with available := availableSet r }

/-- The AVAILABLE that a line's new record brings, against the record before it (R36). -/
def newlyAvailable (before after : LineRec) : List Notice := newGroups (availableSet after &&& ~~~ before.available)

/-- A line's record when it becomes IDLE (R24). -/
def idleRecord (r : LineRec) : LineRec :=
  { r with state := .idle, call := none, verdict := none, cadenceAt := none, noAnswer := none, ring := false,
           tone := .none }

/-- No line rings, awaits a verdict or holds a reservation. -/
abbrev LinesQuiet (s : State) : Prop :=
  ∀ l, (lineOf s l).state ≠ .ringing ∧ (lineOf s l).verdict = none ∧ (lineOf s l).reserved = none

/-- No zone's places hold a page that `p` picks. -/
abbrev NoPlacedPage (p : PageEntry → Bool) (s : State) : Prop :=
  ∀ z, pickActive p (zoneOf s z) = none ∧ pickHeld p (zoneOf s z) = none ∧ (zoneOf s z).pending.all (fun e => !p e) = true

/-! ### Where a thing stands -/

/-- An entry is the attempt of a queue, and the only one. -/
abbrev OnlyAttempt (e : TxEntry) (before after : List TxEntry) : Prop :=
  e.inAttempt = true ∧ ∀ x ∈ before ++ after, x.inAttempt = false

/-- A record stands in the offer table, and no other record has its sequence value. -/
abbrev OfferAt (o : Offer) (before after : List Offer) (s : State) : Prop :=
  s.ofm.offers = before ++ o :: after ∧ ∀ x ∈ before ++ after, x.seq ≠ o.seq

/-- A record leaves the table with its queue standing, and its OFFER and RING-ASSIGN are withdrawn (R47). -/
def callFreed (o : Offer) (before after : List Offer) (s : State) : State :=
  withWithdrawn (isOfferOf ⟨own s, o.seq⟩) (withOffers (before ++ after)
    { s with he := { s.he with queue := s.he.queue.filter fun x => !decide (x.call = o.seq) } })

/-- A record whose assigned member is lost, with the member counted as tried (R80). -/
def withoutAssigned (i : Option OrderIndex) (o : Offer) : Offer :=
  { o with assigned := none, assignTimer := false, tried := addTried i o.ringing o.tried }

/-- A record re-offered (R76). -/
def reoffered (o : Offer) : Offer := { o with state := .offering, window := none, attempts := min 255 (o.attempts + 1) }

/-- A record's queue standing is gone (R83). -/
def withoutStanding (q : Seq) (s : State) : State :=
  { s with he := { s.he with queue := s.he.queue.filter fun x => !decide (x.call = q) } }

/-- An entry at the end of the ring view (R90). -/
def withRinging (e : ViewEntry) (s : State) : State := { s with ppu := { s.ppu with view := s.ppu.view ++ [e] } }

/-- A record stands in the page table, and no other record has its sequence value. -/
abbrev PageAt (r : PageRec) (before after : List PageRec) (s : State) : Prop :=
  s.pgo.pages = before ++ r :: after ∧ ∀ x ∈ before ++ after, x.seq ≠ r.seq

/-- The bid entry of a call ends, and its BID is withdrawn (R73). -/
def withoutBid (c : CallId) (s : State) : State :=
  withWithdrawn (isBidFor c) { s with he := { s.he with bids := s.he.bids.filter fun b => !decide (b.call = c) } }

/-- Only line `l` of the part awaits or rings for a call, and no line holds a reservation for it. -/
abbrev OnlyParty (l : Line) (c : CallId) (s : State) : Prop :=
  ∀ m, (m ≠ l → awaits (lineOf s m) (.call c) = false ∧ ringsFor (lineOf s m) c = false)
    ∧ (match (lineOf s m).reserved with
        | some v => v.call ≠ c
        | none => True)

/-- The entry of a peer one second older: an ABSENT entry keeps its age, the count saturates at 255 (R20). -/
def secondOlder (e : Peer) : Peer := if e.state = .absent then e else { e with age := min 255 (e.age + 1) }

/-! ### What single commands leave, and what their statements presume -/

/-- The commands that a part held in RESET still takes: the two resets, the release, and the levels at its fault inputs. -/
def takenInReset : Instr → Bool
  | .powerOn | .resetAssert | .resetRelease | .ampFaultActive _ | .ampFaultInactive _ => true
  | _ => false

/-- What R185 lists for the reset. -/
def AllAtReset (t : State) : Prop :=
  t.phase = .loading ∧ t.clc.link = .loading ∧ t.clc.queue = [] ∧ t.clc.driving = [] ∧ t.clc.dropRun = 0
  ∧ (∀ p, (peerOf t p).state = .absent) ∧ t.spu.output = [] ∧ t.spu.incoming = [] ∧ (∀ c, (conditionEntry t c).pending = false)
  ∧ attention t = false ∧ t.ofm.offers = [] ∧ t.he.bids = [] ∧ t.he.queue = [] ∧ t.he.heard = [] ∧ t.ppu.view = []
  ∧ (∀ i, slotOf t i = none) ∧ t.pgo.pages = [] ∧ (∀ c, t.pgo.view.get c = none)
  ∧ (∀ z, (zoneOf t z).active = none ∧ (zoneOf t z).held = none ∧ (zoneOf t z).pending = [] ∧ (zoneOf t z).evac = [])
  ∧ (∀ l, (lineOf t l).reserved = none ∧ (lineOf t l).verdict = none ∧ (lineOf t l).digitTimer = none
      ∧ (lineOf t l).noAnswer = none ∧ (lineOf t l).wrapUp = none)
  ∧ t.ofm.counter = 0 ∧ t.ofm.wrapped = false ∧ t.pgo.counter = 0 ∧ (∀ g, t.he.rotation.get g = 31)
  ∧ (∀ l, (lineOf t l).ring = false ∧ (lineOf t l).tone = .none)
  ∧ (∀ z, amplifierOrder (zoneOf t z).state = false ∧ sourceOrder (zoneOf t z) = .none ∧ (seqOf t z).sound = none
      ∧ (seqOf t z).run = none ∧ (levelOf t z).current = 127)
  ∧ t.pgo.alarmActive = false ∧ t.pgo.evacActive = false

/-- What a bad load with an argument makes of a state: HALTED, CONFIG-FAULT raised and alone enabled. -/
def afterBadLoad (argument : Nat) (s : State) : State :=
  let raised := s.spu.conditions.set 0 (raiseEntry argument .cfg (conditionEntry s .configFault))
  withOutputs []
    { s with phase := .halted, clc := { s.clc with link := .halted }, spu := { s.spu with mask := 1, conditions := raised } }

/-- The state with another transmit queue, and the bus left. -/
def withQueue (q : List TxEntry) (s : State) : State := { s with clc := { s.clc with queue := q, driving := [] } }

/-- The state after an attempt: its queue, the bus left, and the drop run. -/
def afterAttempt (q : List TxEntry) (drops : Nat) (s : State) : State :=
  { s with clc := { s.clc with queue := q, driving := [], dropRun := drops } }

/-- The four kinds that are handed over outside RUNNING (R12). -/
def handedEverywhere : Instr → Bool
  | .status .. | .pageStart .. | .pageEnd .. | .allStop .. => true
  | _ => false

/-- The peer table's entries at the second in which `p` falls silent. -/
def silencedPeer (p : Cabinet) (s : State) (q : Cabinet) : Peer :=
  if q = own s then peerOf s q
  else if q = p then { secondOlder (peerOf s q) with state := .silent, channels := Table.fill 4 none }
  else secondOlder (peerOf s q)

/-- A line that has just gone off-hook to dial. -/
def dialling (r : LineRec) : LineRec :=
  { r with state := .dialing, collecting := true, buffer := [], digitTimer := some .first, wrapUp := none,
           reserved := none, tone := .dial, available := 0 }

/-- A ringing line that has gone off-hook: its call field kept, the verdict pending. -/
def answering (c : LineCall) (r : LineRec) : LineRec :=
  { r with state := .answerPending, cadenceAt := none, noAnswer := none, call := some { c with cadence := none },
           verdict := some ⟨.call c.call, .answer⟩, ring := false, tone := .none }

/-- A line whose code has been refused (R28). -/
def refusedLine (r : LineRec) : LineRec :=
  { r with buffer := [], digitTimer := none, armed := false, collecting := false, tone := .refuse }

/-- The line with a digit at the end of its buffer; a `#` in first position arms the override (R25, R31). -/
def withDigit (d : Digit) (r : LineRec) : LineRec :=
  { r with digitTimer := none, tone := .none, armed := r.armed || decide (r.buffer = [] ∧ d = .hash),
           buffer := r.buffer ++ [d] }

/-- The target that a CALL-ARRIVAL names, where check 3 of R48 passes it. -/
abbrev KnownTarget (s : State) (targetType : Byte) (value : Word16) : CallTarget → Prop
  | .hunt g => targetType = 1 ∧ value.toNat = g.val ∧ (s.he.groups.get g).isSome = true
  | .direct cab line => targetType = 2 ∧ value.toNat = 100 + 16 * cab.val + line.val

/-- The claimed mark on every view entry of a call (R92). -/
def withMark (c : CallId) (s : State) : State :=
  { s with ppu := { s.ppu with view := s.ppu.view.map fun e => if e.call = c then { e with marked := true } else e } }

/-- The state after a call's OFFER is forgotten and its view entries are gone. -/
def callForgotten (c : CallId) (s : State) : State :=
  { s with he := { s.he with heard := s.he.heard.filter fun e => !decide (e.call = c) }
           ppu := { s.ppu with view := s.ppu.view.filter fun e => !decide (e.call = c) } }

/-- A line with a membership for a group, untried and available for it, has a bid of a key and an order index. -/
abbrev Candidacy (s : State) (g : HuntGroup) (tried : IndexSet) (l : Line) (i : OrderIndex) : Prop :=
  indexIn (lineOf s l).memberships g = some i ∧ hasIndex tried i = false ∧ isAvailable (lineOf s l) g = true

/-- The key of R69 by the part's own discipline for the group. -/
abbrev KeyOf (s : State) (g : HuntGroup) (l : Line) (i : OrderIndex) (k : BidKey) : Prop :=
  (disciplineOf s g = .linear → k.val = i.val)
  ∧ (disciplineOf s g = .circular → k.val = (i.val + 32 - (s.he.rotation.get g).val - 1) % 32)
  ∧ (disciplineOf s g = .longestIdle → k.val = 1023 - min (lineOf s l).idleSecs 1023)

/-- A candidate comes before another: lower key, then lower order index, then lower line number. -/
abbrev Before (k₁ : BidKey) (i₁ : OrderIndex) (l₁ : Line) (k₂ : BidKey) (i₂ : OrderIndex) (l₂ : Line) : Prop :=
  k₁ < k₂ ∨ (k₁ = k₂ ∧ (i₁ < i₂ ∨ (i₁ = i₂ ∧ l₁ < l₂)))

/-- An OFFER has entered the heard-offer list. -/
def withHeard (c : CallId) (g : HuntGroup) (s : State) : State :=
  { s with he := { s.he with heard := s.he.heard ++ [⟨c, g⟩] } }

/-- A line that a ring request has made RINGING (R37, R38). -/
def ringingRecord (s : State) (c : CallId) (cad : Cadence) (g : Option HuntGroup) (r : LineRec) : LineRec :=
  { r with state := .ringing, call := some ⟨c, some cad, g, g.bind (indexIn r.memberships)⟩, cadenceAt := some 0,
           noAnswer := some (noAnswerTime s g), reserved := none, ring := true, available := 0 }

/-- A line's reservation for a call ends: the line is announced for the groups it is available for again. -/
def released (l : Line) (c : CallId) (s : State) : State :=
  noticed (newlyAvailable (lineOf s l) { lineOf s l with reserved := none })
    (withoutBid c (withLine l (refreshed { lineOf s l with reserved := none }) s))

/-- A park orbit slot holds this. -/
def withSlot (i : OrbitSlot) (x : Option Orbit) (s : State) : State :=
  { s with ppu := { s.ppu with orbits := s.ppu.orbits.set i x } }

/-- A page record has been written: at the end of the table, with the counter past its sequence value (R107). -/
def withNewPage (r : PageRec) (s : State) : State :=
  { s with pgo := { s.pgo with pages := s.pgo.pages ++ [r], counter := nextSeq r.seq } }

/-- A contact input has been taken as active or inactive (R114). -/
def withInput (i : ContactInput) (on : Bool) (s : State) : State :=
  match i with
  | .alarm => { s with pgo := { s.pgo with alarmActive := on } }
  | .evac => { s with pgo := { s.pgo with evacActive := on } }

/-- A line whose page has ended with a tone (R32). -/
def pageEnded (l : Line) (t : Tone) (s : State) : State :=
  withLine l { lineOf s l with state := .busy, page := none, tone := t } s

/-- A channel view entry (R108). -/
def withView (c : Channel) (h : Option ChannelHold) (s : State) : State :=
  { s with pgo := { s.pgo with view := s.pgo.view.set c h } }

/-- What an announced page's record becomes, by its origin (R116). -/
def onTheAir (r : PageRec) : PageRec :=
  match r.origin with
  | .line _ => { r with state := .reporting, reports := [], timer := some .reportWindow }
  | .orbit _ => { r with state := .onAir, timer := some .life }
  | .input _ => { r with state := .onAir, timer := some .minimum }

/-- The bid entries of the part with these in the place of what stood there. -/
def withBids (l : List BidEntry) (s : State) : State := { s with he := { s.he with bids := l } }

/-- A line of the part stops ringing for a call (R39): IDLE, ring OFF, its entry gone from the ring view, a RING-ENDED with its reason, and
an AVAILABLE for the groups it is available for again. -/
def RingingStops (l : Line) (call : CallId) (reason : RingEndReason) (s t : State) : Prop :=
  ∃ c, (lineOf s l).state = .ringing ∧ (lineOf s l).call = some c ∧ c.call = call ∧ Room 2 s ∧
    let r := { lineOf s l with
      state := .idle, call := none, cadenceAt := none, noAnswer := none, ring := false, tone := .none }
    t = withOutputs (s.outputs ++ [.ring l false, .tone l .none])
      (noticed (.ringEnded call l reason :: newlyAvailable (lineOf s l) r) (withLine l (refreshed r)
        { s with ppu := { s.ppu with
          view := s.ppu.view.filter fun e => !decide (e.call = call ∧ e.cab = own s ∧ e.line = l) } }))

/-- A pending verdict of a line resolves against it (R41): BUSY with tone LOST. -/
def resolvedLost (l : Line) (s : State) : State :=
  withOutputs (s.outputs ++ [.tone l .lost])
    (withLine l { lineOf s l with state := .busy, call := none, verdict := none, tone := .lost } s)

/-- A STATUS of a known peer, with its fields in their tables, that lists no channel which the part's own page stands on. -/
abbrev StatusHeard (src : Cabinet) (b : RawStatus) (f : LinkField) (e : Option PageId) (t : Table 4 (Option ChannelHold))
    (s : State) : Prop :=
  Sending 2 s ∧ Known src s ∧ (∀ x ∈ s.clc.queue, isStatus x.notice = false) ∧ codeLinkField b.link = some f
    ∧ codeEvacuation b = some e ∧ codeChannels b = some t ∧ ∀ c, (t.get c).isSome = true → channelRecord s c = none

/-- What a STATUS leaves at the CLC and the PGO (R19, R21, R108): the peer's entry, the answer to JOINING and REJOINING, and a
channel view that holds what it lists and none of its sender's other pages. -/
def statusTaken (src : Cabinet) (f : LinkField) (e : Option PageId) (t : Table 4 (Option ChannelHold)) (s : State) : State :=
  withQueued (if f = .running then [] else [.status .running (assembleStatus s)])
    { withPeer src { state := .present, age := 0, evac := e, channels := t } s with
        pgo := { s.pgo with view := Table.build 4 fun c => match t.get c with
          | some h => some h
          | none => (s.pgo.view.get c).filter fun x => !decide (x.page.cab = src) } }

/-- A command of a known peer that names one channel as held by a page, and does nothing else at the part: a PAGE-START with no
zone of the part in its target and nothing seized, or a STATUS that lists that channel alone. `u` is what it leaves in the peer
table. -/
abbrev NamesChannel (i : Instr) (src : Cabinet) (c : Channel) (h : ChannelHold) (s u : State) : Prop :=
  Known src s ∧
  ((∃ b t o, i = .pageStart src b ∧ codePage b.page = some h.page ∧ codeClass b.cls = some h.cls
      ∧ codeTarget b.target = some t ∧ codeOrNone 4 b.channel = some (some c)
      ∧ (codeOrNone 64 b.orbit : Option (Option OrbitNumber)) = some o ∧ (∀ z, inTarget (zoneOf s z) t = false)
      ∧ b.flags.getLsbD 0 = false ∧ u = heardFrom src s)
  ∨ ∃ b, i = .status src b ∧ codeLinkField b.link = some .running ∧ codeEvacuation b = some none
      ∧ codeChannels b = some ((Table.fill 4 none).set c (some h)) ∧ (∀ z, ∀ p ∈ (zoneOf s z).evac, p.cab ≠ src)
      ∧ (∀ m x, m ≠ c → s.pgo.view.get m = some x → x.page.cab ≠ src)
      ∧ u = withPeer src { state := .present, age := 0, evac := none, channels := (Table.fill 4 none).set c (some h) } s)

/-- The queue with a notice replaced where `p` picks it (R9): here no notice that it picks is in an attempt. -/
def withReplaced (p : Notice → Bool) (n : Notice) (s : State) : State :=
  { s with clc := { s.clc with queue := s.clc.queue.map fun e => if p e.notice then { e with notice := n } else e } }

/-- The last digit of a code that passes its checks (R27, R28). -/
abbrev LastDigit (l : Line) (d : Digit) (c : Code) (n : Nat) (s : State) : Prop :=
  s.phase = .running ∧ (lineOf s l).state = .dialing ∧ (lineOf s l).collecting = true
    ∧ ((lineOf s l).buffer = [] → d = .star ∨ d = .hash)
    ∧ compareBuffer (withDigit d (lineOf s l)).buffer = .complete c n ∧ passesChecks (withDigit d (lineOf s l)) c n = true

/-- The digits of a code, with `t`, `u` and `v` in its place-holder positions (R27). -/
def codeDigits (t u v : Fin 10) : Code → List Digit
  | .login => [.star, .num 1, .num t, .num u]
  | .logout => [.star, .num 2, .num t, .num u]
  | .groupPickup => [.star, .num 3]
  | .directedPickup => [.star, .num 4, .num t, .num u, .num v]
  | .retrieve => [.star, .num 5, .num t, .num u]
  | .routinePage => [.star, .num 6, .num t, .num u]
  | .alarmPage => [.star, .num 7, .num t, .num u]
  | .dnd => [.star, .num 8]
  | .allStop => [.star, .num 9]
  | .overrideRoutine => [.hash, .star, .num 6, .num t, .num u]
  | .overrideAlarm => [.hash, .star, .num 7, .num t, .num u]

/-- The number that those digits give a code: two or three decimal digits, 0 for a code without place holders. -/
def codeNumber (t u v : Fin 10) : Code → Nat
  | .directedPickup => 100 * t.val + 10 * u.val + v.val
  | .groupPickup | .dnd | .allStop => 0
  | .login | .logout | .retrieve | .routinePage | .alarmPage | .overrideRoutine | .overrideAlarm => 10 * t.val + u.val

/-- An occupied orbit is freed (R103): its slot is empty, and its code page, if a record holds one, ends; one on the air by PAGE-END,
one not yet announced by the withdrawal of its PAGE-START. -/
def OrbitFreed (i : OrbitSlot) (s t : State) : Prop :=
  ∃ x, slotOf s i = some x ∧
    (((∀ p, x.page = some p → ∀ r ∈ s.pgo.pages, r.seq ≠ p.seq) ∧ t = withSlot i none s)
    ∨ ∃ r before after, x.page = some ⟨own s, r.seq⟩ ∧ PageAt r before after s ∧ r.origin = .orbit (orbitNumber (own s) i)
      ∧ ((r.state ≠ .claiming
          ∧ t = noticed [.pageEnd ⟨own s, r.seq⟩ r.cls .ended] (withPages (before ++ after) (withSlot i none s)))
        ∨ (r.state = .claiming ∧ (∀ j y, j ≠ i → slotOf s j = some y → y.page ≠ some ⟨own s, r.seq⟩)
          ∧ (∀ c h, s.pgo.view.get c = some h → h.page ≠ ⟨own s, r.seq⟩)
          ∧ t = withWithdrawn (isStartOf ⟨own s, r.seq⟩) (withPages (before ++ after) (withSlot i none s)))))

/-- A zone has a record, and its amplifier and source orders go out (R126). -/
def zoneEnters (z : LocalZone) (r : ZoneRec) (amplifier : Bool) (source : SourceOrder) (s : State) : State :=
  withOutputs (s.outputs ++ [.amplifier z amplifier, .source z source]) (withZone z r s)

/-- T and C of a zone become `t`, with the attenuation order where C changes (R166). -/
def levelSet (z : LocalZone) (t : Nat) (s : State) : State :=
  withOutputs (s.outputs ++ (if (levelOf s z).current = t then [] else [.attenuation z t]))
    (withLevel z { levelOf s z with target := t, current := t } s)

/-- A zone's sequencer starts a pattern: the next run number, step 1, and the note order of step 1 (R148). -/
def patternStarts (z : LocalZone) (p : Pattern) (divider : Nat) (s : State) : State :=
  withOutputs (s.outputs ++ [.sound z (some divider)])
    (withSequencer z { seqOf s z with run := some ⟨p, 1⟩, sound := some divider, number := nextSeq (seqOf s z).number } s)

/-- A zone's sequencer stops: IDLE, and a silence order unless it is silent (R149). -/
def patternStops (z : LocalZone) (s : State) : State :=
  withOutputs (s.outputs ++ (if (seqOf s z).run.isSome ∧ (seqOf s z).sound ≠ none then [.sound z none] else []))
    (withSequencer z { seqOf s z with
      run := none, sound := if (seqOf s z).run.isSome then none else (seqOf s z).sound } s)

/-- A PAGE-START of a known peer with its fields in their tables, of a target that one zone of the part alone belongs to, on a channel
where no page of the part stands: what the ZC makes of it is made of the state in which the channel view holds it. -/
abbrev StartFor (b : RawPageStart) (src : Cabinet) (e : PageEntry) (t : PageTarget) (z : LocalZone) (override : Bool)
    (s : State) : Prop :=
  Known src s ∧ codePage b.page = some e.page ∧ codeClass b.cls = some e.cls
    ∧ codeTarget b.target = some t ∧ codeOrNone 64 b.orbit = some e.orbit
    ∧ (match e.source with
        | .channel c => codeOrNone 4 b.channel = some (some c) ∧ channelRecord s c = none
        | .tone => codeOrNone 4 b.channel = some none)
    ∧ (e.cls = .routine → e.source ≠ .tone) ∧ (e.cls = .code → e.orbit ≠ none) ∧ b.flags.getLsbD 0 = false
    ∧ b.flags.getLsbD 1 = override ∧ (∀ y, inTarget (zoneOf s y) t = decide (y = z)) ∧ holdsPage (zoneOf s z) e.page = false

/-- Such a PAGE-START in RUNNING. -/
abbrev OneZoneStart (b : RawPageStart) (src : Cabinet) (e : PageEntry) (t : PageTarget) (z : LocalZone) (override : Bool)
    (s : State) : Prop :=
  Sending 1 s ∧ s.phase = .running ∧ StartFor b src e t z override s

/-- A PAGE-START whose seize flag is set, on a channel where no page of the part stands, with no zone of the part in its target: it
does nothing else at the zones than free them of the other pages on that channel. -/
abbrev SeizingStart (b : RawPageStart) (src : Cabinet) (h : ChannelHold) (c : Channel) (s : State) : Prop :=
  Ready s ∧ s.clc.link = .running ∧ s.phase = .running ∧ Known src s ∧ codePage b.page = some h.page
    ∧ codeClass b.cls = some h.cls ∧ codeOrNone 4 b.channel = some (some c) ∧ b.flags.getLsbD 0 = true
    ∧ channelRecord s c = none
    ∧ ∃ t o, codeTarget b.target = some t ∧ codeOrNone 64 b.orbit = some o ∧ (h.cls = .code → o ≠ none)
      ∧ ∀ y, inTarget (zoneOf s y) t = false

/-- The state in which a heard PAGE-START meets the zones. -/
def startSeen (src : Cabinet) (e : PageEntry) (s : State) : State :=
  match e.source with
  | .channel c => withView c (some ⟨e.page, e.cls⟩) (heardFrom src s)
  | .tone => heardFrom src s

/-- A zone reports what it has done with a page; the report goes out on the link or, at a part cut off from it, to the own blocks. -/
def zoneReports (z : LocalZone) (p : PageId) (o : ZoneOutcome) (s : State) : State :=
  noticed [.zoneReport p (numberOf s z) o] s

/-- The divider of the first note of a page's first sounding phase, with its pattern and phase (R133, R151 to R153). -/
def firstSound (notes : Table 8 Nat) (e : PageEntry) : ZoneState × Pattern × Nat :=
  match e.cls, e.source with
  | .routine, _ => (.chime, .routinePrelude, notes.get 0)
  | .alarm, .channel _ => (.chime, .alarmPrelude, notes.get 2)
  | .alarm, .tone => (.tone, .alarmTone, notes.get 4)
  | .code, _ => (.code, .code (e.orbit.getD 0), notes.get 2)
  | .evac, _ => (.tone, .evacTone, notes.get 6)

/-- The last page has left a zone: HANG, or RELEASED with no hang time; the sequencer has stopped if the zone was sounding, the
hold-off count is 2 and the level is set for no class, or for EVAC while the evacuation set is not empty. -/
def lastLeaves (z : LocalZone) (s : State) : State :=
  let r := zoneOf s z
  let stopped := if sounding r.state then patternStops z s else s
  let hang := decide (0 < r.cfg.hang)
  let u := zoneEnters z { r with active := none, state := if hang then .hang else .released } hang .none stopped
  let cls := if r.evac = [] then none else some PageClass.evac
  levelSet z (targetOf r.cfg.level (levelOf s z).level cls) (withLevel z { levelOf s z with holdOff := 2 } u)

/-- A page becomes active in a zone that is WAKING or plays, `r` being the zone's record with the page in its place: in WAKING under
the running wake timer, else at once in its first sounding phase with its pattern. The level is set for its class, and PLAYING is
reported (R133, R135). -/
def pageBegins (z : LocalZone) (r : ZoneRec) (e : PageEntry) (notes : Table 8 Nat) (s : State) : State :=
  zoneReports z e.page .playing (levelSet z (targetOf r.cfg.level (levelOf s z).level (some e.cls))
    (if r.state = .waking then withZone z r s
     else patternStarts z (firstSound notes e).2.1 (firstSound notes e).2.2 (zoneEnters z { r with
       state := (firstSound notes e).1, keptRun := nextSeq (seqOf s z).number } true .tone s)))

/-- An ALARM page held in LIVE resumes in LIVE on its channel, with no new prelude, in a zone that plays: the sequencer has stopped if
the zone was sounding (R135). -/
def liveResumes (z : LocalZone) (r : ZoneRec) (e : PageEntry) (c : Channel) (s : State) : State :=
  zoneReports z e.page .playing (levelSet z (targetOf r.cfg.level (levelOf s z).level (some e.cls))
    (zoneEnters z { r with state := .live } true (.channel c) (if sounding r.state then patternStops z s else s)))

/-- A zone's sequencer has a run, and its sound field a divider: the tone order goes out where it differs (R147). -/
def sequencerPlays (z : LocalZone) (run : Option Run) (sound : Option Nat) (s : State) : State :=
  withOutputs (s.outputs ++ if (seqOf s z).sound = sound then [] else [.sound z sound])
    (withSequencer z { seqOf s z with run := run, sound := sound } s)

/-- A zone has a level state, and C has moved from it: one ramp step of P toward T in an active zone, to T in any other; the
attenuation order goes out where C changes (R166, R167). -/
def levelMoves (z : LocalZone) (v : Level) (s : State) : State :=
  let p := (zoneOf s z).cfg.level.ramp
  let stepped := if v.current ≤ v.target + p ∧ v.target ≤ v.current + p then v.target
    else if v.current < v.target then v.current + p else v.current - p
  let c := if zoneActive (zoneOf s z).state then stepped else v.target
  withOutputs (s.outputs ++ if v.current = c then [] else [.attenuation z c]) (withLevel z { v with current := c } s)

/-- A smoothed ambient, with the ambient level and T computed from it for the zone's level class (R163, R164). -/
def smoothedAt (p : LevelParams) (cls : Option PageClass) (a : Nat) (v : Level) : Level :=
  { v with smoothed := a, level := (a + 8) / 16, target := targetOf p ((a + 8) / 16) cls }

/-- A line at SHELF-CLEAR that does not ring and is not paging (R44). -/
def clearedLine (r : LineRec) : LineRec :=
  match r.state with
  | .talking => { r with state := .busy, call := none, idleSecs := 0, tone := .busy }
  | .answerPending | .pickupPending => { r with state := .busy, call := none, verdict := none, tone := .lost }
  | .ringing | .paging | .dialing | .busy | .wrapUp | .idle | .outOfService => r

/-- The tone orders that SHELF-CLEAR brings, in order of line number (R44, log 14). -/
def clearedTones (s : State) : List Output :=
  allLines.filterMap fun l => match (lineOf s l).state with
    | .talking => some (.tone l .busy)
    | .answerPending | .pickupPending => some (.tone l .lost)
    | .ringing | .paging | .dialing | .busy | .wrapUp | .idle | .outOfService => none

/-- A call id as its two bytes. -/
def rawCall (c : CallId) : RawId := ⟨byteOf c.cab.val, byteOf c.seq.val⟩

/-- A page id as its two bytes. -/
def rawPage (p : PageId) : RawId := ⟨byteOf p.cab.val, byteOf p.seq.val⟩

/-- The fields of a CLAIM or REFUSED: form 0 with the call id and orbit 255, or form 1 with call id 0, 0 and the orbit. -/
def rawClaim (t : ClaimTarget) (cab : Cabinet) (line : Line) : RawClaim :=
  match t with
  | .call c => ⟨0, rawCall c, 255, byteOf cab.val, byteOf line.val⟩
  | .orbit o => ⟨1, ⟨0, 0⟩, byteOf o.val, byteOf cab.val, byteOf line.val⟩

/-- A channel slot of a STATUS: class and page id, or 255 and page id 0, 0 (log 33). -/
def rawSlot : Option ChannelHold → RawSlot
  | some h => ⟨classByte h.cls, rawPage h.page⟩
  | none => ⟨255, ⟨0, 0⟩⟩

/-- The command that a notice is at a part that hears it: its source, and each field as the byte or bytes of table 12-3. -/
def heardAs (src : Cabinet) : Notice → Instr
  | .status link b =>
      .status src ⟨linkByte link, if b.evac.isSome then 1 else 0, (b.evac.map rawPage).getD ⟨0, 0⟩,
        rawSlot (b.channels.get 0), rawSlot (b.channels.get 1), rawSlot (b.channels.get 2), rawSlot (b.channels.get 3),
        byteOf b.offers⟩
  | .probe => .probe src
  | .offer c g a t => .offer src (rawCall c) (byteOf g.val) (byteOf a) t
  | .bid c l i k => .bid src k (rawCall c) (byteOf l.val) (byteOf i.val) (BitVec.ofNat 16 k.val)
  | .ringAssign c cab l cad => .ringAssign src (rawCall c) (byteOf cab.val) (byteOf l.val) (cadenceByte cad)
  | .decline c l => .decline src (rawCall c) (byteOf l.val)
  | .ringStarted c l i p => .ringStarted src (rawCall c) (byteOf l.val) (optByte i) (optByte p)
  | .ringEnded c l r => .ringEnded src (rawCall c) (byteOf l.val) (ringEndByte r)
  | .noAnswer c l => .noAnswer src (rawCall c) (byteOf l.val)
  | .answered c l i => .answered src (rawCall c) (byteOf l.val) (optByte i)
  | .claim t cab l => .claim src (rawClaim t cab l)
  | .connected c cab l g i => .connected src (rawCall c) (byteOf cab.val) (byteOf l.val) (optByte g) (optByte i)
  | .refused t cab l r => .refused src (rawClaim t cab l) (refusalByte r)
  | .cancel c => .cancel src (rawCall c)
  | .available g => .available src g
  | .pageStart b => .pageStart src ⟨rawPage b.page, classByte b.cls, targetByte b.target,
      optByte b.channel, flagsByte b.seize b.override, optByte b.orbit⟩
  | .pageEnd p _ r => .pageEnd src (rawPage p) (pageEndByte r)
  | .zoneReport p z o => .zoneReport src (rawPage p) (byteOf z.val) (outcomeByte o)
  | .allStop cab => .allStop src (byteOf cab.val)

/-! ### What goes on by several steps -/

/-- One thing after another happens to a state, in the order of a list. -/
def Chain {α : Type} (happens : α → State → State → Prop) : List α → State → State → Prop
  | [], s, t => t = s
  | a :: rest, s, t => ∃ u, happens a s u ∧ Chain happens rest u t

/-! ### Calls that end or go on (R51, R63, R64, R79, R81) -/

/-- A call ends (R51): CANCEL where parties are out, the outcome to the shelf where there is one, its orbit freed where it is parked, its
record gone. -/
def CallEnds (outcome : Option EndReason) (o : Offer) (s t : State) : Prop :=
  ∃ before after, OfferAt o before after s ∧ ShelfRoom 1 s ∧
    let u := withSent (outcome.map fun x => OutRecord.callEnded o.ref ⟨own s, o.seq⟩ x).toList
      (noticed (if partiesOut o then [.cancel ⟨own s, o.seq⟩] else []) s)
    (Room 1 s ∧ (∀ n, o.state ≠ .parked n) ∧ t = callFreed o before after u)
    ∨ ∃ i v, Room 2 s ∧ o.state = .parked (orbitNumber (own s) i) ∧ OrbitFreed i u v ∧ t = callFreed o before after v

/-- The slot of an orbit asks for its code page (R100, R101, R113): with fewer than six records of lines and orbits and the link RUNNING
the page gets the next page id, which the slot records, and is announced; else it is refused, and nothing changes. -/
def CodePageAsked (i : OrbitSlot) (x : Orbit) (s t : State) : Prop :=
  let q := nextPageSeq s
  let orbit := orbitNumber (own s) i
  (sharedCount s < 6 ∧ s.clc.link = .running ∧ s.clc.queue.length < txCapacity ∧ (∀ r ∈ s.pgo.pages, r.seq ≠ q)
      ∧ t = withQueued [.pageStart ⟨⟨own s, q⟩, .code, .group x.paging, none, false, false, some orbit⟩]
          (withNewPage (newPage q .code (.group x.paging) (.orbit orbit) false)
            (withSlot i (some { x with page := some ⟨own s, q⟩ }) s)))
  ∨ ((6 ≤ sharedCount s ∨ s.clc.link ≠ .running) ∧ t = s)

/-- A call on a hunt group is recycled: WAITING through the pause, its standing gone (R82). -/
def recycled (o : Offer) (before after : List Offer) (s : State) : State :=
  withOffers (before ++ { o with state := .waiting .recyclePause, window := none } :: after) (withoutStanding o.seq s)

/-- A call is offered to a hunt group again, with this record: in ISOLATED and LISTEN-ONLY it ends with outcome ISOLATED instead
(R65, R76). -/
def OfferedAgain (o : Offer) (g : HuntGroup) (o' : Offer) (before after : List Offer) (s t : State) : Prop :=
  (cutOff s = true ∧ CallEnds (some .isolated) o s t)
  ∨ (s.clc.link = .running ∧ s.clc.queue.length < txCapacity
    ∧ t = withQueued [.offer ⟨own s, o.seq⟩ g o'.attempts o'.tried] (withOffers (before ++ o' :: after) s))

/-- The slot that a parked call fills: its timers run by the group's parameters (R100). -/
def parkSlot (o : Offer) (g : HuntGroup) (p : GroupParams) : Orbit :=
  { call := o.seq, group := g, paging := p.parkPaging, page := none, repeats := 0, limit := p.repeatLimit,
    interval := p.repeatInterval, recallTime := p.recallTime, repeating := true }

/-- What an action of a hunt group makes of a call (R65, R81, R82, R85 to R87). END ends it UNANSWERED, and so does FORWARD at depth 2 or
without an entry for the next group. In ISOLATED and LISTEN-ONLY every other action ends it ISOLATED. RECYCLE waits through the pause;
FORWARD offers it to the next group with an empty tried set; PARK fills the lowest free slot and asks for the code page, or is RECYCLE
where the call has been parked before or no slot is free. -/
def ActionTaken (a : QueueExpiryAction) (o : Offer) (g : HuntGroup) (p : GroupParams) (before after : List Offer) (s t : State) : Prop :=
  let forwards := o.depth < 2 ∧ (s.he.groups.get p.forward).isSome = true
  let ends := a = .endCall ∨ (a = .forward ∧ ¬ forwards)
  let full := o.parkDone = true ∨ ∀ i, slotOf s i ≠ none
  let o' := reoffered { o with depth := o.depth + 1, target := .hunt p.forward, tried := 0 }
  (ends ∧ CallEnds (some .unanswered) o s t)
  ∨ (¬ ends ∧ cutOff s = true ∧ CallEnds (some .isolated) o s t)
  ∨ (cutOff s = false ∧ (a = .recycle ∨ (a = .park ∧ full)) ∧ t = recycled o before after s)
  ∨ (a = .forward ∧ forwards ∧ s.clc.link = .running ∧ s.clc.queue.length < txCapacity
      ∧ t = withQueued [.offer ⟨own s, o.seq⟩ p.forward o'.attempts 0]
          (withOffers (before ++ o' :: after) (withoutStanding o.seq s)))
  ∨ (a = .park ∧ ¬ full ∧ cutOff s = false ∧ ∃ i, slotOf s i = none ∧ (∀ j, j < i → slotOf s j ≠ none)
      ∧ CodePageAsked i (parkSlot o g p) (withSlot i (some (parkSlot o g p))
          (withOffers (before ++ { o with state := .parked (orbitNumber (own s) i), window := none } :: after)
            (withoutStanding o.seq s))) t)

/-- The overflow step of a call on a hunt group (R81, R83): the group's action; QUEUE is RECYCLE with the queue flag off, and takes the
queue-expiry action where the call's wait has expired; else the call waits in the place that it has, or in a new one at the end, and in
ISOLATED and LISTEN-ONLY ends ISOLATED. Without an entry for the group the call ends UNANSWERED (log 29). -/
def Overflowed (o : Offer) (before after : List Offer) (s t : State) : Prop :=
  ∃ g, o.target = .hunt g ∧
    ((s.he.groups.get g = none ∧ CallEnds (some .unanswered) o s t)
    ∨ ∃ p, s.he.groups.get g = some p ∧
      let takes := fun a => ActionTaken a o g p before after s t
      let stands := ∃ x ∈ s.he.queue, x.call = o.seq
      let expired := stands ∧ ∀ x ∈ s.he.queue, x.call = o.seq → x.expired = true
      let waits := fun u => t = withOffers (before ++ { o with state := .waiting .queued, window := none } :: after) u
      (p.overflow = .recycle ∧ takes .recycle) ∨ (p.overflow = .forward ∧ takes .forward) ∨ (p.overflow = .park ∧ takes .park)
      ∨ (p.overflow = .queue ∧ p.queueFlag = false ∧ takes .recycle)
      ∨ (p.overflow = .queue ∧ p.queueFlag = true ∧ expired ∧ takes p.queueExpiry)
      ∨ (p.overflow = .queue ∧ p.queueFlag = true ∧ (∀ x ∈ s.he.queue, x.call = o.seq → x.expired = false) ∧
        ((cutOff s = true ∧ CallEnds (some .isolated) o s t)
        ∨ (cutOff s = false ∧ stands ∧ waits s)
        ∨ (cutOff s = false ∧ ¬ stands ∧ waits { s with he := { s.he with queue := s.he.queue ++ [⟨o.seq, g, false⟩] } }))))

/-- The next-step decision on a call of a hunt group (R79): RINGING while a member rings; else a new OFFER while an order index of the
group's span is untried; else, or without an entry for the group, the overflow step. -/
def NextStep (o : Offer) (before after : List Offer) (s t : State) : Prop :=
  (o.ringing ≠ [] ∧ t = withOffers (before ++ { o with state := .ringing, window := none } :: after) (withoutStanding o.seq s))
  ∨ (o.ringing = [] ∧ ∃ g, o.target = .hunt g ∧
      let untried := ∃ p, s.he.groups.get g = some p ∧ ∃ i : OrderIndex, i.val < p.span ∧ hasIndex o.tried i = false
      (untried ∧ OfferedAgain o g (reoffered o) before after s t) ∨ (¬ untried ∧ Overflowed o before after s t))

/-- What the loss of the members that `p` picks makes of one record (R60, R63): they leave it, and a HUNT record counts them as tried. One
that has lost its assigned member, or its last ringing one in RINGING, goes on: a DIRECT call ends with NO-ANSWER, a HUNT call makes the
next-step decision. Here a record with such a member is not parked. -/
def RecordLoses (p : Member → Bool) (q : Seq) (s t : State) : Prop :=
  ∃ o before after, OfferAt o before after s ∧ o.seq = q ∧
    let lost := (o.ringing ++ o.assigned.toList).filter p
    let ringing := o.ringing.filter fun m => !p m
    let gone := o.assigned.any p
    let hunt := (targetGroup o.target).isSome
    let left : Offer := { o with
      ringing := ringing
      assigned := if gone then none else o.assigned
      assignTimer := if gone then false else o.assignTimer
      tried := if hunt then lost.foldl (fun t m => addTried m.index ringing t) o.tried else o.tried }
    let kept := withOffers (before ++ left :: after) s
    let goesOn := gone = true ∨ (o.state = .ringing ∧ ringing = [])
    (lost = [] ∧ t = s)
    ∨ (lost ≠ [] ∧ (∀ n, o.state ≠ .parked n) ∧
      ((¬ goesOn ∧ t = kept)
      ∨ (goesOn ∧ hunt = true ∧ NextStep left before after kept t)
      ∨ (goesOn ∧ hunt = false ∧ CallEnds (some .noAnswer) left kept t)))

/-- What the entry to ISOLATED makes of one record (R64): it ends with outcome ISOLATED in OFFERING, WAITING and PARKED and with a member
at another cabinet, and else continues. -/
def RecordIsolated (o : Offer) (s t : State) : Prop :=
  let ends := o.state = .offering ∨ (∃ w, o.state = .waiting w) ∨ (∃ n, o.state = .parked n)
    ∨ ∃ m, m ∈ o.ringing ++ o.assigned.toList ∧ m.cab ≠ own s
  (¬ ends ∧ t = s) ∨ (ends ∧ CallEnds (some .isolated) o s t)

/-! ### Lines (R43, R44) and the pages of lines (R124) -/

/-- What the loss of the owners that `lost` picks makes of one line (R43): it stops ringing with the reason, or its pending verdict
resolves as LOST, or its reservation is released, where the call or orbit is of such an owner. -/
def LineLoses (lost : Cabinet → Bool) (reason : RingEndReason) (l : Line) (s t : State) : Prop :=
  let r := lineOf s l
  let rings := fun c : LineCall => r.state = .ringing ∧ r.call = some c ∧ lost c.call.cab = true
  let verdict := fun v : Verdict => r.verdict = some v ∧ lost (targetOwner v.target) = true
  let holds := fun v : Reservation => r.reserved = some v ∧ lost v.call.cab = true
  ((∀ c, ¬ rings c) ∧ (∀ v, ¬ verdict v) ∧ (∀ v, ¬ holds v) ∧ t = s)
  ∨ ((∀ v, ¬ verdict v) ∧ (∀ v, ¬ holds v) ∧ ∃ c, rings c ∧ RingingStops l c.call reason s t)
  ∨ ((∀ c, ¬ rings c) ∧ (∀ v, ¬ holds v) ∧ (∃ v, verdict v) ∧ t = resolvedLost l s)
  ∨ ((∀ c, ¬ rings c) ∧ (∀ v, ¬ verdict v) ∧ Room 1 s ∧ ∃ v, holds v ∧ t = released l v.call s)

/-- What SHELF-CLEAR makes of one line (R44): it stops ringing, its pending verdict resolves as LOST, its talk ends in BUSY with tone
BUSY; in any other state it stays as it is. -/
def LineCleared (l : Line) (s t : State) : Prop :=
  match (lineOf s l).state with
  | .ringing => ∃ c, RingingStops l c .cleared s t
  | .answerPending | .pickupPending => t = resolvedLost l s
  | .talking => t = withOutputs (s.outputs ++ [.tone l .busy])
      (withLine l { lineOf s l with state := .busy, call := none, idleSecs := 0, tone := .busy } s)
  | .paging | .dialing | .busy | .wrapUp | .idle | .outOfService => t = s

/-- A page of a line ends with a reason and tone LOST (R117): by a PAGE-END, or, not yet announced, by the withdrawal of its PAGE-START, its
view entry free; the line is BUSY, and DISCONNECT-PAGE goes out where CONNECT-PAGE did. -/
def LinePageEnds (reason : PageEndReason) (r : PageRec) (s t : State) : Prop :=
  ∃ l before after, r.origin = .line l ∧ PageAt r before after s ∧ Room 1 s ∧ ShelfRoom 1 s ∧
    (r.connectSent = true → ∃ c, r.channel = some c) ∧
    let id : PageId := ⟨own s, r.seq⟩
    let ended := fun u => withOutputs (u.outputs ++ [.tone l .lost])
      (withSent (if r.connectSent then r.channel.toList.map (.disconnectPage l) else []) (pageEnded l .lost u))
    ((r.state ≠ .claiming ∧ t = ended (noticed [.pageEnd id r.cls reason] (withPages (before ++ after) s)))
    ∨ (r.state = .claiming ∧ (∀ i x, slotOf s i = some x → x.page ≠ some id) ∧ t = ended (withWithdrawn (isStartOf id)
        { withPages (before ++ after) s with pgo := { (withPages (before ++ after) s).pgo with
          view := s.pgo.view.map fun h => h.filter fun x => !decide (x.page = id) } })))

/-! ### A peer's silence (R20, R88, R93, R123) -/

/-- A peer whose age reaches 30 at this tick, alone (R20). -/
abbrev FallsSilent (p : Cabinet) (s : State) : Prop :=
  readsBus s.clc.link = true ∧ p ≠ own s ∧ (peerOf s p).state = .present ∧ 29 ≤ (peerOf s p).age
    ∧ ∀ q, q ≠ own s → q ≠ p → (peerOf s q).state = .present → (peerOf s q).age < 29

/-- A peer's silence at the CLC and at the owner side of the HE (R20, R88): PEER-SILENT raised, its bids out of every window, the RING-ASSIGN
notices to it withdrawn. That the count of free values rises is the model's own (log 6). -/
def silenceHeard (p : Cabinet) (s : State) : State :=
  withWithdrawn (isAssignTo p) (raise .peerSilent p.val .clc { s with
    choices := s.choices + 1
    clc := { s.clc with peers := Table.build 16 (silencedPeer p s) }
    ofm := { s.ofm with offers := s.ofm.offers.map fun o =>
      { o with window := o.window.map fun l => l.filter fun b => !decide (b.cab = p) } } })

/-- A peer's silence at the ring view and the channel view (R93, R123): the entries of its calls, lines and pages are gone. -/
def silenceViewed (p : Cabinet) (s : State) : State :=
  { s with
      ppu := { s.ppu with view := s.ppu.view.filter fun e => !decide (e.call.cab = p ∨ e.cab = p) }
      pgo := { s.pgo with view := s.pgo.view.map fun h => h.filter fun x => !decide (x.page.cab = p) } }

/-! ### Zones (R127, R131, R135, R139) -/

/-- A zone's record without the held and pending pages that `gone` picks. -/
def withoutPages (gone : PageEntry → Bool) (r : ZoneRec) : ZoneRec :=
  { r with held := r.held.filter fun h => !gone h.entry, pending := r.pending.filter fun e => !gone e }

/-- The resume choice of a zone whose active place has been emptied, `r` being the zone's record but for that (R135): the last page has left,
or the first pending page begins, or the held page begins again, an ALARM page held in LIVE in that phase. -/
def Resumes (z : LocalZone) (r : ZoneRec) (s t : State) : Prop :=
  let begins := fun r' e => ∃ notes, Room 1 s ∧ s.phase = .running ∧ s.ts.notes = some notes ∧ t = pageBegins z r' e notes s
  zoneActive r.state = true ∧ r.evac = [] ∧
  ((r.held = none ∧ r.pending = [] ∧ t = lastLeaves z (withZone z r s))
  ∨ (∃ x rest, r.pending = x :: rest ∧ (∀ h, r.held = some h → classRank h.entry.cls < classRank x.cls)
      ∧ begins { r with active := some (.page x 0), pending := rest } x)
  ∨ ∃ h, r.held = some h ∧ (∀ x, r.pending.head? = some x → classRank x.cls ≤ classRank h.entry.cls) ∧
    let r' := { r with active := some (.page h.entry h.elapsed), held := none }
    (((r.state = .waking ∨ h.entry.cls ≠ .alarm ∨ (h.phase ≠ .live ∧ (h.phase = .tone → h.entry.source = .tone)))
        ∧ begins r' h.entry)
    ∨ (∃ c, r.state ≠ .waking ∧ h.entry.cls = .alarm ∧ h.phase = .live ∧ h.entry.source = .channel c ∧ Room 1 s
        ∧ s.phase = .running ∧ t = liveResumes z r' h.entry c s)))

/-- The pages that `gone` picks leave a zone's places without reports (R138, R141, R144). Where the active page is among them, the zone
makes the resume choice (R135). -/
def ZoneFreed (gone : PageEntry → Bool) (z : LocalZone) (s t : State) : Prop :=
  let r := zoneOf s z
  (pickActive gone r = none ∧ t = withZone z (withoutPages gone r) s)
  ∨ ∃ e n, r.active = some (.page e n) ∧ gone e = true ∧ Resumes z (withoutPages gone r) s t

/-- The pages that `gone` picks leave a zone's evacuation set (R138, R139). With the last one the evacuation leaves the active place, and
the zone makes the resume choice (R135); in a zone with nothing active the level is set for no class. -/
def EvacuationFreed (gone : PageId → Bool) (z : LocalZone) (s t : State) : Prop :=
  let r := { zoneOf s z with evac := (zoneOf s z).evac.filter fun p => !gone p }
  (((zoneOf s z).evac = [] ∨ r.evac ≠ []) ∧ t = withZone z r s)
  ∨ ((zoneOf s z).evac ≠ [] ∧ r.evac = [] ∧
    ((r.active = none ∧ t = levelSet z (targetOf r.cfg.level (levelOf s z).level none) (withZone z r s))
    ∨ (r.active = some .evacuation ∧ Resumes z r s t)))

/-- A page takes its place in the order of a pending list (R127): by class, highest first, and behind the entries of its class, or, coming
from the held place, in front of them. -/
def Placed (front : Bool) (e : PageEntry) (l l' : List PageEntry) : Prop :=
  ∃ a b, l = a ++ b ∧ l' = a ++ e :: b
    ∧ (∀ x ∈ a, classRank e.cls < classRank x.cls ∨ (x.cls = e.cls ∧ front = false))
    ∧ ∀ x ∈ b, classRank x.cls < classRank e.cls ∨ (x.cls = e.cls ∧ front = true)

/-- The active page of a zone gives way to one of higher class (R131): a ROUTINE page is LOST; a CODE or ALARM page is HELD, and the page
held before it moves in front of its class in the pending list, reported PENDING, or DROPPED where it is the fifth; another fifth page
is DROPPED. -/
def Displaced (z : LocalZone) (s t : State) : Prop :=
  let r := zoneOf s z
  ∃ x n, r.active = some (.page x n) ∧
    let heldNow := fun pending => withZone z { r with held := some ⟨x, r.state, n⟩, pending := pending } s
    ((x.cls = .routine ∧ t = zoneReports z x.page .lost s)
    ∨ (x.cls ≠ .routine ∧ r.held = none ∧ t = zoneReports z x.page .held (heldNow r.pending))
    ∨ ∃ h l, x.cls ≠ .routine ∧ r.held = some h ∧ Placed true h.entry r.pending l ∧
      let moved := zoneReports z x.page .held (heldNow (l.take 4))
      ((l.length ≤ 4 ∧ t = zoneReports z h.entry.page .pending moved)
      ∨ ∃ y, l.length = 5 ∧ l.getLast? = some y
        ∧ ((y = h.entry ∧ t = zoneReports z y.page .dropped moved)
          ∨ (y ≠ h.entry ∧ t = zoneReports z y.page .dropped (zoneReports z h.entry.page .pending moved)))))

/-- A page becomes active in a zone, `r` being the zone's record with the page in its place (R133): from RELEASED through WAKING with a
wake time; else as `pageBegins` says, in WAKING under the running timer and in HANG and in any other active state at once. -/
def pagePlays (z : LocalZone) (r : ZoneRec) (e : PageEntry) (notes : Table 8 Nat) (s : State) : State :=
  if r.state = .released ∧ 0 < r.cfg.wake then
    zoneReports z e.page .playing (levelSet z (targetOf r.cfg.level (levelOf s z).level (some e.cls))
      (zoneEnters z { r with state := .waking } true .none s))
  else pageBegins z r e notes s

/-- The evacuation becomes active in a zone, `r` being the zone's record with it in its place and set (R133, R139): through WAKING from
RELEASED with a wake time, in WAKING under the running timer, else at once with the evacuation tone; the level is at the floor, and
EVAC-ACTIVE is raised with the zone number. -/
def evacuationStarts (z : LocalZone) (r : ZoneRec) (notes : Table 8 Nat) (s : State) : State :=
  raise .evacActive (numberOf s z).val .zc (levelSet z r.cfg.level.floor
    (if r.state = .waking then withZone z r s
     else if r.state = .released ∧ 0 < r.cfg.wake then zoneEnters z { r with state := .waking } true .none s
     else patternStarts z .evacTone (notes.get 6) (zoneEnters z { r with
       state := .tone, keptRun := nextSeq (seqOf s z).number } true .tone s)))

/-! ### What the part's blocks make of its own notices (R10, R12) -/

/-- The reservation for a call ends, on the line that holds it, if one does (R35, R73). -/
def ReservationEnds (c : CallId) (s t : State) : Prop :=
  ((∀ l v, (lineOf s l).reserved = some v → v.call ≠ c) ∧ t = s)
  ∨ (Room 1 s ∧ ∃ l v, (lineOf s l).reserved = some v ∧ v.call = c
      ∧ (∀ m w, m ≠ l → (lineOf s m).reserved = some w → w.call ≠ c) ∧ t = released l c s)

/-- The entry of a call is gone from the heard-offer list (R70). -/
def offerForgotten (c : CallId) (s : State) : State :=
  { s with he := { s.he with heard := s.he.heard.filter fun e => !decide (e.call = c) } }

/-- The entries of a call are gone from the ring view (R91). -/
def viewForgotten (c : CallId) (s : State) : State :=
  { s with ppu := { s.ppu with view := s.ppu.view.filter fun e => !decide (e.call = c) } }

/-- An OFFER stands at the newest place of the heard-offer list, in place of an entry for its call; a full list has lost its oldest
(R70). -/
def withNewestOffer (c : CallId) (g : HuntGroup) (s : State) : State :=
  let others := s.he.heard.filter fun e => !decide (e.call = c)
  { s with he := { s.he with heard := (if others.length < heardCapacity then others else others.drop 1) ++ [⟨c, g⟩] } }

/-- A ringing start at the ring view: an entry at the end, none where one stands already, VIEW-OVERFLOW where the view is full (R90). -/
def viewEntered (e : ViewEntry) (s : State) : State :=
  if ∃ x ∈ s.ppu.view, x.call = e.call ∧ x.cab = e.cab ∧ x.line = e.line then s
  else if s.ppu.view.length < viewCapacity then withRinging e s
  else raise .viewOverflow (100 + 16 * e.cab.val + e.line.val) .ppu s

/-- A line of the part that holds no reservation rings for a call (R37, R38): ring ON, RING-STARTED, its entry in the ring view. -/
def ringStarts (l : Line) (c : CallId) (cad : Cadence) (g : Option HuntGroup) (s : State) : State :=
  viewEntered ⟨c, own s, l, (lineOf s l).pickup, false⟩ (withOutputs (s.outputs ++ [.ring l true])
    (noticed [.ringStarted c l (g.bind (indexIn (lineOf s l).memberships)) (lineOf s l).pickup]
      (withLine l (ringingRecord s c cad g (lineOf s l)) s)))

/-- The bid window of the own OFFER's record opens, where the record is OFFERING (R76). -/
def WindowOpens (c : CallId) (s t : State) : Prop :=
  (∃ o before after, OfferAt o before after s ∧ c = ⟨own s, o.seq⟩ ∧ o.state = .offering
      ∧ t = withOffers (before ++ { o with window := some [] } :: after) s)
  ∨ ((c.cab = own s → ∀ o ∈ s.ofm.offers, o.seq = c.seq → o.state ≠ .offering) ∧ t = s)

/-- The member side answers an OFFER (R71, R74): with no candidate by nothing; in a SIMULTANEOUS group every candidate rings that is still
available in its turn; in any other the best candidate is reserved and bids. -/
def MemberAnswers (c : CallId) (g : HuntGroup) (tried : IndexSet) (s t : State) : Prop :=
  ((∀ l i, ¬ Candidacy s g tried l i) ∧ t = s)
  ∨ (disciplineOf s g = .simultaneous ∧ Chain (fun x u v =>
      (isAvailable (lineOf u x.line) g = true ∧ Room 1 u ∧ v = ringStarts x.line c .hunt (some g) u)
      ∨ (isAvailable (lineOf u x.line) g = false ∧ v = u)) (candidates s g tried) s t)
  ∨ (disciplineOf s g ≠ .simultaneous ∧ Room 1 s ∧ ∃ l i k, Candidacy s g tried l i ∧ KeyOf s g l i k
      ∧ (∀ m j x, Candidacy s g tried m j → m ≠ l → KeyOf s g m j x → Before k i l x j m)
      ∧ t = noticed [.bid c l i k] (withLine l { lineOf s l with reserved := some ⟨c, g⟩, available := 0 }
          (withBids (s.he.bids ++ [⟨c, l, i, k, .queued, true, false⟩]) s)))

/-- A bid at the owner side (R77): it enters the open window of a call of the part, in place of its cabinet's entry if there is one;
with a tried order index, without an open window or for another's call it is ignored. -/
def BidEnters (c : CallId) (b : WindowBid) (s t : State) : Prop :=
  ((c.cab = own s → ∀ o ∈ s.ofm.offers, o.seq ≠ c.seq) ∧ t = s)
  ∨ ∃ o p q, OfferAt o p q s ∧ c = ⟨own s, o.seq⟩ ∧
    (((o.window = none ∨ ∃ j, b.index = some j ∧ hasIndex o.tried j = true) ∧ t = s)
    ∨ ∃ w w', o.window = some w ∧ (∀ j, b.index = some j → hasIndex o.tried j = false)
      ∧ t = withOffers (p ++ { o with window := some w' } :: q) s
      ∧ (((∀ x ∈ w, x.cab ≠ b.cab) ∧ w' = w ++ [b])
        ∨ ∃ x y z, w = x ++ y :: z ∧ y.cab = b.cab ∧ (∀ v ∈ x ++ z, v.cab ≠ b.cab) ∧ w' = x ++ b :: z))

/-- The group in which a line accepts a RING-ASSIGN (R37, R75): none for DIRECT, at an idle line that is free; the reservation's for HUNT and
RECALL (log 12), or without one the heard offer's, where the line is available for it. -/
def AcceptsIn (c : CallId) (l : Line) (cad : Cadence) (g : Option HuntGroup) (s : State) : Prop :=
  let r := lineOf s l
  (cad = .direct ∧ g = none ∧ r.inService = true ∧ r.state = .idle ∧ r.dnd = false ∧ r.reserved = none)
  ∨ (cad ≠ .direct ∧ ∃ h, g = some h ∧ (r.reserved = some ⟨c, h⟩
      ∨ ((∀ v, r.reserved = some v → v.call ≠ c) ∧ heardGroup s c = some h ∧ isAvailable r h = true)))

/-- A RING-ASSIGN at the HE and the LU (R35, R37, R75): the bid for the call and the reservation for it end; a line of the part that it
names rings, rings on where it rings for the call already, or declines; then the line that held the reservation is announced for the
groups it is available for again. -/
def AssignTaken (c : CallId) (cab : Cabinet) (l : Line) (cad : Cadence) (s t : State) : Prop :=
  let decided := fun u v =>
    ((cab ≠ own s ∨ ringsFor (lineOf s l) c = true) ∧ v = u)
    ∨ (cab = own s ∧ ringsFor (lineOf s l) c = false ∧
      ((∃ g, AcceptsIn c l cad g s ∧ v = ringStarts l c cad g u)
      ∨ ((∀ g, ¬ AcceptsIn c l cad g s) ∧ v = noticed [.decline c l] u)))
  Room 2 s ∧
  (((∀ m w, (lineOf s m).reserved = some w → w.call ≠ c) ∧ decided (withoutBid c s) t)
  ∨ ∃ m v, (∃ w, (lineOf s m).reserved = some w ∧ w.call = c)
      ∧ (∀ n w, n ≠ m → (lineOf s n).reserved = some w → w.call ≠ c)
      ∧ decided (withLine m { lineOf s m with reserved := none } (withoutBid c s)) v
      ∧ t = noticed (newlyAvailable (lineOf v m) (lineOf v m)) (withLine m (refreshed (lineOf v m)) v))

/-- The assign timer of an ASSIGNED record starts with the own delivery of the RING-ASSIGN to its member (R49, R80). -/
def AssignTimerStarts (c : CallId) (cab : Cabinet) (l : Line) (s t : State) : Prop :=
  let waits := fun o : Offer => o.state = .assigned ∧ ∃ m, o.assigned = some m ∧ m.cab = cab ∧ m.line = l
  (∃ o before after, OfferAt o before after s ∧ c = ⟨own s, o.seq⟩ ∧ waits o
      ∧ t = withOffers (before ++ { o with assignTimer := true } :: after) s)
  ∨ ((c.cab = own s → ∀ o ∈ s.ofm.offers, o.seq = c.seq → ¬ waits o) ∧ t = s)

/-- A DECLINE at the owner of a call (R53, R61, R80): from the assigned member of an ASSIGNED record it ends a DIRECT call with outcome BUSY,
the member gone, and makes the next-step decision on a HUNT call, the member counted as tried; any other changes nothing. -/
def DeclineTaken (c : CallId) (cab : Cabinet) (l : Line) (s t : State) : Prop :=
  let from_ := fun o : Offer => o.state = .assigned ∧ ∃ m, o.assigned = some m ∧ m.cab = cab ∧ m.line = l
  ((c.cab = own s → ∀ o ∈ s.ofm.offers, o.seq = c.seq → ¬ from_ o) ∧ t = s)
  ∨ ∃ o before after, OfferAt o before after s ∧ c = ⟨own s, o.seq⟩ ∧ from_ o ∧
    let left := fun o' => withOffers (before ++ o' :: after) s
    ((∃ cb dl, o.target = .direct cb dl ∧ CallEnds (some .busy) { o with assigned := none, assignTimer := false }
        (left { o with assigned := none, assignTimer := false }) t)
    ∨ ∃ g m, o.target = .hunt g ∧ o.assigned = some m
        ∧ NextStep (withoutAssigned m.index o) before after (left (withoutAssigned m.index o)) t)

/-- A RING-STARTED at the owner of a call (R52, R59): with no record, or a PARKED one, CANCEL answers it. Else the member joins the ringing
set, unless it stands there or the set is full, and its order index leaves the tried set; where the set then holds it, a WAITING record,
and an ASSIGNED one whose assigned member it is, becomes RINGING with its standing gone. -/
def StartRecorded (c : CallId) (m : Member) (s t : State) : Prop :=
  (c.cab ≠ own s ∧ t = s)
  ∨ (c.cab = own s ∧ Room 1 s ∧ t = noticed [.cancel c] s ∧ ((∀ o ∈ s.ofm.offers, o.seq ≠ c.seq)
      ∨ ∃ o before after n, OfferAt o before after s ∧ o.seq = c.seq ∧ o.state = .parked n))
  ∨ ∃ o before after, OfferAt o before after s ∧ c = ⟨own s, o.seq⟩ ∧ (∀ n, o.state ≠ .parked n) ∧
    let x := { m with index := if isDirect o then none else m.index }
    let known := ∃ y ∈ o.ringing, y.cab = x.cab ∧ y.line = x.line
    let o' := { o with
      ringing := if known ∨ 16 ≤ o.ringing.length then o.ringing else o.ringing ++ [x]
      tried := match x.index with
        | some i => eraseIndex i o.tried
        | none => o.tried }
    let itsMember := ∃ a, o.assigned = some a ∧ a.cab = x.cab ∧ a.line = x.line
    let rings := (known ∨ o.ringing.length < 16) ∧ ((o.state = .assigned ∧ itsMember) ∨ ∃ w, o.state = .waiting w)
    (rings ∧ t = withOffers (before ++ { o' with
        state := .ringing, window := none
        assigned := if o.state = .assigned then none else o.assigned
        assignTimer := if o.state = .assigned then false else o.assignTimer } :: after) (withoutStanding o.seq s))
    ∨ (¬ rings ∧ t = withOffers (before ++ o' :: after) s)

/-- The members of a call of the part that `p` picks are lost, if a record holds it (R60). -/
def MembersLost (p : Member → Bool) (c : CallId) (s t : State) : Prop :=
  ((c.cab = own s → ∀ o ∈ s.ofm.offers, o.seq ≠ c.seq) ∧ t = s) ∨ (c.cab = own s ∧ RecordLoses p c.seq s t)

/-- A line of the part loses a call that is connected elsewhere or cancelled (R39, R41): a verdict that it awaits on the call resolves as
LOST, and ringing for it stops. -/
def PartyLoses (c : CallId) (reason : RingEndReason) (l : Line) (s t : State) : Prop :=
  (awaits (lineOf s l) (.call c) = true ∧ t = resolvedLost l s)
  ∨ (awaits (lineOf s l) (.call c) = false ∧ RingingStops l c reason s t)
  ∨ (awaits (lineOf s l) (.call c) = false ∧ ringsFor (lineOf s l) c = false ∧ t = s)

/-- A CONNECTED at a line of the part (R39, R41). The line that it names becomes TALKING where it awaits a verdict on the call or on an orbit,
and else a late verdict tells the shelf LINE-ON-HOOK; any other line loses the call. -/
def LineConnects (c : CallId) (cab : Cabinet) (n : Line) (g : Option HuntGroup) (i : Option OrderIndex) (l : Line)
    (s t : State) : Prop :=
  let r := lineOf s l
  let here := cab = own s ∧ l = n
  (here ∧ (∃ v, r.verdict = some v ∧ (v.target = .call c ∨ ∃ o, v.target = .orbit o))
      ∧ t = withOutputs (s.outputs ++ [.tone l .none]) (withLine l { r with
          state := .talking, call := some ⟨c, none, g, i⟩, verdict := none, tone := .none } s))
  ∨ (here ∧ (∀ v, r.verdict = some v → ∃ d, v.target = .call d ∧ d ≠ c) ∧ ShelfRoom 1 s
      ∧ t = withSent [.lineOnHook l (some c)] s)
  ∨ (¬ here ∧ PartyLoses c .connected l s t)

/-- The rotation pointer of a group takes the order index of a CONNECTED that names both (R68). -/
def rotated (g : Option HuntGroup) (i : Option OrderIndex) (s : State) : State :=
  match g, i with
  | some g, some i => { s with he := { s.he with rotation := s.he.rotation.set g i } }
  | _, _ => s

/-- A group that an AVAILABLE names is served (R84): the oldest record of its queue that is WAITING with reason QUEUED is offered again with
an empty tried set; without one the group is passed over. -/
def GroupServed (g : HuntGroup) (s t : State) : Prop :=
  let waits := fun q => ∃ o ∈ s.ofm.offers, o.seq = q ∧ o.state = .waiting .queued
  ((∀ x ∈ s.he.queue, x.group = g → ¬ waits x.call) ∧ t = s)
  ∨ ∃ o before after h ahead e behind, OfferAt o before after s ∧ o.target = .hunt h ∧ o.state = .waiting .queued
      ∧ s.he.queue = ahead ++ ⟨o.seq, g, e⟩ :: behind ∧ (∀ x ∈ ahead, x.group = g → ¬ waits x.call)
      ∧ OfferedAgain o h (reoffered { o with tried := 0 }) before after s t

/-- The own PAGE-START at the PGO (R108, R116): a CLAIMING record becomes REPORTING, or ON-AIR with its timer; with no record a PAGE-END
answers it. -/
def StartAnnounced (b : PageStartBody) (s t : State) : Prop :=
  (∃ r before after, PageAt r before after s ∧ r.seq = b.page.seq
      ∧ t = if r.state = .claiming then withPages (before ++ onTheAir r :: after) s else s)
  ∨ ((∀ r ∈ s.pgo.pages, r.seq ≠ b.page.seq) ∧ Room 1 s ∧ t = noticed [.pageEnd b.page b.cls .ended] s)

/-- A zone is freed of the pages that a seizure takes the channel from (R129): they are reported LOST, in the order active, held, pending. -/
def ZoneSeized (p : PageId) (c : Channel) (z : LocalZone) (s t : State) : Prop :=
  let gone := fun e : PageEntry => decide (e.source = .channel c ∧ e.page ≠ p)
  let r := zoneOf s z
  let lost := (pickActive gone r).toList ++ (pickHeld gone r).toList ++ r.pending.filter gone
  s.phase = .running ∧ Room lost.length s
    ∧ ZoneFreed gone z (noticed (lost.map fun e => .zoneReport e.page (numberOf s z) .lost) s) t

/-- A zone decides a page that it does not hold (R130 to R132, R139). FAULT where it cannot play, an EVAC page joining the set of a FAULT zone;
LOCKED at a quiet zone without the override; an EVAC page joins a set that stands; a page over nothing active, or over a page of lower class,
which gives way, plays; else a ROUTINE page is BUSY, and a CODE or ALARM page waits in its order, or is FULL. -/
def PageDecided (z : LocalZone) (e : PageEntry) (override : Bool) (s t : State) : Prop :=
  let r := zoneOf s z
  let joined := fun u => withZone z { r with
    evac := if r.evac.any (fun x => decide (x.cab = e.page.cab)) then r.evac else r.evac ++ [e.page] } u
  let locked := (e.cls = .routine ∨ e.cls = .code) ∧ r.cfg.quiet = true ∧ override = false
  let plays := r.state ≠ .fault ∧ r.state ≠ .outOfService ∧ ¬ locked
  let against := r.active = some .evacuation ∨ ∃ x n, r.active = some (.page x n) ∧ classRank e.cls ≤ classRank x.cls
  let waits := fun l : List PageEntry => withZone z { r with pending := l.take 4 } s
  Room 4 s ∧ s.phase = .running ∧
  (((r.state = .outOfService ∨ (r.state = .fault ∧ e.cls ≠ .evac)) ∧ t = zoneReports z e.page .fault s)
  ∨ (r.state = .fault ∧ e.cls = .evac ∧ t = zoneReports z e.page .fault (if r.evac = [] then
      levelSet z r.cfg.level.floor (raise .evacActive (numberOf s z).val .zc (joined s)) else joined s))
  ∨ (r.state ≠ .fault ∧ r.state ≠ .outOfService ∧ locked ∧ t = zoneReports z e.page .locked s)
  ∨ (plays ∧ e.cls = .evac ∧ r.evac ≠ [] ∧ t = zoneReports z e.page .playing (joined s))
  ∨ (plays ∧ r.evac = [] ∧ ∃ notes u, s.ts.notes = some notes
      ∧ ((r.active = none ∧ u = s)
        ∨ ((∃ x n, r.active = some (.page x n) ∧ classRank x.cls < classRank e.cls) ∧ Displaced z s u))
      ∧ t = if e.cls = .evac then zoneReports z e.page .playing
            (evacuationStarts z { zoneOf u z with active := some .evacuation, evac := [e.page] } notes u)
          else pagePlays z { zoneOf u z with active := some (.page e 0) } e notes u)
  ∨ (plays ∧ e.cls = .routine ∧ against ∧ t = zoneReports z e.page .busy s)
  ∨ (plays ∧ (e.cls = .code ∨ e.cls = .alarm) ∧ against ∧ ∃ l, Placed false e r.pending l ∧
      ((l.length ≤ 4 ∧ t = zoneReports z e.page .pending (waits l))
      ∨ ∃ y, l.length = 5 ∧ l.getLast? = some y ∧
        ((y = e ∧ t = zoneReports z e.page .full (waits l))
        ∨ (y ≠ e ∧ t = zoneReports z e.page .pending (zoneReports z y.page .dropped (waits l)))))))

/-- A PAGE-START at one zone in the acceptance pass: a zone outside its target, and one that holds the page, is passed over (R128). -/
def PageMeets (b : PageStartBody) (z : LocalZone) (s t : State) : Prop :=
  ((inTarget (zoneOf s z) b.target = false ∨ holdsPage (zoneOf s z) b.page = true) ∧ t = s)
  ∨ (inTarget (zoneOf s z) b.target = true ∧ holdsPage (zoneOf s z) b.page = false ∧ PageDecided z (entryOf b) b.override s t)

/-- The part's own PAGE-START at its zones (R128): the seizure pass over the zones where the seize flag is set, then the acceptance pass. Here,
in the phase RUNNING; in another phase with no seizure and no zone of the part in its target. -/
def ZonesTake (b : PageStartBody) (s t : State) : Prop :=
  (b.seize = false ∧ (∀ z, inTarget (zoneOf s z) b.target = false) ∧ t = s)
  ∨ (s.phase = .running ∧ (b.cls = .routine → b.channel ≠ none) ∧ (b.cls = .code → b.orbit ≠ none) ∧ ∃ u,
      (match b.seize, b.channel with
        | true, some c => Chain (ZoneSeized b.page c) allZones s u
        | _, _ => u = s)
      ∧ Chain (PageMeets b) allZones u t)

/-- A PAGE-END at a zone (R138): its page leaves the places, and then the evacuation set. -/
def PageLeaves (p : PageId) (z : LocalZone) (s t : State) : Prop :=
  ∃ u, ZoneFreed (fun e => decide (e.page = p)) z s u ∧ EvacuationFreed (fun x => decide (x = p)) z u t

/-- A ZONE-REPORT on a page (R119, R121): an announced page of a line keeps it in its list, in its zone's place or a new one while there is
room; on the air with no live report left the page ends with NO-ZONE. Reports on any other page are ignored. -/
def ReportTaken (p : PageId) (z : ZoneNumber) (o : ZoneOutcome) (s t : State) : Prop :=
  let takes := fun r : PageRec => p = ⟨own s, r.seq⟩ ∧ (∃ l, r.origin = .line l) ∧ r.state ≠ .claiming
  ((∀ r ∈ s.pgo.pages, ¬ takes r) ∧ t = s)
  ∨ ∃ r before after, PageAt r before after s ∧ takes r ∧
    let list := if r.reports.any (fun e => decide (e.1 = z)) then r.reports.map fun e => if e.1 = z then (z, o) else e
      else if r.reports.length < 16 then r.reports ++ [(z, o)] else r.reports
    let kept := withPages (before ++ { r with reports := list } :: after) s
    let noneLive := ∀ e ∈ list, e.2 ≠ .playing ∧ e.2 ≠ .pending ∧ e.2 ≠ .held
    (¬ (r.state = .onAir ∧ noneLive) ∧ t = kept)
    ∨ (r.state = .onAir ∧ noneLive ∧ LinePageEnds .noZone { r with reports := list } kept t)

/-- An ALL-STOP at the part (R102, R122, R141): its ROUTINE pages end, the repeat timers of its orbits stop, and ROUTINE and CODE pages leave its
zones without reports. -/
def AllStopTaken (s t : State) : Prop :=
  ∃ u, Chain (LinePageEnds .allStop) (s.pgo.pages.filter fun r => decide (r.cls = .routine)) s u
    ∧ Chain (ZoneFreed fun e => decide (e.cls = .routine ∨ e.cls = .code)) allZones { u with ppu := { u.ppu with
        orbits := u.ppu.orbits.map fun o => o.map fun x => { x with repeating := false } } } t

/-- The own delivery of a notice takes a state to another (R10, R12), block by block as for a heard one. An OFFER opens its record's bid window,
enters the heard-offer list, ends the reservation for its call and is answered by the member side. A BID becomes SENT with its send limit
stopped, and enters the open window of a call of the part. A RING-ASSIGN is taken by the HE and the LU, and starts the assign timer. DECLINE,
RING-STARTED, RING-ENDED and NO-ANSWER are taken by the owner of the call. A CLAIM marks the entries of the call that it names. A CONNECTED
sets a rotation pointer, and with it a CANCEL ends the offer, the reservation, the parties and the view entries of its call. A REFUSED
resolves the verdict of the line that it names. An AVAILABLE serves its groups by rising number (log 26). A PAGE-START announces its record
and meets the zones. A PAGE-END frees its view entry, leaves the zones and is told to its orbit. An ANSWERED and a CLAIM of the part go to
other owners alone: those of its own calls and orbits are decided without a notice (R40, R98). Lines and zones are taken by rising number
(log 14). Here what the blocks send in turn finds room in the transmit queue and the output queue. -/
def OwnDelivery (n : Notice) (s u : State) : Prop :=
  match n with
  | .status .. | .probe => False
  | .offer c g _ tried => ∃ v w, WindowOpens c s v ∧ ReservationEnds c (withNewestOffer c g v) w ∧ MemberAnswers c g tried w u
  | .bid c l i k => BidEnters c ⟨own s, l, some i, 8192 + k.val * 16 + (own s).val⟩
      (withBids (s.he.bids.map fun b =>
        if b.call = c then { b with standing := .sent, limit := false, ending := false } else b) s) u
  | .ringAssign c cab l cad => ∃ v, AssignTaken c cab l cad s v ∧ AssignTimerStarts c cab l v u
  | .decline c l => DeclineTaken c (own s) l s u
  | .ringStarted c l i _ => StartRecorded c ⟨own s, l, i⟩ s u
  | .ringEnded c l r => (lossReason r = false ∧ u = s) ∨ (lossReason r = true ∧ MembersLost (atLine (own s) l) c s u)
  | .noAnswer c l => MembersLost (atLine (own s) l) c s u
  | .answered c _ _ => c.cab ≠ own s ∧ u = s
  | .claim (.call c) _ _ => c.cab ≠ own s ∧ u = withMark c s
  | .claim (.orbit o) _ _ => orbitCabinet o ≠ own s ∧ u = s
  | .connected c cab l g i => ∃ v w, ReservationEnds c (offerForgotten c (rotated g i s)) v
      ∧ Chain (LineConnects c cab l g i) allLines v w ∧ u = viewForgotten c w
  | .refused t cab l _ => (cab = own s ∧ awaits (lineOf s l) t = true ∧ u = resolvedLost l s)
      ∨ ((cab = own s → awaits (lineOf s l) t = false) ∧ u = s)
  | .cancel c => ∃ v w, Chain (PartyLoses c .cancelled) allLines (offerForgotten c s) v ∧ ReservationEnds c v w
      ∧ u = viewForgotten c w
  | .available g => Chain GroupServed (groupsOf g) s u
  | .pageStart b => ∃ v, StartAnnounced b s v ∧ ZonesTake b v u
  | .pageEnd p _ _ => ∃ v, Chain (PageLeaves p) allZones { s with pgo := { s.pgo with
        view := s.pgo.view.map fun h => h.filter fun x => !decide (x.page = p) } } v
      ∧ u = { v with ppu := { v.ppu with
        orbits := v.ppu.orbits.map fun o => o.map fun x => if x.page = some p then { x with page := none } else x } }
  | .zoneReport p z o => ReportTaken p z o s u
  | .allStop _ => AllStopTaken s u

/-- The own notices that wait are delivered, oldest first, `k` of them at most. -/
def deliveredIn : Nat → State → State → Prop
  | 0, s, t => s.deliveries = [] ∧ t = s
  | k + 1, s, t => (s.deliveries = [] ∧ t = s) ∨ ∃ n rest u, s.deliveries = n :: rest
      ∧ OwnDelivery n { s with deliveries := rest } u ∧ deliveredIn k u t

/-- Every own notice that waits is delivered to the part's own blocks, oldest first (R10; at most 4096 of them: log 4). -/
def Delivered (s t : State) : Prop := ∃ k, k ≤ deliveryFuel ∧ deliveredIn k s t

/-- The transmit queue is emptied, and its notices but a STATUS and a PROBE wait for own delivery, in their order of joining (R15). -/
def flushed (s : State) : State :=
  { s with
      clc := { s.clc with queue := [], driving := [] }
      deliveries := (s.clc.queue.map (·.notice)).filter fun n => !isHousekeeping n }

/-! ### Invariants -/

/-- The entries of the transmit queue that are in an attempt. -/
def attempts (s : State) : List TxEntry := s.clc.queue.filter (·.inAttempt)

/-- The transmit queue, the drop run, the heard-offer list, the ring view and the output queue are within the sizes that the spec
gives them (R7, R11, R70, R89, R171). -/
def QueuesFit (s : State) : Prop :=
  s.clc.queue.length ≤ txCapacity ∧ s.clc.dropRun ≤ dropLimit ∧ s.he.heard.length ≤ heardCapacity
    ∧ s.ppu.view.length ≤ viewCapacity ∧ s.spu.output.length ≤ outputCapacity

/-- At most 8 offer records, each with a ringing set of at most 16 entries, no two of one cabinet and line (R45, R59). -/
def OffersFit (s : State) : Prop :=
  s.ofm.offers.length ≤ offerCapacity
    ∧ ∀ o ∈ s.ofm.offers, o.ringing.length ≤ ringingCapacity ∧ (o.ringing.map fun m => (m.cab, m.line)).Nodup

/-- At most 8 page records, of which at most 6 have a line or an orbit as their source and at most one has each contact input,
each with a report list of at most 16 entries, no two of one zone (R106, R119). -/
def PagesFit (s : State) : Prop :=
  s.pgo.pages.length ≤ 8 ∧ sharedCount s ≤ sharedPlaces
    ∧ (∀ i, (s.pgo.pages.filter fun r => decide (r.origin = .input i)).length ≤ 1)
    ∧ ∀ r ∈ s.pgo.pages, r.reports.length ≤ reportCapacity ∧ (r.reports.map (·.1)).Nodup

/-- Each zone's pending list holds at most 4 entries, and its evacuation set at most 16, no two of one originator (R125, R127,
R139). -/
def ZonesFit (s : State) : Prop :=
  ∀ z, (zoneOf s z).pending.length ≤ pendingCapacity ∧ (zoneOf s z).evac.length ≤ 16
    ∧ ((zoneOf s z).evac.map (·.cab)).Nodup

/-- The capacities that the spec gives the part's tables, queues, lists and sets. -/
def Capacities (s : State) : Prop := QueuesFit s ∧ OffersFit s ∧ PagesFit s ∧ ZonesFit s

/-- One attempt at a time: at most one entry is in an attempt, each has failed fewer than four times, a request waits only
at the entry in an attempt, and the part drives a frame exactly while there is one (R2, R5, R9). -/
def OneAttempt (s : State) : Prop :=
  (attempts s).length ≤ 1 ∧ (∀ e ∈ s.clc.queue, e.failed < failureLimit ∧ (e.inAttempt = false → e.request = none))
    ∧ (s.clc.driving = [] ↔ attempts s = [])

/-- The level parameters of a zone are in their ranges (R157). -/
def LevelParamsOk (p : LevelParams) : Prop :=
  p.base ≤ 127 ∧ p.refAmb ≤ 254 ∧ p.slope ≤ 8 ∧ p.floor ≤ p.ceiling ∧ p.ceiling ≤ 127 ∧ 1 ≤ p.ramp ∧ p.ramp ≤ 16
    ∧ p.smooth ≤ 6 ∧ p.rise ≤ 40 ∧ p.fallback ≤ 254

/-- The level state of a zone is in its ranges (R157). -/
def LevelOk (p : LevelParams) (v : Level) : Prop :=
  v.faultRun ≤ 8 ∧ v.holdOff ≤ 2 ∧ v.smoothed ≤ 4064 ∧ v.level ≤ 254 ∧ p.floor ≤ v.target ∧ v.target ≤ p.ceiling
    ∧ p.floor ≤ v.current ∧ v.current ≤ p.ceiling

/-- Every zone's level parameters and level state are in the ranges of R157. -/
def LevelsInRange (s : State) : Prop :=
  ∀ z, LevelParamsOk (zoneOf s z).cfg.level ∧ LevelOk (zoneOf s z).cfg.level (levelOf s z)

end Sys2Proof.Machine
end

