-- ==== Sys2Proof/Certificates/Slice0/Obligations.lean ====
section
/-! DEFINITION. The statements for the provers: what a step is, and what each command and each invariant of the GX416 holds to.
A statement of several parts is the conjunction of its clauses, each written above it. -/

open Sys2Proof Sys2Proof.Machine

/-! ### The queue (chapter 0) -/

/-- A step runs the command at the front of the queue on the state with the queue's rest; on an empty queue the part idles
(the model's choice, log 2). -/
def Obligations.StepRunsTheFrontCommand : Prop :=
  (∀ (c : Instr) (rest : List Instr) (s : State), s.pending = c :: rest → step s = exec c { s with pending := rest })
  ∧ ∀ s : State, s.pending = [] → step s = .next s

/-- Every command answers a next state, in every state: the part has no fault and refuses nothing. -/
def Obligations.EveryCommandAnswersANextState : Prop :=
  ∀ (c : Instr) (s : State), ∃ t, exec c s = .next t

/-! ### Start-up and the image (chapter 11) -/

/-- Power-on and the RESET input are one and the same full reset; RESET is then held, and the levels at the pins, the
waiting commands and the count of free values stay (logs 6 and 17). -/
def Clause.FullResetTakesEveryBlockToItsResetValues : Prop :=
  ∀ s : State,
    (∃ t, exec .powerOn s = .next t ∧ AllAtReset t ∧ t.pins = s.pins ∧ t.pending = s.pending ∧ t.choices = s.choices)
    ∧ ∃ t, exec .resetAssert s = .next t ∧ AllAtReset t ∧ t.pins = { s.pins with reset := true }
        ∧ t.pending = s.pending ∧ t.choices = s.choices

/-- While RESET stays asserted no other command changes anything but that no output is sent (log 18 for the commands taken). -/
def Clause.HeldPartActsOnNoPortAndNoTimer : Prop :=
  ∀ (c : Instr) (s : State), s.pins.reset = true → takenInReset c = false → exec c s = .next (withOutputs [] s)

/-- The release of RESET sets the phase to LOADING, with silence and attenuation 127 ordered at each zone: the order of the eight orders
is the model's choice (log 14). -/
def Clause.ResetReleaseBeginsLoading : Prop :=
  ∀ s : State, s.pins.reset = true →
    exec .resetRelease s = .next (withOutputs
      [.sound 0 none, .attenuation 0 127, .sound 1 none, .attenuation 1 127, .sound 2 none, .attenuation 2 127,
       .sound 3 none, .attenuation 3 127]
      { s with pins := { s.pins with reset := false }, phase := .loading })

/-- The full reset at POWER_ON and RESET_ASSERT, the part held in RESET, and its release (the model's choices: logs 6, 14, 17 and 18) -/
def Obligations.ResetHoldsThePartUntilItsRelease : Prop :=
  Clause.FullResetTakesEveryBlockToItsResetValues
    ∧ Clause.HeldPartActsOnNoPortAndNoTimer
    ∧ Clause.ResetReleaseBeginsLoading

/-- The checks of R180 in their order: no length word, a wrong version, a wrong length, a wrong sum; each halts the part
with its argument of CONFIG-FAULT, and an image that passes all is good. Bytes missing in the operand read as all ones
(log 15). -/
def Obligations.BadLoadHaltsThePart : Prop :=
  ∀ (memory : List Byte) (s : State), Ready s → s.phase = .loading →
    ((wordAt memory 0 = 0 ∨ wordAt memory 0 = 0xFFFF#16) → exec (.loadComplete memory) s = .next (afterBadLoad 1 s))
    ∧ (wordAt memory 0 ≠ 0 → wordAt memory 0 ≠ 0xFFFF#16 → (wordAt memory 1 ≠ 1 ∨ (wordAt memory 0).toNat ≠ 244) →
        exec (.loadComplete memory) s = .next (afterBadLoad 2 s))
    ∧ (wordAt memory 0 = 244 → wordAt memory 1 = 1 → ((List.range 244).map fun i => (wordAt memory i).toNat).sum % 65536 ≠ 0 →
        exec (.loadComplete memory) s = .next (afterBadLoad 3 s))
    ∧ (wordAt memory 0 = 244 → wordAt memory 1 = 1 → ((List.range 244).map fun i => (wordAt memory i).toNat).sum % 65536 = 0 →
        judgeImage memory = none)

/-- A good load: LISTENING with the image's address; every line, hunt group and zone from its entry, the lines with nothing in
progress and the zones with their places empty; the note table, the class maxima, the alarm paging group and the mask from the
image; A from the fallback code, the ambient level and T from that A with level class none, C equal to T. No notice is queued. A zone
whose amplifier-fault input is active holds the flag, and in service it is in FAULT with AMP-FAULT raised, the zones by rising number
(log 14); that nothing is reported of it in LISTENING is log 11. -/
def Obligations.GoodLoadEntersListening : Prop :=
  ∀ (memory : List Byte) (s : State), Ready s → s.phase = .loading → judgeImage memory = none →
    let image := readImage memory
    let fault := fun z => s.pins.ampFault.get z
    let faulty := allZones.filter fun z => fault z && (image.zones.get z).inService
    ∃ t, exec (.loadComplete memory) s = .next t ∧ t.phase = .listening ∧ t.clc.link = .listening
      ∧ t.clc.address = image.address ∧ (peerOf t (own t)).state = .present ∧ t.clc.queue = s.clc.queue
      ∧ (∀ l, let r := lineOf t l
          let c := image.lines.get l
          r.state = (if c.inService then .idle else .outOfService) ∧ r.inService = c.inService ∧ r.privilege = c.privilege
          ∧ r.pickup = c.pickup ∧ r.memberships = c.memberships
          ∧ r.dnd = false ∧ r.armed = false ∧ r.idleSecs = 0 ∧ r.wrapUp = none ∧ r.reserved = none ∧ r.call = none
          ∧ r.verdict = none ∧ r.page = none ∧ r.buffer = [] ∧ r.available = availableSet r)
      ∧ (∀ g, t.he.groups.get g = image.groups.get g)
      ∧ (∀ z, let r := zoneOf t z
          let v := levelOf t z
          let p := (image.zones.get z).level
          r.state = (if (image.zones.get z).inService then if fault z then .fault else .released else .outOfService)
          ∧ r.ampFault = fault z ∧ r.cfg = image.zones.get z ∧ r.active = none ∧ r.held = none ∧ r.pending = [] ∧ r.evac = []
          ∧ v.faultRun = 0 ∧ v.failed = false ∧ v.holdOff = 0 ∧ v.smoothed = 16 * p.fallback ∧ v.level = p.fallback
          ∧ v.target = targetOf p p.fallback none ∧ v.current = v.target)
      ∧ t.zc.routineMax = image.routineMax ∧ t.zc.alarmMax = image.alarmMax ∧ t.ts.notes = some image.notes
      ∧ t.spu = { (faulty.foldl (fun u z => raise .ampFault (4 * image.address.val + z.val) .zc u) s).spu with mask := image.mask }
      ∧ t.pgo = { s.pgo with alarmGroup := image.alarmGroup }

/-- A word of the memory is the byte at its even address, high, and the byte that follows, low. -/
def Clause.WordsAreReadHighByteFirst : Prop :=
  ∀ (before after : List Byte) (high low : Byte) (i : Nat), before.length = 2 * i →
    (wordAt (before ++ high :: low :: after) i).toNat = 256 * high.toNat + low.toNat

/-- Where tables 12-5 and 12-6 place the values of an image, by word and bit, and what each is clamped to (R181, R188): the header's
values, the line entries but for their memberships, the group entries, the zone entries and the note dividers. -/
def Clause.ImageValuesStandAtTheirPlaces : Prop :=
  ∀ memory : List Byte,
    let image := readImage memory
    let word := fun i => (wordAt memory i).toNat
    let high := fun i => word i / 256
    let low := fun i => word i % 256
    let code := fun i shift => word i / 2 ^ shift % 8
    let within := fun a b n : Nat => max a (min b n)
    (image.address.val = min 15 (word 2) ∧ image.alarmGroup.val = min 31 (word 3) ∧ image.routineMax = within 10 240 (word 4)
      ∧ image.alarmMax = within 30 900 (word 5) ∧ ∀ i : Nat, i < 12 → image.mask.getLsbD i = (wordAt memory 6).getLsbD i)
    ∧ (∀ l : Line, let w := 7 + 5 * l.val
        let c := image.lines.get l
        c.inService = (wordAt memory w).getLsbD 15
        ∧ c.privilege = (if (wordAt memory w).getLsbD 14 then .supervisor else .ordinary)
        ∧ c.pickup.map Fin.val = if low w = 255 then none else some (min 15 (low w)))
    ∧ (∀ g : HuntGroup, let w := 87 + 7 * g.val
        ((wordAt memory w).getLsbD 15 = false → image.groups.get g = none)
        ∧ ((wordAt memory w).getLsbD 15 = true → ∃ p, image.groups.get g = some p ∧ p.queueFlag = (wordAt memory w).getLsbD 14
          ∧ p.discipline = (match code w 8 with
              | 0 => .linear | 1 => .circular | 2 => .longestIdle | _ => .simultaneous)
          ∧ p.overflow = (match code w 4 with
              | 0 => .recycle | 1 => .queue | 2 => .forward | _ => .park)
          ∧ p.queueExpiry = (match code w 0 with
              | 0 => .recycle | 1 => .forward | 2 => .park | _ => .endCall)
          ∧ p.span = within 1 32 (high (w + 1)) ∧ p.noAnswer = within 6 120 (low (w + 1)) ∧ p.wrapUp = high (w + 2)
          ∧ p.forward.val = min 15 (low (w + 2)) ∧ p.queueMax = within 10 600 (word (w + 3))
          ∧ p.parkPaging.val = min 31 (high (w + 4)) ∧ p.repeatLimit = within 1 15 (low (w + 4))
          ∧ p.recallTime = within 30 600 (word (w + 5)) ∧ p.repeatInterval = within 15 120 (word (w + 6))))
    ∧ (∀ z : LocalZone, let w := 199 + 9 * z.val
        let c := image.zones.get z
        c.inService = (wordAt memory w).getLsbD 15 ∧ c.quiet = (wordAt memory w).getLsbD 14 ∧ c.hang = min 10 (low w)
        ∧ (∀ n : PagingGroup, c.paging.getLsbD n.val =
            if 16 ≤ n.val then (wordAt memory (w + 1)).getLsbD (n.val - 16) else (wordAt memory (w + 2)).getLsbD n.val)
        ∧ c.wake = 50 * (min 1000 (word (w + 3)) / 50) ∧ c.level.base = min 127 (high (w + 4))
        ∧ c.level.refAmb = min 254 (low (w + 4)) ∧ c.level.slope = min 8 (high (w + 5)) ∧ c.level.floor = min 127 (low (w + 5))
        ∧ c.level.ceiling = within c.level.floor 127 (high (w + 6)) ∧ c.level.ramp = within 1 16 (low (w + 6))
        ∧ c.level.smooth = min 6 (high (w + 7)) ∧ c.level.rise = min 40 (low (w + 7))
        ∧ c.level.fallback = min 254 (high (w + 8)))
    ∧ ∀ n, image.notes.get n = within 64 1023 (word (235 + n.val))

/-- The membership list of a line (R182, R188): its occupied slots in their order, words 1 to 4 of its entry, each with its hunt group and
order index clamped, but for one whose group and index an earlier line of the part has kept, and one whose group the line has kept. -/
def Clause.MembershipsAreKeptInTheirOrder : Prop :=
  ∀ (memory : List Byte) (l : Line),
    let memberships := fun n : Line => ((readImage memory).lines.get n).memberships
    let slot := fun w : Word16 => if w.getLsbD 15 then
      some (⟨⟨min 15 (w.toNat / 256 % 64), by omega⟩, ⟨min 31 (w.toNat % 256), by omega⟩, w.getLsbD 14⟩ : Membership) else none
    let earlier := fun m : Membership => allLines.any fun n =>
      decide (n < l) && (memberships n).any fun x => decide (x.group = m.group ∧ x.index = m.index)
    memberships l = (([1, 2, 3, 4] : List Nat).filterMap fun k => slot (wordAt memory (7 + 5 * l.val + k))).foldl (fun mine m =>
      if earlier m || mine.any fun x => decide (x.group = m.group) then mine else mine ++ [m]) []

/-- The values of a read image lie in the ranges that R67, R125, R145, R157 and R181 give them, whatever the words hold. -/
def Clause.ImageValuesLieInTheirRanges : Prop :=
  ∀ memory : List Byte,
    (10 ≤ (readImage memory).routineMax ∧ (readImage memory).routineMax ≤ 240)
    ∧ (30 ≤ (readImage memory).alarmMax ∧ (readImage memory).alarmMax ≤ 900)
    ∧ (∀ g p, (readImage memory).groups.get g = some p →
        1 ≤ p.span ∧ p.span ≤ 32 ∧ 6 ≤ p.noAnswer ∧ p.noAnswer ≤ 120 ∧ p.wrapUp ≤ 255 ∧ 10 ≤ p.queueMax ∧ p.queueMax ≤ 600
        ∧ 30 ≤ p.recallTime ∧ p.recallTime ≤ 600 ∧ 15 ≤ p.repeatInterval ∧ p.repeatInterval ≤ 120 ∧ 1 ≤ p.repeatLimit
        ∧ p.repeatLimit ≤ 15)
    ∧ (∀ z, ((readImage memory).zones.get z).wake ≤ 1000 ∧ ((readImage memory).zones.get z).wake % 50 = 0
        ∧ ((readImage memory).zones.get z).hang ≤ 10 ∧ LevelParamsOk ((readImage memory).zones.get z).level)
    ∧ ∀ n, 64 ≤ (readImage memory).notes.get n ∧ (readImage memory).notes.get n ≤ 1023

/-- The membership lists of a read image: no hunt group and order index twice in the part, no group twice at one line, at
most four at a line. -/
def Clause.KeptMembershipsAreDistinct : Prop :=
  ∀ (memory : List Byte) (l m : Line) (a b : Membership),
    a ∈ ((readImage memory).lines.get l).memberships → b ∈ ((readImage memory).lines.get m).memberships →
    ((l ≠ m → ¬ (a.group = b.group ∧ a.index = b.index)) ∧ (l = m → a.group = b.group → a = b)
      ∧ ((readImage memory).lines.get l).memberships.length ≤ 4
      ∧ ((readImage memory).lines.get l).memberships.Pairwise (fun x y => x.group ≠ y.group))

/-- Words are read high byte first, each value from its word and bits, clamped to its range, the memberships kept in their order and distinct -/
def Obligations.ImageReadsIntoItsRanges : Prop :=
  Clause.WordsAreReadHighByteFirst
    ∧ Clause.ImageValuesStandAtTheirPlaces
    ∧ Clause.MembershipsAreKeptInTheirOrder
    ∧ Clause.ImageValuesLieInTheirRanges
    ∧ Clause.KeptMembershipsAreDistinct

/-- JOIN: phase and link RUNNING, a JOINING STATUS, and one AVAILABLE naming the groups with an available line, if any. -/
def Obligations.JoinAnnouncesThePart : Prop :=
  ∀ s : State, Ready s → s.clc.link = .listening → (∀ e ∈ s.clc.queue, isStatus e.notice = false) →
    s.clc.queue.length + 2 ≤ txCapacity →
    exec .join s = .next (withOutputs [] (withQueued (.status .joining (assembleStatus s) :: newGroups (allAvailable s))
      { s with phase := .running, clc := { s.clc with link := .running } }))

/-! ### The cabinet link (chapter 1) -/

/-- The arbitration field of every notice that the part sends, by its kind and its page's class: class times 4096, 16 times the key of a BID,
and the source (R6; its number: log 5). A notice joins with no failed attempt, out of an attempt. -/
def Clause.NoticesHaveTheirFields : Prop :=
  ∀ (src : Cabinet) (n : Notice), newEntry src n = ⟨n, (match n with
    | .pageStart b => if b.cls = .alarm ∨ b.cls = .evac then 0 else 8192
    | .pageEnd _ cls _ => if cls = .alarm ∨ cls = .evac then 0 else 8192
    | .allStop _ => 0
    | .answered .. | .claim .. | .connected .. | .refused .. | .cancel _ => 4096
    | .bid _ _ _ key => 8192 + 16 * key.val
    | .offer .. | .ringAssign .. | .decline .. | .ringStarted .. | .ringEnded .. | .noAnswer .. | .available _ | .zoneReport .. => 8192
    | .status .. | .probe => 12288) + src.val, 0, false, none⟩

/-- An attempt takes the queued notice with the lowest field, the first that joined among equals, and drives its frame; a
STATUS gets its contents then. With nothing queued, or in a link state that does not send, nothing starts. -/
def Clause.AttemptTakesTheLowestFieldFirstJoined : Prop :=
  ∀ (s : State) (before after : List TxEntry) (e : TxEntry), Ready s →
    (s.clc.link = .running ∨ s.clc.link = .isolated) → s.clc.queue = before ++ e :: after →
    (∀ x ∈ s.clc.queue, x.inAttempt = false) → (∀ x ∈ before, e.field < x.field) → (∀ x ∈ after, e.field ≤ x.field) →
    exec .attemptStart s = .next (withOutputs []
      { s with clc := { s.clc with
          queue := before ++ { e with inAttempt := true, notice := assembled s e.notice } :: after
          driving := frameBits (own s) (assembled s e.notice) } })

/-- No attempt starts with an empty queue, or in LOADING, LISTENING, LISTEN-ONLY or HALTED. -/
def Clause.NoAttemptWithoutNoticeOrOffTheLink : Prop :=
  ∀ s : State, Ready s → (s.clc.queue = [] ∨ (s.clc.link ≠ .running ∧ s.clc.link ≠ .isolated)) →
    exec .attemptStart s = .next (withOutputs [] s)

/-- The arbitration field of every notice (its number: log 5); an attempt takes the lowest queued, and none starts without a notice or off the link -/
def Obligations.AttemptTakesTheLowestField : Prop :=
  Clause.NoticesHaveTheirFields ∧ Clause.AttemptTakesTheLowestFieldFirstJoined ∧ Clause.NoAttemptWithoutNoticeOrOffTheLink

/-- A lost arbitration leaves the notice queued in its place with its failed-attempt count; a replacement that waited takes
effect, and so does a withdrawal. -/
def Clause.LostArbitrationIsNoFailedAttempt : Prop :=
  ∀ (s : State) (before after : List TxEntry) (e : TxEntry), Ready s → s.clc.queue = before ++ e :: after →
    OnlyAttempt e before after →
    (e.request = none → exec .arbitrationLost s = .next (withOutputs []
        (withQueue (before ++ { e with inAttempt := false } :: after) s)))
    ∧ (∀ n, e.request = some (.replace n) → exec .arbitrationLost s = .next (withOutputs []
        (withQueue (before ++ { e with inAttempt := false, notice := n, request := none } :: after) s)))
    ∧ (e.request = some .withdraw → (∀ c l i k, e.notice = .bid c l i k → bidOf s c = none) →
        exec .arbitrationLost s = .next (withOutputs [] (withQueue (before ++ after) s)))

/-- A failed attempt that is not the fourth adds one to the notice's count, and the notice stays queued. -/
def Clause.FailedAttemptIsCounted : Prop :=
  ∀ (s : State) (before after : List TxEntry) (e : TxEntry), Ready s → s.clc.queue = before ++ e :: after →
    OnlyAttempt e before after → e.failed < 3 → e.request = none →
    exec .attemptFailed s = .next (withOutputs []
      (withQueue (before ++ { e with inAttempt := false, failed := e.failed + 1 } :: after) s))

/-- An acknowledged STATUS, or PROBE outside ISOLATED, leaves the queue and sets the drop run to 0. -/
def Clause.AcknowledgementClearsTheDropRun : Prop :=
  ∀ (s : State) (before after : List TxEntry) (e : TxEntry), Ready s → s.clc.queue = before ++ e :: after →
    OnlyAttempt e before after → isHousekeeping e.notice = true → (s.clc.link = .isolated → isProbe e.notice = false) →
    exec .attemptAcknowledged s = .next (withOutputs []
      { s with clc := { s.clc with queue := before ++ after, driving := [], dropRun := 0 } })

/-- An acknowledged notice of a block leaves the queue, the drop run is 0, and the notice is delivered to the part's own blocks as
OwnDelivery says for each kind, with what that delivery itself brings (log 4). -/
def Clause.AcknowledgedNoticeReachesItsOwnBlocks : Prop :=
  ∀ (s u : State) (before after : List TxEntry) (e : TxEntry), Ready s → s.clc.queue = before ++ e :: after →
    OnlyAttempt e before after →
    Delivered { afterAttempt (before ++ after) 0 (withOutputs [] s) with deliveries := [e.notice] } u →
    exec .attemptAcknowledged s = .next u

/-- What a lost arbitration, a failed attempt and an acknowledgement leave, and the own delivery of an acknowledged notice -/
def Obligations.AttemptsEndSentLostOrFailed : Prop :=
  Clause.LostArbitrationIsNoFailedAttempt
    ∧ Clause.FailedAttemptIsCounted
    ∧ Clause.AcknowledgementClearsTheDropRun
    ∧ Clause.AcknowledgedNoticeReachesItsOwnBlocks

/-- The fourth failed attempt drops the notice. A STATUS or PROBE goes to no block. In RUNNING the drop run rises by one; at
8 the part, here with nothing left that the entry to ISOLATED would end, enters ISOLATED and raises the condition with the
kind of the notice. In ISOLATED the drop run stays. -/
def Clause.FourthFailureDropsTheNotice : Prop :=
  ∀ (s : State) (before after : List TxEntry) (e : TxEntry), Ready s → s.clc.queue = before ++ e :: after →
    OnlyAttempt e before after → e.failed = 3 → e.request = none → isHousekeeping e.notice = true →
    (s.clc.link = .running → s.clc.dropRun < 7 → exec .attemptFailed s = .next (withOutputs []
        { s with clc := { s.clc with queue := before ++ after, driving := [], dropRun := s.clc.dropRun + 1 } }))
    ∧ (s.clc.link = .isolated → exec .attemptFailed s = .next (withOutputs [] (withQueue (before ++ after) s)))
    ∧ (s.clc.link = .running → s.clc.dropRun = 7 → (∀ x ∈ before ++ after, isHousekeeping x.notice = true) →
        LinesQuiet s → (∀ o ∈ s.ofm.offers, endsIsolated (own s) o = false) →
        exec .attemptFailed s = .next (withOutputs [] (raise .isolated (kindCode e.notice) .clc
          { s with clc := { s.clc with queue := [], driving := [], dropRun := 8, link := .isolated } })))

/-- A notice of a block that is dropped at its fourth failed attempt, below the eighth drop, is delivered to the part's own blocks in the
same way, with the contents of a replacement that waited, and counts in the drop run; a withdrawal that waited takes effect
instead, and nothing is delivered. -/
def Clause.DroppedNoticeReachesItsOwnBlocks : Prop :=
  ∀ (s u : State) (before after : List TxEntry) (e : TxEntry), Ready s → s.clc.queue = before ++ e :: after →
    OnlyAttempt e before after → e.failed = 3 → s.clc.link = .running → s.clc.dropRun < 7 →
    (∀ n, ((e.request = none ∧ n = e.notice) ∨ e.request = some (.replace n)) →
      Delivered { afterAttempt (before ++ after) s.clc.dropRun (withOutputs [] s) with deliveries := [n] } u →
      exec .attemptFailed s = .next { u with clc := { u.clc with dropRun := s.clc.dropRun + 1 } })
    ∧ (e.request = some .withdraw → (∀ c l i k, e.notice = .bid c l i k → bidOf s c = none) →
        exec .attemptFailed s = .next (withOutputs [] (afterAttempt (before ++ after) (s.clc.dropRun + 1) s)))

/-- An acknowledged PROBE in ISOLATED performs REJOIN: drop run 0, every other peer ABSENT, RUNNING, a REJOINING STATUS,
REJOINED raised, ring view empty, and the channel view free but for own entries; and the pages of other cabinets leave every zone
without reports, each zone whose active page is one of them making the resume choice (orders: log 14). -/
def Clause.AcknowledgedProbeRejoins : Prop :=
  ∀ (s t : State) (e : TxEntry), Ready s → s.clc.link = .isolated → s.clc.queue = [e] → e.inAttempt = true → e.notice = .probe →
    Chain (ZoneFreed fun x => !decide (x.page.cab = own s)) allZones (withOutputs [] (raise .rejoined 0 .clc
      { s with
          clc := { s.clc with
            link := .running, driving := [], dropRun := 0
            queue := [newEntry (own s) (.status .rejoining (assembleStatus s))]
            peers := Table.build 16 fun p => if p = own s then peerOf s p else resetPeer }
          ppu := { s.ppu with view := [] }
          pgo := { s.pgo with view := s.pgo.view.map fun h => h.filter fun x => decide (x.page.cab = own s) } })) t →
    exec .attemptAcknowledged s = .next t

/-- The eighth drop in succession enters ISOLATED: the dropped notice is delivered to the part's own blocks (R10), the condition is raised
with its kind, the queue is flushed by own delivery (R15), the records end that R64 names, and the lines lose the calls and orbits of other
cabinets (R43), in the order of logs 4 and 14. -/
def Clause.EighthDropEntersIsolated : Prop :=
  ∀ (s u v a b t : State) (before after : List TxEntry) (e : TxEntry) (told : List Notice), Ready s →
    s.clc.queue = before ++ e :: after → OnlyAttempt e before after → e.failed = 3 → s.clc.link = .running → s.clc.dropRun = 7 →
    (∀ c l i k, e.request = some .withdraw → e.notice = .bid c l i k → bidOf s c = none) →
    told = (match e.request with
      | none => if isHousekeeping e.notice then [] else [e.notice]
      | some (.replace n) => if isHousekeeping n then [] else [n]
      | some .withdraw => []) →
    Delivered { afterAttempt (before ++ after) 7 (withOutputs [] s) with deliveries := told } u →
    Delivered (flushed (raise .isolated (kindCode e.notice) .clc
      { u with clc := { u.clc with link := .isolated, dropRun := 8 } })) v →
    Chain RecordIsolated v.ofm.offers v a → Chain (LineLoses (fun c => !decide (c = own a)) .isolated) allLines a b →
    Delivered b t → exec .attemptFailed s = .next t

/-- The fourth failed attempt drops a notice and delivers it, the eighth drop enters ISOLATED, an acknowledged PROBE rejoins (logs 4, 14) -/
def Obligations.LeavingAndRejoiningTheLink : Prop :=
  Clause.FourthFailureDropsTheNotice
    ∧ Clause.DroppedNoticeReachesItsOwnBlocks
    ∧ Clause.AcknowledgedProbeRejoins
    ∧ Clause.EighthDropEntersIsolated

/-- An abandoned frame changes nothing; a frame with a bad CRC is discarded, its acknowledgement slot left recessive. -/
def Clause.BadFramesAreNotHeard : Prop :=
  ∀ s : State, Ready s →
    exec .frameAbandoned s = .next (withOutputs [] s)
    ∧ (readsBus s.clc.link = true → exec .frameCrcMismatch s = .next (withOutputs [.acknowledge false] s))
    ∧ (readsBus s.clc.link = false → exec .frameCrcMismatch s = .next (withOutputs [] s))

/-- A heard frame makes its source PRESENT with age 0, and raises PEER-RETURNED when it was not. A PROBE and a frame of
unknown kind do that alone; that FRAME_UNKNOWN_KIND with a known kind is heard so too is the model's choice (log 21). -/
def Clause.HeardFrameUpdatesThePeerTable : Prop :=
  ∀ (s : State) (src : Cabinet) (kind length : BitVec 5), Ready s → readsBus s.clc.link = true → src ≠ own s →
    exec (.frameUnknownKind src kind length) s = exec (.probe src) s
    ∧ ((peerOf s src).state = .present → exec (.probe src) s =
        .next (withOutputs [.acknowledge (decide (s.clc.link ≠ .listenOnly))] (heardFrom src s)))
    ∧ ((peerOf s src).state ≠ .present → exec (.probe src) s =
        .next (withOutputs [.acknowledge (decide (s.clc.link ≠ .listenOnly))] (raise .peerReturned src.val .clc
          (withPeer src { peerOf s src with state := .present, age := 0 } s))))

/-- Outside RUNNING a notice of any other kind updates the peer table as a PROBE does and goes no further; in LOADING and
HALTED no frame is read. -/
def Clause.OutsideRunningFourKindsAreHandedOver : Prop :=
  ∀ (s : State) (c : Instr) (src : Cabinet), Ready s → heardSource c = some src →
    (s.clc.link ≠ .running → handedEverywhere c = false → exec c s = exec (.probe src) s)
    ∧ (readsBus s.clc.link = false → exec c s = .next (withOutputs [] s))

/-- Abandoned, bad and heard frames, and the kinds that go further outside RUNNING (FRAME_UNKNOWN_KIND of a known kind: log 21) -/
def Obligations.FramesHeardReachThePeerTable : Prop :=
  Clause.BadFramesAreNotHeard ∧ Clause.HeardFrameUpdatesThePeerTable ∧ Clause.OutsideRunningFourKindsAreHandedOver

/-- A heard frame with the own address: DUPLICATE-ADDRESS with the address, and LISTEN-ONLY with an empty queue; here with
nothing queued and nothing that the entry would end. In LISTEN-ONLY it changes nothing and is not acknowledged. -/
def Clause.OwnAddressHeardGoesToListenOnly : Prop :=
  ∀ (s : State) (c : Instr), Ready s → heardSource c = some (own s) →
    (readsBus s.clc.link = true → s.clc.link ≠ .listenOnly → (∀ x ∈ s.clc.queue, isHousekeeping x.notice = true) →
      (∀ x ∈ s.clc.queue, x.inAttempt = false) → LinesQuiet s → (∀ o ∈ s.ofm.offers, endsIsolated (own s) o = false) →
      exec c s = .next (withOutputs [.acknowledge true] (raise .duplicateAddress (own s).val .clc
        { s with clc := { s.clc with link := .listenOnly, queue := [], driving := [] } })))
    ∧ (s.clc.link = .listenOnly → exec c s = .next (withOutputs [.acknowledge false] s))

/-- A heard frame with the own address: DUPLICATE-ADDRESS, LISTEN-ONLY, and the queue flushed by own delivery (R17). From LISTENING and
RUNNING the OFM and the LU act as at an entry to ISOLATED; from ISOLATED they have done so. Orders: logs 4, 9 and 14. Here no request waits at an attempt. -/
def Clause.DuplicateAddressEndsWhatTheLinkCarried : Prop :=
  ∀ (s v : State) (c : Instr), Ready s → heardSource c = some (own s) → readsBus s.clc.link = true → s.clc.link ≠ .listenOnly →
    (∀ x ∈ s.clc.queue, x.inAttempt = true → x.request = none) →
    Delivered (flushed (raise .duplicateAddress (own s).val .clc
      { withOutputs [.acknowledge true] s with clc := { s.clc with link := .listenOnly } })) v →
    (s.clc.link = .isolated → exec c s = .next v)
    ∧ (s.clc.link ≠ .isolated → ∀ a b t, Chain RecordIsolated v.ofm.offers v a →
        Chain (LineLoses (fun c => !decide (c = own a)) .isolated) allLines a b → Delivered b t → exec c s = .next t)

/-- A frame heard with the own address raises DUPLICATE-ADDRESS, enters LISTEN-ONLY and ends what R17 names (logs 4, 9, 14) -/
def Obligations.OwnAddressHeardGoesToListenOnly : Prop :=
  Clause.OwnAddressHeardGoesToListenOnly ∧ Clause.DuplicateAddressEndsWhatTheLinkCarried

/-- A STATUS heard in RUNNING: the peer table holds its flag, page id and channels, a JOINING or REJOINING one is answered by a
STATUS, the channel view holds each channel it lists and frees the sender's other entries. Here no zone's evacuation set changes:
the flag is clear and none holds a page of the sender, or each does. -/
def Clause.HeardStatusIsRecordedAndAnswered : Prop :=
  ∀ (s : State) (src : Cabinet) (b : RawStatus) (f : LinkField) (e : Option PageId) (t : Table 4 (Option ChannelHold)),
    StatusHeard src b f e t s → (∀ z, (zoneOf s z).evac.any (fun p => decide (p.cab = src)) = e.isSome) →
    exec (.status src b) s = .next (withOutputs [.acknowledge true] (statusTaken src f e t s))

/-- The evacuation flag of a STATUS at the one zone whose set it changes. Set: the page id joins the set, of an evacuating zone, or of a
RELEASED one, where it starts the evacuation. Clear: the sender's page leaves the set, and with the last one the evacuation, here with
nothing held or pending. -/
def Clause.StatusMovesTheEvacuationSets : Prop :=
  ∀ (s : State) (src : Cabinet) (b : RawStatus) (f : LinkField) (e : Option PageId) (t : Table 4 (Option ChannelHold))
    (z : LocalZone) (p : PageId), StatusHeard src b f e t s → s.phase = .running → p.cab = src →
    (∀ y, y ≠ z → (zoneOf s y).evac.any (fun p => decide (p.cab = src)) = e.isSome) →
    let r := zoneOf s z
    let seen := withOutputs [.acknowledge true] (statusTaken src f e t s)
    (e = some p → (∀ x ∈ r.evac, x.cab ≠ src) → holdsPage r p = false →
      (r.state ≠ .outOfService → r.state ≠ .fault → r.evac ≠ [] →
        exec (.status src b) s = .next (zoneReports z p .playing (withZone z { r with evac := r.evac ++ [p] } seen)))
      ∧ (r.state = .released → r.active = none → r.evac = [] → 0 < r.cfg.wake →
        exec (.status src b) s = .next (zoneReports z p .playing (raise .evacActive (numberOf s z).val .zc
          (levelSet z r.cfg.level.floor (zoneEnters z { r with
            evac := [p], active := some .evacuation, state := .waking } true .none seen))))))
    ∧ (e = none →
      (∀ l m, r.evac = l ++ p :: m → (∀ x ∈ l ++ m, x.cab ≠ src) → l ++ m ≠ [] →
        exec (.status src b) s = .next (withZone z { r with evac := l ++ m } seen))
      ∧ (r.evac = [p] → r.active = some .evacuation → r.held = none → r.pending = [] →
        exec (.status src b) s = .next (lastLeaves z (withZone z { r with evac := [] } seen))))

/-- A STATUS heard: recorded, JOINING and REJOINING answered first, evacuation sets moved (that answer first, attenuation last: log 14) -/
def Obligations.HeardStatusIsRecordedAndAnswered : Prop :=
  Clause.HeardStatusIsRecordedAndAnswered ∧ Clause.StatusMovesTheEvacuationSets

/-- The STATUS period queues a STATUS in RUNNING, the PROBE period a PROBE in ISOLATED; where one is queued already none is
added, and neither acts in another link state (log 1). -/
def Clause.PeriodsQueueStatusAndProbe : Prop :=
  ∀ s : State, Ready s →
    (s.clc.link = .running → s.clc.queue.length < txCapacity → (∀ x ∈ s.clc.queue, isStatus x.notice = false) →
      exec .statusPeriod s = .next (withOutputs [] (withQueued [.status .running (assembleStatus s)] s)))
    ∧ (s.clc.link = .isolated → s.clc.queue.length < txCapacity → (∀ x ∈ s.clc.queue, isProbe x.notice = false) →
      exec .probePeriod s = .next (withOutputs [] (withQueued [.probe] s)))
    ∧ (((∃ x ∈ s.clc.queue, isStatus x.notice = true) ∨ s.clc.link ≠ .running) →
      exec .statusPeriod s = .next (withOutputs [] s))
    ∧ (((∃ x ∈ s.clc.queue, isProbe x.notice = true) ∨ s.clc.link ≠ .isolated) →
      exec .probePeriod s = .next (withOutputs [] s))

/-- A STATUS or PROBE queued at a full queue: of it and the notices out of an attempt the one with the highest field leaves, the last to
join among equals; it is discarded if it is a STATUS or PROBE, and else delivered to the part's own blocks (R8, log 4). -/
def Clause.FullQueueLosesItsHighestField : Prop :=
  ∀ s t u : State, Ready s → Delivered (withOutputs [] t) u →
    (s.clc.link = .running → (∀ x ∈ s.clc.queue, isStatus x.notice = false) →
      QueuedWhenFull (.status .running (assembleStatus s)) s t → exec .statusPeriod s = .next u)
    ∧ (s.clc.link = .isolated → (∀ x ∈ s.clc.queue, isProbe x.notice = false) →
      QueuedWhenFull .probe s t → exec .probePeriod s = .next u)

/-- The peer aging timer: every other entry ages, the own one does not. No peer reaches 30 s here. The count of free values
rises (log 6). -/
def Clause.PeersAgeEachSecond : Prop :=
  ∀ s : State, Ready s → readsBus s.clc.link = true →
    (∀ p, p ≠ own s → (peerOf s p).state = .present → (peerOf s p).age < 29) →
    exec .peerAgingTick s = .next (withOutputs [] { s with
      choices := s.choices + 1
      clc := { s.clc with peers := Table.build 16 fun p => if p = own s then peerOf s p else secondOlder (peerOf s p) } })

/-- STATUS and PROBE periods, what a full queue loses for room (own delivery: log 4), and the peer aging timer (timers as commands: log 1) -/
def Obligations.LinkTimersQueueAndAge : Prop :=
  Clause.PeriodsQueueStatusAndProbe ∧ Clause.FullQueueLosesItsHighestField ∧ Clause.PeersAgeEachSecond

/-- A PRESENT peer whose age reaches 30 falls SILENT: channels cleared, evacuation flag kept, PEER-SILENT raised, its ring
view entries and channel view entries gone. Here it is the only such peer, and no call, line or zone depends on it. That the
count of free values rises is the model's own (log 6). -/
def Clause.PeerFallsSilentAtThirtySeconds : Prop :=
  ∀ (s : State) (p : Cabinet), Ready s → readsBus s.clc.link = true → p ≠ own s → (peerOf s p).state = .present →
    29 ≤ (peerOf s p).age → (∀ q, q ≠ own s → q ≠ p → (peerOf s q).state = .present → (peerOf s q).age < 29) →
    s.ofm.offers = [] → LinesQuiet s → NoPlacedPage (fun x => decide (x.page.cab = p)) s →
    (∀ x ∈ s.clc.queue, isAssignTo p x.notice = false) →
    exec .peerAgingTick s = .next (withOutputs [] (raise .peerSilent p.val .clc { s with
      choices := s.choices + 1
      clc := { s.clc with peers := Table.build 16 (silencedPeer p s) }
      ppu := { s.ppu with view := s.ppu.view.filter fun e => !decide (e.call.cab = p ∨ e.cab = p) }
      pgo := { s.pgo with view := s.pgo.view.map fun h => h.filter fun x => !decide (x.page.cab = p) } }))

/-- A peer falls silent, alone: its members leave the part's records, each of which goes on or ends (R63); each line loses what it has of the
peer's calls and orbits (R43); the view entries of its calls, lines and pages are gone; its pages leave the zones, each zone that played one
making the resume choice (R144). What goes out is queued, or, on a part cut off, delivered to its own blocks (log 4). Records, lines and zones
are taken in the order of log 14; a DIRECT record that loses a member beside its assigned one goes on (log 34). -/
def Clause.SilenceEndsWhatDependsOnThePeer : Prop :=
  ∀ (p : Cabinet) (s a b t v : State), Ready s → FallsSilent p s →
    Chain (RecordLoses fun m => decide (m.cab = p)) (s.ofm.offers.map (·.seq)) (silenceHeard p (withOutputs [] s)) a →
    Chain (LineLoses (fun c => decide (c = p)) .ownerSilent) allLines a b →
    Chain (ZoneFreed fun e => decide (e.page.cab = p)) allZones (silenceViewed p b) t → Delivered t v →
    exec .peerAgingTick s = .next v

/-- A PRESENT peer whose age reaches 30 falls SILENT, and what depends on it ends or goes on (the model's own: logs 4, 6, 14 and 34) -/
def Obligations.PeerFallsSilentAtThirtySeconds : Prop :=
  Clause.PeerFallsSilentAtThirtySeconds ∧ Clause.SilenceEndsWhatDependsOnThePeer

/-! ### Lines (chapter 2) -/

/-- Off-hook at an IDLE or WRAP-UP line opens collection with tone DIAL; a reservation is released, and its bid ends. -/
def Clause.OffHookOpensDialling : Prop :=
  ∀ (l : Line) (s : State), Ready s → ((lineOf s l).state = .idle ∨ (lineOf s l).state = .wrapUp) →
    ((lineOf s l).reserved = none → exec (.offHook l) s =
      .next (withOutputs [.tone l .dial] (withLine l (dialling (lineOf s l)) s)))
    ∧ ∀ v, (lineOf s l).reserved = some v → exec (.offHook l) s =
      .next (withOutputs [.tone l .dial] (withoutBid v.call (withLine l (dialling (lineOf s l)) s)))

/-- Off-hook at a RINGING line is an answer: ring OFF, tone NONE, ANSWER-PENDING, and an ANSWERED to another cabinet's owner
with call id, line and order index. -/
def Clause.OffHookAnswersARingingLine : Prop :=
  ∀ (l : Line) (c : LineCall) (s : State), Sending 1 s → (lineOf s l).state = .ringing → (lineOf s l).call = some c →
    c.call.cab ≠ own s →
    exec (.offHook l) s = .next (withOutputs [.ring l false, .tone l .none]
      (withQueued [.answered c.call l c.index] (withLine l (answering c (lineOf s l)) s)))

/-- Off-hook at a line that rings for a call of its own part is decided at once by the part's own Offer Manager: the call connects to
the line, or, with no record for it, is cancelled. Here the record is not parked. -/
def Clause.OffHookAnswersTheOwnPartsCall : Prop :=
  ∀ (l : Line) (c : LineCall) (s : State), Sending 1 s → ShelfRoom 1 s → (lineOf s l).state = .ringing →
    (lineOf s l).call = some c → c.call.cab = own s →
    let pending := withLine l (answering c (lineOf s l)) s
    (∀ (o : Offer) (before after : List Offer), OfferAt o before after s → c.call.seq = o.seq → (∀ n, o.state ≠ .parked n) →
      exec (.offHook l) s = .next (withOutputs [.ring l false, .tone l .none]
        (callFreed o before after (withSent [.connect o.ref c.call (own s) l]
          (withQueued [.connected c.call (own s) l (targetGroup o.target) c.index] pending)))))
    ∧ ((∀ o ∈ s.ofm.offers, o.seq ≠ c.call.seq) → exec (.offHook l) s =
      .next (withOutputs [.ring l false, .tone l .none] (withQueued [.cancel c.call] pending)))

/-- Off-hook at a line already off-hook is not acted on; at an OUT-OF-SERVICE line it brings tone REFUSE in HALTED, and
nothing elsewhere. -/
def Clause.OffHookIsIgnoredElsewhere : Prop :=
  ∀ (l : Line) (s : State), Ready s →
    ((lineOf s l).state = .outOfService → s.phase = .halted → exec (.offHook l) s =
      .next (withOutputs [.tone l .refuse] (withLine l { lineOf s l with tone := .refuse } s)))
    ∧ ((lineOf s l).state = .outOfService → s.phase ≠ .halted → exec (.offHook l) s = .next (withOutputs [] s))
    ∧ ((lineOf s l).state ≠ .outOfService → (lineOf s l).state ≠ .idle → (lineOf s l).state ≠ .wrapUp →
        (lineOf s l).state ≠ .ringing → exec (.offHook l) s = .next (withOutputs [] s))

/-- OFF_HOOK in every line state: dialling with a reservation's bid ended, an answer to another part's or the own call, or nothing -/
def Obligations.OffHookByLineState : Prop :=
  Clause.OffHookOpensDialling
    ∧ Clause.OffHookAnswersARingingLine
    ∧ Clause.OffHookAnswersTheOwnPartsCall
    ∧ Clause.OffHookIsIgnoredElsewhere

/-- On-hook at a DIALING, ANSWER-PENDING, PICKUP-PENDING or BUSY line: ring OFF and tone NONE, IDLE, the arm cleared, one
AVAILABLE for the groups the line is newly available for; from BUSY a LINE-ON-HOOK with no call id goes to the shelf. -/
def Clause.OnHookMakesTheLineIdle : Prop :=
  ∀ (l : Line) (s : State), Sending 1 s → ShelfRoom 1 s →
    ((lineOf s l).state = .dialing →
      let r := idleRecord { lineOf s l with armed := false, buffer := [], digitTimer := none }
      exec (.onHook l) s = .next (withOutputs [.ring l false, .tone l .none]
        (withQueued (newlyAvailable (lineOf s l) r) (withLine l (refreshed r) s))))
    ∧ ((lineOf s l).state = .answerPending ∨ (lineOf s l).state = .pickupPending →
      let r := idleRecord { lineOf s l with armed := false }
      exec (.onHook l) s = .next (withOutputs [.ring l false, .tone l .none]
        (withQueued (newlyAvailable (lineOf s l) r) (withLine l (refreshed r) s))))
    ∧ ((lineOf s l).state = .busy →
      let r := idleRecord { lineOf s l with armed := false }
      exec (.onHook l) s = .next (withOutputs [.ring l false, .tone l .none]
        (withQueued (newlyAvailable (lineOf s l) r) (withSent [.lineOnHook l none] (withLine l (refreshed r) s)))))

/-- On-hook ends a talk: LINE-ON-HOOK with the call id, idle seconds 0, then WRAP-UP with the group's wrap-up time when that
is above 0 and the line is a member of the group of its call field, and IDLE otherwise. -/
def Clause.OnHookEndsATalk : Prop :=
  ∀ (l : Line) (c : LineCall) (s : State), Sending 1 s → ShelfRoom 1 s → (lineOf s l).state = .talking →
    (lineOf s l).call = some c →
    (∀ g, c.group = some g → (indexIn (lineOf s l).memberships g).isSome = true → 0 < groupWrapUp s g →
      exec (.onHook l) s = .next (withOutputs [.ring l false, .tone l .none] (withSent [.lineOnHook l (some c.call)]
        (withLine l { lineOf s l with
          armed := false, idleSecs := 0, state := .wrapUp, wrapUp := some (groupWrapUp s g), call := none
          ring := false, tone := .none, available := 0 } s))))
    ∧ ((∀ g, c.group = some g → (indexIn (lineOf s l).memberships g).isSome = false ∨ groupWrapUp s g = 0) →
      let r := idleRecord { lineOf s l with armed := false, idleSecs := 0 }
      exec (.onHook l) s = .next (withOutputs [.ring l false, .tone l .none]
        (withQueued (newlyAvailable (lineOf s l) r)
          (withSent [.lineOnHook l (some c.call)] (withLine l (refreshed r) s)))))

/-- On-hook ends a line's page in whatever state it stands: a page not yet announced has its PAGE-START withdrawn and its
channel freed, an announced one is ended with PAGE-END and, once connected, DISCONNECT-PAGE; the line becomes IDLE. -/
def Clause.OnHookEndsThePage : Prop :=
  ∀ (l : Line) (r : PageRec) (before after : List PageRec) (c : Channel) (s : State), Sending 2 s → ShelfRoom 1 s →
    (lineOf s l).state = .paging → PageAt r before after s → linePage s l = some r → r.channel = some c →
    let idle := idleRecord { lineOf s l with armed := false, page := none }
    (r.state ≠ .claiming → exec (.onHook l) s = .next (withOutputs [.ring l false, .tone l .none]
      (withSent (if r.connectSent then [.disconnectPage l c] else [])
        (withQueued (.pageEnd ⟨own s, r.seq⟩ r.cls .ended :: newlyAvailable (lineOf s l) idle)
          (withLine l (refreshed idle) (withPages (before ++ after) s))))))
    ∧ (r.state = .claiming → r.connectSent = false → (∀ i x, slotOf s i = some x → x.page ≠ some ⟨own s, r.seq⟩) →
      exec (.onHook l) s = .next (withOutputs [.ring l false, .tone l .none]
        (withQueued (newlyAvailable (lineOf s l) idle) (withLine l (refreshed idle)
          (withWithdrawn (isStartOf ⟨own s, r.seq⟩) { withPages (before ++ after) s with pgo := { s.pgo with
            pages := before ++ after
            view := s.pgo.view.map fun h => h.filter fun x => !decide (x.page = ⟨own s, r.seq⟩) } })))))

/-- On-hook at an IDLE, RINGING, WRAP-UP or OUT-OF-SERVICE line is not acted on: it clears the line's override arm, and what the line is
available for stays (R24, R36), but for an OUT-OF-SERVICE line in HALTED, which gets tone NONE. -/
def Clause.OnHookIsNotActedOn : Prop :=
  ∀ (l : Line) (s : State), Ready s →
    let r := { lineOf s l with armed := false }
    (((lineOf s l).state = .idle ∨ (lineOf s l).state = .ringing ∨ (lineOf s l).state = .wrapUp) →
      exec (.onHook l) s = .next (withOutputs [] (withLine l r s)))
    ∧ ((lineOf s l).state = .outOfService → s.phase ≠ .halted → exec (.onHook l) s = .next (withOutputs [] (withLine l r s)))
    ∧ ((lineOf s l).state = .outOfService → s.phase = .halted → exec (.onHook l) s =
        .next (withOutputs [.tone l .none] (withLine l { r with tone := .none } s)))

/-- ON_HOOK in every line state: at a dialling, pending, busy, talking and paging line, and where it is not acted on -/
def Obligations.OnHookByLineState : Prop :=
  Clause.OnHookMakesTheLineIdle ∧ Clause.OnHookEndsATalk ∧ Clause.OnHookEndsThePage ∧ Clause.OnHookIsNotActedOn

/-- A digit is ignored unless the line is DIALING with collection OPEN. -/
def Clause.DigitsAreTakenOnlyWhileCollecting : Prop :=
  ∀ (l : Line) (d : Digit) (s : State), Ready s → ((lineOf s l).state ≠ .dialing ∨ (lineOf s l).collecting = false) →
    exec (.digit l d) s = .next (withOutputs [] s)

/-- A first digit 0 to 9 goes to the shelf with LINE-TO-SHELF and the line becomes BUSY; a first `*` or `#` is refused at once
outside the start-up phase RUNNING. -/
def Clause.FirstDigitGoesToTheShelfOrIsRefused : Prop :=
  ∀ (l : Line) (n : Fin 10) (s : State), Ready s → ShelfRoom 1 s → (lineOf s l).state = .dialing →
    (lineOf s l).collecting = true → (lineOf s l).buffer = [] →
    exec (.digit l (.num n)) s = .next (withOutputs [.tone l .none] (withSent [.lineToShelf l n]
      (withLine l { lineOf s l with digitTimer := none, tone := .none, state := .busy } s)))
    ∧ (s.phase ≠ .running → ∀ d, d = .star ∨ d = .hash → exec (.digit l d) s =
      .next (withOutputs [.tone l .none, .tone l .refuse] (withLine l (refusedLine (lineOf s l)) s)))

/-- A digit joins the buffer: a proper beginning of a code starts the inter-digit timer, and a buffer that is neither a code
nor the beginning of one is refused, as is a code that fails a check. -/
def Clause.BufferIsJudgedAfterEachDigit : Prop :=
  ∀ (l : Line) (d : Digit) (s : State), Ready s → s.phase = .running → (lineOf s l).state = .dialing →
    (lineOf s l).collecting = true → ((lineOf s l).buffer = [] → d = .star ∨ d = .hash) →
    let r := withDigit d (lineOf s l)
    (compareBuffer r.buffer = .beginning → exec (.digit l d) s =
      .next (withOutputs [.tone l .none] (withLine l { r with digitTimer := some .interDigit } s)))
    ∧ (compareBuffer r.buffer = .neither → exec (.digit l d) s =
      .next (withOutputs [.tone l .none, .tone l .refuse] (withLine l (refusedLine r) s)))
    ∧ (∀ c n, compareBuffer r.buffer = .complete c n → passesChecks r c n = false → exec (.digit l d) s =
      .next (withOutputs [.tone l .none, .tone l .refuse] (withLine l (refusedLine r) s)))

/-- What the digits in a buffer come to (R27): a code's own digits, with 0 to 9 in each place, are that code with its number; a proper
beginning of such digits waits for more; anything else is neither. -/
def Clause.BuffersAreComparedWithTheCodes : Prop :=
  (∀ (c : Code) (t u v : Fin 10), compareBuffer (codeDigits t u v c) = .complete c (codeNumber t u v c))
  ∧ (∀ b, compareBuffer b = .beginning ↔ ∃ c t u v rest, rest ≠ [] ∧ b ++ rest = codeDigits t u v c)
  ∧ ∀ b, compareBuffer b = .neither ↔ ∀ c t u v rest, b ++ rest ≠ codeDigits t u v c

/-- The checks of R28: SUPERVISOR for `*7PP`, `*9` and the codes that begin with `#`; GG 0 to 15; PP 0 to 31 or 99; NNN 100 to 355; OO 0
to 63. -/
def Clause.CompleteCodesAreChecked : Prop :=
  ∀ (r : LineRec) (c : Code) (n : Nat), passesChecks r c n = true ↔
    ((c = .alarmPage ∨ c = .allStop ∨ c = .overrideRoutine ∨ c = .overrideAlarm) → r.privilege = .supervisor)
    ∧ ((c = .login ∨ c = .logout) → n ≤ 15)
    ∧ ((c = .routinePage ∨ c = .alarmPage ∨ c = .overrideRoutine ∨ c = .overrideAlarm) → n ≤ 31 ∨ n = 99)
    ∧ (c = .directedPickup → 100 ≤ n ∧ n ≤ 355) ∧ (c = .retrieve → n ≤ 63)

/-- DIGIT: the first digit, the buffer compared with the table of codes after each digit, the five checks, and codes refused -/
def Obligations.DigitsBuildACode : Prop :=
  Clause.DigitsAreTakenOnlyWhileCollecting
    ∧ Clause.FirstDigitGoesToTheShelfOrIsRefused
    ∧ Clause.BufferIsJudgedAfterEachDigit
    ∧ Clause.BuffersAreComparedWithTheCodes
    ∧ Clause.CompleteCodesAreChecked

/-- `*8` inverts do-not-disturb, and `*1GG` and `*2GG` set and clear the logged-in flag of the membership, or are refused
where there is none; success brings tone CONFIRM, an empty buffer, collection OPEN and the first-digit timer. -/
def Clause.DoNotDisturbAndLoginCodes : Prop :=
  ∀ (l : Line) (s : State), Ready s → s.phase = .running → (lineOf s l).state = .dialing → (lineOf s l).collecting = true →
    let done := fun (r : LineRec) =>
      { r with tone := .confirm, buffer := [], digitTimer := some .first, collecting := true }
    ((lineOf s l).buffer = [.star] → exec (.digit l (.num 8)) s =
      .next (withOutputs [.tone l .none, .tone l .confirm]
        (withLine l (done { lineOf s l with dnd := !(lineOf s l).dnd }) s)))
    ∧ ∀ (k t u : Fin 10) (g : HuntGroup), 10 * t.val + u.val = g.val → (k = 1 ∨ k = 2) →
      (lineOf s l).buffer = [.star, .num k, .num t] →
      ((indexIn (lineOf s l).memberships g).isSome = true → exec (.digit l (.num u)) s =
        .next (withOutputs [.tone l .none, .tone l .confirm] (withLine l (done { lineOf s l with
          memberships := (lineOf s l).memberships.map fun m =>
            if m.group = g then { m with loggedIn := decide (k = 1) } else m }) s)))
      ∧ ((indexIn (lineOf s l).memberships g).isSome = false → exec (.digit l (.num u)) s =
        .next (withOutputs [.tone l .none, .tone l .refuse] (withLine l (refusedLine (lineOf s l)) s)))

/-- `*9` queues an ALL-STOP from the part, and the line goes on collecting with tone CONFIRM. -/
def Clause.AllStopCodeQueuesAllStop : Prop :=
  ∀ (l : Line) (d : Digit) (s : State), Sending 1 s → LastDigit l d .allStop 0 s →
    exec (.digit l d) s = .next (withOutputs [.tone l .none, .tone l .confirm] (withQueued [.allStop (own s)]
      (withLine l { withDigit d (lineOf s l) with
        tone := .confirm, buffer := [], digitTimer := some .first, collecting := true } s)))

/-- The codes for do-not-disturb, login, logout and all-stop -/
def Obligations.LineFeatureCodesAct : Prop :=
  Clause.DoNotDisturbAndLoginCodes ∧ Clause.AllStopCodeQueuesAllStop

/-- The digit timer's expiry refuses the code; a timer that does not run brings nothing (log 1). -/
def Clause.DigitTimerRefusesTheCode : Prop :=
  ∀ (l : Line) (s : State), Ready s →
    ((lineOf s l).digitTimer ≠ none → exec (.digitTimerExpiry l) s =
      .next (withOutputs [.tone l .refuse] (withLine l (refusedLine (lineOf s l)) s)))
    ∧ ((lineOf s l).digitTimer = none → exec (.digitTimerExpiry l) s = .next (withOutputs [] s))

/-- A reservation ends by its timer: the bid for its call ends, and the line is announced for the groups it is available for
again. -/
def Clause.ReservationTimerReleasesTheLine : Prop :=
  ∀ (l : Line) (v : Reservation) (s : State), Sending 1 s → (lineOf s l).reserved = some v →
    let r := { lineOf s l with reserved := none }
    exec (.reservationTimerExpiry l) s = .next (withOutputs []
      (withQueued (newlyAvailable (lineOf s l) r) (withoutBid v.call (withLine l (refreshed r) s))))

/-- The verdict timer resolves a pending verdict as LOST: the line becomes BUSY with tone LOST. -/
def Clause.VerdictTimerResolvesAsLost : Prop :=
  ∀ (l : Line) (s : State), Ready s → (lineOf s l).verdict ≠ none →
    exec (.verdictTimerExpiry l) s = .next (withOutputs [.tone l .lost]
      (withLine l { lineOf s l with state := .busy, call := none, verdict := none, tone := .lost } s))

/-- Expiry of the digit, reservation and verdict timers of a line (a stopped timer: log 1) -/
def Obligations.DialVerdictAndReservationTimers : Prop :=
  Clause.DigitTimerRefusesTheCode ∧ Clause.ReservationTimerReleasesTheLine ∧ Clause.VerdictTimerResolvesAsLost

/-- Each cadence goes through its intervals in turn, with ring ON and ring OFF in turn, and round again: the long OFF interval
of HUNT and RECALL and the OFF interval of DIRECT is the last. -/
def Clause.CadenceRingsInTurn : Prop :=
  ∀ (l : Line) (k : Nat) (c : LineCall) (cad : Cadence) (s : State), Ready s → (lineOf s l).state = .ringing →
    (lineOf s l).cadenceAt = some k → (lineOf s l).call = some c → c.cadence = some cad →
    let next := (k + 1) % (match cad with
      | .hunt => 4
      | .direct => 2
      | .recall => 7)
    let on := decide (next % 2 = 0 ∧ next < 6)
    exec (.cadenceIntervalExpiry l) s = .next (withOutputs [.ring l on]
      (withLine l { lineOf s l with cadenceAt := some next, ring := on } s))

/-- The no-answer timer of a ringing line: ring OFF, IDLE, NO-ANSWER and then RING-ENDED with reason NO-ANSWER, its view
entry gone, and the line announced for the groups it is available for again. -/
def Clause.UnansweredLineStopsRinging : Prop :=
  ∀ (l : Line) (c : LineCall) (s : State), Sending 3 s → (lineOf s l).state = .ringing → (lineOf s l).call = some c →
    (lineOf s l).noAnswer ≠ none →
    let r := { lineOf s l with
      state := .idle, call := none, cadenceAt := none, noAnswer := none, ring := false, tone := .none }
    exec (.noAnswerTimerExpiry l) s = .next (withOutputs [.ring l false, .tone l .none]
      (withQueued (.noAnswer c.call l :: .ringEnded c.call l .noAnswer :: newlyAvailable (lineOf s l) r)
        (withLine l (refreshed r)
          { s with ppu := { s.ppu with
              view := s.ppu.view.filter fun e => !decide (e.call = c.call ∧ e.cab = own s ∧ e.line = l) } })))

/-- The no-answer timer of a ringing line whatever the link state: cut off from the link, its NO-ANSWER, RING-ENDED and AVAILABLE are
delivered to the part's own blocks, and a call of the part takes them at once (R10, R60, R65; log 4). -/
def Clause.UnansweredLineTellsItsOwnPart : Prop :=
  ∀ (l : Line) (c : LineCall) (s u : State), Ready s → Room 3 s → (lineOf s l).state = .ringing → (lineOf s l).call = some c →
    (lineOf s l).noAnswer ≠ none →
    let r := { lineOf s l with
      state := .idle, call := none, cadenceAt := none, noAnswer := none, ring := false, tone := .none }
    Delivered (withOutputs [.ring l false, .tone l .none]
      (noticed (.noAnswer c.call l :: .ringEnded c.call l .noAnswer :: newlyAvailable (lineOf s l) r)
        (withLine l (refreshed r)
          { s with ppu := { s.ppu with
              view := s.ppu.view.filter fun e => !decide (e.call = c.call ∧ e.cab = own s ∧ e.line = l) } }))) u →
    exec (.noAnswerTimerExpiry l) s = .next u

/-- A ringing line follows its cadence, and stops at its no-answer timer, on the link and cut off from it (own delivery: log 4) -/
def Obligations.RingingFollowsItsCadence : Prop :=
  Clause.CadenceRingsInTurn ∧ Clause.UnansweredLineStopsRinging ∧ Clause.UnansweredLineTellsItsOwnPart

/-- A second of WRAP-UP takes one from what remains, and the last makes the line IDLE; a second of IDLE adds one to the idle
seconds, which stop at 1023. That ring OFF and tone NONE go out at the end of WRAP-UP, in force or not, is log 32. -/
def Obligations.WrapUpAndIdleSecondsCount : Prop :=
  ∀ (l : Line) (n : Nat) (s : State), Sending 1 s →
    ((lineOf s l).state = .wrapUp → (lineOf s l).wrapUp = some (n + 2) → exec (.wrapUpTick l) s =
      .next (withOutputs [] (withLine l { lineOf s l with wrapUp := some (n + 1) } s)))
    ∧ ((lineOf s l).state = .wrapUp → (lineOf s l).wrapUp = some 1 →
      let r := idleRecord { lineOf s l with wrapUp := none }
      exec (.wrapUpTick l) s = .next (withOutputs [.ring l false, .tone l .none]
        (withQueued (newlyAvailable (lineOf s l) r) (withLine l (refreshed r) s))))
    ∧ ((lineOf s l).state = .idle → exec (.idleSecondTick l) s =
      .next (withOutputs [] (withLine l { lineOf s l with idleSecs := min 1023 ((lineOf s l).idleSecs + 1) } s)))

/-! ### Calls and their owners (chapter 3) -/

/-- The checks of R48 in their order, each with its reason; at FULL the condition is raised as well. -/
def Obligations.RefusedArrivals : Prop :=
  ∀ (ref : Word16) (ty : Byte) (v : Word16) (s : State), Ready s → ShelfRoom 1 s →
    let inUse := ∃ o ∈ s.ofm.offers, o.ref = ref
    let refusedWith := fun r => exec (.callArrival ref ty v) s = .next (withOutputs [] (withSent [.refused ref r] s))
    (s.clc.link ≠ .running → refusedWith .notReady)
    ∧ (s.clc.link = .running → inUse → refusedWith .inUse)
    ∧ (s.clc.link = .running → ¬ inUse → (∀ t, ¬ KnownTarget s ty v t) → refusedWith .unknownTarget)
    ∧ (s.clc.link = .running → ¬ inUse → (∃ t, KnownTarget s ty v t) → 8 ≤ s.ofm.offers.length →
        exec (.callArrival ref ty v) s = .next (withOutputs []
          (raise .offerTableFull ref.toNat .ofm (withSent [.refused ref .full] s))))

/-- A call that passes the checks gets the first free sequence value from the counter on, a record, and ACCEPTED; a HUNT call
is offered with an empty tried set, a DIRECT call's RING-ASSIGN goes to its line. -/
def Clause.AcceptedArrivals : Prop :=
  ∀ (ref : Word16) (ty : Byte) (v : Word16) (s : State), Sending 1 s → ShelfRoom 1 s →
    (∀ o ∈ s.ofm.offers, o.ref ≠ ref) → s.ofm.offers.length < 8 →
    let q := nextCallSeq s
    let id : CallId := ⟨own s, q⟩
    let entered := fun o => withSent [.accepted ref id] { s with ofm := { s.ofm with
      offers := s.ofm.offers ++ [o], counter := nextSeq q, wrapped := s.ofm.wrapped || decide (q.val = 255) } }
    (∀ g, KnownTarget s ty v (.hunt g) → exec (.callArrival ref ty v) s = .next (withOutputs []
      (withQueued [.offer id g 0 0] (entered (arrivalRecord q ref (.hunt g))))))
    ∧ ∀ cab line, KnownTarget s ty v (.direct cab line) → exec (.callArrival ref ty v) s = .next (withOutputs []
      (withQueued [.ringAssign id cab line .direct] (entered (arrivalRecord q ref (.direct cab line)))))

/-- An accepted call whose OFFER or RING-ASSIGN finds the queue full: a notice leaves for room, which may be the new one, and is delivered to
the part's own blocks (R8, log 4). -/
def Clause.AcceptedArrivalsAtAFullQueue : Prop :=
  ∀ (ref : Word16) (ty : Byte) (v : Word16) (s t u : State), Ready s → s.clc.link = .running → ShelfRoom 1 s →
    (∀ o ∈ s.ofm.offers, o.ref ≠ ref) → s.ofm.offers.length < 8 → Delivered t u →
    let q := nextCallSeq s
    let id : CallId := ⟨own s, q⟩
    let entered := fun o => withSent [.accepted ref id] { withOutputs [] s with ofm := { s.ofm with
      offers := s.ofm.offers ++ [o], counter := nextSeq q, wrapped := s.ofm.wrapped || decide (q.val = 255) } }
    (∀ g, KnownTarget s ty v (.hunt g) → QueuedWhenFull (.offer id g 0 0) (entered (arrivalRecord q ref (.hunt g))) t →
      exec (.callArrival ref ty v) s = .next u)
    ∧ ∀ cab line, KnownTarget s ty v (.direct cab line) →
        QueuedWhenFull (.ringAssign id cab line .direct) (entered (arrivalRecord q ref (.direct cab line))) t →
        exec (.callArrival ref ty v) s = .next u

/-- The sequence value of the next call is held by no record of a table that holds 8 records or fewer, and it is the
counter's value where no record holds that. -/
def Clause.NextCallIdIsFree : Prop :=
  ∀ s : State, (s.ofm.offers.length ≤ 8 → ∀ o ∈ s.ofm.offers, o.seq ≠ nextCallSeq s)
    ∧ ((∀ o ∈ s.ofm.offers, o.seq ≠ s.ofm.counter) → nextCallSeq s = s.ofm.counter)

/-- An accepted call gets a free call id, a record and ACCEPTED, and is offered or assigned, at a full queue too (own delivery: log 4) -/
def Obligations.AcceptedArrivalsGetAFreeCallId : Prop :=
  Clause.AcceptedArrivals ∧ Clause.AcceptedArrivalsAtAFullQueue ∧ Clause.NextCallIdIsFree

/-- CALL-GONE ends the call without outcome: CANCEL if it has parties out, and an orbit that holds it is freed. A reference
that no record holds brings nothing. -/
def Clause.CallGoneEndsTheCall : Prop :=
  ∀ (o : Offer) (before after : List Offer) (s : State), Sending 1 s → OfferAt o before after s →
    (∀ x ∈ before, x.ref ≠ o.ref) →
    ((∀ n, o.state ≠ .parked n) → exec (.callGone o.ref) s = .next (withOutputs []
      (callFreed o before after (withQueued (if partiesOut o then [.cancel ⟨own s, o.seq⟩] else []) s))))
    ∧ (∀ n x, o.state = .parked n → o.assigned = none → o.ringing = [] → slotOf s (orbitSlot n) = some x →
        x.page = none → exec (.callGone o.ref) s = .next (withOutputs [] (callFreed o before after
          { s with ppu := { s.ppu with orbits := s.ppu.orbits.set (orbitSlot n) none } })))
    ∧ ∀ ref, (∀ x ∈ s.ofm.offers, x.ref ≠ ref) → exec (.callGone ref) s = .next (withOutputs [] s)

/-- CALL-GONE of a PARKED call frees its orbit with its code page, and sends no CANCEL where nobody rings. -/
def Clause.CallGoneOfAParkedCallFreesItsOrbit : Prop :=
  ∀ (o : Offer) (before after : List Offer) (n : OrbitSlot) (s t : State), Sending 1 s → OfferAt o before after s →
    (∀ x ∈ before, x.ref ≠ o.ref) → o.state = .parked (orbitNumber (own s) n) → o.assigned = none → o.ringing = [] →
    OrbitFreed n s t → exec (.callGone o.ref) s = .next (withOutputs [] (callFreed o before after t))

/-- CALL_GONE ends the call without outcome, with CANCEL where parties are out, and frees the orbit of a parked one -/
def Obligations.CallGoneEndsTheCall : Prop :=
  Clause.CallGoneEndsTheCall ∧ Clause.CallGoneOfAParkedCallFreesItsOrbit

/-- The assign timer: a DIRECT call ends with outcome BUSY and a CANCEL; a HUNT call counts the member as tried and, with
members of its span untried and nothing ringing, is offered again. A timer that does not run brings nothing (log 1). -/
def Clause.AssignTimerExpires : Prop :=
  ∀ (o : Offer) (m : Member) (before after : List Offer) (s : State), Sending 1 s → ShelfRoom 1 s →
    OfferAt o before after s → o.assigned = some m → o.state = .assigned →
    (∀ cab line, o.target = .direct cab line → o.assignTimer = true → exec (.assignTimerExpiry o.seq) s =
      .next (withOutputs [] (callFreed o before after (withSent [.callEnded o.ref ⟨own s, o.seq⟩ .busy]
        (withQueued [.cancel ⟨own s, o.seq⟩] s)))))
    ∧ (∀ g p, o.target = .hunt g → o.assignTimer = true → s.he.groups.get g = some p → o.ringing = [] →
        exhausted (addTried m.index [] o.tried) p.span = false →
        let o' := reoffered (withoutAssigned m.index o)
        exec (.assignTimerExpiry o.seq) s = .next (withOutputs []
          (withQueued [.offer ⟨own s, o.seq⟩ g o'.attempts o'.tried] (withOffers (before ++ o' :: after) s))))
    ∧ (o.assignTimer = false → exec (.assignTimerExpiry o.seq) s = .next (withOutputs [] s))

/-- A DECLINE from the assigned member: a DIRECT call ends with outcome BUSY and no CANCEL; a HUNT call is offered again as
after the assign timer. -/
def Clause.DeclineFromTheAssignedMember : Prop :=
  ∀ (src : Cabinet) (call : RawId) (line : Byte) (l : Line) (o : Offer) (m : Member) (before after : List Offer) (s : State),
    Sending 1 s → ShelfRoom 1 s → Known src s → OfferAt o before after s → codeCall call = some ⟨own s, o.seq⟩ →
    codeBelow 16 line = some l → o.state = .assigned → o.assigned = some m → m.cab = src → m.line = l → o.ringing = [] →
    (∀ cab dl, o.target = .direct cab dl → exec (.decline src call line) s = .next (withOutputs [.acknowledge true]
      (callFreed o before after (withSent [.callEnded o.ref ⟨own s, o.seq⟩ .busy] (heardFrom src s)))))
    ∧ ∀ g p, o.target = .hunt g → s.he.groups.get g = some p → exhausted (addTried m.index [] o.tried) p.span = false →
        let o' := reoffered (withoutAssigned m.index o)
        exec (.decline src call line) s = .next (withOutputs [.acknowledge true]
          (withQueued [.offer ⟨own s, o.seq⟩ g o'.attempts o'.tried] (withOffers (before ++ o' :: after) (heardFrom src s))))

/-- The assign timer of a call of a hunt group expires, in any link state, or its assigned member declines: the member is lost and counted
as tried, and the next step is decided, whoever else rings and whatever was tried. In ISOLATED and LISTEN-ONLY a call that would be
offered again ends (R65). -/
def Clause.AssignWaitMakesTheNextStep : Prop :=
  ∀ (o : Offer) (before after : List Offer) (m : Member) (g : HuntGroup) (s t u : State), Ready s →
    OfferAt o before after s → o.target = .hunt g → o.state = .assigned → o.assigned = some m → Delivered t u →
    let id : CallId := ⟨own s, o.seq⟩
    let left := withoutAssigned m.index o
    let kept := withOffers (before ++ left :: after)
    (o.assignTimer = true → NextStep left before after (kept (withOutputs [] s)) t → exec (.assignTimerExpiry o.seq) s = .next u)
    ∧ ∀ src call line, s.clc.link = .running → m.cab = src → Known src s → codeCall call = some id → codeBelow 16 line = some m.line →
        NextStep left before after (kept (withOutputs [.acknowledge true] (heardFrom src s))) t →
        exec (.decline src call line) s = .next u

/-- The assign timer and a DECLINE end the wait for the assigned member, and the next step follows (a stopped timer: log 1) -/
def Obligations.AssignedMemberFails : Prop :=
  Clause.AssignTimerExpires ∧ Clause.DeclineFromTheAssignedMember ∧ Clause.AssignWaitMakesTheNextStep

/-- A RING-STARTED from the assigned member: the record becomes RINGING with the member in its ringing set and out of the
tried set, its queue standing removed, and the ring view gets the entry. A DIRECT record's member has no order index. -/
def Clause.RingStartedFromTheAssignedMember : Prop :=
  ∀ (src : Cabinet) (call : RawId) (line index pickup : Byte) (l : Line) (i : Option OrderIndex) (g : Option PickupGroup)
    (o : Offer) (m : Member) (before after : List Offer) (s : State),
    Sending 1 s → Known src s → OfferAt o before after s → codeCall call = some ⟨own s, o.seq⟩ →
    codeBelow 16 line = some l → codeOrNone 32 index = some i → codeOrNone 16 pickup = some g →
    o.state = .assigned → o.assigned = some m → m.cab = src → m.line = l → o.ringing = [] →
    (∀ e ∈ s.ppu.view, ¬ (e.call = ⟨own s, o.seq⟩ ∧ e.cab = src ∧ e.line = l)) → s.ppu.view.length < viewCapacity →
    let index' := if isDirect o then none else i
    let o' := { o with
      state := .ringing, window := none, assigned := none, assignTimer := false, ringing := [⟨src, l, index'⟩]
      tried := match index' with
        | some i => eraseIndex i o.tried
        | none => o.tried }
    exec (.ringStarted src call line index pickup) s = .next (withOutputs [.acknowledge true]
      (withRinging ⟨⟨own s, o.seq⟩, src, l, g, false⟩ (withOffers (before ++ o' :: after)
        (withoutStanding o.seq (heardFrom src s)))))

/-- A RING-STARTED at every other standing of the call. OFFERING and RINGING keep their state, WAITING becomes RINGING and leaves its
queue, and ASSIGNED to another member stays ASSIGNED: the member joins the ringing set and its order index leaves the tried set. A full
ringing set takes no entry, and the state stays (log 13). -/
def Clause.RingStartedAtEveryOtherState : Prop :=
  ∀ (src : Cabinet) (call : RawId) (line index pickup : Byte) (l : Line) (i : Option OrderIndex) (g : Option PickupGroup)
    (o : Offer) (before after : List Offer) (s : State),
    Sending 1 s → Known src s → OfferAt o before after s → codeCall call = some ⟨own s, o.seq⟩ →
    codeBelow 16 line = some l → codeOrNone 32 index = some i → codeOrNone 16 pickup = some g →
    (∀ e ∈ s.ppu.view, ¬ (e.call = ⟨own s, o.seq⟩ ∧ e.cab = src ∧ e.line = l)) → s.ppu.view.length < viewCapacity →
    (∀ x ∈ o.ringing, ¬ (x.cab = src ∧ x.line = l)) → (∀ n, o.state ≠ .parked n) →
    let m : Member := ⟨src, l, if isDirect o then none else i⟩
    let erased := { o with tried := match m.index with
      | some i => eraseIndex i o.tried
      | none => o.tried }
    let becomes := fun o' t => exec (.ringStarted src call line index pickup) s = .next (withOutputs [.acknowledge true]
      (withRinging ⟨⟨own s, o.seq⟩, src, l, g, false⟩ (withOffers (before ++ o' :: after) t)))
    let joined := { erased with ringing := o.ringing ++ [m] }
    (o.ringing.length < 16 →
      ((o.state = .offering ∨ o.state = .ringing
          ∨ (o.state = .assigned ∧ ∀ a, o.assigned = some a → ¬ (a.cab = src ∧ a.line = l))) →
        becomes joined (heardFrom src s))
      ∧ (∀ w, o.state = .waiting w →
        becomes { joined with state := .ringing, window := none } (withoutStanding o.seq (heardFrom src s))))
    ∧ (16 ≤ o.ringing.length → becomes erased (heardFrom src s))

/-- A RING-STARTED for a PARKED call, or for one that no record holds, is answered by CANCEL; one for another owner's call concerns the
ring view alone, where an entry that stands already is not doubled and a full view raises VIEW-OVERFLOW. -/
def Clause.RingStartedWithoutARecord : Prop :=
  ∀ (src : Cabinet) (call : RawId) (line index pickup : Byte) (c : CallId) (l : Line) (i : Option OrderIndex)
    (g : Option PickupGroup) (s : State), Sending 1 s → Known src s → codeCall call = some c → codeBelow 16 line = some l →
    codeOrNone 32 index = some i → codeOrNone 16 pickup = some g →
    let stands := ∃ e ∈ s.ppu.view, e.call = c ∧ e.cab = src ∧ e.line = l
    let becomes := fun t => exec (.ringStarted src call line index pickup) s = .next (withOutputs [.acknowledge true] t)
    let cancelled := withQueued [.cancel c] (heardFrom src s)
    (¬ stands → s.ppu.view.length < viewCapacity →
      ((c.cab = own s ∧ ((∀ o ∈ s.ofm.offers, o.seq ≠ c.seq)
          ∨ ∃ o before after n, OfferAt o before after s ∧ o.seq = c.seq ∧ o.state = .parked n)) →
        becomes (withRinging ⟨c, src, l, g, false⟩ cancelled))
      ∧ (c.cab ≠ own s → becomes (withRinging ⟨c, src, l, g, false⟩ (heardFrom src s))))
    ∧ (c.cab ≠ own s → stands → becomes (heardFrom src s))
    ∧ (c.cab ≠ own s → ¬ stands → viewCapacity ≤ s.ppu.view.length →
      becomes (raise .viewOverflow (100 + 16 * src.val + l.val) .ppu (heardFrom src s)))

/-- RING_STARTED from the assigned member, at every other standing of the call (full ringing set: log 13), and with no record -/
def Obligations.RingStartedFromTheAssignedMember : Prop :=
  Clause.RingStartedFromTheAssignedMember ∧ Clause.RingStartedAtEveryOtherState ∧ Clause.RingStartedWithoutARecord

/-- A NO-ANSWER, or a RING-ENDED with reason NO-ANSWER, OWNER-SILENT or CLEARED, from the only ringing member of a DIRECT
call ends it with outcome NO-ANSWER and no CANCEL; a HUNT call with another member ringing counts the member as tried. A
RING-ENDED with another reason only leaves the ring view. -/
def Clause.RingingMemberIsLost : Prop :=
  ∀ (src : Cabinet) (call : RawId) (line reason : Byte) (l : Line) (r : RingEndReason) (o : Offer) (m : Member)
    (before after : List Offer) (s : State),
    Sending 1 s → ShelfRoom 1 s → Known src s → OfferAt o before after s → codeCall call = some ⟨own s, o.seq⟩ →
    codeBelow 16 line = some l → codeRingEnd reason = some r → o.state = .ringing → o.assigned = none →
    m.cab = src → m.line = l →
    let unseen := { heardFrom src s with ppu := { s.ppu with
      view := s.ppu.view.filter fun e => !decide (e.call = ⟨own s, o.seq⟩ ∧ e.cab = src ∧ e.line = l) } }
    let ended := fun t => callFreed o before after (withSent [.callEnded o.ref ⟨own s, o.seq⟩ .noAnswer] t)
    (∀ cab dl, o.target = .direct cab dl → o.ringing = [m] →
      exec (.noAnswer src call line) s = .next (withOutputs [.acknowledge true] (ended (heardFrom src s)))
      ∧ (lossReason r = true →
          exec (.ringEnded src call line reason) s = .next (withOutputs [.acknowledge true] (ended unseen))))
    ∧ (∀ g x, o.target = .hunt g → o.ringing = [m, x] → ¬ (x.cab = src ∧ x.line = l) →
        let o' := { o with ringing := [x], tried := addTried m.index [x] o.tried }
        exec (.noAnswer src call line) s =
          .next (withOutputs [.acknowledge true] (withOffers (before ++ o' :: after) (heardFrom src s))))
    ∧ (lossReason r = false → exec (.ringEnded src call line reason) s = .next (withOutputs [.acknowledge true] unseen))

/-- Losses of an ASSIGNED call, nobody else ringing. From the assigned member a NO-ANSWER ends a DIRECT call with outcome NO-ANSWER and
no CANCEL, and makes a HUNT call go on to its next round. From a ringing member that is not the assigned one the call stays ASSIGNED
(for a DIRECT one: the model's reading, log 34); a HUNT call counts it as tried. -/
def Clause.MemberOfAnAssignedCallIsLost : Prop :=
  ∀ (src : Cabinet) (call : RawId) (line : Byte) (l : Line) (o : Offer) (m a : Member) (before after : List Offer) (s : State),
    Sending 1 s → ShelfRoom 1 s → Known src s → OfferAt o before after s → codeCall call = some ⟨own s, o.seq⟩ →
    codeBelow 16 line = some l → o.state = .assigned → o.assigned = some a → m.cab = src → m.line = l →
    let kept := fun o' => exec (.noAnswer src call line) s =
      .next (withOutputs [.acknowledge true] (withOffers (before ++ o' :: after) (heardFrom src s)))
    (∀ cab dl, o.target = .direct cab dl → a = m → o.ringing = [] → exec (.noAnswer src call line) s =
      .next (withOutputs [.acknowledge true]
        (callFreed o before after (withSent [.callEnded o.ref ⟨own s, o.seq⟩ .noAnswer] (heardFrom src s)))))
    ∧ (∀ g p, o.target = .hunt g → s.he.groups.get g = some p → a = m → o.ringing = [] →
        exhausted (addTried a.index [] o.tried) p.span = false →
        let o' := reoffered (withoutAssigned a.index o)
        exec (.noAnswer src call line) s = .next (withOutputs [.acknowledge true]
          (withQueued [.offer ⟨own s, o.seq⟩ g o'.attempts o'.tried] (withOffers (before ++ o' :: after) (heardFrom src s)))))
    ∧ (∀ cab dl, o.target = .direct cab dl → ¬ (a.cab = src ∧ a.line = l) → o.ringing = [m] → kept { o with ringing := [] })
    ∧ (∀ g, o.target = .hunt g → ¬ (a.cab = src ∧ a.line = l) → o.ringing = [m] →
        kept { o with ringing := [], tried := addTried m.index [] o.tried })

/-- A NO-ANSWER of a member, or a RING-ENDED with a reason of loss: the member leaves the record, which goes on or ends as RecordLoses says,
and with a RING-ENDED its entry leaves the ring view (a DIRECT record that loses a member beside its assigned one: log 34). -/
def Clause.LostMemberMakesTheNextStep : Prop :=
  ∀ (src : Cabinet) (call : RawId) (line : Byte) (l : Line) (q : Seq) (s t u : State), Ready s → s.clc.link = .running →
    Known src s → codeCall call = some ⟨own s, q⟩ → codeBelow 16 line = some l →
    RecordLoses (atLine src l) q (withOutputs [.acknowledge true] (heardFrom src s)) t →
    (Delivered t u → exec (.noAnswer src call line) s = .next u)
    ∧ ∀ reason r, codeRingEnd reason = some r → lossReason r = true →
        Delivered { t with ppu := { t.ppu with
          view := t.ppu.view.filter fun e => !decide (e.call = ⟨own s, q⟩ ∧ e.cab = src ∧ e.line = l) } } u →
        exec (.ringEnded src call line reason) s = .next u

/-- NO_ANSWER and RING_ENDED from a ringing or assigned member (a DIRECT call that loses another than its assigned member: log 34) -/
def Obligations.RingingMemberIsLost : Prop :=
  Clause.RingingMemberIsLost ∧ Clause.MemberOfAnAssignedCallIsLost ∧ Clause.LostMemberMakesTheNextStep

/-- An ANSWERED for a record that is not parked connects the call to the answering line: CONNECTED with the answer's order
index, CONNECT to the shelf, and the record goes. With no record a CANCEL is queued. -/
def Clause.AnswerConnectsTheCall : Prop :=
  ∀ (src : Cabinet) (call : RawId) (line index : Byte) (l : Line) (i : Option OrderIndex) (s : State),
    Sending 1 s → ShelfRoom 1 s → Known src s → codeBelow 16 line = some l → codeOrNone 32 index = some i →
    (∀ (o : Offer) (before after : List Offer), OfferAt o before after s → codeCall call = some ⟨own s, o.seq⟩ →
      (∀ n, o.state ≠ .parked n) → exec (.answered src call line index) s = .next (withOutputs [.acknowledge true]
        (callFreed o before after (withSent [.connect o.ref ⟨own s, o.seq⟩ src l]
          (withQueued [.connected ⟨own s, o.seq⟩ src l (targetGroup o.target) i] (heardFrom src s))))))
    ∧ ∀ q, codeCall call = some ⟨own s, q⟩ → (∀ o ∈ s.ofm.offers, o.seq ≠ q) →
        exec (.answered src call line index) s = .next (withOutputs [.acknowledge true]
          (withQueued [.cancel ⟨own s, q⟩] (heardFrom src s)))

/-- An ANSWERED for a PARKED record connects the call as well, and its orbit is freed with its code page. -/
def Clause.AnswerOfAParkedCallFreesItsOrbit : Prop :=
  ∀ (src : Cabinet) (call : RawId) (line index : Byte) (l : Line) (i : Option OrderIndex) (n : OrbitSlot) (o : Offer)
    (before after : List Offer) (s t : State), Sending 2 s → ShelfRoom 1 s → Known src s → codeBelow 16 line = some l →
    codeOrNone 32 index = some i → OfferAt o before after s → codeCall call = some ⟨own s, o.seq⟩ →
    o.state = .parked (orbitNumber (own s) n) →
    OrbitFreed n (withQueued [.connected ⟨own s, o.seq⟩ src l (targetGroup o.target) i] (heardFrom src s)) t →
    exec (.answered src call line index) s = .next (withOutputs [.acknowledge true]
      (callFreed o before after (withSent [.connect o.ref ⟨own s, o.seq⟩ src l] t)))

/-- ANSWERED connects the call, a parked one too, whose orbit it frees; with no record a CANCEL answers it -/
def Obligations.AnswerConnectsTheCall : Prop :=
  Clause.AnswerConnectsTheCall ∧ Clause.AnswerOfAParkedCallFreesItsOrbit

/-- A heard CLAIM by call id: it wins on an ASSIGNED or RINGING record and is refused TOO-LATE on any other, and with no
record TAKEN or UNKNOWN by whether the value has been issued. A CLAIM of an empty orbit is refused EMPTY. The claimer is the one
the payload names, whatever the source (log 22). -/
def Clause.ClaimsAreDecidedByTheOwner : Prop :=
  ∀ (src : Cabinet) (b : RawClaim) (cab : Cabinet) (l : Line) (q : Seq) (s : State),
    Sending 1 s → ShelfRoom 1 s → Known src s → codeBelow 16 b.cab = some cab → codeBelow 16 b.line = some l →
    let id : CallId := ⟨own s, q⟩
    let refusedWith := fun r => exec (.claim src b) s = .next (withOutputs [.acknowledge true]
      (withQueued [.refused (.call id) cab l r] (withMark id (heardFrom src s))))
    (codeClaim b = some (.call id) →
      (∀ (o : Offer) (before after : List Offer), OfferAt o before after s → o.seq = q →
        ((o.state = .assigned ∨ o.state = .ringing) → exec (.claim src b) s = .next (withOutputs [.acknowledge true]
          (callFreed o before after (withSent [.connect o.ref id cab l]
            (withQueued [.connected id cab l (targetGroup o.target) none] (withMark id (heardFrom src s)))))))
        ∧ (o.state ≠ .assigned → o.state ≠ .ringing → refusedWith .tooLate))
      ∧ ((∀ o ∈ s.ofm.offers, o.seq ≠ q) → (s.ofm.wrapped = true ∨ q < s.ofm.counter) → refusedWith .taken)
      ∧ ((∀ o ∈ s.ofm.offers, o.seq ≠ q) → s.ofm.wrapped = false → ¬ q < s.ofm.counter → refusedWith .unknown))
    ∧ ∀ n, codeClaim b = some (.orbit n) → n.val / 4 = (own s).val → slotOf s (orbitSlot n) = none →
        exec (.claim src b) s = .next (withOutputs [.acknowledge true]
          (withQueued [.refused (.orbit n) cab l .empty] (heardFrom src s)))

/-- A heard CLAIM of an orbit of the part that holds a call connects the call to the claimer: CONNECTED with no order index, CONNECT
to the shelf, the orbit free, a PAGE-END for its code page on the air, and the record gone. The claimer is the payload's (log 22). -/
def Clause.ClaimOfAnOrbitRetrievesTheCall : Prop :=
  ∀ (src : Cabinet) (b : RawClaim) (cab : Cabinet) (l : Line) (i : OrbitSlot) (x : Orbit) (o : Offer)
    (before after : List Offer) (s : State), Sending 2 s → ShelfRoom 1 s → Known src s → codeBelow 16 b.cab = some cab →
    codeBelow 16 b.line = some l → codeClaim b = some (.orbit (orbitNumber (own s) i)) → slotOf s i = some x →
    OfferAt o before after s → x.call = o.seq → o.state = .parked (orbitNumber (own s) i) →
    let id : CallId := ⟨own s, o.seq⟩
    let retrieved := fun ns t => exec (.claim src b) s = .next (withOutputs [.acknowledge true]
      (callFreed o before after (withSlot i none (withSent [.connect o.ref id cab l]
        (withQueued (.connected id cab l (targetGroup o.target) none :: ns) t)))))
    (x.page = none → retrieved [] (heardFrom src s))
    ∧ ∀ (r : PageRec) (p q : List PageRec), x.page = some ⟨own s, r.seq⟩ → PageAt r p q s → r.state = .onAir → r.cls = .code →
        r.origin = .orbit (orbitNumber (own s) i) →
        retrieved [.pageEnd ⟨own s, r.seq⟩ .code .ended] (withPages (p ++ q) (heardFrom src s))

/-- A CLAIM by call id or orbit, decided by the state of the record for the claimer its payload names (log 22) -/
def Obligations.ClaimsAreDecidedByTheOwner : Prop :=
  Clause.ClaimsAreDecidedByTheOwner ∧ Clause.ClaimOfAnOrbitRetrievesTheCall

/-- A CONNECTED heard for a pending line: TALKING with the notice's group and index when it names the line, else LOST and
BUSY; the rotation pointer of the group it names takes the index it names. -/
def Clause.ConnectedResolvesAPendingLine : Prop :=
  ∀ (src : Cabinet) (call : RawId) (cab line group index : Byte) (c : CallId) (cb : Cabinet) (l n : Line) (g : HuntGroup)
    (i : OrderIndex) (v : Verdict) (s : State),
    Sending 1 s → Known src s → codeCall call = some c → codeBelow 16 cab = some cb → codeBelow 16 line = some n →
    codeOrNone 16 group = some (some g) → codeOrNone 32 index = some (some i) → (lineOf s l).verdict = some v →
    v.target = .call c → OnlyParty l c s → (cb = own s → n = l) →
    let rotated := { heardFrom src s with he := { s.he with rotation := s.he.rotation.set g i } }
    (cb = own s → exec (.connected src call cab line group index) s =
      .next (withOutputs [.acknowledge true, .tone l .none] (callForgotten c (withLine l { lineOf s l with
        state := .talking, call := some ⟨c, none, some g, some i⟩, verdict := none, tone := .none } rotated))))
    ∧ (cb ≠ own s → exec (.connected src call cab line group index) s =
      .next (withOutputs [.acknowledge true, .tone l .lost] (callForgotten c (withLine l { lineOf s l with
        state := .busy, call := none, verdict := none, tone := .lost } rotated))))

/-- A CONNECTED heard for a line that awaits the verdict of a retrieve, whichever call it names: TALKING, with the notice's call, group
and index. -/
def Clause.ConnectedResolvesARetrieve : Prop :=
  ∀ (src : Cabinet) (call : RawId) (cab line group index : Byte) (c : CallId) (l : Line) (g : Option HuntGroup)
    (i : Option OrderIndex) (v : Verdict) (o : OrbitNumber) (s : State),
    Sending 1 s → Known src s → codeCall call = some c → codeBelow 16 cab = some (own s) → codeBelow 16 line = some l →
    codeOrNone 16 group = some g → codeOrNone 32 index = some i → (g = none ∨ i = none) → (lineOf s l).verdict = some v →
    v.target = .orbit o → OnlyParty l c s →
    exec (.connected src call cab line group index) s = .next (withOutputs [.acknowledge true, .tone l .none]
      (callForgotten c (withLine l { lineOf s l with
        state := .talking, call := some ⟨c, none, g, i⟩, verdict := none, tone := .none } (heardFrom src s))))

/-- A CONNECTED heard that names a line of another cabinet stops the line that rings for the call: IDLE, ring OFF, RING-ENDED with
reason CONNECTED, announced for the groups it is available for again. -/
def Clause.ConnectedStopsARingingLine : Prop :=
  ∀ (src : Cabinet) (call : RawId) (cab line group index : Byte) (c : LineCall) (cb : Cabinet) (l n : Line)
    (g : Option HuntGroup) (i : Option OrderIndex) (s : State),
    Sending 2 s → Known src s → codeCall call = some c.call → codeBelow 16 cab = some cb → cb ≠ own s →
    codeBelow 16 line = some n → codeOrNone 16 group = some g → codeOrNone 32 index = some i → (g = none ∨ i = none) →
    (lineOf s l).state = .ringing → (lineOf s l).call = some c → (lineOf s l).verdict = none → OnlyParty l c.call s →
    let r := { lineOf s l with
      state := .idle, call := none, cadenceAt := none, noAnswer := none, ring := false, tone := .none }
    exec (.connected src call cab line group index) s = .next (withOutputs [.acknowledge true, .ring l false, .tone l .none]
      (withQueued (.ringEnded c.call l .connected :: newlyAvailable (lineOf s l) r)
        (callForgotten c.call (withLine l (refreshed r) (heardFrom src s)))))

/-- A late CONNECTED: it names a line of the part that awaits no verdict, or one on another call. The line stays as it is, and the shelf
is told LINE-ON-HOOK with the notice's call id. -/
def Clause.LateVerdictReleasesTheShelfsPath : Prop :=
  ∀ (src : Cabinet) (call : RawId) (cab line group index : Byte) (c : CallId) (l : Line) (g : Option HuntGroup)
    (i : Option OrderIndex) (s : State),
    Sending 1 s → ShelfRoom 1 s → Known src s → codeCall call = some c → codeBelow 16 cab = some (own s) →
    codeBelow 16 line = some l → codeOrNone 16 group = some g → codeOrNone 32 index = some i → (g = none ∨ i = none) →
    ((lineOf s l).verdict = none ∨ ∃ v d, (lineOf s l).verdict = some v ∧ v.target = .call d ∧ d ≠ c) → OnlyParty l c s →
    exec (.connected src call cab line group index) s = .next (withOutputs [.acknowledge true]
      (withSent [.lineOnHook l (some c)] (callForgotten c (heardFrom src s))))

/-- A REFUSED naming a pending line of the part as claimer, whatever its reason (log 10), and a CANCEL for the call it awaits, resolve
it as LOST. -/
def Clause.RefusedAndCancelResolveAsLost : Prop :=
  ∀ (src : Cabinet) (b : RawClaim) (call : RawId) (reason : Byte) (c : CallId) (l : Line) (v : Verdict)
    (s : State), Sending 1 s → Known src s → (lineOf s l).verdict = some v →
    let lost := withLine l { lineOf s l with state := .busy, call := none, verdict := none, tone := .lost } (heardFrom src s)
    (codeClaim b = some v.target → codeBelow 16 b.cab = some (own s) → codeBelow 16 b.line = some l →
      exec (.refused src b reason) s = .next (withOutputs [.acknowledge true, .tone l .lost] lost))
    ∧ (codeCall call = some c → v.target = .call c → OnlyParty l c s →
      exec (.cancel src call) s = .next (withOutputs [.acknowledge true, .tone l .lost] (callForgotten c lost)))

/-- A CANCEL stops the line that rings for the call: IDLE, ring OFF, RING-ENDED with reason CANCELLED. -/
def Clause.CancelStopsARingingLine : Prop :=
  ∀ (src : Cabinet) (call : RawId) (c : LineCall) (l : Line) (s : State), Sending 2 s → Known src s →
    codeCall call = some c.call → (lineOf s l).state = .ringing → (lineOf s l).call = some c → (lineOf s l).verdict = none →
    OnlyParty l c.call s →
    let r := { lineOf s l with
      state := .idle, call := none, cadenceAt := none, noAnswer := none, ring := false, tone := .none }
    exec (.cancel src call) s = .next (withOutputs [.acknowledge true, .ring l false, .tone l .none]
      (withQueued (.ringEnded c.call l .cancelled :: newlyAvailable (lineOf s l) r)
        (callForgotten c.call (withLine l (refreshed r) (heardFrom src s)))))

/-- CONNECTED, REFUSED (any reason: log 10) and CANCEL at a pending, retrieving or ringing line, and the late verdict -/
def Obligations.VerdictsReachTheLine : Prop :=
  Clause.ConnectedResolvesAPendingLine
    ∧ Clause.ConnectedResolvesARetrieve
    ∧ Clause.ConnectedStopsARingingLine
    ∧ Clause.LateVerdictReleasesTheShelfsPath
    ∧ Clause.RefusedAndCancelResolveAsLost
    ∧ Clause.CancelStopsARingingLine

/-! ### Hunt groups (chapter 4) -/

/-- An OFFER for a call not heard before enters the heard-offer list; the best candidate of a group that is not SIMULTANEOUS
is reserved and bids with its key, and with no candidate nothing more happens. -/
def Clause.OfferIsAnsweredByTheBestCandidate : Prop :=
  ∀ (src : Cabinet) (call : RawId) (group attempt : Byte) (tried : BitVec 32) (c : CallId) (g : HuntGroup) (s : State),
    Sending 1 s → Known src s → codeCall call = some c → codeBelow 16 group = some g → s.he.heard.length < heardCapacity →
    (∀ e ∈ s.he.heard, e.call ≠ c) → (∀ l v, (lineOf s l).reserved = some v → v.call ≠ c) →
    disciplineOf s g ≠ .simultaneous →
    ((∀ l i, ¬ Candidacy s g tried l i) → exec (.offer src call group attempt tried) s =
      .next (withOutputs [.acknowledge true] (withHeard c g (heardFrom src s))))
    ∧ ∀ (l : Line) (i : OrderIndex) (k : BidKey), Candidacy s g tried l i → KeyOf s g l i k →
        (∀ m j k', Candidacy s g tried m j → m ≠ l → KeyOf s g m j k' → Before k i l k' j m) →
        exec (.offer src call group attempt tried) s = .next (withOutputs [.acknowledge true] (withQueued [.bid c l i k]
          (withLine l { lineOf s l with reserved := some ⟨c, g⟩, available := 0 }
            { withHeard c g (heardFrom src s) with he := { (withHeard c g s).he with
                bids := s.he.bids ++ [⟨c, l, i, k, .queued, true, false⟩] } })))

/-- An OFFER for a SIMULTANEOUS group rings every candidate with HUNT cadence, in order of line number, each with its
RING-STARTED; no line bids, and no other line changes. -/
def Clause.SimultaneousOfferRingsEveryCandidate : Prop :=
  ∀ (src : Cabinet) (call : RawId) (group attempt : Byte) (tried : BitVec 32) (c : CallId) (g : HuntGroup) (s : State),
    Sending 16 s → Known src s → codeCall call = some c → codeBelow 16 group = some g →
    (∀ l v, (lineOf s l).reserved = some v → v.call ≠ c) → disciplineOf s g = .simultaneous →
    ∃ t, exec (.offer src call group attempt tried) s = .next t ∧ t.he.bids = s.he.bids
      ∧ (∀ l i, Candidacy s g tried l i → lineOf t l = ringingRecord s c .hunt (some g) (lineOf s l))
      ∧ (∀ l, (∀ i, ¬ Candidacy s g tried l i) → lineOf t l = lineOf s l)
      ∧ t.clc.queue = s.clc.queue ++ (candidates s g tried).map fun x =>
          newEntry (own s) (.ringStarted c x.line (some x.index) (lineOf s x.line).pickup)

/-- An OFFER heard: the best candidate bids, or every candidate of a SIMULTANEOUS group rings -/
def Obligations.OfferIsBidForOrRung : Prop :=
  Clause.OfferIsAnsweredByTheBestCandidate ∧ Clause.SimultaneousOfferRingsEveryCandidate

/-- A better BID of another cabinet for a call of a third one, or the send limit, makes a queued bid withdraw, its BID not
being in an attempt: the reservation ends. A BID that is not better leaves it, and so does a send limit that does not run (log 1). -/
def Obligations.QueuedBidsAreWithdrawn : Prop :=
  ∀ (src : Cabinet) (key : BidKey) (call : RawId) (line index : Byte) (pk : Word16) (c : CallId) (l n : Line)
    (i : Option OrderIndex) (g : HuntGroup) (b : BidEntry) (s : State),
    Sending 1 s → Known src s → codeCall call = some c → codeBelow 16 line = some n → codeOrNone 32 index = some i →
    c.cab ≠ own s → bidOf s c = some b → (lineOf s l).reserved = some ⟨c, g⟩ →
    (∀ m v, m ≠ l → (lineOf s m).reserved = some v → v.call ≠ c) → (∀ x ∈ s.clc.queue, x.inAttempt = false) →
    (b.standing = .queued → key.val * 16 + src.val < b.key.val * 16 + (own s).val →
      exec (.bid src key call line index pk) s = .next (withOutputs [.acknowledge true] (released l c (heardFrom src s))))
    ∧ ((b.standing = .sent ∨ b.key.val * 16 + (own s).val ≤ key.val * 16 + src.val) →
      exec (.bid src key call line index pk) s = .next (withOutputs [.acknowledge true] (heardFrom src s)))
    ∧ (b.limit = true → exec (.sendLimitExpiry c) s = .next (withOutputs [] (released l c s)))
    ∧ (b.limit = false → exec (.sendLimitExpiry c) s = .next (withOutputs [] s))

/-- A RING-ASSIGN that names a line of the part makes it ring: DIRECT at an idle line; HUNT or RECALL with its reservation, in the
reservation's group (log 12), or without one in the heard offer's group, where the line is available for it. One that the line does not
accept is answered by DECLINE. -/
def Obligations.RingAssignRingsOrIsDeclined : Prop :=
  ∀ (src : Cabinet) (call : RawId) (cab line cadence : Byte) (c : CallId) (l : Line) (cad : Cadence) (s : State),
    Sending 1 s → Known src s → codeCall call = some c → codeBelow 16 cab = some (own s) → codeBelow 16 line = some l →
    codeCadence cadence = some cad → (∀ m v, m ≠ l → (lineOf s m).reserved = some v → v.call ≠ c) →
    ringsFor (lineOf s l) c = false →
    (∀ g, (cad = .direct ∧ g = none ∧ (lineOf s l).inService = true ∧ (lineOf s l).state = .idle ∧ (lineOf s l).dnd = false
          ∧ (lineOf s l).reserved = none)
        ∨ (cad ≠ .direct ∧ ∃ h, g = some h ∧ (lineOf s l).reserved = some ⟨c, h⟩)
        ∨ (cad ≠ .direct ∧ ∃ h, g = some h ∧ (lineOf s l).reserved = none ∧ heardGroup s c = some h
            ∧ isAvailable (lineOf s l) h = true) →
      s.ppu.view.length < viewCapacity → (∀ e ∈ s.ppu.view, ¬ (e.call = c ∧ e.cab = own s ∧ e.line = l)) →
      exec (.ringAssign src call cab line cadence) s = .next (withOutputs [.acknowledge true, .ring l true]
        (withRinging ⟨c, own s, l, (lineOf s l).pickup, false⟩
          (withQueued [.ringStarted c l (g.bind (indexIn (lineOf s l).memberships)) (lineOf s l).pickup]
            (withoutBid c (withLine l (ringingRecord s c cad g (lineOf s l)) (heardFrom src s)))))))
    ∧ ((lineOf s l).reserved = none → ((lineOf s l).state ≠ .idle ∨ (lineOf s l).dnd = true ∨ (lineOf s l).inService = false) →
      exec (.ringAssign src call cab line cadence) s = .next (withOutputs [.acknowledge true]
        (withQueued [.decline c l] (withoutBid c (heardFrom src s)))))

/-- A BID for an open window enters the bid list, or takes the place of its cabinet's entry; one with a tried order index,
or without an open window, is ignored. One with no order index, code 255, is entered (log 27). -/
def Clause.BidsEnterAnOpenWindow : Prop :=
  ∀ (src : Cabinet) (key : BidKey) (call : RawId) (line index : Byte) (pk : Word16) (l : Line) (i : Option OrderIndex)
    (o : Offer) (before after : List Offer) (s : State),
    Sending 0 s → Known src s → OfferAt o before after s → codeCall call = some ⟨own s, o.seq⟩ →
    codeBelow 16 line = some l → codeOrNone 32 index = some i → bidOf s ⟨own s, o.seq⟩ = none →
    let b : WindowBid := ⟨src, l, i, 8192 + key.val * 16 + src.val⟩
    let entered := fun w => exec (.bid src key call line index pk) s = .next (withOutputs [.acknowledge true]
      (withOffers (before ++ { o with window := some w } :: after) (heardFrom src s)))
    (∀ w, o.window = some w → (∀ j, i = some j → hasIndex o.tried j = false) →
      ((∀ x ∈ w, x.cab ≠ src) → entered (w ++ [b]))
      ∧ (∀ p q x, w = p ++ x :: q → x.cab = src → (∀ y ∈ p ++ q, y.cab ≠ src) → entered (p ++ b :: q)))
    ∧ ((o.window = none ∨ ∃ j, i = some j ∧ hasIndex o.tried j = true) → exec (.bid src key call line index pk) s =
      .next (withOutputs [.acknowledge true] (heardFrom src s)))

/-- The bid window closes: with a member ringing the record becomes RINGING; else the bid with the lowest field, the first
among equals, is assigned and its RING-ASSIGN queued, RECALL once the call has been parked. -/
def Clause.WindowCloseAssignsTheLowestBid : Prop :=
  ∀ (o : Offer) (before after : List Offer) (w : List WindowBid) (s : State), Sending 1 s → OfferAt o before after s →
    o.window = some w →
    (o.ringing ≠ [] → exec (.bidWindowClose o.seq) s = .next (withOutputs []
      (withOffers (before ++ { o with state := .ringing, window := none } :: after) (withoutStanding o.seq s))))
    ∧ ∀ p q b, w = p ++ b :: q → (∀ x ∈ p, b.field < x.field) → (∀ x ∈ q, b.field ≤ x.field) → o.ringing = [] →
        exec (.bidWindowClose o.seq) s = .next (withOutputs []
          (withQueued [.ringAssign ⟨own s, o.seq⟩ b.cab b.line (if o.parkDone then .recall else .hunt)]
            (withOffers (before ++ { o with
              state := .assigned, assigned := some ⟨b.cab, b.line, b.index⟩, assignTimer := false, window := none } :: after)
              s)))

/-- Bids enter an open window (a BID with no order index too: log 27), and its close assigns the lowest -/
def Obligations.BidWindowAssignsTheLowestBid : Prop :=
  Clause.BidsEnterAnOpenWindow ∧ Clause.WindowCloseAssignsTheLowestBid

/-- A window that closes with no bid and nothing ringing takes the group's overflow action: RECYCLE waits out the pause, QUEUE
takes a place at the end of the queue, FORWARD offers the call to the next group, and FORWARD at depth 2 or to a group without an entry
ends it. QUEUE with the queue flag off, and PARK of a call that has been parked or while no slot is free, are RECYCLE. -/
def Clause.OverflowFollowsTheGroupsAction : Prop :=
  ∀ (o : Offer) (before after : List Offer) (g : HuntGroup) (p : GroupParams) (s : State), Sending 1 s → ShelfRoom 1 s →
    OfferAt o before after s → o.window = some [] → o.state = .offering → o.ringing = [] → o.target = .hunt g →
    s.he.groups.get g = some p → (∀ x ∈ s.he.queue, x.call ≠ o.seq) →
    let waiting := fun r t => exec (.bidWindowClose o.seq) s = .next (withOutputs []
      (withOffers (before ++ { o with state := .waiting r, window := none } :: after) t))
    ((p.overflow = .recycle ∨ (p.overflow = .queue ∧ p.queueFlag = false)
        ∨ (p.overflow = .park ∧ (o.parkDone = true ∨ ∀ i, (slotOf s i).isSome = true))) → waiting .recyclePause s)
    ∧ (p.overflow = .queue → p.queueFlag = true →
        waiting .queued { s with he := { s.he with queue := s.he.queue ++ [⟨o.seq, g, false⟩] } })
    ∧ (p.overflow = .forward → o.depth < 2 → (s.he.groups.get p.forward).isSome = true →
        let o' := reoffered { o with depth := o.depth + 1, target := .hunt p.forward, tried := 0 }
        exec (.bidWindowClose o.seq) s = .next (withOutputs []
          (withQueued [.offer ⟨own s, o.seq⟩ p.forward o'.attempts 0] (withOffers (before ++ o' :: after) s))))
    ∧ (p.overflow = .forward → (2 ≤ o.depth ∨ s.he.groups.get p.forward = none) → exec (.bidWindowClose o.seq) s = .next (withOutputs []
        (callFreed o before after (withSent [.callEnded o.ref ⟨own s, o.seq⟩ .unanswered]
          (withQueued [.cancel ⟨own s, o.seq⟩] s)))))

/-- PARK as overflow action: the lowest free slot holds the call with its timers running, the record is PARKED, and a CODE
page for the group's park paging group is announced under the next page id; with six pages of lines and orbits in the table it is
refused, and the slot has no page. -/
def Clause.ParkFillsAnOrbitAndPagesItsCode : Prop :=
  ∀ (o : Offer) (before after : List Offer) (g : HuntGroup) (p : GroupParams) (i : OrbitSlot) (s : State), Sending 1 s →
    OfferAt o before after s → o.window = some [] → o.state = .offering → o.ringing = [] → o.target = .hunt g →
    s.he.groups.get g = some p → (∀ x ∈ s.he.queue, x.call ≠ o.seq) → p.overflow = .park → o.parkDone = false →
    slotOf s i = none → (∀ j, j < i → (slotOf s j).isSome = true) →
    let q := nextPageSeq s
    let orbit := orbitNumber (own s) i
    let page := newPage q .code (.group p.parkPaging) (.orbit orbit) false
    let parked := fun x t => withOffers (before ++ { o with state := .parked orbit, window := none } :: after) (withSlot i (some
      { call := o.seq, group := g, paging := p.parkPaging, page := x, repeats := 0, limit := p.repeatLimit,
        interval := p.repeatInterval, recallTime := p.recallTime, repeating := true }) t)
    (sharedCount s < 6 → (∀ r ∈ s.pgo.pages, r.seq ≠ q) → exec (.bidWindowClose o.seq) s = .next (withOutputs []
      (withQueued [.pageStart ⟨⟨own s, q⟩, .code, .group p.parkPaging, none, false, false, some orbit⟩]
        (parked (some ⟨own s, q⟩) (withNewPage page s)))))
    ∧ (6 ≤ sharedCount s → exec (.bidWindowClose o.seq) s = .next (withOutputs [] (parked none s)))

/-- A window that closes with no bid, and nobody ringing, takes the overflow step, whatever it comes to: PARK that falls back to RECYCLE or
whose code page is refused, FORWARD to a group without an entry, a kept place in the queue or an expired wait, the end in ISOLATED and
LISTEN-ONLY (R65, R78, R81 to R83, R86, R87), or a group without an entry (log 29). -/
def Clause.ClosedWindowTakesTheOverflowStep : Prop :=
  ∀ (o : Offer) (before after : List Offer) (s t u : State), Ready s → OfferAt o before after s → o.window = some [] →
    o.ringing = [] →
    let closed := { o with window := none }
    Overflowed closed before after (withOutputs [] (withOffers (before ++ closed :: after) s)) t → Delivered t u →
    exec (.bidWindowClose o.seq) s = .next u

/-- The overflow step: RECYCLE, QUEUE, FORWARD and PARK, what each falls back to, and the end off the link (a group without an entry: log 29) -/
def Obligations.OverflowFollowsTheGroupsAction : Prop :=
  Clause.OverflowFollowsTheGroupsAction ∧ Clause.ParkFillsAnOrbitAndPagesItsCode ∧ Clause.ClosedWindowTakesTheOverflowStep

/-- The recycle pause, and an AVAILABLE for the group of the oldest queued record, offer the call again with an empty tried
set. The queue wait timer marks the standing of a record that is OFFERING or ASSIGNED, and takes the expiry action of a
QUEUED one: END ends it UNANSWERED, RECYCLE gives up its place. -/
def Clause.WaitingCallsGoOn : Prop :=
  ∀ (o : Offer) (before after : List Offer) (g : HuntGroup) (s : State), Sending 1 s → ShelfRoom 1 s →
    OfferAt o before after s → o.target = .hunt g →
    let again := fun t => withQueued [.offer ⟨own s, o.seq⟩ g (reoffered o).attempts 0]
      (withOffers (before ++ reoffered { o with tried := 0 } :: after) t)
    (o.state = .waiting .recyclePause → exec (.recyclePauseExpiry o.seq) s = .next (withOutputs [] (again s)))
    ∧ (∀ (src : Cabinet) (ahead behind : List Standing) (e : Bool), Known src s → o.state = .waiting .queued →
        s.he.queue = ahead ++ ⟨o.seq, g, e⟩ :: behind → (∀ x ∈ ahead, x.group ≠ g) →
        exec (.available src (BitVec.twoPow 16 g.val)) s = .next (withOutputs [.acknowledge true] (again (heardFrom src s))))
    ∧ ∀ (p : GroupParams) (ahead behind : List Standing), s.he.groups.get g = some p →
        s.he.queue = ahead ++ ⟨o.seq, g, false⟩ :: behind → (∀ x ∈ ahead ++ behind, x.call ≠ o.seq) → o.ringing = [] →
        ((o.state = .offering ∨ o.state = .assigned) → exec (.queueWaitExpiry o.seq) s = .next (withOutputs []
          { s with he := { s.he with queue := ahead ++ ⟨o.seq, g, true⟩ :: behind } }))
        ∧ (o.state = .waiting .queued → o.assigned = none → p.queueExpiry = .endCall →
            exec (.queueWaitExpiry o.seq) s = .next (withOutputs [] (callFreed o before after
              (withSent [.callEnded o.ref ⟨own s, o.seq⟩ .unanswered] s))))
        ∧ (o.state = .waiting .queued → p.queueExpiry = .recycle → exec (.queueWaitExpiry o.seq) s = .next (withOutputs []
            (withOffers (before ++ { o with state := .waiting .recyclePause, window := none } :: after)
              (withoutStanding o.seq s))))

/-- The queue wait timer of a QUEUED record takes its standing and applies the group's queue-expiry action, RECYCLE, FORWARD, PARK or END,
with what each falls back to (R85 to R87); in ISOLATED and LISTEN-ONLY the call ends (R65). -/
def Clause.QueueExpiryTakesItsAction : Prop :=
  ∀ (o : Offer) (before after : List Offer) (g : HuntGroup) (p : GroupParams) (s t u : State), Ready s →
    OfferAt o before after s → o.target = .hunt g → s.he.groups.get g = some p → o.state = .waiting .queued →
    (∃ x ∈ s.he.queue, x.call = o.seq) → (∀ x ∈ s.he.queue, x.call = o.seq → x.expired = false) →
    ActionTaken p.queueExpiry o g p before after (withOutputs [] (withoutStanding o.seq s)) t → Delivered t u →
    exec (.queueWaitExpiry o.seq) s = .next u

/-- An AVAILABLE heard serves each hunt group that it names, one after another by rising number (log 26): the group's oldest QUEUED call is
offered again, and a group without one is passed over. -/
def Clause.AvailableServesEachGroup : Prop :=
  ∀ (src : Cabinet) (groups : GroupSet) (s t u : State), Ready s → s.clc.link = .running → Known src s →
    Chain GroupServed ((List.finRange 16).filter fun g => groups.getLsbD g.val) (withOutputs [.acknowledge true] (heardFrom src s)) t →
    Delivered t u → exec (.available src groups) s = .next u

/-- In ISOLATED and LISTEN-ONLY a call of the part on a hunt group that would be offered again, or recycled or parked, ends with outcome
ISOLATED (R65): here one that loses its last ringing member, a line of the part, at that line's no-answer timer. -/
def Clause.ContinuingCallEndsIsolated : Prop :=
  ∀ (l : Line) (c : LineCall) (o : Offer) (i : Option OrderIndex) (g : HuntGroup) (p : GroupParams) (before after : List Offer)
    (s : State), Ready s → cutOff s = true → ShelfRoom 1 s → OfferAt o before after s →
    (lineOf s l).state = .ringing → (lineOf s l).call = some c → c.call = ⟨own s, o.seq⟩ → (lineOf s l).noAnswer ≠ none →
    o.state = .ringing → o.ringing = [⟨own s, l, i⟩] → o.assigned = none → o.target = .hunt g → s.he.groups.get g = some p →
    ((∃ j : OrderIndex, j.val < p.span ∧ hasIndex (addTried i [] o.tried) j = false) ∨ p.overflow = .recycle ∨ p.overflow = .park) →
    (∀ x ∈ before ++ after, x.state ≠ .waiting .queued) →
    let r := { lineOf s l with
      state := .idle, call := none, cadenceAt := none, noAnswer := none, ring := false, tone := .none }
    exec (.noAnswerTimerExpiry l) s = .next (withOutputs [.ring l false, .tone l .none]
      (callFreed o before after (withSent [.callEnded o.ref c.call .isolated] (withLine l (refreshed r)
        { s with ppu := { s.ppu with
            view := s.ppu.view.filter fun e => !decide (e.call = c.call ∧ e.cab = own s ∧ e.line = l) } }))))

/-- The recycle pause, an AVAILABLE (its groups in order: log 26) and the queue wait move a WAITING call on; off the link a call ends (R65) -/
def Obligations.WaitingCallsGoOn : Prop :=
  Clause.WaitingCallsGoOn
    ∧ Clause.QueueExpiryTakesItsAction
    ∧ Clause.AvailableServesEachGroup
    ∧ Clause.ContinuingCallEndsIsolated

/-! ### Park orbits and pickup (chapter 5) -/

/-- The recall timer of an occupied orbit frees it, with a PAGE-END for a code page on the air, sets the park-done flag and
offers the call again with an empty tried set. An empty slot's timer does not run (log 1). -/
def Clause.RecallTimerOffersTheParkedCallAgain : Prop :=
  ∀ (i : OrbitSlot) (x : Orbit) (o : Offer) (before after : List Offer) (g : HuntGroup) (s : State), Sending 2 s →
    OfferAt o before after s → x.call = o.seq → o.target = .hunt g →
    let o' := reoffered { o with parkDone := true, tried := 0 }
    let again := fun ns t => withQueued (ns ++ [.offer ⟨own s, o.seq⟩ g o'.attempts 0])
      (withOffers (before ++ o' :: after) (withSlot i none t))
    (slotOf s i = some x → x.page = none → exec (.recallTimerExpiry i) s = .next (withOutputs [] (again [] s)))
    ∧ (∀ (r : PageRec) (b a : List PageRec), slotOf s i = some x → x.page = some ⟨own s, r.seq⟩ → PageAt r b a s →
        r.state = .onAir → r.cls = .code → r.origin = .orbit (orbitNumber (own s) i) →
        exec (.recallTimerExpiry i) s = .next (withOutputs []
          (again [.pageEnd ⟨own s, r.seq⟩ .code .ended] (withPages (b ++ a) s))))
    ∧ (slotOf s i = none → exec (.recallTimerExpiry i) s = .next (withOutputs [] s))

/-- The repeat timer below the limit announces the code again under a new page id and counts; at the limit it stops. Here the
page before has ended by its own life, or was never given. A stopped timer brings nothing (log 1). -/
def Clause.RepeatTimerAnnouncesTheCodeAgain : Prop :=
  ∀ (i : OrbitSlot) (x : Orbit) (s : State), Sending 1 s → slotOf s i = some x →
    let q := nextPageSeq s
    let orbit := orbitNumber (own s) i
    (x.repeating = true → x.repeats < x.limit → (∀ p, x.page = some p → ∀ r ∈ s.pgo.pages, r.seq ≠ p.seq) →
      sharedCount s < 6 → (∀ r ∈ s.pgo.pages, r.seq ≠ q) → exec (.repeatTimerExpiry i) s = .next (withOutputs []
        (withQueued [.pageStart ⟨⟨own s, q⟩, .code, .group x.paging, none, false, false, some orbit⟩]
          (withNewPage (newPage q .code (.group x.paging) (.orbit orbit) false)
            (withSlot i (some { x with page := some ⟨own s, q⟩, repeats := x.repeats + 1 }) s)))))
    ∧ (x.repeating = true → x.limit ≤ x.repeats →
        exec (.repeatTimerExpiry i) s = .next (withOutputs [] (withSlot i (some { x with repeating := false }) s)))
    ∧ (x.repeating = false → exec (.repeatTimerExpiry i) s = .next (withOutputs [] s))

/-- The repeat timer below its limit, whatever became of the former code page: one that still stands ends, by PAGE-END once announced, or by
the withdrawal of its PAGE-START; then the code page is asked for again, given a new page id or refused (R101, R103, R113). -/
def Clause.RepeatReplacesTheCodePage : Prop :=
  ∀ (i : OrbitSlot) (x : Orbit) (s t u v : State), Ready s → Room 1 s → slotOf s i = some x → x.repeating = true →
    x.repeats < x.limit →
    let y := { x with page := none, repeats := x.repeats + 1 }
    OrbitFreed i (withOutputs [] s) t → CodePageAsked i y (withSlot i (some y) t) u → Delivered u v →
    exec (.repeatTimerExpiry i) s = .next v

/-- The recall and repeat timers of an occupied orbit (timers that do not run: log 1) -/
def Obligations.OrbitTimersRecallAndRepeat : Prop :=
  Clause.RecallTimerOffersTheParkedCallAgain ∧ Clause.RepeatTimerAnnouncesTheCodeAgain ∧ Clause.RepeatReplacesTheCodePage

/-- The pickup and retrieve codes claim a call that rings, or an orbit, at another cabinet: PICKUP-PENDING with the verdict
awaited, the call's view entries marked, a CLAIM queued; where nothing can be claimed the code is refused. -/
def Clause.PickupCodesFormAClaim : Prop :=
  ∀ (l : Line) (d : Digit) (code : Code) (n : Nat) (s : State), Sending 1 s → LastDigit l d code n s →
    let r := withDigit d (lineOf s l)
    let selected := match code with
      | .groupPickup => claimOf (groupSelection s l)
      | .directedPickup => claimOf (directedSelection s l n)
      | _ => retrieveSelection s n
    let pending := fun t => { r with state := .pickupPending, buffer := [], verdict := some ⟨t, .pickup⟩ }
    (code = .groupPickup ∨ code = .directedPickup ∨ code = .retrieve) →
    (∀ c, selected = some (.call c) → c.cab ≠ own s → exec (.digit l d) s =
      .next (withOutputs [.tone l .none, .tone l .none] (withQueued [.claim (.call c) (own s) l]
        (withMark c (withLine l (pending (.call c)) s)))))
    ∧ (∀ o, selected = some (.orbit o) → orbitCabinet o ≠ own s → exec (.digit l d) s =
      .next (withOutputs [.tone l .none, .tone l .none] (withQueued [.claim (.orbit o) (own s) l]
        (withLine l (pending (.orbit o)) s))))
    ∧ (selected = none → exec (.digit l d) s =
      .next (withOutputs [.tone l .none, .tone l .refuse] (withLine l (refusedLine r) s)))

/-- What the pickup codes select. Group pickup: the oldest unmarked entry of the line's pickup group at a reachable owner, not
of the line itself. Directed pickup: the oldest entry of the line named, at a reachable owner, the line itself excepted.
Retrieve: the orbit, at a reachable cabinet. A line with no pickup group selects none, and where no entry qualifies none is selected. -/
def Clause.PickupSelectsTheOldestReachableEntry : Prop :=
  ∀ (l : Line) (s : State), (∀ cab, reachable s cab = true ↔
      (cab = own s ∨ (s.clc.link = .running ∧ (peerOf s cab).state = .present)))
    ∧ ((lineOf s l).pickup = none → groupSelection s l = none)
    ∧ (∀ g, (lineOf s l).pickup = some g →
        let fits := fun (x : ViewEntry) => x.pickup = some g ∧ x.marked = false ∧ ¬ (x.cab = own s ∧ x.line = l)
          ∧ reachable s x.call.cab = true
        (∀ before e after, s.ppu.view = before ++ e :: after → fits e → (∀ x ∈ before, ¬ fits x) →
          groupSelection s l = some e)
        ∧ ((∀ x ∈ s.ppu.view, ¬ fits x) → groupSelection s l = none))
    ∧ (∀ n cab line, n = 100 + 16 * cab.val + line.val → ¬ (cab = own s ∧ line = l) →
        let fits := fun (x : ViewEntry) => x.cab = cab ∧ x.line = line ∧ reachable s x.call.cab = true
        (∀ before e after, s.ppu.view = before ++ e :: after → fits e → (∀ x ∈ before, ¬ fits x) →
          directedSelection s l n = some e)
        ∧ ((∀ x ∈ s.ppu.view, ¬ fits x) → directedSelection s l n = none))
    ∧ directedSelection s l (directoryNumber (own s) l) = none
    ∧ ∀ o : OrbitNumber, retrieveSelection s o.val = if reachable s (orbitCabinet o) then some (.orbit o) else none

/-- A claim of a call or an orbit of the part itself is decided at once. An ASSIGNED or RINGING call is connected to the line, and so is
the call that an orbit holds, the orbit freed; any other call, no call, and an empty orbit bring tone LOST and BUSY. -/
def Clause.ClaimsOfOwnCallsAreDecidedHere : Prop :=
  ∀ (l : Line) (d : Digit) (code : Code) (n : Nat) (s : State), Sending 2 s → ShelfRoom 1 s → LastDigit l d code n s →
    let r := withDigit d (lineOf s l)
    let selected := match code with
      | .groupPickup => claimOf (groupSelection s l)
      | .directedPickup => claimOf (directedSelection s l n)
      | _ => retrieveSelection s n
    let pending := fun t => withLine l { r with state := .pickupPending, buffer := [], verdict := some ⟨t, .pickup⟩ } s
    let lost := withLine l { r with state := .busy, buffer := [], call := none, verdict := none, tone := .lost } s
    let won := fun (o : Offer) (before after : List Offer) (t : State) => exec (.digit l d) s =
      .next (withOutputs [.tone l .none, .tone l .none] (callFreed o before after
        (withSent [.connect o.ref ⟨own s, o.seq⟩ (own s) l] t)))
    (code = .groupPickup ∨ code = .directedPickup ∨ code = .retrieve) →
    (∀ q, selected = some (.call ⟨own s, q⟩) →
      (∀ o before after, OfferAt o before after s → o.seq = q →
        ((o.state = .assigned ∨ o.state = .ringing) → won o before after
          (withQueued [.connected ⟨own s, q⟩ (own s) l (targetGroup o.target) none]
            (withMark ⟨own s, q⟩ (pending (.call ⟨own s, q⟩)))))
        ∧ (o.state ≠ .assigned → o.state ≠ .ringing → exec (.digit l d) s =
          .next (withOutputs [.tone l .none, .tone l .none, .tone l .lost] (withMark ⟨own s, q⟩ lost))))
      ∧ ((∀ o ∈ s.ofm.offers, o.seq ≠ q) → exec (.digit l d) s =
          .next (withOutputs [.tone l .none, .tone l .none, .tone l .lost] (withMark ⟨own s, q⟩ lost))))
    ∧ ∀ i : OrbitSlot, selected = some (.orbit (orbitNumber (own s) i)) →
      (slotOf s i = none → exec (.digit l d) s =
        .next (withOutputs [.tone l .none, .tone l .none, .tone l .lost] lost))
      ∧ ∀ o before after x t, OfferAt o before after s → slotOf s i = some x → x.call = o.seq →
          o.state = .parked (orbitNumber (own s) i) →
          OrbitFreed i (withQueued [.connected ⟨own s, o.seq⟩ (own s) l (targetGroup o.target) none]
            (pending (.orbit (orbitNumber (own s) i)))) t → won o before after t

/-- The pickup and retrieve codes: what they select, the CLAIM they send, and the claims that the part decides itself -/
def Obligations.PickupCodesClaimACall : Prop :=
  Clause.PickupCodesFormAClaim ∧ Clause.PickupSelectsTheOldestReachableEntry ∧ Clause.ClaimsOfOwnCallsAreDecidedHere

/-! ### Pages (chapter 6) -/

/-- A page code takes the lowest free channel: the line is PAGING with its page id, the record is CLAIMING with the line's
override arm, the view entry is its own, and PAGE-START is queued. With six line or orbit pages in the table, or with every
channel held and none to seize, the request is refused with tone BUSY; ALARM seizes the lowest ROUTINE channel, here one of
another cabinet. -/
def Clause.PageCodesClaimAChannel : Prop :=
  ∀ (l : Line) (d : Digit) (code : Code) (n : Nat) (cls : PageClass) (t : PageTarget) (s : State), Sending 1 s →
    LastDigit l d code n s → pageTargetOf n = some t →
    (cls = .routine ∧ (code = .routinePage ∨ code = .overrideRoutine)
      ∨ cls = .alarm ∧ (code = .alarmPage ∨ code = .overrideAlarm)) →
    let r := withDigit d (lineOf s l)
    let q := nextPageSeq s
    let paging := { r with state := .paging, buffer := [], armed := false }
    let busy := withLine l { paging with state := .busy, page := none, tone := .busy }
    (∀ c, sharedCount s < 6 → (∀ x ∈ s.pgo.pages, x.seq ≠ q) → s.pgo.view.get c = none →
        (∀ e, e < c → (s.pgo.view.get e).isSome = true) →
        exec (.digit l d) s = .next (withOutputs [.tone l .none, .tone l .none]
          (withQueued [.pageStart ⟨⟨own s, q⟩, cls, t, some c, false, r.armed, none⟩]
            (withLine l { paging with page := some ⟨own s, q⟩ } (withView c (some ⟨⟨own s, q⟩, cls⟩)
              (withNewPage { newPage q cls t (.line l) r.armed with channel := some c } s))))))
    ∧ (6 ≤ sharedCount s → exec (.digit l d) s = .next (withOutputs [.tone l .none, .tone l .none, .tone l .busy] (busy s)))
    ∧ (sharedCount s < 6 → (∀ x ∈ s.pgo.pages, x.seq ≠ q) → (∀ c, (s.pgo.view.get c).isSome = true) →
        (cls = .routine ∨ ∀ c h, s.pgo.view.get c = some h → h.cls ≠ .routine) →
        exec (.digit l d) s = .next (withOutputs [.tone l .none, .tone l .none, .tone l .busy]
          (busy { s with pgo := { s.pgo with counter := nextSeq q } })))
    ∧ (∀ c h, cls = .alarm → sharedCount s < 6 → (∀ x ∈ s.pgo.pages, x.seq ≠ q) → (∀ e, (s.pgo.view.get e).isSome = true) →
        s.pgo.view.get c = some h → h.cls = .routine → h.page.cab ≠ own s →
        (∀ e x, e < c → s.pgo.view.get e = some x → x.cls ≠ .routine) →
        exec (.digit l d) s = .next (withOutputs [.tone l .none, .tone l .none]
          (withQueued [.pageStart ⟨⟨own s, q⟩, cls, t, some c, true, r.armed, none⟩]
            (withLine l { paging with page := some ⟨own s, q⟩ } (withView c (some ⟨⟨own s, q⟩, cls⟩)
              (withNewPage { newPage q cls t (.line l) r.armed with channel := some c, seize := true } s))))))

/-- An ALARM page code that seizes a channel of the part's own ROUTINE page: that page ends with CHANNEL-LOST before the new one takes the
channel, announced or not (R109, R117). -/
def Clause.AlarmCodeSeizesTheOwnPage : Prop :=
  ∀ (l m : Line) (d : Digit) (code : Code) (n : Nat) (t : PageTarget) (c : Channel) (h : ChannelHold) (v : PageRec) (s u : State),
    Sending 1 s → LastDigit l d code n s → pageTargetOf n = some t → (code = .alarmPage ∨ code = .overrideAlarm) →
    sharedCount s < 6 → (∀ x ∈ s.pgo.pages, x.seq ≠ nextPageSeq s) → (∀ e, (s.pgo.view.get e).isSome = true) →
    s.pgo.view.get c = some h → h.cls = .routine → (∀ e x, e < c → s.pgo.view.get e = some x → x.cls ≠ .routine) →
    h.page = ⟨own s, v.seq⟩ → v ∈ s.pgo.pages → v.origin = .line m → m ≠ l →
    let r := withDigit d (lineOf s l)
    let q := nextPageSeq s
    LinePageEnds .channelLost v (withOutputs [.tone l .none, .tone l .none]
      (withLine l { r with state := .paging, buffer := [], armed := false, page := some ⟨own s, q⟩ }
        (withNewPage (newPage q .alarm t (.line l) r.armed) s))) u →
    u.clc.queue.length < txCapacity →
    exec (.digit l d) s = .next (withQueued [.pageStart ⟨⟨own s, q⟩, .alarm, t, some c, true, r.armed, none⟩]
      (withView c (some ⟨⟨own s, q⟩, .alarm⟩)
        (withPages (u.pgo.pages.map fun y => if y.seq = q then { y with channel := some c, seize := true } else y) u)))

/-- A page code off the link: the request is refused with tone REFUSE, and the line is BUSY (R112). -/
def Clause.PageCodesOffTheLinkAreRefused : Prop :=
  ∀ (l : Line) (d : Digit) (code : Code) (n : Nat) (t : PageTarget) (s : State), Ready s → s.clc.link ≠ .running →
    LastDigit l d code n s → pageTargetOf n = some t →
    (code = .routinePage ∨ code = .overrideRoutine ∨ code = .alarmPage ∨ code = .overrideAlarm) →
    exec (.digit l d) s = .next (withOutputs [.tone l .none, .tone l .none, .tone l .refuse]
      (withLine l { withDigit d (lineOf s l) with
        state := .busy, page := none, buffer := [], armed := false, tone := .refuse } s))

/-- The target of a page code's number: 99 is ALL, 0 to 31 a paging group. The sequence value of the next page is the first from the
counter on that no record and no own entry of the channel view holds. -/
def Clause.PageTargetsAndPageIds : Prop :=
  pageTargetOf 99 = some .all ∧ (∀ g : PagingGroup, pageTargetOf g.val = some (.group g))
  ∧ (∀ n, 32 ≤ n → n ≠ 99 → pageTargetOf n = none)
  ∧ ∀ s : State, s.pgo.pages.length ≤ 8 →
      let held := fun q => (∃ r ∈ s.pgo.pages, r.seq = q) ∨ ∃ c h, s.pgo.view.get c = some h ∧ h.page = ⟨own s, q⟩
      ∃ k, k ≤ 12 ∧ (nextPageSeq s).val = (s.pgo.counter.val + k) % 256 ∧ ¬ held (nextPageSeq s)
        ∧ ∀ j < k, ∀ q : Seq, q.val = (s.pgo.counter.val + j) % 256 → held q

/-- A page code claims the lowest free channel or seizes one and announces the page, or is refused; its target, and the id of the next page -/
def Obligations.PageCodesClaimAChannel : Prop :=
  Clause.PageCodesClaimAChannel
    ∧ Clause.AlarmCodeSeizesTheOwnPage
    ∧ Clause.PageCodesOffTheLinkAreRefused
    ∧ Clause.PageTargetsAndPageIds

/-- A contact input that becomes active from LISTENING on originates its page where none stands: ALARM to the alarm paging
group, EVAC to ALL with EVAC-ACTIVE raised; a page that stands loses its input-released flag. Here the part is RUNNING. -/
def Clause.ContactInputsOriginatePages : Prop :=
  ∀ (i : ContactInput) (s : State), Sending 1 s →
    let q := nextPageSeq s
    (s.phase = .running → inputActive s i = false → inputPage s i = none → (∀ r ∈ s.pgo.pages, r.seq ≠ q) →
      (i = .alarm → exec (.contactInputActive i) s = .next (withOutputs []
        (withQueued [.pageStart ⟨⟨own s, q⟩, .alarm, .group s.pgo.alarmGroup, none, false, false, none⟩]
          (withNewPage (newPage q .alarm (.group s.pgo.alarmGroup) (.input .alarm) false) (withInput i true s)))))
      ∧ (i = .evac → exec (.contactInputActive i) s = .next (withOutputs [] (raise .evacActive q.val .pgo
        (withQueued [.pageStart ⟨⟨own s, q⟩, .evac, .all, none, false, false, none⟩]
          (withNewPage (newPage q .evac .all (.input .evac) false) (withInput i true s)))))))
    ∧ (∀ (r : PageRec) (before after : List PageRec), s.phase = .running → inputActive s i = false → PageAt r before after s →
        inputPage s i = some r → exec (.contactInputActive i) s = .next (withOutputs []
          (withPages (before ++ { r with released := false } :: after) (withInput i true s))))
    ∧ ((s.phase = .loading ∨ s.phase = .halted ∨ inputActive s i = true) →
        exec (.contactInputActive i) s = .next (withOutputs [] s))

/-- An input page ends once its input is released and its minimum is past, whichever comes last. -/
def Clause.InputPagesEndAfterTheirMinimum : Prop :=
  ∀ (i : ContactInput) (r : PageRec) (before after : List PageRec) (s : State), Sending 1 s → s.phase = .running →
    PageAt r before after s → inputPage s i = some r → r.state = .onAir →
    let ended := fun t => withQueued [.pageEnd ⟨own s, r.seq⟩ r.cls .ended] (withPages (before ++ after) t)
    let kept := fun x t => withPages (before ++ x :: after) t
    (inputActive s i = true → r.timer = none →
        exec (.contactInputInactive i) s = .next (withOutputs [] (ended (withInput i false s))))
    ∧ (inputActive s i = true → r.timer = some .minimum → exec (.contactInputInactive i) s =
        .next (withOutputs [] (kept { r with released := true } (withInput i false s))))
    ∧ (inputActive s i = false → exec (.contactInputInactive i) s = .next (withOutputs [] s))
    ∧ (r.timer = some .minimum → r.released = true → exec (.minimumTimerExpiry i) s = .next (withOutputs [] (ended s)))
    ∧ (r.timer = some .minimum → r.released = false → exec (.minimumTimerExpiry i) s =
        .next (withOutputs [] (kept { r with timer := none } s)))

/-- Contact inputs originate ALARM and EVAC pages, which end after release and minimum -/
def Obligations.InputPagesFollowTheirInput : Prop :=
  Clause.ContactInputsOriginatePages ∧ Clause.InputPagesEndAfterTheirMinimum

/-- The report window puts a page with a live report on the air, with CONNECT-PAGE and tone CONFIRM, and ends any other with
NO-ZONE and tone REFUSE; the life timer ends a code page. A timer that does not run brings nothing (log 1). -/
def Clause.PageTimersDecideThePage : Prop :=
  ∀ (r : PageRec) (before after : List PageRec) (s : State), Sending 1 s → ShelfRoom 1 s → PageAt r before after s →
    (∀ l c, r.origin = .line l → r.channel = some c → r.state = .reporting → r.timer = some .reportWindow →
      ((∃ e ∈ r.reports, e.2 = .playing ∨ e.2 = .pending ∨ e.2 = .held) → exec (.reportWindowExpiry r.seq) s =
        .next (withOutputs [.tone l .confirm] (withSent [.connectPage l c] (withLine l { lineOf s l with tone := .confirm }
          (withPages (before ++ { r with state := .onAir, connectSent := true, timer := none } :: after) s)))))
      ∧ ((∀ e ∈ r.reports, e.2 ≠ .playing ∧ e.2 ≠ .pending ∧ e.2 ≠ .held) → r.connectSent = false →
        exec (.reportWindowExpiry r.seq) s = .next (withOutputs [.tone l .refuse]
          (withQueued [.pageEnd ⟨own s, r.seq⟩ r.cls .noZone] (pageEnded l .refuse (withPages (before ++ after) s))))))
    ∧ (∀ o, r.origin = .orbit o → r.state = .onAir → r.timer = some .life → exec (.codeLifeExpiry r.seq) s =
        .next (withOutputs [] (withQueued [.pageEnd ⟨own s, r.seq⟩ r.cls .ended] (withPages (before ++ after) s))))
    ∧ (r.timer = none → exec (.reportWindowExpiry r.seq) s = .next (withOutputs [] s)
        ∧ exec (.codeLifeExpiry r.seq) s = .next (withOutputs [] s))

/-- A ZONE-REPORT on a line's page takes its zone's place in the report list, or a new one while there is room. A page on the
air with a live report left stays; one with none ends with NO-ZONE and tone LOST. Reports on other pages are ignored. -/
def Clause.ZoneReportsAreKeptAndJudged : Prop :=
  ∀ (src : Cabinet) (page : RawId) (zone outcome : Byte) (z : ZoneNumber) (out : ZoneOutcome) (r : PageRec)
    (before after : List PageRec) (s : State), Sending 1 s → ShelfRoom 1 s → Known src s → PageAt r before after s →
    codePage page = some ⟨own s, r.seq⟩ → codeBelow 64 zone = some z → codeOutcome outcome = some out →
    let heard := heardFrom src s
    let list := if r.reports.any (fun e => decide (e.1 = z)) then r.reports.map fun e => if e.1 = z then (z, out) else e
      else if r.reports.length < 16 then r.reports ++ [(z, out)] else r.reports
    let kept := exec (.zoneReport src page zone outcome) s = .next (withOutputs [.acknowledge true]
      (withPages (before ++ { r with reports := list } :: after) heard))
    let none_ := ∀ e ∈ list, e.2 ≠ .playing ∧ e.2 ≠ .pending ∧ e.2 ≠ .held
    (∀ l, r.origin = .line l → r.state = .reporting → kept)
    ∧ (∀ l, r.origin = .line l → r.state = .onAir → ¬ none_ → kept)
    ∧ (∀ l c, r.origin = .line l → r.state = .onAir → none_ → r.channel = some c → r.connectSent = true →
        exec (.zoneReport src page zone outcome) s = .next (withOutputs [.acknowledge true, .tone l .lost]
          (withSent [.disconnectPage l c] (withQueued [.pageEnd ⟨own s, r.seq⟩ r.cls .noZone]
            (pageEnded l .lost (withPages (before ++ after) heard))))))
    ∧ ((∀ l, r.origin ≠ .line l) → exec (.zoneReport src page zone outcome) s =
        .next (withOutputs [.acknowledge true] heard))

/-- The report window, the life timer and ZONE_REPORTs decide a page (timers that do not run: log 1) -/
def Obligations.ReportsAndTimersDecideThePage : Prop :=
  Clause.PageTimersDecideThePage ∧ Clause.ZoneReportsAreKeptAndJudged

/-- A PAGE-START heard on a channel, or a STATUS that lists it, enters the view. The part's own page on that channel, once
announced, ends with CHANNEL-LOST if the other prevails by class or by lower address, and else keeps its entry and is defended by
a STATUS. Here the command does nothing else at the part. -/
def Clause.PagesThatMeetOnAChannel : Prop :=
  ∀ (i : Instr) (src : Cabinet) (c : Channel) (h : ChannelHold) (s u : State), Sending 1 s → ShelfRoom 1 s →
    NamesChannel i src c h s u →
    let entered := withOutputs [.acknowledge true] (withView c (some h) u)
    (channelRecord s c = none → exec i s = .next entered)
    ∧ ∀ (r : PageRec) (before after : List PageRec) (l : Line), PageAt r before after s → channelRecord s c = some r →
        r.origin = .line l → (r.state = .reporting ∨ r.state = .onAir) →
        let prevails := classRank r.cls < classRank h.cls ∨ (h.cls = r.cls ∧ h.page.cab < own s)
        (¬ prevails → (∀ x, s.pgo.view.get c = some x → x.page.cab = own s) → (∀ x ∈ s.clc.queue, isStatus x.notice = false) →
          exec i s = .next (withOutputs [.acknowledge true] (withQueued [.status .running (assembleStatus s)] u)))
        ∧ (prevails → exec i s = .next (withOutputs [.acknowledge true, .tone l .lost]
            (withSent (if r.connectSent then [.disconnectPage l c] else [])
              (withQueued [.pageEnd ⟨own s, r.seq⟩ r.cls .channelLost] (pageEnded l .lost (withPages (before ++ after) entered))))))

/-- A CLAIMING page whose channel another cabinet's page takes chooses again, with its page id and its queued PAGE-START: the lowest
free channel; for ALARM, with none free, the lowest that holds a ROUTINE page, seized; else it is refused with tone BUSY. A page of
the part that is seized ends with CHANNEL-LOST. Here no PAGE-START of it is in an attempt. -/
def Clause.ClaimingPageChoosesAgain : Prop :=
  ∀ (i : Instr) (src : Cabinet) (c : Channel) (h : ChannelHold) (r : PageRec) (before after : List PageRec) (l : Line)
    (s u : State), Sending 1 s → ShelfRoom 1 s → NamesChannel i src c h s u → PageAt r before after s →
    channelRecord s c = some r → r.origin = .line l → r.state = .claiming → r.connectSent = false → h.page.cab ≠ own s →
    let id : PageId := ⟨own s, r.seq⟩
    (∀ e ∈ s.clc.queue, isStartOf id e.notice = true → e.inAttempt = false) →
    let entered := withOutputs [.acknowledge true] (withView c (some h) u)
    let holds := fun d => entered.pgo.view.get d
    let full := ∀ d, holds d ≠ none
    let lowestRoutine := fun (d : Channel) (x : ChannelHold) => holds d = some x ∧ x.cls = .routine
      ∧ ∀ m y, m < d → holds m = some y → y.cls ≠ .routine
    let taken := fun (d : Channel) (seize : Bool) (pages : List PageRec) (t : State) =>
      withReplaced (isStartOf id) (.pageStart ⟨id, r.cls, r.target, some d, seize, r.override, none⟩)
        (withView d (some ⟨id, r.cls⟩) (withPages pages t))
    let again := fun d seize => { r with channel := some d, seize := seize }
    (∀ d, holds d = none → (∀ m, m < d → holds m ≠ none) →
      exec i s = .next (taken d false (before ++ again d false :: after) entered))
    ∧ (∀ d x, full → r.cls = .alarm → lowestRoutine d x → x.page.cab ≠ own s →
        exec i s = .next (taken d true (before ++ again d true :: after) entered))
    ∧ (∀ d x, full → r.cls = .alarm → lowestRoutine d x → ∀ (v : PageRec) (front back : List PageRec) (m : Line) (k : Channel),
        PageAt v front back s → x.page = ⟨own s, v.seq⟩ → v.seq ≠ r.seq → v.origin = .line m → v.state ≠ .claiming → v.channel = some k →
        exec i s = .next (taken d true ((front ++ back).map fun y => if y.seq = r.seq then again d true else y)
          (withOutputs [.acknowledge true, .tone m .lost] (withSent (if v.connectSent then [.disconnectPage m k] else [])
            (withQueued [.pageEnd ⟨own s, v.seq⟩ v.cls .channelLost] (pageEnded m .lost entered))))))
    ∧ (full → (r.cls ≠ .alarm ∨ ∀ d x, holds d = some x → x.cls ≠ .routine) →
        exec i s = .next (withOutputs [.acknowledge true, .tone l .busy]
          (pageEnded l .busy (withWithdrawn (isStartOf id) (withPages (before ++ after) entered)))))

/-- A channel seen held by another cabinet's page: the announced page that meets it, and the CLAIMING page that chooses again -/
def Obligations.PagesThatMeetOnAChannel : Prop :=
  Clause.PagesThatMeetOnAChannel ∧ Clause.ClaimingPageChoosesAgain

/-- A heard PAGE-END frees the view entry and clears the orbit's page id; a heard ALL-STOP ends the part's ROUTINE page with
tone LOST and stops every repeat timer. Any reason byte and any cabinet byte is taken (log 10). Here no zone of the part holds a page
that they remove. -/
def Clause.PageEndAndAllStopAreTaken : Prop :=
  ∀ (src : Cabinet) (page : RawId) (reason cab : Byte) (s : State), Sending 1 s → ShelfRoom 1 s → Known src s →
    (∀ p, codePage page = some p → NoPlacedPage (fun e => decide (e.page = p)) s → (∀ z, p ∉ (zoneOf s z).evac) →
      exec (.pageEnd src page reason) s = .next (withOutputs [.acknowledge true] { heardFrom src s with
        pgo := { s.pgo with view := s.pgo.view.map fun h => h.filter fun x => !decide (x.page = p) }
        ppu := { s.ppu with
          orbits := s.ppu.orbits.map fun o => o.map fun x => if x.page = some p then { x with page := none } else x } }))
    ∧ ∀ (r : PageRec) (before after : List PageRec) (l : Line) (c : Channel),
        NoPlacedPage (fun e => decide (e.cls = .routine ∨ e.cls = .code)) s → PageAt r before after s → r.cls = .routine →
        (∀ x ∈ before ++ after, x.cls ≠ .routine) → r.origin = .line l → r.channel = some c → r.state ≠ .claiming →
        exec (.allStop src cab) s = .next (withOutputs [.acknowledge true, .tone l .lost]
          (withSent (if r.connectSent then [.disconnectPage l c] else [])
            (withQueued [.pageEnd ⟨own s, r.seq⟩ .routine .allStop]
              (pageEnded l .lost (withPages (before ++ after) { heardFrom src s with ppu := { s.ppu with
                orbits := s.ppu.orbits.map fun o => o.map fun x => { x with repeating := false } } })))))

/-- A PAGE-END for the page that a zone plays, and for nothing else in the part's zones, makes it leave without report. -/
def Clause.PageEndStopsThePlayingZone : Prop :=
  ∀ (src : Cabinet) (page : RawId) (reason : Byte) (e : PageEntry) (n : Nat) (z : LocalZone) (s : State), Sending 0 s →
    Known src s → codePage page = some e.page → (zoneOf s z).active = some (.page e n) → (zoneOf s z).held = none →
    (zoneOf s z).pending = [] → (zoneOf s z).evac = [] →
    (∀ y, y ≠ z → holdsPage (zoneOf s y) e.page = false) → (∀ i, slotOf s i = none) →
    exec (.pageEnd src page reason) s = .next (lastLeaves z (withOutputs [.acknowledge true] { heardFrom src s with
      pgo := { s.pgo with view := s.pgo.view.map fun h => h.filter fun x => !decide (x.page = e.page) } }))

/-- The resume choice, here brought by a PAGE-END for the page that a zone plays: a held page resumes unless the first pending one is of
higher class, an ALARM page held in LIVE or TONE in that phase, any other from the start of its first sounding phase; else the first
pending page starts, and a held one stays held. -/
def Clause.ResumeChoiceFollowsTheClass : Prop :=
  ∀ (src : Cabinet) (page : RawId) (reason : Byte) (e : PageEntry) (n : Nat) (z : LocalZone) (notes : Table 8 Nat)
    (s : State), Sending 1 s → s.phase = .running → Known src s → s.ts.notes = some notes → codePage page = some e.page →
    (zoneOf s z).active = some (.page e n) → zoneActive (zoneOf s z).state = true → (zoneOf s z).evac = [] →
    (∀ h, (zoneOf s z).held = some h → h.entry.page ≠ e.page) → (∀ x ∈ (zoneOf s z).pending, x.page ≠ e.page) →
    (∀ y, y ≠ z → holdsPage (zoneOf s y) e.page = false) → (∀ i, slotOf s i = none) →
    let r := zoneOf s z
    let seen := withOutputs [.acknowledge true] { heardFrom src s with
      pgo := { s.pgo with view := s.pgo.view.map fun h => h.filter fun x => !decide (x.page = e.page) } }
    let becomes := fun t => exec (.pageEnd src page reason) s = .next t
    (∀ h, r.held = some h → (∀ x, r.pending.head? = some x → classRank x.cls ≤ classRank h.entry.cls) →
      (∀ c, h.entry.cls = .alarm → h.phase = .live → h.entry.source = .channel c → r.state ≠ .waking →
        becomes (liveResumes z { r with active := some (.page h.entry h.elapsed), held := none } h.entry c seen))
      ∧ ((h.entry.cls = .alarm → h.phase ≠ .live ∧ (h.phase = .tone → h.entry.source = .tone)) →
        becomes (pageBegins z { r with active := some (.page h.entry h.elapsed), held := none } h.entry notes seen)))
    ∧ ∀ x rest, r.pending = x :: rest → (∀ h, r.held = some h → classRank h.entry.cls < classRank x.cls) →
        becomes (pageBegins z { r with active := some (.page x 0), pending := rest } x notes seen)

/-- An ALL-STOP removes the ROUTINE and CODE pages of every zone, without reports, and each zone whose active page it removes makes the
resume choice; the repeat timers of the orbits stop. Zones and orders: log 14. Here no ROUTINE page is the part's own. -/
def Clause.AllStopClearsTheZones : Prop :=
  ∀ (src : Cabinet) (cab : Byte) (s t : State), Ready s → s.clc.link = .running → Known src s →
    (∀ r ∈ s.pgo.pages, r.cls ≠ .routine) →
    Chain (ZoneFreed fun e => decide (e.cls = .routine ∨ e.cls = .code)) allZones
      (withOutputs [.acknowledge true] { heardFrom src s with ppu := { s.ppu with
        orbits := s.ppu.orbits.map fun o => o.map fun x => { x with repeating := false } } }) t →
    exec (.allStop src cab) s = .next t

/-- A PAGE-END removes its page from every zone, without reports, and each zone that played it makes the resume choice. Zones and orders: log 14.
Here the page is in no evacuation set. -/
def Clause.PageEndFreesEveryZone : Prop :=
  ∀ (src : Cabinet) (page : RawId) (reason : Byte) (p : PageId) (s t : State), Ready s → s.clc.link = .running → Known src s →
    codePage page = some p → (∀ z, p ∉ (zoneOf s z).evac) →
    Chain (ZoneFreed fun e => decide (e.page = p)) allZones (withOutputs [.acknowledge true] { heardFrom src s with
      pgo := { s.pgo with view := s.pgo.view.map fun h => h.filter fun x => !decide (x.page = p) } }) t →
    exec (.pageEnd src page reason) s = .next { t with ppu := { t.ppu with
      orbits := t.ppu.orbits.map fun o => o.map fun x => if x.page = some p then { x with page := none } else x } }

/-- PAGE_END and ALL_STOP (any reason and cabinet byte: log 10) at pages, views, orbits and zones, and the resume choice (orders: log 14) -/
def Obligations.PageEndsReachPagesAndZones : Prop :=
  Clause.PageEndAndAllStopAreTaken
    ∧ Clause.PageEndStopsThePlayingZone
    ∧ Clause.ResumeChoiceFollowsTheClass
    ∧ Clause.AllStopClearsTheZones
    ∧ Clause.PageEndFreesEveryZone

/-! ### Zones (chapter 7) -/

/-- A page for a RELEASED zone becomes active: through WAKING with a wake time, else at once in its first sounding phase with
its pattern; the level is set for its class, and PLAYING is reported. -/
def Clause.PageStartWakesAReleasedZone : Prop :=
  ∀ (src : Cabinet) (b : RawPageStart) (e : PageEntry) (t : PageTarget) (z : LocalZone) (override : Bool)
    (notes : Table 8 Nat) (s : State), OneZoneStart b src e t z override s → e.cls ≠ .evac → s.ts.notes = some notes →
    let r := zoneOf s z
    let level := targetOf r.cfg.level (levelOf s z).level (some e.cls)
    let taken := fun u => exec (.pageStart src b) s = .next (zoneReports z e.page .playing (levelSet z level u))
    let seen := withOutputs [.acknowledge true] (startSeen src e s)
    r.state = .released → r.active = none → r.evac = [] → (r.cfg.quiet = false ∨ override = true ∨ e.cls = .alarm) →
    (0 < r.cfg.wake → taken (zoneEnters z { r with active := some (.page e 0), state := .waking } true .none seen))
    ∧ (r.cfg.wake = 0 → taken (patternStarts z (firstSound notes e).2.1 (firstSound notes e).2.2
        (zoneEnters z { r with
          active := some (.page e 0), state := (firstSound notes e).1
          keptRun := nextSeq (seqOf s z).number } true .tone seen)))

/-- A page that a zone does not play at once: FAULT out of service or in FAULT, LOCKED for ROUTINE and CODE in a quiet zone
without override, BUSY for ROUTINE against an active page of its class or above; CODE and ALARM wait behind it. -/
def Clause.PageStartIsTurnedAwayOrWaits : Prop :=
  ∀ (src : Cabinet) (b : RawPageStart) (e : PageEntry) (t : PageTarget) (z : LocalZone) (override : Bool) (s : State),
    OneZoneStart b src e t z override s → e.cls ≠ .evac →
    let r := zoneOf s z
    let seen := withOutputs [.acknowledge true] (startSeen src e s)
    let away := fun o => exec (.pageStart src b) s = .next (zoneReports z e.page o seen)
    ((r.state = .outOfService ∨ r.state = .fault) → away .fault)
    ∧ (r.state ≠ .outOfService → r.state ≠ .fault → (e.cls = .routine ∨ e.cls = .code) → r.cfg.quiet = true →
        override = false → away .locked)
    ∧ ∀ x n, r.state ≠ .outOfService → r.state ≠ .fault → (r.cfg.quiet = false ∨ override = true ∨ e.cls = .alarm) →
        r.active = some (.page x n) → classRank e.cls ≤ classRank x.cls →
        (e.cls = .routine → away .busy)
        ∧ (e.cls ≠ .routine → r.pending = [] → exec (.pageStart src b) s =
            .next (zoneReports z e.page .pending (withZone z { r with pending := [e] } seen)))

/-- A PAGE-START with its seize flag frees a zone of every other page on its channel, in the active, held and pending places, each
reported LOST, whether or not the zone belongs to the target. An active page that stays plays on; one that goes brings the resume
choice. Here no other zone places such a page. -/
def Clause.SeizureFreesTheZone : Prop :=
  ∀ (src : Cabinet) (b : RawPageStart) (p : ChannelHold) (c : Channel) (z : LocalZone) (notes : Table 8 Nat) (s : State),
    SeizingStart b src p c s → s.ts.notes = some notes →
    let r := zoneOf s z
    let gone := fun e : PageEntry => decide (e.source = .channel c ∧ e.page ≠ p.page)
    (∀ y, y ≠ z → pickActive gone (zoneOf s y) = none ∧ pickHeld gone (zoneOf s y) = none
      ∧ (zoneOf s y).pending.all (fun e => !gone e) = true) →
    let held := r.held.filter fun h => !gone h.entry
    let pending := r.pending.filter fun e => !gone e
    let lost := (pickActive gone r).toList ++ (pickHeld gone r).toList ++ r.pending.filter gone
    s.clc.queue.length + lost.length + 1 ≤ txCapacity →
    let freed := { r with held := held, pending := pending }
    let seen := withQueued (lost.map fun e => .zoneReport e.page (numberOf s z) .lost)
      (withZone z freed (withOutputs [.acknowledge true] (withView c (some p) (heardFrom src s))))
    let becomes := fun t => exec (.pageStart src b) s = .next t
    (pickActive gone r = none → becomes seen)
    ∧ (∀ e n, r.active = some (.page e n) → gone e = true → zoneActive r.state = true → r.evac = [] →
      (held = none → pending = [] → becomes (lastLeaves z seen))
      ∧ (∀ x rest, held = none → pending = x :: rest →
        becomes (pageBegins z { freed with active := some (.page x 0), pending := rest } x notes seen))
      ∧ (∀ h, held = some h → pending = [] → (h.entry.cls = .alarm → h.phase ≠ .live ∧ h.phase ≠ .tone) →
        becomes (pageBegins z { freed with active := some (.page h.entry h.elapsed), held := none } h.entry notes seen)))

/-- A CODE or ALARM page against an active page of its class or above, or the evacuation, takes its place in the pending list: PENDING; of
five entries the last leaves, FULL where it is the new page, else DROPPED, reported before the new page's PENDING (log 14). -/
def Clause.PagesWaitInTheirOrder : Prop :=
  ∀ (src : Cabinet) (b : RawPageStart) (e : PageEntry) (t : PageTarget) (z : LocalZone) (override : Bool)
    (l : List PageEntry) (s : State), OneZoneStart b src e t z override s → Sending 2 s →
    let r := zoneOf s z
    let seen := withOutputs [.acknowledge true] (startSeen src e s)
    let waits := withZone z { r with pending := l.take 4 } seen
    let becomes := fun u => exec (.pageStart src b) s = .next u
    r.state ≠ .fault → r.state ≠ .outOfService → (e.cls = .code → r.cfg.quiet = true → override = true) →
    (e.cls = .code ∨ e.cls = .alarm) →
    (r.active = some .evacuation ∨ ∃ x n, r.active = some (.page x n) ∧ classRank e.cls ≤ classRank x.cls) →
    Placed false e r.pending l →
    (l.length ≤ 4 → becomes (zoneReports z e.page .pending waits))
    ∧ ∀ y, l.length = 5 → l.getLast? = some y →
      (y = e → becomes (zoneReports z e.page .full waits))
      ∧ (y ≠ e → becomes (zoneReports z e.page .pending (zoneReports z y.page .dropped waits)))

/-- A PAGE_START at a zone: played, turned away, pending in its order or FULL, and the pages its seize flag removes (orders: log 14) -/
def Obligations.PageStartMeetsAZone : Prop :=
  Clause.PageStartWakesAReleasedZone
    ∧ Clause.PageStartIsTurnedAwayOrWaits
    ∧ Clause.SeizureFreesTheZone
    ∧ Clause.PagesWaitInTheirOrder

/-- An ALARM page on a channel preempts a LIVE ROUTINE page, which is LOST, and a sounding CODE chime, which is HELD; its prelude
starts at once. -/
def Clause.AlarmPreemptsALowerPage : Prop :=
  ∀ (src : Cabinet) (b : RawPageStart) (e : PageEntry) (t : PageTarget) (z : LocalZone) (override : Bool)
    (notes : Table 8 Nat) (c : Channel) (x : PageEntry) (n : Nat) (s : State), OneZoneStart b src e t z override s →
    Sending 2 s → s.ts.notes = some notes → e.cls = .alarm → e.source = .channel c → (zoneOf s z).evac = [] →
    (zoneOf s z).active = some (.page x n) → (zoneOf s z).held = none →
    let r := zoneOf s z
    let level := targetOf r.cfg.level (levelOf s z).level (some .alarm)
    let seen := withOutputs [.acknowledge true] (startSeen src e s)
    let plays := fun r' u => exec (.pageStart src b) s = .next (zoneReports z e.page .playing (levelSet z level
      (patternStarts z .alarmPrelude (notes.get 2) (zoneEnters z { r' with
        active := some (.page e 0), state := .chime, keptRun := nextSeq (seqOf s z).number } true .tone u))))
    (x.cls = .routine → r.state = .live → plays r (zoneReports z x.page .lost seen))
    ∧ (x.cls = .code → r.state = .code →
        plays { r with held := some ⟨x, .code, n⟩ } (zoneReports z x.page .held seen))

/-- An EVAC page starts the evacuation in a RELEASED zone: WAKING, its set holding the page, the level at the floor, EVAC-ACTIVE
raised with the zone number, PLAYING reported. One that meets the evacuation joins the set, but for a cabinet's second. -/
def Clause.EvacuationStartsAndGathers : Prop :=
  ∀ (src : Cabinet) (b : RawPageStart) (e : PageEntry) (t : PageTarget) (z : LocalZone) (override : Bool) (s : State),
    OneZoneStart b src e t z override s → e.cls = .evac → e.source = .tone →
    let r := zoneOf s z
    let seen := withOutputs [.acknowledge true] (heardFrom src s)
    (r.state = .released → r.active = none → r.evac = [] → 0 < r.cfg.wake →
      exec (.pageStart src b) s = .next (zoneReports z e.page .playing (raise .evacActive (numberOf s z).val .zc
        (levelSet z r.cfg.level.floor (zoneEnters z { r with
          evac := [e.page], active := some .evacuation, state := .waking } true .none seen)))))
    ∧ (r.state ≠ .outOfService → r.state ≠ .fault → r.evac ≠ [] →
      exec (.pageStart src b) s = .next (zoneReports z e.page .playing (withZone z { r with
        evac := if r.evac.any (fun x => decide (x.cab = e.page.cab)) then r.evac else r.evac ++ [e.page] } seen)))

/-- A page that a zone takes up, over nothing active or over a page of lower class, which gives way: it plays, from RELEASED with a wake
time through WAKING, in WAKING under the running timer, from HANG and any other state at once; an EVAC page starts the evacuation in the
same way. The reports of a displacement come in the order HELD, PENDING, DROPPED, and the attenuation order goes last (log 14). -/
def Clause.PagesTakeAZone : Prop :=
  ∀ (src : Cabinet) (b : RawPageStart) (e : PageEntry) (t : PageTarget) (z : LocalZone) (override : Bool)
    (notes : Table 8 Nat) (s u : State), OneZoneStart b src e t z override s → Sending 4 s → s.ts.notes = some notes →
    let r := zoneOf s z
    let seen := withOutputs [.acknowledge true] (startSeen src e s)
    r.state ≠ .fault → r.state ≠ .outOfService → r.evac = [] →
    (e.cls = .routine ∨ e.cls = .code → r.cfg.quiet = true → override = true) →
    ((r.active = none ∧ u = seen)
      ∨ ((∃ x n, r.active = some (.page x n) ∧ classRank x.cls < classRank e.cls) ∧ Displaced z seen u)) →
    exec (.pageStart src b) s = .next (if e.cls = .evac then
        zoneReports z e.page .playing (evacuationStarts z { zoneOf u z with active := some .evacuation, evac := [e.page] } notes u)
      else pagePlays z { zoneOf u z with active := some (.page e 0) } e notes u)

/-- An EVAC page at a zone in FAULT joins the set, but for a cabinet's second, and is reported FAULT; a set that was empty raises
EVAC-ACTIVE with the zone number, and the level goes to the floor. -/
def Clause.EvacuationJoinsInFault : Prop :=
  ∀ (src : Cabinet) (b : RawPageStart) (e : PageEntry) (t : PageTarget) (z : LocalZone) (override : Bool) (s : State),
    OneZoneStart b src e t z override s → e.cls = .evac →
    let r := zoneOf s z
    let seen := withOutputs [.acknowledge true] (startSeen src e s)
    r.state = .fault →
    (r.evac = [] → exec (.pageStart src b) s = .next (zoneReports z e.page .fault (levelSet z r.cfg.level.floor
      (raise .evacActive (numberOf s z).val .zc (withZone z { r with evac := [e.page] } seen)))))
    ∧ (r.evac ≠ [] → exec (.pageStart src b) s = .next (zoneReports z e.page .fault (withZone z { r with
        evac := if r.evac.any (fun x => decide (x.cab = e.page.cab)) then r.evac else r.evac ++ [e.page] } seen)))

/-- In LISTENING a zone takes EVAC pages alone, and reports nothing: it starts the evacuation, or the page joins its set. A PAGE-START of
another class is noted in the channel view; a STATUS with its evacuation flag set starts the evacuation too, and is not answered. The
attenuation order goes last (log 14). -/
def Clause.ListeningZonesTakeEvacuationsAlone : Prop :=
  ∀ (src : Cabinet) (z : LocalZone) (notes : Table 8 Nat) (s : State), Ready s → s.clc.link = .listening →
    s.phase = .listening → s.ts.notes = some notes →
    let r := zoneOf s z
    let evacuates := fun p u => evacuationStarts z { r with active := some .evacuation, evac := [p] } notes u
    (∀ b e t override, StartFor b src e t z override s →
      let seen := withOutputs [.acknowledge true] (startSeen src e s)
      (e.cls ≠ .evac → exec (.pageStart src b) s = .next seen)
      ∧ (e.cls = .evac → r.state ≠ .fault → r.state ≠ .outOfService →
        (r.evac = [] → r.active = none → exec (.pageStart src b) s = .next (evacuates e.page seen))
        ∧ (r.evac ≠ [] → exec (.pageStart src b) s = .next (withZone z { r with
            evac := if r.evac.any (fun x => decide (x.cab = e.page.cab)) then r.evac else r.evac ++ [e.page] } seen))))
    ∧ ∀ b f p t, Known src s → codeLinkField b.link = some f → codeEvacuation b = some (some p) → codeChannels b = some t →
        (∀ c, (t.get c).isSome = true → channelRecord s c = none) → p.cab = src → r.state ≠ .fault →
        r.state ≠ .outOfService → r.evac = [] → r.active = none → holdsPage r p = false →
        (∀ y, y ≠ z → (zoneOf s y).evac.any (fun x => decide (x.cab = src)) = true) →
        exec (.status src b) s =
          .next (evacuates p (withOutputs [.acknowledge true] (statusTaken src .running (some p) t s)))

/-- A page takes a zone, an ALARM page over a lower one, and the evacuation starts and gathers (orders: log 14; second EVAC page: log 35) -/
def Obligations.AlarmsAndEvacuationsTakeAZone : Prop :=
  Clause.AlarmPreemptsALowerPage
    ∧ Clause.EvacuationStartsAndGathers
    ∧ Clause.PagesTakeAZone
    ∧ Clause.EvacuationJoinsInFault
    ∧ Clause.ListeningZonesTakeEvacuationsAlone

/-- Wake timer: a WAKING zone enters the first sounding phase of its page. Hang timer: a HANG zone is RELEASED. Neither acts in
another state (log 1). -/
def Clause.WakeAndHangTimersMoveTheZone : Prop :=
  ∀ (z : LocalZone) (e : PageEntry) (n : Nat) (notes : Table 8 Nat) (s : State), Ready s → s.ts.notes = some notes →
    let r := zoneOf s z
    (r.state = .waking → r.active = some (.page e n) → exec (.wakeTimerExpiry z) s =
      .next (patternStarts z (firstSound notes e).2.1 (firstSound notes e).2.2 (zoneEnters z { r with
        state := (firstSound notes e).1, keptRun := nextSeq (seqOf s z).number } true .tone (withOutputs [] s))))
    ∧ (r.state = .waking → r.active = some .evacuation → exec (.wakeTimerExpiry z) s =
      .next (patternStarts z .evacTone (notes.get 6) (zoneEnters z { r with
        state := .tone, keptRun := nextSeq (seqOf s z).number } true .tone (withOutputs [] s))))
    ∧ (r.state ≠ .waking → exec (.wakeTimerExpiry z) s = .next (withOutputs [] s))
    ∧ (r.state = .hang → exec (.hangTimerExpiry z) s =
      .next (zoneEnters z { r with state := .released } false .none (withOutputs [] s)))
    ∧ (r.state ≠ .hang → exec (.hangTimerExpiry z) s = .next (withOutputs [] s))

/-- The ZC takes the oldest completion report of a zone (log 19). With the run number it keeps, a prelude brings LIVE on the page's
channel, and a code chime ends the page with ENDED; else, or in another state, nothing more happens. -/
def Clause.CompletionAdvancesTheActivePage : Prop :=
  ∀ (z : LocalZone) (x : Completion) (rest : List Completion) (e : PageEntry) (n : Nat) (s : State), Sending 1 s →
    s.phase = .running → (seqOf s z).reports = x :: rest → (zoneOf s z).active = some (.page e n) →
    let r := zoneOf s z
    let taken := withOutputs [] (withSequencer z { seqOf s z with reports := rest } s)
    (x.run = r.keptRun → r.state = .chime → (seqOf s z).run = none → ∀ c, e.source = .channel c →
        exec (.patternCompletion z) s = .next (zoneEnters z { r with state := .live } true (.channel c) taken))
    ∧ (x.run = r.keptRun → r.state = .code → r.held = none → r.pending = [] →
        exec (.patternCompletion z) s = .next (lastLeaves z (zoneReports z e.page .ended taken)))
    ∧ ((x.run ≠ r.keptRun ∨ (r.state ≠ .chime ∧ r.state ≠ .code)) → exec (.patternCompletion z) s = .next taken)

/-- A code chime that ends takes its page away with ENDED, and the resume choice follows, whatever is held or pending (orders: log 14). -/
def Clause.EndedChimeBringsTheResumeChoice : Prop :=
  ∀ (z : LocalZone) (x : Completion) (rest : List Completion) (e : PageEntry) (n : Nat) (s t : State), Sending 1 s →
    s.phase = .running → (seqOf s z).reports = x :: rest → (zoneOf s z).active = some (.page e n) →
    (∀ h, (zoneOf s z).held = some h → h.entry.page ≠ e.page) → (∀ y ∈ (zoneOf s z).pending, y.page ≠ e.page) →
    x.run = (zoneOf s z).keptRun → (zoneOf s z).state = .code →
    ZoneFreed (fun y => decide (y.page = e.page)) z (zoneReports z e.page .ended
      (withOutputs [] (withSequencer z { seqOf s z with reports := rest } s))) t →
    exec (.patternCompletion z) s = .next t

/-- The wake and hang timers (not running: log 1) and a completion report (the oldest: log 19) move a zone on (orders: log 14) -/
def Obligations.ZonePhasesAdvance : Prop :=
  Clause.WakeAndHangTimersMoveTheZone ∧ Clause.CompletionAdvancesTheActivePage ∧ Clause.EndedChimeBringsTheResumeChoice

/-- A second of an active ROUTINE or ALARM page counts; at the class maximum the page leaves with TIMED-OUT, here with nothing
held or pending. CODE pages, the evacuation and an empty place do not count (the tick where the timer does not run: log 1). -/
def Clause.ElapsedSecondsReachTheClassMaximum : Prop :=
  ∀ (z : LocalZone) (e : PageEntry) (n : Nat) (s : State), Sending 1 s → s.phase = .running →
    let r := zoneOf s z
    let maximum := if e.cls = .routine then s.zc.routineMax else s.zc.alarmMax
    (r.active = some (.page e n) → (e.cls = .routine ∨ e.cls = .alarm) →
      (n + 1 < maximum → exec (.elapsedSecondTick z) s =
        .next (withOutputs [] (withZone z { r with active := some (.page e (n + 1)) } s)))
      ∧ (n + 1 = maximum → r.held = none → r.pending = [] → exec (.elapsedSecondTick z) s =
        .next (lastLeaves z (zoneReports z e.page .timedOut (withOutputs [] s)))))
    ∧ (r.active = some (.page e n) → (e.cls = .code ∨ e.cls = .evac) →
        exec (.elapsedSecondTick z) s = .next (withOutputs [] s))
    ∧ ((r.active = none ∨ r.active = some .evacuation) → exec (.elapsedSecondTick z) s = .next (withOutputs [] s))

/-- A page that reaches its class maximum leaves with TIMED-OUT, and the resume choice follows, whatever is held or pending (orders: log 14). -/
def Clause.TimedOutPageBringsTheResumeChoice : Prop :=
  ∀ (z : LocalZone) (e : PageEntry) (n : Nat) (s t : State), Sending 1 s → s.phase = .running →
    let r := zoneOf s z
    r.active = some (.page e n) → (e.cls = .routine ∨ e.cls = .alarm) →
    n + 1 = (if e.cls = .routine then s.zc.routineMax else s.zc.alarmMax) →
    (∀ h, r.held = some h → h.entry.page ≠ e.page) → (∀ y ∈ r.pending, y.page ≠ e.page) →
    ZoneFreed (fun y => decide (y.page = e.page)) z (zoneReports z e.page .timedOut
      (withOutputs [] (withZone z { r with active := some (.page e (n + 1)) } s))) t →
    exec (.elapsedSecondTick z) s = .next t

/-- The one-second timer of an active page and the class maximum (where it does not run: log 1; order of the orders: log 14) -/
def Obligations.ElapsedSecondsReachTheClassMaximum : Prop :=
  Clause.ElapsedSecondsReachTheClassMaximum ∧ Clause.TimedOutPageBringsTheResumeChoice

/-- An amplifier fault takes an in-service zone to FAULT: the pages of its active, held and pending places are reported FAULT and gone,
those of its evacuation set reported FAULT and kept; the sequencer has stopped, the amplifier is disabled, AMP-FAULT is raised with
the zone number, and the level is set where a page was active. That in the start-up phase LISTENING nothing is reported is log 11. -/
def Clause.ZoneEntersFault : Prop :=
  ∀ (z : LocalZone) (s : State), Ready s → ((s.clc.link = .running ∧ s.phase = .running) ∨ s.phase = .listening) →
    let r := zoneOf s z
    let pin := fun (x : Bool) (t : State) => { t with pins := { t.pins with ampFault := t.pins.ampFault.set z x } }
    let activePage := match r.active with
      | some (.page e _) => [e.page]
      | _ => []
    let reported := if s.phase = .running then
      activePage ++ (r.held.map (·.entry.page)).toList ++ r.pending.map (·.page) ++ r.evac else []
    let cls := if r.evac = [] then none else some PageClass.evac
    s.pins.ampFault.get z = false →
    (r.state ≠ .outOfService → s.clc.queue.length + reported.length ≤ txCapacity →
      let u := withQueued (reported.map fun p => .zoneReport p (numberOf s z) .fault) (withOutputs [] s)
      let faulted := raise .ampFault (numberOf s z).val .zc (pin true
        (zoneEnters z { r with active := none, held := none, pending := [], ampFault := true, state := .fault } false .none
          (if sounding r.state then patternStops z u else u)))
      (r.active ≠ none → exec (.ampFaultActive z) s =
        .next (levelSet z (targetOf r.cfg.level (levelOf s z).level cls) faulted))
      ∧ (r.active = none → exec (.ampFaultActive z) s = .next faulted))
    ∧ (r.state = .outOfService → exec (.ampFaultActive z) s =
        .next (pin true (withOutputs [] (withZone z { r with ampFault := true } s))))

/-- The end of an amplifier fault makes the zone RELEASED; an evacuation still in its set becomes active at once, through WAKING with a
wake time, and EVAC-ACTIVE is not raised again; so too in the start-up phase LISTENING. -/
def Clause.AmplifierFaultEndReleasesTheZone : Prop :=
  ∀ (z : LocalZone) (notes : Table 8 Nat) (s : State), Ready s → (s.phase = .running ∨ s.phase = .listening) →
    s.ts.notes = some notes →
    let r := zoneOf s z
    let pin := fun (x : Bool) (t : State) => { t with pins := { t.pins with ampFault := t.pins.ampFault.set z x } }
    let freed := zoneEnters z { r with ampFault := false, state := .released } false .none (withOutputs [] s)
    s.pins.ampFault.get z = true →
    (r.state = .fault →
      (r.evac = [] → exec (.ampFaultInactive z) s = .next (pin false freed))
      ∧ (r.evac ≠ [] → 0 < r.cfg.wake → exec (.ampFaultInactive z) s = .next (pin false (levelSet z r.cfg.level.floor
          (zoneEnters z { r with ampFault := false, active := some .evacuation, state := .waking } true .none freed))))
      ∧ (r.evac ≠ [] → r.cfg.wake = 0 → exec (.ampFaultInactive z) s = .next (pin false (levelSet z r.cfg.level.floor
          (patternStarts z .evacTone (notes.get 6) (zoneEnters z { r with
            ampFault := false, active := some .evacuation, state := .tone
            keptRun := nextSeq (seqOf s z).number } true .tone freed))))))
    ∧ (r.state = .outOfService → exec (.ampFaultInactive z) s =
        .next (pin false (withOutputs [] (withZone z { r with ampFault := false } s))))

/-- An amplifier fault takes a zone to FAULT with its pages (in LISTENING no report: log 11), its end to RELEASED or the evacuation (orders: log 14) -/
def Obligations.AmplifierFaultTakesTheZone : Prop :=
  Clause.ZoneEntersFault ∧ Clause.AmplifierFaultEndReleasesTheZone

/-! ### Tones and levels (chapters 8 and 9) -/

/-- The step timer: the next step, step 1 again after the last step of a cyclic pattern, and after the last step of a finite one
IDLE, silence and a completion report with the run number, which waits (log 19); each step lasts as its pattern lists. An IDLE
sequencer's does not run (log 1). -/
def Obligations.StepTimerPlaysThePattern : Prop :=
  ∀ (z : LocalZone) (r : Run) (notes : Table 8 Nat) (s : State), Ready s → s.ts.notes = some notes →
    let steps := patternSteps r.pattern
    let plays := fun n (x : StepSound × Nat) =>
      exec (.stepTimerExpiry z) s = .next (sequencerPlays z (some ⟨r.pattern, n⟩) (x.1.map notes.get) (withOutputs [] s))
        ∧ stepTime ⟨r.pattern, n⟩ = some x.2
    ((seqOf s z).run = some r →
      (∀ x, steps[r.step]? = some x → plays (r.step + 1) x)
      ∧ (steps.length = r.step → (r.pattern = .alarmTone ∨ r.pattern = .evacTone) → ∀ x, steps[0]? = some x → plays 1 x)
      ∧ (steps.length = r.step → r.pattern ≠ .alarmTone → r.pattern ≠ .evacTone → exec (.stepTimerExpiry z) s =
          .next (sequencerPlays z none none (withOutputs [] (withSequencer z { seqOf s z with
            reports := (seqOf s z).reports ++ [⟨r.pattern, (seqOf s z).number⟩] } s)))))
    ∧ ((seqOf s z).run = none → exec (.stepTimerExpiry z) s = .next (withOutputs [] s))

/-- The step lists of the patterns: the two preludes, the two tones, and a code chime of one strike per count of each digit of
its orbit, ten for the digit 0. -/
def Obligations.PatternsFollowTheirStepLists : Prop :=
  patternSteps .routinePrelude = [(some 0, 300), (some 1, 300)]
  ∧ patternSteps .alarmPrelude = [(some 2, 200), (some 1, 200), (some 0, 200), (some 2, 200), (some 1, 200), (some 0, 200)]
  ∧ patternSteps .alarmTone = [(some 4, 250), (some 5, 250)]
  ∧ patternSteps .evacTone = [(some 6, 500), (some 7, 500)]
  ∧ ∀ o : OrbitNumber,
      let count := fun d => if d = 0 then 10 else d
      let strike : List (StepSound × Nat) := [(some 3, 150), (none, 150)]
      patternSteps (.code o) = [(some 2, 400), (none, 400)] ++ (List.replicate (count (o.val / 10)) strike).flatten
        ++ [(none, 800)] ++ (List.replicate (count (o.val % 10)) strike).flatten

/-- A fault sample counts; the eighth in a row is the failure, with A from the fallback code and SENSOR-FAILED raised; after it
C goes on moving. -/
def Clause.FaultSamplesFailTheSensor : Prop :=
  ∀ (z : LocalZone) (s : State), Ready s → (s.phase = .listening ∨ s.phase = .running) →
    (zoneOf s z).cfg.inService = true →
    let v := levelOf s z
    let p := (zoneOf s z).cfg.level
    let moves := fun v' t => exec (.ambientSample z 255) s = .next (levelMoves z v' (withOutputs [] t))
    (v.failed = false → v.faultRun < 7 → moves { v with faultRun := v.faultRun + 1 } s)
    ∧ (v.failed = false → v.faultRun = 7 → moves
        (smoothedAt p (levelClass (zoneOf s z)) (16 * p.fallback) { v with faultRun := 8, failed := true })
        (raise .sensorFailed (numberOf s z).val .lvu s))
    ∧ (v.failed = true → moves v s)

/-- A valid sample: a reseed after a failure, held off while the hold-off count stands, and else used by the filter, clipped to
the level plus G and two shifts slower in an active zone. -/
def Clause.ValidSamplesMoveTheLevel : Prop :=
  ∀ (z : LocalZone) (code : Byte) (s : State), Ready s → (s.phase = .listening ∨ s.phase = .running) →
    (zoneOf s z).cfg.inService = true → code ≠ 255 →
    let v := levelOf s z
    let p := (zoneOf s z).cfg.level
    let cls := levelClass (zoneOf s z)
    let active := zoneActive (zoneOf s z).state
    let moves := fun v' => exec (.ambientSample z code) s = .next (levelMoves z v' (withOutputs [] s))
    (v.failed = true → moves (smoothedAt p cls (16 * code.toNat) { v with faultRun := 0, failed := false }))
    ∧ (v.failed = false → 0 < v.holdOff → moves { v with faultRun := 0, holdOff := v.holdOff - 1 })
    ∧ (v.failed = false → v.holdOff = 0 →
        let used := if active then min code.toNat (v.level + p.rise) else code.toNat
        let shift := if active then p.smooth + 2 else p.smooth
        moves (smoothedAt p cls (filterStep v.smoothed used shift) { v with faultRun := 0 }))

/-- No sample is taken in an out-of-service zone, nor in LOADING and HALTED. -/
def Clause.SamplesAreTakenInServiceOnly : Prop :=
  ∀ (z : LocalZone) (code : Byte) (s : State), Ready s →
    ((zoneOf s z).cfg.inService = false ∨ s.phase = .loading ∨ s.phase = .halted) →
    exec (.ambientSample z code) s = .next (withOutputs [] s)

/-- AMBIENT_SAMPLE: fault samples, the failure, the reseed, held-off and used samples, and the move of T and C -/
def Obligations.SamplesMoveTheLevel : Prop :=
  Clause.FaultSamplesFailTheSensor ∧ Clause.ValidSamplesMoveTheLevel ∧ Clause.SamplesAreTakenInServiceOnly

/-- The arithmetic of the level: the filter, the ambient level, the compensation and the target attenuation. -/
def Obligations.LevelArithmetic : Prop :=
  (∀ a used shift : Nat, a ≤ 4064 → used ≤ 254 →
    (filterStep a used shift : Int) = a + Int.tdiv (16 * used - a) (2 ^ shift) ∧ filterStep a used shift ≤ 4064)
  ∧ (∀ a : Nat, a ≤ 4064 → ambientLevel a = (a + 8) / 16 ∧ ambientLevel a ≤ 254)
  ∧ (∀ (p : LevelParams) (level : Nat), LevelParamsOk p → level ≤ 254 →
      compensation p level = Int.tdiv (p.slope * ((level : Int) - p.refAmb)) 4
      ∧ -508 ≤ compensation p level ∧ compensation p level ≤ 508
      ∧ targetOf p level (some .evac) = p.floor
      ∧ (targetOf p level (some .alarm) : Int) = max (p.floor : Int) (min p.ceiling (p.base - compensation p level - 12))
      ∧ ∀ cls, cls ≠ some .evac → cls ≠ some .alarm →
          (targetOf p level cls : Int) = max (p.floor : Int) (min p.ceiling (p.base - compensation p level)))

/-! ### The Shelf Port (chapter 10) -/

/-- A raise sets the flag with the argument and the origin of the raise; the count becomes 1 on a clear flag, and rises by one on
a set flag, saturating at 255. No other entry changes, and nothing outside the condition set. -/
def Clause.RaisesAreKeptInTheConditionSet : Prop :=
  ∀ (c : Condition) (argument : Nat) (origin : Block) (s : State),
    let before := conditionEntry s c
    let after := raise c argument origin s
    ((conditionEntry after c).pending = true ∧ (conditionEntry after c).argument = argument
      ∧ (conditionEntry after c).origin = origin
      ∧ (before.pending = false → (conditionEntry after c).count = 1)
      ∧ (before.pending = true → before.count < 255 → (conditionEntry after c).count = before.count + 1)
      ∧ (before.pending = true → before.count = 255 → (conditionEntry after c).count = 255))
    ∧ (∀ d, d ≠ c → conditionEntry after d = conditionEntry s d)
    ∧ after = { s with spu := { s.spu with conditions := after.spu.conditions } }

/-- A CONDITION-READ is answered with the set flag of highest priority, which is cleared, and with the number of flags still
set; with NONE where no flag is set; and not at all while the output queue is full. -/
def Clause.ConditionReadReportsTheHighestFlag : Prop :=
  ∀ s : State, Ready s →
    let e := conditionEntry s
    let others := fun c => (conditionsByPriority.filter fun d => !decide (d = c) && (e d).pending).length
    (s.spu.output.length < outputCapacity →
      (∀ c, (e c).pending = true → (∀ d, conditionPlace d < conditionPlace c → (e d).pending = false) →
        exec .conditionRead s = .next (withOutputs []
          (withSent [.condition ⟨some c, (e c).argument, (e c).origin, (e c).count, others c⟩] { s with spu := { s.spu with
            conditions := s.spu.conditions.set (conditionPlace c) { e c with pending := false } } })))
      ∧ ((∀ c, (e c).pending = false) → exec .conditionRead s = .next (withOutputs []
          (withSent [.condition ⟨none, 0, .spu, 0, 0⟩] s))))
    ∧ (s.spu.output.length = outputCapacity → exec .conditionRead s =
        .next (withOutputs [] (raise .shelfRecordFault (256 * 5 + 0x89) .spu s)))

/-- Raises of a condition, and the CONDITION_READ that reports and clears the highest -/
def Obligations.ConditionsAreRaisedAndRead : Prop :=
  Clause.RaisesAreKeptInTheConditionSet ∧ Clause.ConditionReadReportsTheHighestFlag

/-- SHELF-CLEAR: the part's call ends without outcome, with a CANCEL if it has parties out; talking lines are BUSY with tone BUSY,
pending ones BUSY with tone LOST; all else is kept. Here at most one call is held, no line rings and no line pages. -/
def Clause.ShelfClearEndsCallsAndTalks : Prop :=
  ∀ s : State, Sending 1 s → (∀ l, (lineOf s l).state ≠ .ringing) → (∀ r ∈ s.pgo.pages, ∀ l, r.origin ≠ .line l) →
    let lines := fun t => withOutputs (clearedTones s) { t with lu := Table.build 16 fun l => clearedLine (lineOf s l) }
    (s.ofm.offers = [] → exec .shelfClear s = .next (lines s))
    ∧ ∀ o, s.ofm.offers = [o] → (∀ i, o.state ≠ .parked i) → exec .shelfClear s =
        .next (lines (callFreed o [] [] (withQueued (if partiesOut o then [.cancel ⟨own s, o.seq⟩] else []) s)))

/-- SHELF-CLEAR ends everything: every record without an outcome (R66), by CANCEL where parties are out, with the orbits of parked calls; each
line as R44 says; the pages of lines with reason CLEARED (R124), in the order of log 14. -/
def Clause.ShelfClearEndsEverything : Prop :=
  ∀ (s a b t v : State), Ready s → Chain (CallEnds none) s.ofm.offers (withOutputs [] s) a → Chain LineCleared allLines a b →
    Chain (LinePageEnds .cleared) (b.pgo.pages.filter fun r => match r.origin with
      | .line _ => true
      | .input _ | .orbit _ => false) b t →
    Delivered t v → exec .shelfClear s = .next v

/-- SHELF_CLEAR ends every call, talk, ringing and page of a line (orders: logs 4 and 14) -/
def Obligations.ShelfClearEndsCallsAndTalks : Prop :=
  Clause.ShelfClearEndsCallsAndTalks ∧ Clause.ShelfClearEndsEverything

/-- A record from the shelf, byte by byte from no byte received: all its bytes are kept up to its sum byte, which makes it a command at
the end of the queue, CALL_ARRIVAL, CALL_GONE, CONDITION_READ or SHELF_CLEAR by its kind, or SHELF_RECORD_BAD where a check fails; no
byte is then received. A part held in RESET receives none (log 3). -/
def Clause.ShelfBytesBecomeCommands : Prop :=
  (∀ (b : Byte) (s : State), s.pins.reset = true → shelfByte b s = s)
  ∧ ∀ (n kind sum : Byte) (payload : List Byte) (s : State), s.pins.reset = false → s.spu.incoming = [] →
    payload.length = n.toNat →
    let record := n :: kind :: (payload ++ [sum])
    let received := fun bytes : List Byte => bytes.foldl (fun t b => shelfByte b t) s
    let becomes := fun c => received record = { s with pending := s.pending ++ [c] }
    let good := (record.map fun b => b.toNat).sum % 256 = 0
    let lengthOf := fun k : Byte => if k = 1 then some 5 else if k = 2 then some 2 else if k = 3 ∨ k = 4 then some 0 else none
    (∀ front back, record = front ++ back → back ≠ [] →
      received front = { s with spu := { s.spu with incoming := front } })
    ∧ ((¬ good ∨ lengthOf kind ≠ some n.toNat) → becomes (.shelfRecordBad record))
    ∧ (∀ a b t c d, good → kind = 1 → payload = [a, b, t, c, d] → becomes
        (.callArrival (BitVec.ofNat 16 (256 * a.toNat + b.toNat)) t (BitVec.ofNat 16 (256 * c.toNat + d.toNat))))
    ∧ (∀ a b, good → kind = 2 → payload = [a, b] → becomes (.callGone (BitVec.ofNat 16 (256 * a.toNat + b.toNat))))
    ∧ (good → kind = 3 → payload = [] → becomes .conditionRead)
    ∧ (good → kind = 4 → payload = [] → becomes .shelfClear)

/-- A complete record that fails a check raises SHELF-RECORD-FAULT with 256 times the cause of the first check it fails plus its
kind byte. A gap inside a record, after the bytes framed before and those that come with it (log 3), abandons the record, with cause
INCOMPLETE and its kind byte, 0 where none has come; between records no gap runs (log 1), and none ends bytes that are complete
(log 21). Nothing else changes. -/
def Clause.BadShelfRecordsRaiseTheFault : Prop :=
  ∀ (n kind : Byte) (rest : List Byte) (s : State), Ready s →
    let sum := ((n :: kind :: rest).map fun b => b.toNat).sum % 256
    let lengthOf := fun k : Byte => if k = 1 then some 5 else if k = 2 then some 2 else if k = 3 ∨ k = 4 then some 0 else none
    let faulted := fun (cause kindByte : Nat) (t : State) => withOutputs [] (raise .shelfRecordFault (256 * cause + kindByte) .spu t)
    let abandoned := { s with spu := { s.spu with incoming := [] } }
    (rest.length = n.toNat + 1 →
      (sum ≠ 0 → exec (.shelfRecordBad (n :: kind :: rest)) s = .next (faulted 2 kind.toNat s))
      ∧ (sum = 0 → lengthOf kind = none → exec (.shelfRecordBad (n :: kind :: rest)) s = .next (faulted 3 kind.toNat s))
      ∧ (∀ k, sum = 0 → lengthOf kind = some k → n.toNat ≠ k →
          exec (.shelfRecordBad (n :: kind :: rest)) s = .next (faulted 4 kind.toNat s)))
    ∧ ∀ bytes,
      (s.spu.incoming ++ bytes = n :: kind :: rest → rest.length ≤ n.toNat →
        exec (.recordGapTimeout bytes) s = .next (faulted 1 kind.toNat abandoned))
      ∧ (s.spu.incoming ++ bytes = n :: kind :: rest → n.toNat < rest.length →
        exec (.recordGapTimeout bytes) s = .next (withOutputs [] s))
      ∧ (s.spu.incoming ++ bytes = [n] → exec (.recordGapTimeout bytes) s = .next (faulted 1 0 abandoned))
      ∧ (s.spu.incoming ++ bytes = [] → exec (.recordGapTimeout bytes) s = .next (withOutputs [] s))

/-- The oldest record of the output queue leaves it as its bytes, of length byte, kind byte, payload and a sum byte that makes
the sum 0 modulo 256. With an empty queue nothing is sent. -/
def Clause.SentRecordsLeaveOldestFirst : Prop :=
  ∀ s : State, Ready s →
    (∀ r rest, s.spu.output = r :: rest →
      exec .outputRecordSent s = .next (withOutputs [.shelfBytes (outBytes r)] { s with spu := { s.spu with output := rest } })
      ∧ ((outBytes r).map fun b => b.toNat).sum % 256 = 0
      ∧ (outBytes r).length = (outPayload r).length + 3
      ∧ (outBytes r).take 2 = [BitVec.ofNat 8 (outPayload r).length, outKind r])
    ∧ (s.spu.output = [] → exec .outputRecordSent s = .next (withOutputs [] s))

/-- ATTENTION is asserted exactly while a condition has its flag set and its enable, bit p - 1 of the mask for priority p, set. -/
def Clause.AttentionFollowsFlagsAndMask : Prop :=
  ∀ s : State, attention s = true ↔
    ∃ c, (conditionEntry s c).pending = true ∧ s.spu.mask.getLsbD (conditionPlace c).val = true

/-- Records from the shelf byte by byte (log 3), bad ones, the gap (logs 1, 21), records sent oldest first, and ATTENTION -/
def Obligations.ShelfRecordsInAndOut : Prop :=
  Clause.ShelfBytesBecomeCommands
    ∧ Clause.BadShelfRecordsRaiseTheFault
    ∧ Clause.SentRecordsLeaveOldestFirst
    ∧ Clause.AttentionFollowsFlagsAndMask

/-! ### Frames, and what every step keeps -/

/-- A notice that a part sends as a frame, stuffed and with its CRC, is read by another part as the same notice: the same kind,
source and fields, with no bit dropped. -/
def Obligations.FramesAreReadAsTheNoticesSent : Prop :=
  ∀ (src : Cabinet) (n : Notice), frameCommand (stuff (plainFrame src n)) = heardAs src n

/-- Every step keeps the capacities: of the transmit queue, the heard-offer list, the ring view and the output queue, with the drop
run at 8 or less; of the offer table and its ringing sets; of the page table, with at most 6 pages of lines and orbits and one of
each contact input, and its report lists; of the zones' pending lists and evacuation sets. No ringing set holds a line twice, no
report list a zone twice and no evacuation set an originator twice. -/
def Clause.StepKeepsTheCapacities : Prop :=
  ∀ s t : State, Capacities s → step s = .next t → Capacities t

/-- Every step keeps each zone's level parameters and level state in their ranges: T and C between F and Cmax, A at most 4064. For the reset
steps this rests on the level values at reset, before a good load, which are the model's choice (log 7). -/
def Clause.StepKeepsLevelsInTheirRanges : Prop :=
  ∀ s t : State, LevelsInRange s → step s = .next t → LevelsInRange t

/-- Every step keeps the capacities of the tables, queues, lists and sets and the ranges of the levels (values at the reset steps: log 7) -/
def Obligations.StepKeepsCapacitiesAndLevels : Prop :=
  Clause.StepKeepsTheCapacities ∧ Clause.StepKeepsLevelsInTheirRanges

/-- Every step keeps at most one notice in an attempt, each with fewer than four failed attempts, and a frame driven exactly while
there is one. -/
def Obligations.StepKeepsOneAttempt : Prop :=
  ∀ s t : State, OneAttempt s → step s = .next t → OneAttempt t

/-- The state after reset meets the three invariants that every step keeps. The level parameters and the level state at reset, before a good
load, are the model's choice (log 7), but for C, which section 11.5 gives; that they lie in their ranges rests on that choice. -/
def Obligations.ResetMeetsTheInvariants : Prop :=
  Capacities State.reset ∧ OneAttempt State.reset ∧ LevelsInRange State.reset
end

