-- ==== Sys2Proof/Laws/Word.lean ====
section
/-! SUPPORT. Laws of tables: what reading an entry gives after each operation. -/

namespace Sys2Proof

variable {n : Nat} {α β : Type}

/-- Two tables with equal entries are equal. -/
theorem Table.ext_get {t u : Table n α} (h : ∀ i, t.get i = u.get i) : t = u := by
  cases t with
  | mk r hr =>
    cases u with
    | mk r' hr' =>
      have : r = r' := by
        apply List.ext_getElem (by rw [hr, hr'])
        intro i h₁ h₂
        exact h ⟨i, hr ▸ h₁⟩
      subst this
      rfl

@[simp] theorem Table.get_set_self (t : Table n α) (i : Fin n) (a : α) : (t.set i a).get i = a := by
  simp [Table.get, Table.set]

@[simp] theorem Table.get_set_ne (t : Table n α) {i j : Fin n} (a : α) (h : j ≠ i) : (t.set i a).get j = t.get j := by
  have : i.val ≠ j.val := fun e => h (Fin.ext e.symm)
  simp [Table.get, Table.set, this]

theorem Table.get_set (t : Table n α) (i j : Fin n) (a : α) : (t.set i a).get j = if j = i then a else t.get j := by
  by_cases h : j = i
  · subst h; simp
  · simp [h]

@[simp] theorem Table.set_set (t : Table n α) (i : Fin n) (a b : α) : (t.set i a).set i b = t.set i b := by
  apply Table.ext_get
  intro j
  simp only [Table.get_set]
  split <;> rfl

@[simp] theorem Table.set_get (t : Table n α) (i : Fin n) : t.set i (t.get i) = t := by
  apply Table.ext_get
  intro j
  rw [Table.get_set]
  split
  · next h => rw [h]
  · rfl

@[simp] theorem Table.get_modify_self (t : Table n α) (i : Fin n) (f : α → α) : (t.modify i f).get i = f (t.get i) := by
  simp [Table.modify]

@[simp] theorem Table.get_modify_ne (t : Table n α) {i j : Fin n} (f : α → α) (h : j ≠ i) :
    (t.modify i f).get j = t.get j := by
  simp [Table.modify, h]

theorem Table.get_modify (t : Table n α) (i j : Fin n) (f : α → α) :
    (t.modify i f).get j = if j = i then f (t.get i) else t.get j := by
  rw [Table.modify, Table.get_set]

@[simp] theorem Table.modify_modify (t : Table n α) (i : Fin n) (f g : α → α) :
    (t.modify i f).modify i g = t.modify i (fun a => g (f a)) := by
  simp [Table.modify]

theorem Table.modify_eq_set (t : Table n α) (i : Fin n) (f : α → α) : t.modify i f = t.set i (f (t.get i)) := rfl

@[simp] theorem Table.set_modify (t : Table n α) (i : Fin n) (a : α) (f : α → α) :
    (t.set i a).modify i f = t.set i (f a) := by
  simp [Table.modify]

@[simp] theorem Table.modify_set (t : Table n α) (i : Fin n) (a : α) (f : α → α) :
    (t.modify i f).set i a = t.set i a := by
  simp [Table.modify]

@[simp] theorem Table.get_map (t : Table n α) (f : α → β) (i : Fin n) : (t.map f).get i = f (t.get i) := by
  simp [Table.get, Table.map]

@[simp] theorem Table.get_build (f : Fin n → α) (i : Fin n) : (Table.build n f).get i = f i := by
  simp [Table.get, Table.build]

@[simp] theorem Table.get_fill (a : α) (i : Fin n) : (Table.fill n a).get i = a := by
  simp [Table.get, Table.fill]

end Sys2Proof
end

