-- ==== Sys2Proof/Laws/State.lean ====
section
/-! SUPPORT. What each update of State leaves in each field: one lemma per field per update, true by rfl. -/

namespace Sys2Proof.Machine

/-! ### onPins -/

@[simp] theorem onPins_pins (f : Pins → Pins) (s : State) : (onPins f s).pins = f s.pins := by rfl
@[simp] theorem onPins_phase (f : Pins → Pins) (s : State) : (onPins f s).phase = s.phase := by rfl
@[simp] theorem onPins_clc (f : Pins → Pins) (s : State) : (onPins f s).clc = s.clc := by rfl
@[simp] theorem onPins_lu (f : Pins → Pins) (s : State) : (onPins f s).lu = s.lu := by rfl
@[simp] theorem onPins_ofm (f : Pins → Pins) (s : State) : (onPins f s).ofm = s.ofm := by rfl
@[simp] theorem onPins_he (f : Pins → Pins) (s : State) : (onPins f s).he = s.he := by rfl
@[simp] theorem onPins_ppu (f : Pins → Pins) (s : State) : (onPins f s).ppu = s.ppu := by rfl
@[simp] theorem onPins_pgo (f : Pins → Pins) (s : State) : (onPins f s).pgo = s.pgo := by rfl
@[simp] theorem onPins_zc (f : Pins → Pins) (s : State) : (onPins f s).zc = s.zc := by rfl
@[simp] theorem onPins_ts (f : Pins → Pins) (s : State) : (onPins f s).ts = s.ts := by rfl
@[simp] theorem onPins_lvu (f : Pins → Pins) (s : State) : (onPins f s).lvu = s.lvu := by rfl
@[simp] theorem onPins_spu (f : Pins → Pins) (s : State) : (onPins f s).spu = s.spu := by rfl
@[simp] theorem onPins_outputs (f : Pins → Pins) (s : State) : (onPins f s).outputs = s.outputs := by rfl
@[simp] theorem onPins_deliveries (f : Pins → Pins) (s : State) : (onPins f s).deliveries = s.deliveries := by rfl
@[simp] theorem onPins_choices (f : Pins → Pins) (s : State) : (onPins f s).choices = s.choices := by rfl
@[simp] theorem onPins_pending (f : Pins → Pins) (s : State) : (onPins f s).pending = s.pending := by rfl

/-! ### setPhase -/

@[simp] theorem setPhase_pins (p : Phase) (s : State) : (setPhase p s).pins = s.pins := by rfl
@[simp] theorem setPhase_phase (p : Phase) (s : State) : (setPhase p s).phase = p := by rfl
@[simp] theorem setPhase_clc (p : Phase) (s : State) : (setPhase p s).clc = s.clc := by rfl
@[simp] theorem setPhase_lu (p : Phase) (s : State) : (setPhase p s).lu = s.lu := by rfl
@[simp] theorem setPhase_ofm (p : Phase) (s : State) : (setPhase p s).ofm = s.ofm := by rfl
@[simp] theorem setPhase_he (p : Phase) (s : State) : (setPhase p s).he = s.he := by rfl
@[simp] theorem setPhase_ppu (p : Phase) (s : State) : (setPhase p s).ppu = s.ppu := by rfl
@[simp] theorem setPhase_pgo (p : Phase) (s : State) : (setPhase p s).pgo = s.pgo := by rfl
@[simp] theorem setPhase_zc (p : Phase) (s : State) : (setPhase p s).zc = s.zc := by rfl
@[simp] theorem setPhase_ts (p : Phase) (s : State) : (setPhase p s).ts = s.ts := by rfl
@[simp] theorem setPhase_lvu (p : Phase) (s : State) : (setPhase p s).lvu = s.lvu := by rfl
@[simp] theorem setPhase_spu (p : Phase) (s : State) : (setPhase p s).spu = s.spu := by rfl
@[simp] theorem setPhase_outputs (p : Phase) (s : State) : (setPhase p s).outputs = s.outputs := by rfl
@[simp] theorem setPhase_deliveries (p : Phase) (s : State) : (setPhase p s).deliveries = s.deliveries := by rfl
@[simp] theorem setPhase_choices (p : Phase) (s : State) : (setPhase p s).choices = s.choices := by rfl
@[simp] theorem setPhase_pending (p : Phase) (s : State) : (setPhase p s).pending = s.pending := by rfl

/-! ### onClc -/

@[simp] theorem onClc_pins (f : Clc → Clc) (s : State) : (onClc f s).pins = s.pins := by rfl
@[simp] theorem onClc_phase (f : Clc → Clc) (s : State) : (onClc f s).phase = s.phase := by rfl
@[simp] theorem onClc_clc (f : Clc → Clc) (s : State) : (onClc f s).clc = f s.clc := by rfl
@[simp] theorem onClc_lu (f : Clc → Clc) (s : State) : (onClc f s).lu = s.lu := by rfl
@[simp] theorem onClc_ofm (f : Clc → Clc) (s : State) : (onClc f s).ofm = s.ofm := by rfl
@[simp] theorem onClc_he (f : Clc → Clc) (s : State) : (onClc f s).he = s.he := by rfl
@[simp] theorem onClc_ppu (f : Clc → Clc) (s : State) : (onClc f s).ppu = s.ppu := by rfl
@[simp] theorem onClc_pgo (f : Clc → Clc) (s : State) : (onClc f s).pgo = s.pgo := by rfl
@[simp] theorem onClc_zc (f : Clc → Clc) (s : State) : (onClc f s).zc = s.zc := by rfl
@[simp] theorem onClc_ts (f : Clc → Clc) (s : State) : (onClc f s).ts = s.ts := by rfl
@[simp] theorem onClc_lvu (f : Clc → Clc) (s : State) : (onClc f s).lvu = s.lvu := by rfl
@[simp] theorem onClc_spu (f : Clc → Clc) (s : State) : (onClc f s).spu = s.spu := by rfl
@[simp] theorem onClc_outputs (f : Clc → Clc) (s : State) : (onClc f s).outputs = s.outputs := by rfl
@[simp] theorem onClc_deliveries (f : Clc → Clc) (s : State) : (onClc f s).deliveries = s.deliveries := by rfl
@[simp] theorem onClc_choices (f : Clc → Clc) (s : State) : (onClc f s).choices = s.choices := by rfl
@[simp] theorem onClc_pending (f : Clc → Clc) (s : State) : (onClc f s).pending = s.pending := by rfl

/-! ### onLine -/

@[simp] theorem onLine_pins (l : Line) (f : LineRec → LineRec) (s : State) : (onLine l f s).pins = s.pins := by rfl
@[simp] theorem onLine_phase (l : Line) (f : LineRec → LineRec) (s : State) : (onLine l f s).phase = s.phase := by rfl
@[simp] theorem onLine_clc (l : Line) (f : LineRec → LineRec) (s : State) : (onLine l f s).clc = s.clc := by rfl
@[simp] theorem onLine_lu (l : Line) (f : LineRec → LineRec) (s : State) :
    (onLine l f s).lu = s.lu.modify l f := by rfl
@[simp] theorem onLine_ofm (l : Line) (f : LineRec → LineRec) (s : State) : (onLine l f s).ofm = s.ofm := by rfl
@[simp] theorem onLine_he (l : Line) (f : LineRec → LineRec) (s : State) : (onLine l f s).he = s.he := by rfl
@[simp] theorem onLine_ppu (l : Line) (f : LineRec → LineRec) (s : State) : (onLine l f s).ppu = s.ppu := by rfl
@[simp] theorem onLine_pgo (l : Line) (f : LineRec → LineRec) (s : State) : (onLine l f s).pgo = s.pgo := by rfl
@[simp] theorem onLine_zc (l : Line) (f : LineRec → LineRec) (s : State) : (onLine l f s).zc = s.zc := by rfl
@[simp] theorem onLine_ts (l : Line) (f : LineRec → LineRec) (s : State) : (onLine l f s).ts = s.ts := by rfl
@[simp] theorem onLine_lvu (l : Line) (f : LineRec → LineRec) (s : State) : (onLine l f s).lvu = s.lvu := by rfl
@[simp] theorem onLine_spu (l : Line) (f : LineRec → LineRec) (s : State) : (onLine l f s).spu = s.spu := by rfl
@[simp] theorem onLine_outputs (l : Line) (f : LineRec → LineRec) (s : State) :
    (onLine l f s).outputs = s.outputs := by rfl
@[simp] theorem onLine_deliveries (l : Line) (f : LineRec → LineRec) (s : State) :
    (onLine l f s).deliveries = s.deliveries := by rfl
@[simp] theorem onLine_choices (l : Line) (f : LineRec → LineRec) (s : State) :
    (onLine l f s).choices = s.choices := by rfl
@[simp] theorem onLine_pending (l : Line) (f : LineRec → LineRec) (s : State) :
    (onLine l f s).pending = s.pending := by rfl

/-! ### onOfm -/

@[simp] theorem onOfm_pins (f : Ofm → Ofm) (s : State) : (onOfm f s).pins = s.pins := by rfl
@[simp] theorem onOfm_phase (f : Ofm → Ofm) (s : State) : (onOfm f s).phase = s.phase := by rfl
@[simp] theorem onOfm_clc (f : Ofm → Ofm) (s : State) : (onOfm f s).clc = s.clc := by rfl
@[simp] theorem onOfm_lu (f : Ofm → Ofm) (s : State) : (onOfm f s).lu = s.lu := by rfl
@[simp] theorem onOfm_ofm (f : Ofm → Ofm) (s : State) : (onOfm f s).ofm = f s.ofm := by rfl
@[simp] theorem onOfm_he (f : Ofm → Ofm) (s : State) : (onOfm f s).he = s.he := by rfl
@[simp] theorem onOfm_ppu (f : Ofm → Ofm) (s : State) : (onOfm f s).ppu = s.ppu := by rfl
@[simp] theorem onOfm_pgo (f : Ofm → Ofm) (s : State) : (onOfm f s).pgo = s.pgo := by rfl
@[simp] theorem onOfm_zc (f : Ofm → Ofm) (s : State) : (onOfm f s).zc = s.zc := by rfl
@[simp] theorem onOfm_ts (f : Ofm → Ofm) (s : State) : (onOfm f s).ts = s.ts := by rfl
@[simp] theorem onOfm_lvu (f : Ofm → Ofm) (s : State) : (onOfm f s).lvu = s.lvu := by rfl
@[simp] theorem onOfm_spu (f : Ofm → Ofm) (s : State) : (onOfm f s).spu = s.spu := by rfl
@[simp] theorem onOfm_outputs (f : Ofm → Ofm) (s : State) : (onOfm f s).outputs = s.outputs := by rfl
@[simp] theorem onOfm_deliveries (f : Ofm → Ofm) (s : State) : (onOfm f s).deliveries = s.deliveries := by rfl
@[simp] theorem onOfm_choices (f : Ofm → Ofm) (s : State) : (onOfm f s).choices = s.choices := by rfl
@[simp] theorem onOfm_pending (f : Ofm → Ofm) (s : State) : (onOfm f s).pending = s.pending := by rfl

/-! ### onHe -/

@[simp] theorem onHe_pins (f : He → He) (s : State) : (onHe f s).pins = s.pins := by rfl
@[simp] theorem onHe_phase (f : He → He) (s : State) : (onHe f s).phase = s.phase := by rfl
@[simp] theorem onHe_clc (f : He → He) (s : State) : (onHe f s).clc = s.clc := by rfl
@[simp] theorem onHe_lu (f : He → He) (s : State) : (onHe f s).lu = s.lu := by rfl
@[simp] theorem onHe_ofm (f : He → He) (s : State) : (onHe f s).ofm = s.ofm := by rfl
@[simp] theorem onHe_he (f : He → He) (s : State) : (onHe f s).he = f s.he := by rfl
@[simp] theorem onHe_ppu (f : He → He) (s : State) : (onHe f s).ppu = s.ppu := by rfl
@[simp] theorem onHe_pgo (f : He → He) (s : State) : (onHe f s).pgo = s.pgo := by rfl
@[simp] theorem onHe_zc (f : He → He) (s : State) : (onHe f s).zc = s.zc := by rfl
@[simp] theorem onHe_ts (f : He → He) (s : State) : (onHe f s).ts = s.ts := by rfl
@[simp] theorem onHe_lvu (f : He → He) (s : State) : (onHe f s).lvu = s.lvu := by rfl
@[simp] theorem onHe_spu (f : He → He) (s : State) : (onHe f s).spu = s.spu := by rfl
@[simp] theorem onHe_outputs (f : He → He) (s : State) : (onHe f s).outputs = s.outputs := by rfl
@[simp] theorem onHe_deliveries (f : He → He) (s : State) : (onHe f s).deliveries = s.deliveries := by rfl
@[simp] theorem onHe_choices (f : He → He) (s : State) : (onHe f s).choices = s.choices := by rfl
@[simp] theorem onHe_pending (f : He → He) (s : State) : (onHe f s).pending = s.pending := by rfl

/-! ### onPpu -/

@[simp] theorem onPpu_pins (f : Ppu → Ppu) (s : State) : (onPpu f s).pins = s.pins := by rfl
@[simp] theorem onPpu_phase (f : Ppu → Ppu) (s : State) : (onPpu f s).phase = s.phase := by rfl
@[simp] theorem onPpu_clc (f : Ppu → Ppu) (s : State) : (onPpu f s).clc = s.clc := by rfl
@[simp] theorem onPpu_lu (f : Ppu → Ppu) (s : State) : (onPpu f s).lu = s.lu := by rfl
@[simp] theorem onPpu_ofm (f : Ppu → Ppu) (s : State) : (onPpu f s).ofm = s.ofm := by rfl
@[simp] theorem onPpu_he (f : Ppu → Ppu) (s : State) : (onPpu f s).he = s.he := by rfl
@[simp] theorem onPpu_ppu (f : Ppu → Ppu) (s : State) : (onPpu f s).ppu = f s.ppu := by rfl
@[simp] theorem onPpu_pgo (f : Ppu → Ppu) (s : State) : (onPpu f s).pgo = s.pgo := by rfl
@[simp] theorem onPpu_zc (f : Ppu → Ppu) (s : State) : (onPpu f s).zc = s.zc := by rfl
@[simp] theorem onPpu_ts (f : Ppu → Ppu) (s : State) : (onPpu f s).ts = s.ts := by rfl
@[simp] theorem onPpu_lvu (f : Ppu → Ppu) (s : State) : (onPpu f s).lvu = s.lvu := by rfl
@[simp] theorem onPpu_spu (f : Ppu → Ppu) (s : State) : (onPpu f s).spu = s.spu := by rfl
@[simp] theorem onPpu_outputs (f : Ppu → Ppu) (s : State) : (onPpu f s).outputs = s.outputs := by rfl
@[simp] theorem onPpu_deliveries (f : Ppu → Ppu) (s : State) : (onPpu f s).deliveries = s.deliveries := by rfl
@[simp] theorem onPpu_choices (f : Ppu → Ppu) (s : State) : (onPpu f s).choices = s.choices := by rfl
@[simp] theorem onPpu_pending (f : Ppu → Ppu) (s : State) : (onPpu f s).pending = s.pending := by rfl

/-! ### onPgo -/

@[simp] theorem onPgo_pins (f : Pgo → Pgo) (s : State) : (onPgo f s).pins = s.pins := by rfl
@[simp] theorem onPgo_phase (f : Pgo → Pgo) (s : State) : (onPgo f s).phase = s.phase := by rfl
@[simp] theorem onPgo_clc (f : Pgo → Pgo) (s : State) : (onPgo f s).clc = s.clc := by rfl
@[simp] theorem onPgo_lu (f : Pgo → Pgo) (s : State) : (onPgo f s).lu = s.lu := by rfl
@[simp] theorem onPgo_ofm (f : Pgo → Pgo) (s : State) : (onPgo f s).ofm = s.ofm := by rfl
@[simp] theorem onPgo_he (f : Pgo → Pgo) (s : State) : (onPgo f s).he = s.he := by rfl
@[simp] theorem onPgo_ppu (f : Pgo → Pgo) (s : State) : (onPgo f s).ppu = s.ppu := by rfl
@[simp] theorem onPgo_pgo (f : Pgo → Pgo) (s : State) : (onPgo f s).pgo = f s.pgo := by rfl
@[simp] theorem onPgo_zc (f : Pgo → Pgo) (s : State) : (onPgo f s).zc = s.zc := by rfl
@[simp] theorem onPgo_ts (f : Pgo → Pgo) (s : State) : (onPgo f s).ts = s.ts := by rfl
@[simp] theorem onPgo_lvu (f : Pgo → Pgo) (s : State) : (onPgo f s).lvu = s.lvu := by rfl
@[simp] theorem onPgo_spu (f : Pgo → Pgo) (s : State) : (onPgo f s).spu = s.spu := by rfl
@[simp] theorem onPgo_outputs (f : Pgo → Pgo) (s : State) : (onPgo f s).outputs = s.outputs := by rfl
@[simp] theorem onPgo_deliveries (f : Pgo → Pgo) (s : State) : (onPgo f s).deliveries = s.deliveries := by rfl
@[simp] theorem onPgo_choices (f : Pgo → Pgo) (s : State) : (onPgo f s).choices = s.choices := by rfl
@[simp] theorem onPgo_pending (f : Pgo → Pgo) (s : State) : (onPgo f s).pending = s.pending := by rfl

/-! ### onZone -/

@[simp] theorem onZone_pins (z : LocalZone) (f : ZoneRec → ZoneRec) (s : State) :
    (onZone z f s).pins = s.pins := by rfl
@[simp] theorem onZone_phase (z : LocalZone) (f : ZoneRec → ZoneRec) (s : State) :
    (onZone z f s).phase = s.phase := by rfl
@[simp] theorem onZone_clc (z : LocalZone) (f : ZoneRec → ZoneRec) (s : State) : (onZone z f s).clc = s.clc := by rfl
@[simp] theorem onZone_lu (z : LocalZone) (f : ZoneRec → ZoneRec) (s : State) : (onZone z f s).lu = s.lu := by rfl
@[simp] theorem onZone_ofm (z : LocalZone) (f : ZoneRec → ZoneRec) (s : State) : (onZone z f s).ofm = s.ofm := by rfl
@[simp] theorem onZone_he (z : LocalZone) (f : ZoneRec → ZoneRec) (s : State) : (onZone z f s).he = s.he := by rfl
@[simp] theorem onZone_ppu (z : LocalZone) (f : ZoneRec → ZoneRec) (s : State) : (onZone z f s).ppu = s.ppu := by rfl
@[simp] theorem onZone_pgo (z : LocalZone) (f : ZoneRec → ZoneRec) (s : State) : (onZone z f s).pgo = s.pgo := by rfl
@[simp] theorem onZone_zc (z : LocalZone) (f : ZoneRec → ZoneRec) (s : State) :
    (onZone z f s).zc = { s.zc with zones := s.zc.zones.modify z f } := by rfl
@[simp] theorem onZone_ts (z : LocalZone) (f : ZoneRec → ZoneRec) (s : State) : (onZone z f s).ts = s.ts := by rfl
@[simp] theorem onZone_lvu (z : LocalZone) (f : ZoneRec → ZoneRec) (s : State) : (onZone z f s).lvu = s.lvu := by rfl
@[simp] theorem onZone_spu (z : LocalZone) (f : ZoneRec → ZoneRec) (s : State) : (onZone z f s).spu = s.spu := by rfl
@[simp] theorem onZone_outputs (z : LocalZone) (f : ZoneRec → ZoneRec) (s : State) :
    (onZone z f s).outputs = s.outputs := by rfl
@[simp] theorem onZone_deliveries (z : LocalZone) (f : ZoneRec → ZoneRec) (s : State) :
    (onZone z f s).deliveries = s.deliveries := by rfl
@[simp] theorem onZone_choices (z : LocalZone) (f : ZoneRec → ZoneRec) (s : State) :
    (onZone z f s).choices = s.choices := by rfl
@[simp] theorem onZone_pending (z : LocalZone) (f : ZoneRec → ZoneRec) (s : State) :
    (onZone z f s).pending = s.pending := by rfl

/-! ### onSequencer -/

@[simp] theorem onSequencer_pins (z : LocalZone) (f : Sequencer → Sequencer) (s : State) :
    (onSequencer z f s).pins = s.pins := by rfl
@[simp] theorem onSequencer_phase (z : LocalZone) (f : Sequencer → Sequencer) (s : State) :
    (onSequencer z f s).phase = s.phase := by rfl
@[simp] theorem onSequencer_clc (z : LocalZone) (f : Sequencer → Sequencer) (s : State) :
    (onSequencer z f s).clc = s.clc := by rfl
@[simp] theorem onSequencer_lu (z : LocalZone) (f : Sequencer → Sequencer) (s : State) :
    (onSequencer z f s).lu = s.lu := by rfl
@[simp] theorem onSequencer_ofm (z : LocalZone) (f : Sequencer → Sequencer) (s : State) :
    (onSequencer z f s).ofm = s.ofm := by rfl
@[simp] theorem onSequencer_he (z : LocalZone) (f : Sequencer → Sequencer) (s : State) :
    (onSequencer z f s).he = s.he := by rfl
@[simp] theorem onSequencer_ppu (z : LocalZone) (f : Sequencer → Sequencer) (s : State) :
    (onSequencer z f s).ppu = s.ppu := by rfl
@[simp] theorem onSequencer_pgo (z : LocalZone) (f : Sequencer → Sequencer) (s : State) :
    (onSequencer z f s).pgo = s.pgo := by rfl
@[simp] theorem onSequencer_zc (z : LocalZone) (f : Sequencer → Sequencer) (s : State) :
    (onSequencer z f s).zc = s.zc := by rfl
@[simp] theorem onSequencer_ts (z : LocalZone) (f : Sequencer → Sequencer) (s : State) :
    (onSequencer z f s).ts = { s.ts with seqs := s.ts.seqs.modify z f } := by rfl
@[simp] theorem onSequencer_lvu (z : LocalZone) (f : Sequencer → Sequencer) (s : State) :
    (onSequencer z f s).lvu = s.lvu := by rfl
@[simp] theorem onSequencer_spu (z : LocalZone) (f : Sequencer → Sequencer) (s : State) :
    (onSequencer z f s).spu = s.spu := by rfl
@[simp] theorem onSequencer_outputs (z : LocalZone) (f : Sequencer → Sequencer) (s : State) :
    (onSequencer z f s).outputs = s.outputs := by rfl
@[simp] theorem onSequencer_deliveries (z : LocalZone) (f : Sequencer → Sequencer) (s : State) :
    (onSequencer z f s).deliveries = s.deliveries := by rfl
@[simp] theorem onSequencer_choices (z : LocalZone) (f : Sequencer → Sequencer) (s : State) :
    (onSequencer z f s).choices = s.choices := by rfl
@[simp] theorem onSequencer_pending (z : LocalZone) (f : Sequencer → Sequencer) (s : State) :
    (onSequencer z f s).pending = s.pending := by rfl

/-! ### onLevel -/

@[simp] theorem onLevel_pins (z : LocalZone) (f : Level → Level) (s : State) : (onLevel z f s).pins = s.pins := by rfl
@[simp] theorem onLevel_phase (z : LocalZone) (f : Level → Level) (s : State) :
    (onLevel z f s).phase = s.phase := by rfl
@[simp] theorem onLevel_clc (z : LocalZone) (f : Level → Level) (s : State) : (onLevel z f s).clc = s.clc := by rfl
@[simp] theorem onLevel_lu (z : LocalZone) (f : Level → Level) (s : State) : (onLevel z f s).lu = s.lu := by rfl
@[simp] theorem onLevel_ofm (z : LocalZone) (f : Level → Level) (s : State) : (onLevel z f s).ofm = s.ofm := by rfl
@[simp] theorem onLevel_he (z : LocalZone) (f : Level → Level) (s : State) : (onLevel z f s).he = s.he := by rfl
@[simp] theorem onLevel_ppu (z : LocalZone) (f : Level → Level) (s : State) : (onLevel z f s).ppu = s.ppu := by rfl
@[simp] theorem onLevel_pgo (z : LocalZone) (f : Level → Level) (s : State) : (onLevel z f s).pgo = s.pgo := by rfl
@[simp] theorem onLevel_zc (z : LocalZone) (f : Level → Level) (s : State) : (onLevel z f s).zc = s.zc := by rfl
@[simp] theorem onLevel_ts (z : LocalZone) (f : Level → Level) (s : State) : (onLevel z f s).ts = s.ts := by rfl
@[simp] theorem onLevel_lvu (z : LocalZone) (f : Level → Level) (s : State) :
    (onLevel z f s).lvu = s.lvu.modify z f := by rfl
@[simp] theorem onLevel_spu (z : LocalZone) (f : Level → Level) (s : State) : (onLevel z f s).spu = s.spu := by rfl
@[simp] theorem onLevel_outputs (z : LocalZone) (f : Level → Level) (s : State) :
    (onLevel z f s).outputs = s.outputs := by rfl
@[simp] theorem onLevel_deliveries (z : LocalZone) (f : Level → Level) (s : State) :
    (onLevel z f s).deliveries = s.deliveries := by rfl
@[simp] theorem onLevel_choices (z : LocalZone) (f : Level → Level) (s : State) :
    (onLevel z f s).choices = s.choices := by rfl
@[simp] theorem onLevel_pending (z : LocalZone) (f : Level → Level) (s : State) :
    (onLevel z f s).pending = s.pending := by rfl

/-! ### onSpu -/

@[simp] theorem onSpu_pins (f : Spu → Spu) (s : State) : (onSpu f s).pins = s.pins := by rfl
@[simp] theorem onSpu_phase (f : Spu → Spu) (s : State) : (onSpu f s).phase = s.phase := by rfl
@[simp] theorem onSpu_clc (f : Spu → Spu) (s : State) : (onSpu f s).clc = s.clc := by rfl
@[simp] theorem onSpu_lu (f : Spu → Spu) (s : State) : (onSpu f s).lu = s.lu := by rfl
@[simp] theorem onSpu_ofm (f : Spu → Spu) (s : State) : (onSpu f s).ofm = s.ofm := by rfl
@[simp] theorem onSpu_he (f : Spu → Spu) (s : State) : (onSpu f s).he = s.he := by rfl
@[simp] theorem onSpu_ppu (f : Spu → Spu) (s : State) : (onSpu f s).ppu = s.ppu := by rfl
@[simp] theorem onSpu_pgo (f : Spu → Spu) (s : State) : (onSpu f s).pgo = s.pgo := by rfl
@[simp] theorem onSpu_zc (f : Spu → Spu) (s : State) : (onSpu f s).zc = s.zc := by rfl
@[simp] theorem onSpu_ts (f : Spu → Spu) (s : State) : (onSpu f s).ts = s.ts := by rfl
@[simp] theorem onSpu_lvu (f : Spu → Spu) (s : State) : (onSpu f s).lvu = s.lvu := by rfl
@[simp] theorem onSpu_spu (f : Spu → Spu) (s : State) : (onSpu f s).spu = f s.spu := by rfl
@[simp] theorem onSpu_outputs (f : Spu → Spu) (s : State) : (onSpu f s).outputs = s.outputs := by rfl
@[simp] theorem onSpu_deliveries (f : Spu → Spu) (s : State) : (onSpu f s).deliveries = s.deliveries := by rfl
@[simp] theorem onSpu_choices (f : Spu → Spu) (s : State) : (onSpu f s).choices = s.choices := by rfl
@[simp] theorem onSpu_pending (f : Spu → Spu) (s : State) : (onSpu f s).pending = s.pending := by rfl

/-! ### setDeliveries -/

@[simp] theorem setDeliveries_pins (d : List Notice) (s : State) : (setDeliveries d s).pins = s.pins := by rfl
@[simp] theorem setDeliveries_phase (d : List Notice) (s : State) : (setDeliveries d s).phase = s.phase := by rfl
@[simp] theorem setDeliveries_clc (d : List Notice) (s : State) : (setDeliveries d s).clc = s.clc := by rfl
@[simp] theorem setDeliveries_lu (d : List Notice) (s : State) : (setDeliveries d s).lu = s.lu := by rfl
@[simp] theorem setDeliveries_ofm (d : List Notice) (s : State) : (setDeliveries d s).ofm = s.ofm := by rfl
@[simp] theorem setDeliveries_he (d : List Notice) (s : State) : (setDeliveries d s).he = s.he := by rfl
@[simp] theorem setDeliveries_ppu (d : List Notice) (s : State) : (setDeliveries d s).ppu = s.ppu := by rfl
@[simp] theorem setDeliveries_pgo (d : List Notice) (s : State) : (setDeliveries d s).pgo = s.pgo := by rfl
@[simp] theorem setDeliveries_zc (d : List Notice) (s : State) : (setDeliveries d s).zc = s.zc := by rfl
@[simp] theorem setDeliveries_ts (d : List Notice) (s : State) : (setDeliveries d s).ts = s.ts := by rfl
@[simp] theorem setDeliveries_lvu (d : List Notice) (s : State) : (setDeliveries d s).lvu = s.lvu := by rfl
@[simp] theorem setDeliveries_spu (d : List Notice) (s : State) : (setDeliveries d s).spu = s.spu := by rfl
@[simp] theorem setDeliveries_outputs (d : List Notice) (s : State) :
    (setDeliveries d s).outputs = s.outputs := by rfl
@[simp] theorem setDeliveries_deliveries (d : List Notice) (s : State) : (setDeliveries d s).deliveries = d := by rfl
@[simp] theorem setDeliveries_choices (d : List Notice) (s : State) :
    (setDeliveries d s).choices = s.choices := by rfl
@[simp] theorem setDeliveries_pending (d : List Notice) (s : State) :
    (setDeliveries d s).pending = s.pending := by rfl

/-! ### emit -/

@[simp] theorem emit_pins (o : Output) (s : State) : (emit o s).pins = s.pins := by rfl
@[simp] theorem emit_phase (o : Output) (s : State) : (emit o s).phase = s.phase := by rfl
@[simp] theorem emit_clc (o : Output) (s : State) : (emit o s).clc = s.clc := by rfl
@[simp] theorem emit_lu (o : Output) (s : State) : (emit o s).lu = s.lu := by rfl
@[simp] theorem emit_ofm (o : Output) (s : State) : (emit o s).ofm = s.ofm := by rfl
@[simp] theorem emit_he (o : Output) (s : State) : (emit o s).he = s.he := by rfl
@[simp] theorem emit_ppu (o : Output) (s : State) : (emit o s).ppu = s.ppu := by rfl
@[simp] theorem emit_pgo (o : Output) (s : State) : (emit o s).pgo = s.pgo := by rfl
@[simp] theorem emit_zc (o : Output) (s : State) : (emit o s).zc = s.zc := by rfl
@[simp] theorem emit_ts (o : Output) (s : State) : (emit o s).ts = s.ts := by rfl
@[simp] theorem emit_lvu (o : Output) (s : State) : (emit o s).lvu = s.lvu := by rfl
@[simp] theorem emit_spu (o : Output) (s : State) : (emit o s).spu = s.spu := by rfl
@[simp] theorem emit_outputs (o : Output) (s : State) : (emit o s).outputs = s.outputs ++ [o] := by rfl
@[simp] theorem emit_deliveries (o : Output) (s : State) : (emit o s).deliveries = s.deliveries := by rfl
@[simp] theorem emit_choices (o : Output) (s : State) : (emit o s).choices = s.choices := by rfl
@[simp] theorem emit_pending (o : Output) (s : State) : (emit o s).pending = s.pending := by rfl

/-! ### raise -/

@[simp] theorem raise_pins (c : Condition) (a : Nat) (o : Block) (s : State) : (raise c a o s).pins = s.pins := by rfl
@[simp] theorem raise_phase (c : Condition) (a : Nat) (o : Block) (s : State) :
    (raise c a o s).phase = s.phase := by rfl
@[simp] theorem raise_clc (c : Condition) (a : Nat) (o : Block) (s : State) : (raise c a o s).clc = s.clc := by rfl
@[simp] theorem raise_lu (c : Condition) (a : Nat) (o : Block) (s : State) : (raise c a o s).lu = s.lu := by rfl
@[simp] theorem raise_ofm (c : Condition) (a : Nat) (o : Block) (s : State) : (raise c a o s).ofm = s.ofm := by rfl
@[simp] theorem raise_he (c : Condition) (a : Nat) (o : Block) (s : State) : (raise c a o s).he = s.he := by rfl
@[simp] theorem raise_ppu (c : Condition) (a : Nat) (o : Block) (s : State) : (raise c a o s).ppu = s.ppu := by rfl
@[simp] theorem raise_pgo (c : Condition) (a : Nat) (o : Block) (s : State) : (raise c a o s).pgo = s.pgo := by rfl
@[simp] theorem raise_zc (c : Condition) (a : Nat) (o : Block) (s : State) : (raise c a o s).zc = s.zc := by rfl
@[simp] theorem raise_ts (c : Condition) (a : Nat) (o : Block) (s : State) : (raise c a o s).ts = s.ts := by rfl
@[simp] theorem raise_lvu (c : Condition) (a : Nat) (o : Block) (s : State) : (raise c a o s).lvu = s.lvu := by rfl
@[simp] theorem raise_spu (c : Condition) (a : Nat) (o : Block) (s : State) :
    (raise c a o s).spu = { s.spu with conditions := s.spu.conditions.modify (conditionPlace c) (raiseEntry a o) } := by rfl
@[simp] theorem raise_outputs (c : Condition) (a : Nat) (o : Block) (s : State) :
    (raise c a o s).outputs = s.outputs := by rfl
@[simp] theorem raise_deliveries (c : Condition) (a : Nat) (o : Block) (s : State) :
    (raise c a o s).deliveries = s.deliveries := by rfl
@[simp] theorem raise_choices (c : Condition) (a : Nat) (o : Block) (s : State) :
    (raise c a o s).choices = s.choices := by rfl
@[simp] theorem raise_pending (c : Condition) (a : Nat) (o : Block) (s : State) :
    (raise c a o s).pending = s.pending := by rfl

/-! ### clearCondition -/

@[simp] theorem clearCondition_pins (c : Condition) (s : State) : (clearCondition c s).pins = s.pins := by rfl
@[simp] theorem clearCondition_phase (c : Condition) (s : State) : (clearCondition c s).phase = s.phase := by rfl
@[simp] theorem clearCondition_clc (c : Condition) (s : State) : (clearCondition c s).clc = s.clc := by rfl
@[simp] theorem clearCondition_lu (c : Condition) (s : State) : (clearCondition c s).lu = s.lu := by rfl
@[simp] theorem clearCondition_ofm (c : Condition) (s : State) : (clearCondition c s).ofm = s.ofm := by rfl
@[simp] theorem clearCondition_he (c : Condition) (s : State) : (clearCondition c s).he = s.he := by rfl
@[simp] theorem clearCondition_ppu (c : Condition) (s : State) : (clearCondition c s).ppu = s.ppu := by rfl
@[simp] theorem clearCondition_pgo (c : Condition) (s : State) : (clearCondition c s).pgo = s.pgo := by rfl
@[simp] theorem clearCondition_zc (c : Condition) (s : State) : (clearCondition c s).zc = s.zc := by rfl
@[simp] theorem clearCondition_ts (c : Condition) (s : State) : (clearCondition c s).ts = s.ts := by rfl
@[simp] theorem clearCondition_lvu (c : Condition) (s : State) : (clearCondition c s).lvu = s.lvu := by rfl
@[simp] theorem clearCondition_spu (c : Condition) (s : State) :
    (clearCondition c s).spu = { s.spu with conditions := s.spu.conditions.modify (conditionPlace c) fun e => { e with pending := false } } := by rfl
@[simp] theorem clearCondition_outputs (c : Condition) (s : State) :
    (clearCondition c s).outputs = s.outputs := by rfl
@[simp] theorem clearCondition_deliveries (c : Condition) (s : State) :
    (clearCondition c s).deliveries = s.deliveries := by rfl
@[simp] theorem clearCondition_choices (c : Condition) (s : State) :
    (clearCondition c s).choices = s.choices := by rfl
@[simp] theorem clearCondition_pending (c : Condition) (s : State) :
    (clearCondition c s).pending = s.pending := by rfl

/-! ### Reads after updates -/

@[simp] theorem own_onPins (f : Pins → Pins) (s : State) : own (onPins f s) = own s := by rfl
@[simp] theorem cutOff_onPins (f : Pins → Pins) (s : State) : cutOff (onPins f s) = cutOff s := by rfl
@[simp] theorem lineOf_onPins (f : Pins → Pins) (s : State) (l : Line) : lineOf (onPins f s) l = lineOf s l := by rfl
@[simp] theorem zoneOf_onPins (f : Pins → Pins) (s : State) (y : LocalZone) : zoneOf (onPins f s) y = zoneOf s y := by rfl
@[simp] theorem own_setPhase (p : Phase) (s : State) : own (setPhase p s) = own s := by rfl
@[simp] theorem cutOff_setPhase (p : Phase) (s : State) : cutOff (setPhase p s) = cutOff s := by rfl
@[simp] theorem lineOf_setPhase (p : Phase) (s : State) (l : Line) : lineOf (setPhase p s) l = lineOf s l := by rfl
@[simp] theorem zoneOf_setPhase (p : Phase) (s : State) (y : LocalZone) : zoneOf (setPhase p s) y = zoneOf s y := by rfl
@[simp] theorem lineOf_onClc (f : Clc → Clc) (s : State) (l : Line) : lineOf (onClc f s) l = lineOf s l := by rfl
@[simp] theorem zoneOf_onClc (f : Clc → Clc) (s : State) (y : LocalZone) : zoneOf (onClc f s) y = zoneOf s y := by rfl
@[simp] theorem own_onLine (l : Line) (f : LineRec → LineRec) (s : State) : own (onLine l f s) = own s := by rfl
@[simp] theorem cutOff_onLine (l : Line) (f : LineRec → LineRec) (s : State) : cutOff (onLine l f s) = cutOff s := by rfl
@[simp] theorem zoneOf_onLine (l : Line) (f : LineRec → LineRec) (s : State) (y : LocalZone) : zoneOf (onLine l f s) y = zoneOf s y := by rfl
@[simp] theorem own_onOfm (f : Ofm → Ofm) (s : State) : own (onOfm f s) = own s := by rfl
@[simp] theorem cutOff_onOfm (f : Ofm → Ofm) (s : State) : cutOff (onOfm f s) = cutOff s := by rfl
@[simp] theorem lineOf_onOfm (f : Ofm → Ofm) (s : State) (l : Line) : lineOf (onOfm f s) l = lineOf s l := by rfl
@[simp] theorem zoneOf_onOfm (f : Ofm → Ofm) (s : State) (y : LocalZone) : zoneOf (onOfm f s) y = zoneOf s y := by rfl
@[simp] theorem own_onHe (f : He → He) (s : State) : own (onHe f s) = own s := by rfl
@[simp] theorem cutOff_onHe (f : He → He) (s : State) : cutOff (onHe f s) = cutOff s := by rfl
@[simp] theorem lineOf_onHe (f : He → He) (s : State) (l : Line) : lineOf (onHe f s) l = lineOf s l := by rfl
@[simp] theorem zoneOf_onHe (f : He → He) (s : State) (y : LocalZone) : zoneOf (onHe f s) y = zoneOf s y := by rfl
@[simp] theorem own_onPpu (f : Ppu → Ppu) (s : State) : own (onPpu f s) = own s := by rfl
@[simp] theorem cutOff_onPpu (f : Ppu → Ppu) (s : State) : cutOff (onPpu f s) = cutOff s := by rfl
@[simp] theorem lineOf_onPpu (f : Ppu → Ppu) (s : State) (l : Line) : lineOf (onPpu f s) l = lineOf s l := by rfl
@[simp] theorem zoneOf_onPpu (f : Ppu → Ppu) (s : State) (y : LocalZone) : zoneOf (onPpu f s) y = zoneOf s y := by rfl
@[simp] theorem own_onPgo (f : Pgo → Pgo) (s : State) : own (onPgo f s) = own s := by rfl
@[simp] theorem cutOff_onPgo (f : Pgo → Pgo) (s : State) : cutOff (onPgo f s) = cutOff s := by rfl
@[simp] theorem lineOf_onPgo (f : Pgo → Pgo) (s : State) (l : Line) : lineOf (onPgo f s) l = lineOf s l := by rfl
@[simp] theorem zoneOf_onPgo (f : Pgo → Pgo) (s : State) (y : LocalZone) : zoneOf (onPgo f s) y = zoneOf s y := by rfl
@[simp] theorem own_onZone (z : LocalZone) (f : ZoneRec → ZoneRec) (s : State) : own (onZone z f s) = own s := by rfl
@[simp] theorem cutOff_onZone (z : LocalZone) (f : ZoneRec → ZoneRec) (s : State) : cutOff (onZone z f s) = cutOff s := by rfl
@[simp] theorem lineOf_onZone (z : LocalZone) (f : ZoneRec → ZoneRec) (s : State) (l : Line) : lineOf (onZone z f s) l = lineOf s l := by rfl
@[simp] theorem own_onSequencer (z : LocalZone) (f : Sequencer → Sequencer) (s : State) : own (onSequencer z f s) = own s := by rfl
@[simp] theorem cutOff_onSequencer (z : LocalZone) (f : Sequencer → Sequencer) (s : State) : cutOff (onSequencer z f s) = cutOff s := by rfl
@[simp] theorem lineOf_onSequencer (z : LocalZone) (f : Sequencer → Sequencer) (s : State) (l : Line) : lineOf (onSequencer z f s) l = lineOf s l := by rfl
@[simp] theorem zoneOf_onSequencer (z : LocalZone) (f : Sequencer → Sequencer) (s : State) (y : LocalZone) : zoneOf (onSequencer z f s) y = zoneOf s y := by rfl
@[simp] theorem own_onLevel (z : LocalZone) (f : Level → Level) (s : State) : own (onLevel z f s) = own s := by rfl
@[simp] theorem cutOff_onLevel (z : LocalZone) (f : Level → Level) (s : State) : cutOff (onLevel z f s) = cutOff s := by rfl
@[simp] theorem lineOf_onLevel (z : LocalZone) (f : Level → Level) (s : State) (l : Line) : lineOf (onLevel z f s) l = lineOf s l := by rfl
@[simp] theorem zoneOf_onLevel (z : LocalZone) (f : Level → Level) (s : State) (y : LocalZone) : zoneOf (onLevel z f s) y = zoneOf s y := by rfl
@[simp] theorem own_onSpu (f : Spu → Spu) (s : State) : own (onSpu f s) = own s := by rfl
@[simp] theorem cutOff_onSpu (f : Spu → Spu) (s : State) : cutOff (onSpu f s) = cutOff s := by rfl
@[simp] theorem lineOf_onSpu (f : Spu → Spu) (s : State) (l : Line) : lineOf (onSpu f s) l = lineOf s l := by rfl
@[simp] theorem zoneOf_onSpu (f : Spu → Spu) (s : State) (y : LocalZone) : zoneOf (onSpu f s) y = zoneOf s y := by rfl
@[simp] theorem own_setDeliveries (d : List Notice) (s : State) : own (setDeliveries d s) = own s := by rfl
@[simp] theorem cutOff_setDeliveries (d : List Notice) (s : State) : cutOff (setDeliveries d s) = cutOff s := by rfl
@[simp] theorem lineOf_setDeliveries (d : List Notice) (s : State) (l : Line) : lineOf (setDeliveries d s) l = lineOf s l := by rfl
@[simp] theorem zoneOf_setDeliveries (d : List Notice) (s : State) (y : LocalZone) : zoneOf (setDeliveries d s) y = zoneOf s y := by rfl
@[simp] theorem own_emit (o : Output) (s : State) : own (emit o s) = own s := by rfl
@[simp] theorem cutOff_emit (o : Output) (s : State) : cutOff (emit o s) = cutOff s := by rfl
@[simp] theorem lineOf_emit (o : Output) (s : State) (l : Line) : lineOf (emit o s) l = lineOf s l := by rfl
@[simp] theorem zoneOf_emit (o : Output) (s : State) (y : LocalZone) : zoneOf (emit o s) y = zoneOf s y := by rfl
@[simp] theorem own_raise (c : Condition) (a : Nat) (o : Block) (s : State) : own (raise c a o s) = own s := by rfl
@[simp] theorem cutOff_raise (c : Condition) (a : Nat) (o : Block) (s : State) : cutOff (raise c a o s) = cutOff s := by rfl
@[simp] theorem lineOf_raise (c : Condition) (a : Nat) (o : Block) (s : State) (l : Line) : lineOf (raise c a o s) l = lineOf s l := by rfl
@[simp] theorem zoneOf_raise (c : Condition) (a : Nat) (o : Block) (s : State) (y : LocalZone) : zoneOf (raise c a o s) y = zoneOf s y := by rfl
@[simp] theorem own_clearCondition (c : Condition) (s : State) : own (clearCondition c s) = own s := by rfl
@[simp] theorem cutOff_clearCondition (c : Condition) (s : State) : cutOff (clearCondition c s) = cutOff s := by rfl
@[simp] theorem lineOf_clearCondition (c : Condition) (s : State) (l : Line) : lineOf (clearCondition c s) l = lineOf s l := by rfl
@[simp] theorem zoneOf_clearCondition (c : Condition) (s : State) (y : LocalZone) : zoneOf (clearCondition c s) y = zoneOf s y := by rfl

@[simp] theorem lineOf_onLine_self (l : Line) (f : LineRec → LineRec) (s : State) :
    lineOf (onLine l f s) l = f (lineOf s l) := Table.get_modify_self ..
theorem lineOf_onLine_ne {l m : Line} (f : LineRec → LineRec) (s : State) (h : m ≠ l) :
    lineOf (onLine l f s) m = lineOf s m := Table.get_modify_ne _ f h
@[simp] theorem zoneOf_onZone_self (z : LocalZone) (f : ZoneRec → ZoneRec) (s : State) :
    zoneOf (onZone z f s) z = f (zoneOf s z) := Table.get_modify_self ..
theorem zoneOf_onZone_ne {z y : LocalZone} (f : ZoneRec → ZoneRec) (s : State) (h : y ≠ z) :
    zoneOf (onZone z f s) y = zoneOf s y := Table.get_modify_ne _ f h

end Sys2Proof.Machine
end

