-- ==== Sys2Proof/Laws/Ops.lean ====
section
/-! SUPPORT. What each shared operation does, said once: queueing, withdrawing, sending to the shelf, raising, delivering,
hearing a frame, recomputing availability. -/

namespace Sys2Proof.Machine

/-! ### Two states are equal when their fields are -/

theorem state_eq {s t : State} (h₁ : s.pins = t.pins) (h₂ : s.phase = t.phase) (h₃ : s.clc = t.clc) (h₄ : s.lu = t.lu)
    (h₅ : s.ofm = t.ofm) (h₆ : s.he = t.he) (h₇ : s.ppu = t.ppu) (h₈ : s.pgo = t.pgo) (h₉ : s.zc = t.zc)
    (h₁₀ : s.ts = t.ts) (h₁₁ : s.lvu = t.lvu) (h₁₂ : s.spu = t.spu) (h₁₃ : s.outputs = t.outputs)
    (h₁₄ : s.deliveries = t.deliveries) (h₁₅ : s.choices = t.choices) (h₁₆ : s.pending = t.pending) : s = t := by
  cases s; cases t; simp_all

/-! ### Queueing a notice (R7, R8, R10) -/

/-- A notice that is neither STATUS nor PROBE is never held back by the at-most-one rule (R7). -/
theorem sameHousekeepingQueued_of_not (n : Notice) (q : List TxEntry) (h : isHousekeeping n = false) :
    sameHousekeepingQueued n q = false := by
  simp only [isHousekeeping, Bool.or_eq_false_iff] at h
  simp [sameHousekeepingQueued, h.1, h.2]

/-- A notice joins a queue that has room (R7). -/
theorem joinQueue_room (n : Notice) (s : State) (h : sameHousekeepingQueued n s.clc.queue = false)
    (room : s.clc.queue.length < txCapacity) : joinQueue n s = withQueued [n] s := by
  simp [joinQueue, h, room, withQueued, onClc]

/-- Queueing a notice while the part is RUNNING or LISTENING with room in its queue (R7). -/
theorem queueNotice_room (n : Notice) (s : State) (link : s.clc.link = .running ∨ s.clc.link = .listening)
    (h : sameHousekeepingQueued n s.clc.queue = false) (room : s.clc.queue.length < txCapacity) :
    queueNotice n s = withQueued [n] s := by
  rcases link with link | link <;> simp [queueNotice, link, joinQueue_room n s h room]

/-- Queueing a notice other than STATUS and PROBE while the part is RUNNING with room in its queue (R7). -/
theorem queueNotice_running (n : Notice) (s : State) (link : s.clc.link = .running) (h : isHousekeeping n = false)
    (room : s.clc.queue.length < txCapacity) : queueNotice n s = withQueued [n] s :=
  queueNotice_room n s (Or.inl link) (sameHousekeepingQueued_of_not n _ h) room

/-- Queueing a notice while the part is LOADING or HALTED: it is discarded (R13). -/
theorem queueNotice_off (n : Notice) (s : State) (link : s.clc.link = .loading ∨ s.clc.link = .halted) :
    queueNotice n s = s := by
  rcases link with link | link <;> simp [queueNotice, link]

/-- Queueing a notice other than a PROBE while the part is cut off: it waits for own delivery (R10, R15, R17). -/
theorem queueNotice_cutOff (n : Notice) (s : State) (link : s.clc.link = .isolated ∨ s.clc.link = .listenOnly)
    (h : isProbe n = false) : queueNotice n s = deliverLater n s := by
  rcases link with link | link <;> simp [queueNotice, link, h]

/-- A notice that is neither STATUS nor PROBE waits for own delivery at the end of the list (R10). -/
theorem deliverLater_of_not (n : Notice) (s : State) (h : isHousekeeping n = false) :
    deliverLater n s = { s with deliveries := s.deliveries ++ [n] } := by
  simp [deliverLater, h, setDeliveries]

/-- A STATUS or PROBE goes to no block (R10). -/
theorem deliverLater_housekeeping (n : Notice) (s : State) (h : isHousekeeping n = true) : deliverLater n s = s := by
  simp [deliverLater, h]

/-- The notice that leaves a full queue for room is not in an attempt, and the queue keeps its length (R8). -/
theorem takeLast_spec (f : Nat) (q : List TxEntry) (v : TxEntry) (kept : List TxEntry)
    (h : takeLast f q = some (v, kept)) :
    v.inAttempt = false ∧ v.field = f ∧ v ∈ q ∧ kept.length + 1 = q.length ∧ kept.Sublist q := by
  induction q generalizing kept with
  | nil => simp [takeLast] at h
  | cons e rest ih =>
    unfold takeLast at h
    split at h
    · next v' kept' h' =>
      simp only [Option.some.injEq, Prod.mk.injEq] at h
      obtain ⟨rfl, rfl⟩ := h
      obtain ⟨a, b, c, d, e'⟩ := ih kept' h'
      exact ⟨a, b, List.mem_cons_of_mem _ c, by simp [d], e'.cons_cons _⟩
    · split at h
      · next c =>
        simp only [Option.some.injEq, Prod.mk.injEq] at h
        obtain ⟨rfl, rfl⟩ := h
        simp only [Bool.and_eq_true, Bool.not_eq_true', beq_iff_eq] at c
        exact ⟨c.1, c.2, List.mem_cons_self .., by simp, List.sublist_cons_self ..⟩
      · simp at h

/-- No entry with a higher field than the highest is out of an attempt (R8). -/
theorem highestField_spec (before after : List TxEntry) (x : TxEntry) (out : x.inAttempt = false)
    (hb : ∀ y ∈ before, y.inAttempt = true ∨ y.field ≤ x.field) (ha : ∀ y ∈ after, y.inAttempt = true ∨ y.field < x.field) :
    highestField (before ++ x :: after) = x.field := by
  have le : ∀ l : List TxEntry, (∀ y ∈ l, y.inAttempt = true ∨ y.field ≤ x.field) → highestField l ≤ x.field := by
    intro l
    induction l with
    | nil => simp [highestField]
    | cons y l ih =>
      intro h
      have rest := ih fun v hv => h v (List.mem_cons_of_mem _ hv)
      unfold highestField
      split
      · exact rest
      · next hy => exact Nat.max_le.2 ⟨(h y (List.mem_cons_self ..)).resolve_left hy, rest⟩
  induction before with
  | nil =>
    have := le after fun y hy => (ha y hy).imp_right Nat.le_of_lt
    simp only [List.nil_append, highestField, out, Bool.false_eq_true, if_false]
    omega
  | cons y before ih =>
    have rest := ih fun v hv => hb v (List.mem_cons_of_mem _ hv)
    simp only [List.cons_append, highestField, rest]
    split
    · rfl
    · next hy =>
      have := (hb y (List.mem_cons_self ..)).resolve_left hy
      omega

/-- The last entry of a field that is not in an attempt leaves (R8). -/
theorem takeLast_last (f : Nat) (before after : List TxEntry) (x : TxEntry) (out : x.inAttempt = false) (hf : x.field = f)
    (ha : ∀ y ∈ after, y.inAttempt = true ∨ y.field < f) :
    takeLast f (before ++ x :: after) = some (x, before ++ after) := by
  have none_ : ∀ l : List TxEntry, (∀ y ∈ l, y.inAttempt = true ∨ y.field < f) → takeLast f l = none := by
    intro l
    induction l with
    | nil => intro; rfl
    | cons y l ih =>
      intro h
      simp only [takeLast, ih fun v hv => h v (List.mem_cons_of_mem _ hv)]
      rcases h y (List.mem_cons_self ..) with e | e
      · simp [e]
      · simp only [Bool.and_eq_true, beq_iff_eq, ite_eq_right_iff]
        omega
  induction before with
  | nil => simp [takeLast, none_ after ha, out, hf]
  | cons y before ih => simp [takeLast, ih]

/-- A notice joins a full queue (R8). -/
theorem joinQueue_full {n : Notice} {s t : State} (h : sameHousekeepingQueued n s.clc.queue = false) (full : QueuedWhenFull n s t) :
    joinQueue n s = t := by
  obtain ⟨len, before, x, after, e, out, hb, ha, rfl⟩ := full
  have top : highestField (s.clc.queue ++ [newEntry (own s) n]) = x.field := by rw [e]; exact highestField_spec _ _ _ out hb ha
  have last : takeLast x.field (s.clc.queue ++ [newEntry (own s) n]) = some (x, before ++ after) := by
    rw [e]
    exact takeLast_last _ _ _ _ out rfl ha
  simp only [joinQueue, h, Bool.false_eq_true, if_false, len, txCapacity, Nat.lt_irrefl, top, last]
  unfold deliverLater
  split
  · simp [onClc]
  · rfl

/-- Queueing a notice other than STATUS and PROBE at a full queue (R8), while the part is RUNNING. -/
theorem queueNotice_full {n : Notice} {s t : State} (link : s.clc.link = .running) (h : isHousekeeping n = false)
    (full : QueuedWhenFull n s t) : queueNotice n s = t := by
  simp only [queueNotice, link, joinQueue_full (sameHousekeepingQueued_of_not n _ h) full]

/-- What a queued notice can do to the transmit queue: it never grows past its capacity (R7, R8). -/
theorem joinQueue_length (n : Notice) (s : State) (h : s.clc.queue.length ≤ txCapacity) :
    (joinQueue n s).clc.queue.length ≤ txCapacity := by
  unfold joinQueue
  split
  · exact h
  · simp only []
    split
    · next room => simp; omega
    · split
      · next v kept eq =>
        have := takeLast_spec _ _ _ _ eq
        simp only [List.length_append, List.length_cons, List.length_nil] at this
        unfold deliverLater
        split <;> simp <;> omega
      · exact h

/-- Withdrawing never lengthens the queue (R9). -/
theorem withdrawFrom_length (p : Notice → Bool) (q : List TxEntry) : (withdrawFrom p q).length ≤ q.length :=
  List.length_filterMap_le ..

/-! ### The shelf (R171) and the conditions (R175) -/

/-- A record joins an output queue that has room (R171). -/
theorem shelfSend_room (r : OutRecord) (s : State) (room : s.spu.output.length < outputCapacity) :
    shelfSend r s = withSent [r] s := by
  simp [shelfSend, room, withSent, onSpu]

/-- A record sent to a full output queue is discarded, with SHELF-RECORD-FAULT (R171). -/
theorem shelfSend_full (r : OutRecord) (s : State) (full : ¬ s.spu.output.length < outputCapacity) :
    shelfSend r s = raiseRecordFault .outputOverflow (outKind r) s := by
  simp [shelfSend, full]

/-- Different conditions have different places. -/
theorem conditionPlace_injective (c d : Condition) (h : conditionPlace c = conditionPlace d) : c = d := by
  cases c <;> cases d <;> first | rfl | exact absurd h (by decide)

/-- A raise changes the entry of its condition (R175). -/
theorem conditionEntry_raise (c : Condition) (a : Nat) (o : Block) (s : State) :
    conditionEntry (raise c a o s) c = raiseEntry a o (conditionEntry s c) := by
  simp [conditionEntry]

/-- A raise leaves the entries of the other conditions as they are (R175). -/
theorem conditionEntry_raise_ne {c d : Condition} (a : Nat) (o : Block) (s : State) (h : d ≠ c) :
    conditionEntry (raise c a o s) d = conditionEntry s d := by
  have : conditionPlace d ≠ conditionPlace c := fun e => h (conditionPlace_injective _ _ e)
  simp [conditionEntry, this]

/-! ### Delivery and commands (R10, R185) -/

/-- With nothing waiting, nothing is delivered (R10). -/
theorem drain_nil (fuel : Nat) (s : State) (h : s.deliveries = []) : drain fuel s = s := by
  cases fuel <;> simp [drain, h]

theorem deliverAll_nil (s : State) (h : s.deliveries = []) : deliverAll s = s := drain_nil _ s h

/-- A command while RESET is held asserted (R185). -/
theorem act_held (f : State → State) (s : State) (h : s.pins.reset = true) : act f s = .next (fresh s) := by
  simp [act, h]

/-- A command that leaves nothing for own delivery answers its effect. -/
theorem act_quiet (f : State → State) (s : State) (h : s.pins.reset = false) (q : (f (fresh s)).deliveries = []) :
    act f s = .next (f (fresh s)) := by
  simp [act, h, deliverAll_nil _ q]

/-- A command that acts as `f` answers what `f` makes of the state with no orders sent, where no own notice waits after it. -/
theorem exec_of_act {c : Instr} {f : State → State} {s s' t : State} (h : exec c s = act f s') (r : s'.pins.reset = false)
    (key : f (fresh s') = t) (d : t.deliveries = []) : exec c s = .next t := by
  rw [h, act_quiet _ _ r (by rw [key]; exact d), key]

/-- No orders sent is no change at the CLC. -/
@[simp] theorem fresh_clc (s : State) : (fresh s).clc = s.clc := rfl

/-! ### Availability (R36) -/

/-- Recomputing a line's availability, with room in the queue (R36). -/
theorem refresh_room (l : Line) (s : State) (link : s.clc.link = .running ∨ s.clc.link = .listening)
    (room : s.clc.queue.length < txCapacity) :
    refresh l s = withQueued (newGroups (availableSet (lineOf s l) &&& ~~~ (lineOf s l).available))
      (withLine l { lineOf s l with available := availableSet (lineOf s l) } s) := by
  unfold refresh newGroups
  simp only []
  split
  · simp [withQueued, withLine, onLine, Table.modify, lineOf]
  · rw [queueNotice_room]
    · simp [withQueued, withLine, onLine, Table.modify, lineOf]
    · simpa using link
    · exact sameHousekeepingQueued_of_not _ _ rfl
    · simpa using room

/-! ### Hearing a frame (R4, R12, R19) -/

/-- A frame heard in RUNNING from a known peer: acknowledged, the peer's age 0, and the notice handed over. -/
theorem hear_known (src : Cabinet) (everywhere : Bool) (f : State → State) (s : State) (link : s.clc.link = .running)
    (k : Known src s) :
    hear src everywhere f s = f (heardFrom src (emit (.acknowledge true) s)) := by
  obtain ⟨ne, pr⟩ := k
  have e : touchPeer src (emit (.acknowledge true) s) = heardFrom src (emit (.acknowledge true) s) := by
    have : (peerOf (emit (.acknowledge true) s) src).state = .present := pr
    simp only [touchPeer, this]
    simp [heardFrom, withPeer, modPeer, onClc, Table.modify, peerOf, emit] at pr ⊢
    rw [← pr]
  simp only [hear, link, readsBus]
  simp only [ne_eq, reduceCtorEq, not_false_eq_true, decide_true, own_emit, ne, if_true, if_false]
  rw [e]
  simp [handsOver, heardFrom, withPeer, link]

end Sys2Proof.Machine
end

