-- ==== Sys2Proof/Laws/Forms.lean ====
section
/-! SUPPORT. The parts of a next state (Safety.lean) as a normal form: what each update is in it, how two parts change places, and
what a part leaves of each field. -/

namespace Sys2Proof.Machine

/-! ### The updates as parts -/

theorem fresh_eq (s : State) : fresh s = withOutputs [] s := by rfl
theorem emit_eq (o : Output) (s : State) : emit o s = withOutputs (s.outputs ++ [o]) s := by rfl
theorem onLine_eq (l : Line) (f : LineRec → LineRec) (s : State) :
    onLine l f s = withLine l (f (lineOf s l)) s := by rfl
theorem onZone_eq (z : LocalZone) (f : ZoneRec → ZoneRec) (s : State) :
    onZone z f s = withZone z (f (zoneOf s z)) s := by rfl
theorem onLevel_eq (z : LocalZone) (f : Level → Level) (s : State) :
    onLevel z f s = withLevel z (f (levelOf s z)) s := by rfl
theorem onSequencer_eq (z : LocalZone) (f : Sequencer → Sequencer) (s : State) :
    onSequencer z f s = withSequencer z (f (seqOf s z)) s := by rfl
theorem withdraw_eq (p : Notice → Bool) (s : State) : withdraw p s = withWithdrawn p s := by rfl
theorem modOffer_eq (q : Seq) (f : Offer → Offer) (s : State) :
    modOffer q f s = withOffers (s.ofm.offers.map fun o => if o.seq = q then f o else o) s := by rfl
theorem modPage_eq (q : Seq) (f : PageRec → PageRec) (s : State) :
    modPage q f s = withPages (s.pgo.pages.map fun r => if r.seq = q then f r else r) s := by rfl
theorem freePage_eq (q : Seq) (s : State) :
    freePage q s = withPages (s.pgo.pages.filter fun r => !decide (r.seq = q)) s := by rfl

/-! ### A part twice -/

@[simp] theorem withOutputs_twice (a b : List Output) (s : State) :
    withOutputs a (withOutputs b s) = withOutputs a s := by rfl
@[simp] theorem withQueued_twice (a b : List Notice) (s : State) :
    withQueued a (withQueued b s) = withQueued (b ++ a) s := by
  simp [withQueued, own]
@[simp] theorem withQueued_nil (s : State) : withQueued [] s = s := by simp [withQueued]
@[simp] theorem withSent_twice (a b : List OutRecord) (s : State) :
    withSent a (withSent b s) = withSent (b ++ a) s := by
  simp [withSent]
@[simp] theorem withLine_twice (l : Line) (a b : LineRec) (s : State) :
    withLine l a (withLine l b s) = withLine l a s := by
  simp [withLine]
@[simp] theorem withZone_twice (z : LocalZone) (a b : ZoneRec) (s : State) :
    withZone z a (withZone z b s) = withZone z a s := by
  simp [withZone]
@[simp] theorem withLevel_twice (z : LocalZone) (a b : Level) (s : State) :
    withLevel z a (withLevel z b s) = withLevel z a s := by
  simp [withLevel]
@[simp] theorem withSequencer_twice (z : LocalZone) (a b : Sequencer) (s : State) :
    withSequencer z a (withSequencer z b s) = withSequencer z a s := by
  simp [withSequencer]
@[simp] theorem withOffers_twice (a b : List Offer) (s : State) :
    withOffers a (withOffers b s) = withOffers a s := by rfl
@[simp] theorem withPages_twice (a b : List PageRec) (s : State) : withPages a (withPages b s) = withPages a s := by rfl
@[simp] theorem withPeer_twice (p : Cabinet) (a b : Peer) (s : State) :
    withPeer p a (withPeer p b s) = withPeer p a s := by
  simp [withPeer]

/-! ### Two parts change places -/

@[simp] theorem withQueued_withOutputs (os₁ : List Output) (ns₂ : List Notice) (s : State) :
    withQueued ns₂ (withOutputs os₁ s) = withOutputs os₁ (withQueued ns₂ s) := by rfl
@[simp] theorem withWithdrawn_withOutputs (os₁ : List Output) (p₂ : Notice → Bool) (s : State) :
    withWithdrawn p₂ (withOutputs os₁ s) = withOutputs os₁ (withWithdrawn p₂ s) := by rfl
@[simp] theorem withSent_withOutputs (os₁ : List Output) (rs₂ : List OutRecord) (s : State) :
    withSent rs₂ (withOutputs os₁ s) = withOutputs os₁ (withSent rs₂ s) := by rfl
@[simp] theorem withLine_withOutputs (os₁ : List Output) (l₂ : Line) (r₂ : LineRec) (s : State) :
    withLine l₂ r₂ (withOutputs os₁ s) = withOutputs os₁ (withLine l₂ r₂ s) := by rfl
@[simp] theorem withZone_withOutputs (os₁ : List Output) (z₂ : LocalZone) (r₂ : ZoneRec) (s : State) :
    withZone z₂ r₂ (withOutputs os₁ s) = withOutputs os₁ (withZone z₂ r₂ s) := by rfl
@[simp] theorem withLevel_withOutputs (os₁ : List Output) (z₂ : LocalZone) (v₂ : Level) (s : State) :
    withLevel z₂ v₂ (withOutputs os₁ s) = withOutputs os₁ (withLevel z₂ v₂ s) := by rfl
@[simp] theorem withSequencer_withOutputs (os₁ : List Output) (z₂ : LocalZone) (q₂ : Sequencer) (s : State) :
    withSequencer z₂ q₂ (withOutputs os₁ s) = withOutputs os₁ (withSequencer z₂ q₂ s) := by rfl
@[simp] theorem withOffers_withOutputs (os₁ : List Output) (os₂ : List Offer) (s : State) :
    withOffers os₂ (withOutputs os₁ s) = withOutputs os₁ (withOffers os₂ s) := by rfl
@[simp] theorem withPages_withOutputs (os₁ : List Output) (ps₂ : List PageRec) (s : State) :
    withPages ps₂ (withOutputs os₁ s) = withOutputs os₁ (withPages ps₂ s) := by rfl
@[simp] theorem withPeer_withOutputs (os₁ : List Output) (p₂ : Cabinet) (e₂ : Peer) (s : State) :
    withPeer p₂ e₂ (withOutputs os₁ s) = withOutputs os₁ (withPeer p₂ e₂ s) := by rfl
@[simp] theorem withSent_withQueued (ns₁ : List Notice) (rs₂ : List OutRecord) (s : State) :
    withSent rs₂ (withQueued ns₁ s) = withQueued ns₁ (withSent rs₂ s) := by rfl
@[simp] theorem withLine_withQueued (ns₁ : List Notice) (l₂ : Line) (r₂ : LineRec) (s : State) :
    withLine l₂ r₂ (withQueued ns₁ s) = withQueued ns₁ (withLine l₂ r₂ s) := by rfl
@[simp] theorem withZone_withQueued (ns₁ : List Notice) (z₂ : LocalZone) (r₂ : ZoneRec) (s : State) :
    withZone z₂ r₂ (withQueued ns₁ s) = withQueued ns₁ (withZone z₂ r₂ s) := by rfl
@[simp] theorem withLevel_withQueued (ns₁ : List Notice) (z₂ : LocalZone) (v₂ : Level) (s : State) :
    withLevel z₂ v₂ (withQueued ns₁ s) = withQueued ns₁ (withLevel z₂ v₂ s) := by rfl
@[simp] theorem withSequencer_withQueued (ns₁ : List Notice) (z₂ : LocalZone) (q₂ : Sequencer) (s : State) :
    withSequencer z₂ q₂ (withQueued ns₁ s) = withQueued ns₁ (withSequencer z₂ q₂ s) := by rfl
@[simp] theorem withOffers_withQueued (ns₁ : List Notice) (os₂ : List Offer) (s : State) :
    withOffers os₂ (withQueued ns₁ s) = withQueued ns₁ (withOffers os₂ s) := by rfl
@[simp] theorem withPages_withQueued (ns₁ : List Notice) (ps₂ : List PageRec) (s : State) :
    withPages ps₂ (withQueued ns₁ s) = withQueued ns₁ (withPages ps₂ s) := by rfl
@[simp] theorem withSent_withWithdrawn (p₁ : Notice → Bool) (rs₂ : List OutRecord) (s : State) :
    withSent rs₂ (withWithdrawn p₁ s) = withWithdrawn p₁ (withSent rs₂ s) := by rfl
@[simp] theorem withLine_withWithdrawn (p₁ : Notice → Bool) (l₂ : Line) (r₂ : LineRec) (s : State) :
    withLine l₂ r₂ (withWithdrawn p₁ s) = withWithdrawn p₁ (withLine l₂ r₂ s) := by rfl
@[simp] theorem withZone_withWithdrawn (p₁ : Notice → Bool) (z₂ : LocalZone) (r₂ : ZoneRec) (s : State) :
    withZone z₂ r₂ (withWithdrawn p₁ s) = withWithdrawn p₁ (withZone z₂ r₂ s) := by rfl
@[simp] theorem withLevel_withWithdrawn (p₁ : Notice → Bool) (z₂ : LocalZone) (v₂ : Level) (s : State) :
    withLevel z₂ v₂ (withWithdrawn p₁ s) = withWithdrawn p₁ (withLevel z₂ v₂ s) := by rfl
@[simp] theorem withSequencer_withWithdrawn (p₁ : Notice → Bool) (z₂ : LocalZone) (q₂ : Sequencer) (s : State) :
    withSequencer z₂ q₂ (withWithdrawn p₁ s) = withWithdrawn p₁ (withSequencer z₂ q₂ s) := by rfl
@[simp] theorem withOffers_withWithdrawn (p₁ : Notice → Bool) (os₂ : List Offer) (s : State) :
    withOffers os₂ (withWithdrawn p₁ s) = withWithdrawn p₁ (withOffers os₂ s) := by rfl
@[simp] theorem withPages_withWithdrawn (p₁ : Notice → Bool) (ps₂ : List PageRec) (s : State) :
    withPages ps₂ (withWithdrawn p₁ s) = withWithdrawn p₁ (withPages ps₂ s) := by rfl
@[simp] theorem withLine_withSent (rs₁ : List OutRecord) (l₂ : Line) (r₂ : LineRec) (s : State) :
    withLine l₂ r₂ (withSent rs₁ s) = withSent rs₁ (withLine l₂ r₂ s) := by rfl
@[simp] theorem withZone_withSent (rs₁ : List OutRecord) (z₂ : LocalZone) (r₂ : ZoneRec) (s : State) :
    withZone z₂ r₂ (withSent rs₁ s) = withSent rs₁ (withZone z₂ r₂ s) := by rfl
@[simp] theorem withLevel_withSent (rs₁ : List OutRecord) (z₂ : LocalZone) (v₂ : Level) (s : State) :
    withLevel z₂ v₂ (withSent rs₁ s) = withSent rs₁ (withLevel z₂ v₂ s) := by rfl
@[simp] theorem withSequencer_withSent (rs₁ : List OutRecord) (z₂ : LocalZone) (q₂ : Sequencer) (s : State) :
    withSequencer z₂ q₂ (withSent rs₁ s) = withSent rs₁ (withSequencer z₂ q₂ s) := by rfl
@[simp] theorem withOffers_withSent (rs₁ : List OutRecord) (os₂ : List Offer) (s : State) :
    withOffers os₂ (withSent rs₁ s) = withSent rs₁ (withOffers os₂ s) := by rfl
@[simp] theorem withPages_withSent (rs₁ : List OutRecord) (ps₂ : List PageRec) (s : State) :
    withPages ps₂ (withSent rs₁ s) = withSent rs₁ (withPages ps₂ s) := by rfl
@[simp] theorem withPeer_withSent (rs₁ : List OutRecord) (p₂ : Cabinet) (e₂ : Peer) (s : State) :
    withPeer p₂ e₂ (withSent rs₁ s) = withSent rs₁ (withPeer p₂ e₂ s) := by rfl
@[simp] theorem withZone_withLine (l₁ : Line) (r₁ : LineRec) (z₂ : LocalZone) (r₂ : ZoneRec) (s : State) :
    withZone z₂ r₂ (withLine l₁ r₁ s) = withLine l₁ r₁ (withZone z₂ r₂ s) := by rfl
@[simp] theorem withLevel_withLine (l₁ : Line) (r₁ : LineRec) (z₂ : LocalZone) (v₂ : Level) (s : State) :
    withLevel z₂ v₂ (withLine l₁ r₁ s) = withLine l₁ r₁ (withLevel z₂ v₂ s) := by rfl
@[simp] theorem withSequencer_withLine (l₁ : Line) (r₁ : LineRec) (z₂ : LocalZone) (q₂ : Sequencer) (s : State) :
    withSequencer z₂ q₂ (withLine l₁ r₁ s) = withLine l₁ r₁ (withSequencer z₂ q₂ s) := by rfl
@[simp] theorem withOffers_withLine (l₁ : Line) (r₁ : LineRec) (os₂ : List Offer) (s : State) :
    withOffers os₂ (withLine l₁ r₁ s) = withLine l₁ r₁ (withOffers os₂ s) := by rfl
@[simp] theorem withPages_withLine (l₁ : Line) (r₁ : LineRec) (ps₂ : List PageRec) (s : State) :
    withPages ps₂ (withLine l₁ r₁ s) = withLine l₁ r₁ (withPages ps₂ s) := by rfl
@[simp] theorem withPeer_withLine (l₁ : Line) (r₁ : LineRec) (p₂ : Cabinet) (e₂ : Peer) (s : State) :
    withPeer p₂ e₂ (withLine l₁ r₁ s) = withLine l₁ r₁ (withPeer p₂ e₂ s) := by rfl
@[simp] theorem withLevel_withZone (z₁ : LocalZone) (r₁ : ZoneRec) (z₂ : LocalZone) (v₂ : Level) (s : State) :
    withLevel z₂ v₂ (withZone z₁ r₁ s) = withZone z₁ r₁ (withLevel z₂ v₂ s) := by rfl
@[simp] theorem withSequencer_withZone (z₁ : LocalZone) (r₁ : ZoneRec) (z₂ : LocalZone) (q₂ : Sequencer) (s : State) :
    withSequencer z₂ q₂ (withZone z₁ r₁ s) = withZone z₁ r₁ (withSequencer z₂ q₂ s) := by rfl
@[simp] theorem withOffers_withZone (z₁ : LocalZone) (r₁ : ZoneRec) (os₂ : List Offer) (s : State) :
    withOffers os₂ (withZone z₁ r₁ s) = withZone z₁ r₁ (withOffers os₂ s) := by rfl
@[simp] theorem withPages_withZone (z₁ : LocalZone) (r₁ : ZoneRec) (ps₂ : List PageRec) (s : State) :
    withPages ps₂ (withZone z₁ r₁ s) = withZone z₁ r₁ (withPages ps₂ s) := by rfl
@[simp] theorem withPeer_withZone (z₁ : LocalZone) (r₁ : ZoneRec) (p₂ : Cabinet) (e₂ : Peer) (s : State) :
    withPeer p₂ e₂ (withZone z₁ r₁ s) = withZone z₁ r₁ (withPeer p₂ e₂ s) := by rfl
@[simp] theorem withSequencer_withLevel (z₁ : LocalZone) (v₁ : Level) (z₂ : LocalZone) (q₂ : Sequencer) (s : State) :
    withSequencer z₂ q₂ (withLevel z₁ v₁ s) = withLevel z₁ v₁ (withSequencer z₂ q₂ s) := by rfl
@[simp] theorem withOffers_withLevel (z₁ : LocalZone) (v₁ : Level) (os₂ : List Offer) (s : State) :
    withOffers os₂ (withLevel z₁ v₁ s) = withLevel z₁ v₁ (withOffers os₂ s) := by rfl
@[simp] theorem withPages_withLevel (z₁ : LocalZone) (v₁ : Level) (ps₂ : List PageRec) (s : State) :
    withPages ps₂ (withLevel z₁ v₁ s) = withLevel z₁ v₁ (withPages ps₂ s) := by rfl
@[simp] theorem withPeer_withLevel (z₁ : LocalZone) (v₁ : Level) (p₂ : Cabinet) (e₂ : Peer) (s : State) :
    withPeer p₂ e₂ (withLevel z₁ v₁ s) = withLevel z₁ v₁ (withPeer p₂ e₂ s) := by rfl
@[simp] theorem withOffers_withSequencer (z₁ : LocalZone) (q₁ : Sequencer) (os₂ : List Offer) (s : State) :
    withOffers os₂ (withSequencer z₁ q₁ s) = withSequencer z₁ q₁ (withOffers os₂ s) := by rfl
@[simp] theorem withPages_withSequencer (z₁ : LocalZone) (q₁ : Sequencer) (ps₂ : List PageRec) (s : State) :
    withPages ps₂ (withSequencer z₁ q₁ s) = withSequencer z₁ q₁ (withPages ps₂ s) := by rfl
@[simp] theorem withPeer_withSequencer (z₁ : LocalZone) (q₁ : Sequencer) (p₂ : Cabinet) (e₂ : Peer) (s : State) :
    withPeer p₂ e₂ (withSequencer z₁ q₁ s) = withSequencer z₁ q₁ (withPeer p₂ e₂ s) := by rfl
@[simp] theorem withPages_withOffers (os₁ : List Offer) (ps₂ : List PageRec) (s : State) :
    withPages ps₂ (withOffers os₁ s) = withOffers os₁ (withPages ps₂ s) := by rfl
@[simp] theorem withPeer_withOffers (os₁ : List Offer) (p₂ : Cabinet) (e₂ : Peer) (s : State) :
    withPeer p₂ e₂ (withOffers os₁ s) = withOffers os₁ (withPeer p₂ e₂ s) := by rfl
@[simp] theorem withPeer_withPages (ps₁ : List PageRec) (p₂ : Cabinet) (e₂ : Peer) (s : State) :
    withPeer p₂ e₂ (withPages ps₁ s) = withPages ps₁ (withPeer p₂ e₂ s) := by rfl

/-! ### What a part leaves of each field -/

@[simp] theorem withOutputs_pins (os : List Output) (s : State) : (withOutputs os s).pins = s.pins := by rfl
@[simp] theorem withOutputs_phase (os : List Output) (s : State) : (withOutputs os s).phase = s.phase := by rfl
@[simp] theorem withOutputs_clc (os : List Output) (s : State) : (withOutputs os s).clc = s.clc := by rfl
@[simp] theorem withOutputs_lu (os : List Output) (s : State) : (withOutputs os s).lu = s.lu := by rfl
@[simp] theorem withOutputs_ofm (os : List Output) (s : State) : (withOutputs os s).ofm = s.ofm := by rfl
@[simp] theorem withOutputs_he (os : List Output) (s : State) : (withOutputs os s).he = s.he := by rfl
@[simp] theorem withOutputs_ppu (os : List Output) (s : State) : (withOutputs os s).ppu = s.ppu := by rfl
@[simp] theorem withOutputs_pgo (os : List Output) (s : State) : (withOutputs os s).pgo = s.pgo := by rfl
@[simp] theorem withOutputs_zc (os : List Output) (s : State) : (withOutputs os s).zc = s.zc := by rfl
@[simp] theorem withOutputs_ts (os : List Output) (s : State) : (withOutputs os s).ts = s.ts := by rfl
@[simp] theorem withOutputs_lvu (os : List Output) (s : State) : (withOutputs os s).lvu = s.lvu := by rfl
@[simp] theorem withOutputs_spu (os : List Output) (s : State) : (withOutputs os s).spu = s.spu := by rfl
@[simp] theorem withOutputs_deliveries (os : List Output) (s : State) :
    (withOutputs os s).deliveries = s.deliveries := by rfl
@[simp] theorem withOutputs_choices (os : List Output) (s : State) : (withOutputs os s).choices = s.choices := by rfl
@[simp] theorem withOutputs_pending (os : List Output) (s : State) : (withOutputs os s).pending = s.pending := by rfl
@[simp] theorem own_withOutputs (os : List Output) (s : State) : own (withOutputs os s) = own s := by rfl
@[simp] theorem lineOf_withOutputs (os : List Output) (s : State) (m : Line) :
    lineOf (withOutputs os s) m = lineOf s m := by rfl
@[simp] theorem zoneOf_withOutputs (os : List Output) (s : State) (y : LocalZone) :
    zoneOf (withOutputs os s) y = zoneOf s y := by rfl
@[simp] theorem levelOf_withOutputs (os : List Output) (s : State) (y : LocalZone) :
    levelOf (withOutputs os s) y = levelOf s y := by rfl
@[simp] theorem seqOf_withOutputs (os : List Output) (s : State) (y : LocalZone) :
    seqOf (withOutputs os s) y = seqOf s y := by rfl
@[simp] theorem withQueued_pins (ns : List Notice) (s : State) : (withQueued ns s).pins = s.pins := by rfl
@[simp] theorem withQueued_phase (ns : List Notice) (s : State) : (withQueued ns s).phase = s.phase := by rfl
@[simp] theorem withQueued_lu (ns : List Notice) (s : State) : (withQueued ns s).lu = s.lu := by rfl
@[simp] theorem withQueued_ofm (ns : List Notice) (s : State) : (withQueued ns s).ofm = s.ofm := by rfl
@[simp] theorem withQueued_he (ns : List Notice) (s : State) : (withQueued ns s).he = s.he := by rfl
@[simp] theorem withQueued_ppu (ns : List Notice) (s : State) : (withQueued ns s).ppu = s.ppu := by rfl
@[simp] theorem withQueued_pgo (ns : List Notice) (s : State) : (withQueued ns s).pgo = s.pgo := by rfl
@[simp] theorem withQueued_zc (ns : List Notice) (s : State) : (withQueued ns s).zc = s.zc := by rfl
@[simp] theorem withQueued_ts (ns : List Notice) (s : State) : (withQueued ns s).ts = s.ts := by rfl
@[simp] theorem withQueued_lvu (ns : List Notice) (s : State) : (withQueued ns s).lvu = s.lvu := by rfl
@[simp] theorem withQueued_spu (ns : List Notice) (s : State) : (withQueued ns s).spu = s.spu := by rfl
@[simp] theorem withQueued_outputs (ns : List Notice) (s : State) : (withQueued ns s).outputs = s.outputs := by rfl
@[simp] theorem withQueued_deliveries (ns : List Notice) (s : State) :
    (withQueued ns s).deliveries = s.deliveries := by rfl
@[simp] theorem withQueued_choices (ns : List Notice) (s : State) : (withQueued ns s).choices = s.choices := by rfl
@[simp] theorem withQueued_pending (ns : List Notice) (s : State) : (withQueued ns s).pending = s.pending := by rfl
@[simp] theorem own_withQueued (ns : List Notice) (s : State) : own (withQueued ns s) = own s := by rfl
@[simp] theorem lineOf_withQueued (ns : List Notice) (s : State) (m : Line) :
    lineOf (withQueued ns s) m = lineOf s m := by rfl
@[simp] theorem zoneOf_withQueued (ns : List Notice) (s : State) (y : LocalZone) :
    zoneOf (withQueued ns s) y = zoneOf s y := by rfl
@[simp] theorem levelOf_withQueued (ns : List Notice) (s : State) (y : LocalZone) :
    levelOf (withQueued ns s) y = levelOf s y := by rfl
@[simp] theorem seqOf_withQueued (ns : List Notice) (s : State) (y : LocalZone) :
    seqOf (withQueued ns s) y = seqOf s y := by rfl
@[simp] theorem withWithdrawn_pins (p : Notice → Bool) (s : State) : (withWithdrawn p s).pins = s.pins := by rfl
@[simp] theorem withWithdrawn_phase (p : Notice → Bool) (s : State) : (withWithdrawn p s).phase = s.phase := by rfl
@[simp] theorem withWithdrawn_lu (p : Notice → Bool) (s : State) : (withWithdrawn p s).lu = s.lu := by rfl
@[simp] theorem withWithdrawn_ofm (p : Notice → Bool) (s : State) : (withWithdrawn p s).ofm = s.ofm := by rfl
@[simp] theorem withWithdrawn_he (p : Notice → Bool) (s : State) : (withWithdrawn p s).he = s.he := by rfl
@[simp] theorem withWithdrawn_ppu (p : Notice → Bool) (s : State) : (withWithdrawn p s).ppu = s.ppu := by rfl
@[simp] theorem withWithdrawn_pgo (p : Notice → Bool) (s : State) : (withWithdrawn p s).pgo = s.pgo := by rfl
@[simp] theorem withWithdrawn_zc (p : Notice → Bool) (s : State) : (withWithdrawn p s).zc = s.zc := by rfl
@[simp] theorem withWithdrawn_ts (p : Notice → Bool) (s : State) : (withWithdrawn p s).ts = s.ts := by rfl
@[simp] theorem withWithdrawn_lvu (p : Notice → Bool) (s : State) : (withWithdrawn p s).lvu = s.lvu := by rfl
@[simp] theorem withWithdrawn_spu (p : Notice → Bool) (s : State) : (withWithdrawn p s).spu = s.spu := by rfl
@[simp] theorem withWithdrawn_outputs (p : Notice → Bool) (s : State) :
    (withWithdrawn p s).outputs = s.outputs := by rfl
@[simp] theorem withWithdrawn_deliveries (p : Notice → Bool) (s : State) :
    (withWithdrawn p s).deliveries = s.deliveries := by rfl
@[simp] theorem withWithdrawn_choices (p : Notice → Bool) (s : State) :
    (withWithdrawn p s).choices = s.choices := by rfl
@[simp] theorem withWithdrawn_pending (p : Notice → Bool) (s : State) :
    (withWithdrawn p s).pending = s.pending := by rfl
@[simp] theorem own_withWithdrawn (p : Notice → Bool) (s : State) : own (withWithdrawn p s) = own s := by rfl
@[simp] theorem lineOf_withWithdrawn (p : Notice → Bool) (s : State) (m : Line) :
    lineOf (withWithdrawn p s) m = lineOf s m := by rfl
@[simp] theorem zoneOf_withWithdrawn (p : Notice → Bool) (s : State) (y : LocalZone) :
    zoneOf (withWithdrawn p s) y = zoneOf s y := by rfl
@[simp] theorem levelOf_withWithdrawn (p : Notice → Bool) (s : State) (y : LocalZone) :
    levelOf (withWithdrawn p s) y = levelOf s y := by rfl
@[simp] theorem seqOf_withWithdrawn (p : Notice → Bool) (s : State) (y : LocalZone) :
    seqOf (withWithdrawn p s) y = seqOf s y := by rfl
@[simp] theorem withSent_pins (rs : List OutRecord) (s : State) : (withSent rs s).pins = s.pins := by rfl
@[simp] theorem withSent_phase (rs : List OutRecord) (s : State) : (withSent rs s).phase = s.phase := by rfl
@[simp] theorem withSent_clc (rs : List OutRecord) (s : State) : (withSent rs s).clc = s.clc := by rfl
@[simp] theorem withSent_lu (rs : List OutRecord) (s : State) : (withSent rs s).lu = s.lu := by rfl
@[simp] theorem withSent_ofm (rs : List OutRecord) (s : State) : (withSent rs s).ofm = s.ofm := by rfl
@[simp] theorem withSent_he (rs : List OutRecord) (s : State) : (withSent rs s).he = s.he := by rfl
@[simp] theorem withSent_ppu (rs : List OutRecord) (s : State) : (withSent rs s).ppu = s.ppu := by rfl
@[simp] theorem withSent_pgo (rs : List OutRecord) (s : State) : (withSent rs s).pgo = s.pgo := by rfl
@[simp] theorem withSent_zc (rs : List OutRecord) (s : State) : (withSent rs s).zc = s.zc := by rfl
@[simp] theorem withSent_ts (rs : List OutRecord) (s : State) : (withSent rs s).ts = s.ts := by rfl
@[simp] theorem withSent_lvu (rs : List OutRecord) (s : State) : (withSent rs s).lvu = s.lvu := by rfl
@[simp] theorem withSent_outputs (rs : List OutRecord) (s : State) : (withSent rs s).outputs = s.outputs := by rfl
@[simp] theorem withSent_deliveries (rs : List OutRecord) (s : State) :
    (withSent rs s).deliveries = s.deliveries := by rfl
@[simp] theorem withSent_choices (rs : List OutRecord) (s : State) : (withSent rs s).choices = s.choices := by rfl
@[simp] theorem withSent_pending (rs : List OutRecord) (s : State) : (withSent rs s).pending = s.pending := by rfl
@[simp] theorem own_withSent (rs : List OutRecord) (s : State) : own (withSent rs s) = own s := by rfl
@[simp] theorem lineOf_withSent (rs : List OutRecord) (s : State) (m : Line) :
    lineOf (withSent rs s) m = lineOf s m := by rfl
@[simp] theorem zoneOf_withSent (rs : List OutRecord) (s : State) (y : LocalZone) :
    zoneOf (withSent rs s) y = zoneOf s y := by rfl
@[simp] theorem levelOf_withSent (rs : List OutRecord) (s : State) (y : LocalZone) :
    levelOf (withSent rs s) y = levelOf s y := by rfl
@[simp] theorem seqOf_withSent (rs : List OutRecord) (s : State) (y : LocalZone) :
    seqOf (withSent rs s) y = seqOf s y := by rfl
@[simp] theorem withLine_pins (l : Line) (r : LineRec) (s : State) : (withLine l r s).pins = s.pins := by rfl
@[simp] theorem withLine_phase (l : Line) (r : LineRec) (s : State) : (withLine l r s).phase = s.phase := by rfl
@[simp] theorem withLine_clc (l : Line) (r : LineRec) (s : State) : (withLine l r s).clc = s.clc := by rfl
@[simp] theorem withLine_ofm (l : Line) (r : LineRec) (s : State) : (withLine l r s).ofm = s.ofm := by rfl
@[simp] theorem withLine_he (l : Line) (r : LineRec) (s : State) : (withLine l r s).he = s.he := by rfl
@[simp] theorem withLine_ppu (l : Line) (r : LineRec) (s : State) : (withLine l r s).ppu = s.ppu := by rfl
@[simp] theorem withLine_pgo (l : Line) (r : LineRec) (s : State) : (withLine l r s).pgo = s.pgo := by rfl
@[simp] theorem withLine_zc (l : Line) (r : LineRec) (s : State) : (withLine l r s).zc = s.zc := by rfl
@[simp] theorem withLine_ts (l : Line) (r : LineRec) (s : State) : (withLine l r s).ts = s.ts := by rfl
@[simp] theorem withLine_lvu (l : Line) (r : LineRec) (s : State) : (withLine l r s).lvu = s.lvu := by rfl
@[simp] theorem withLine_spu (l : Line) (r : LineRec) (s : State) : (withLine l r s).spu = s.spu := by rfl
@[simp] theorem withLine_outputs (l : Line) (r : LineRec) (s : State) : (withLine l r s).outputs = s.outputs := by rfl
@[simp] theorem withLine_deliveries (l : Line) (r : LineRec) (s : State) :
    (withLine l r s).deliveries = s.deliveries := by rfl
@[simp] theorem withLine_choices (l : Line) (r : LineRec) (s : State) : (withLine l r s).choices = s.choices := by rfl
@[simp] theorem withLine_pending (l : Line) (r : LineRec) (s : State) : (withLine l r s).pending = s.pending := by rfl
@[simp] theorem own_withLine (l : Line) (r : LineRec) (s : State) : own (withLine l r s) = own s := by rfl
@[simp] theorem zoneOf_withLine (l : Line) (r : LineRec) (s : State) (y : LocalZone) :
    zoneOf (withLine l r s) y = zoneOf s y := by rfl
@[simp] theorem levelOf_withLine (l : Line) (r : LineRec) (s : State) (y : LocalZone) :
    levelOf (withLine l r s) y = levelOf s y := by rfl
@[simp] theorem seqOf_withLine (l : Line) (r : LineRec) (s : State) (y : LocalZone) :
    seqOf (withLine l r s) y = seqOf s y := by rfl
@[simp] theorem withZone_pins (z : LocalZone) (r : ZoneRec) (s : State) : (withZone z r s).pins = s.pins := by rfl
@[simp] theorem withZone_phase (z : LocalZone) (r : ZoneRec) (s : State) : (withZone z r s).phase = s.phase := by rfl
@[simp] theorem withZone_clc (z : LocalZone) (r : ZoneRec) (s : State) : (withZone z r s).clc = s.clc := by rfl
@[simp] theorem withZone_lu (z : LocalZone) (r : ZoneRec) (s : State) : (withZone z r s).lu = s.lu := by rfl
@[simp] theorem withZone_ofm (z : LocalZone) (r : ZoneRec) (s : State) : (withZone z r s).ofm = s.ofm := by rfl
@[simp] theorem withZone_he (z : LocalZone) (r : ZoneRec) (s : State) : (withZone z r s).he = s.he := by rfl
@[simp] theorem withZone_ppu (z : LocalZone) (r : ZoneRec) (s : State) : (withZone z r s).ppu = s.ppu := by rfl
@[simp] theorem withZone_pgo (z : LocalZone) (r : ZoneRec) (s : State) : (withZone z r s).pgo = s.pgo := by rfl
@[simp] theorem withZone_ts (z : LocalZone) (r : ZoneRec) (s : State) : (withZone z r s).ts = s.ts := by rfl
@[simp] theorem withZone_lvu (z : LocalZone) (r : ZoneRec) (s : State) : (withZone z r s).lvu = s.lvu := by rfl
@[simp] theorem withZone_spu (z : LocalZone) (r : ZoneRec) (s : State) : (withZone z r s).spu = s.spu := by rfl
@[simp] theorem withZone_outputs (z : LocalZone) (r : ZoneRec) (s : State) :
    (withZone z r s).outputs = s.outputs := by rfl
@[simp] theorem withZone_deliveries (z : LocalZone) (r : ZoneRec) (s : State) :
    (withZone z r s).deliveries = s.deliveries := by rfl
@[simp] theorem withZone_choices (z : LocalZone) (r : ZoneRec) (s : State) :
    (withZone z r s).choices = s.choices := by rfl
@[simp] theorem withZone_pending (z : LocalZone) (r : ZoneRec) (s : State) :
    (withZone z r s).pending = s.pending := by rfl
@[simp] theorem own_withZone (z : LocalZone) (r : ZoneRec) (s : State) : own (withZone z r s) = own s := by rfl
@[simp] theorem lineOf_withZone (z : LocalZone) (r : ZoneRec) (s : State) (m : Line) :
    lineOf (withZone z r s) m = lineOf s m := by rfl
@[simp] theorem levelOf_withZone (z : LocalZone) (r : ZoneRec) (s : State) (y : LocalZone) :
    levelOf (withZone z r s) y = levelOf s y := by rfl
@[simp] theorem seqOf_withZone (z : LocalZone) (r : ZoneRec) (s : State) (y : LocalZone) :
    seqOf (withZone z r s) y = seqOf s y := by rfl
@[simp] theorem withLevel_pins (z : LocalZone) (v : Level) (s : State) : (withLevel z v s).pins = s.pins := by rfl
@[simp] theorem withLevel_phase (z : LocalZone) (v : Level) (s : State) : (withLevel z v s).phase = s.phase := by rfl
@[simp] theorem withLevel_clc (z : LocalZone) (v : Level) (s : State) : (withLevel z v s).clc = s.clc := by rfl
@[simp] theorem withLevel_lu (z : LocalZone) (v : Level) (s : State) : (withLevel z v s).lu = s.lu := by rfl
@[simp] theorem withLevel_ofm (z : LocalZone) (v : Level) (s : State) : (withLevel z v s).ofm = s.ofm := by rfl
@[simp] theorem withLevel_he (z : LocalZone) (v : Level) (s : State) : (withLevel z v s).he = s.he := by rfl
@[simp] theorem withLevel_ppu (z : LocalZone) (v : Level) (s : State) : (withLevel z v s).ppu = s.ppu := by rfl
@[simp] theorem withLevel_pgo (z : LocalZone) (v : Level) (s : State) : (withLevel z v s).pgo = s.pgo := by rfl
@[simp] theorem withLevel_zc (z : LocalZone) (v : Level) (s : State) : (withLevel z v s).zc = s.zc := by rfl
@[simp] theorem withLevel_ts (z : LocalZone) (v : Level) (s : State) : (withLevel z v s).ts = s.ts := by rfl
@[simp] theorem withLevel_spu (z : LocalZone) (v : Level) (s : State) : (withLevel z v s).spu = s.spu := by rfl
@[simp] theorem withLevel_outputs (z : LocalZone) (v : Level) (s : State) :
    (withLevel z v s).outputs = s.outputs := by rfl
@[simp] theorem withLevel_deliveries (z : LocalZone) (v : Level) (s : State) :
    (withLevel z v s).deliveries = s.deliveries := by rfl
@[simp] theorem withLevel_choices (z : LocalZone) (v : Level) (s : State) :
    (withLevel z v s).choices = s.choices := by rfl
@[simp] theorem withLevel_pending (z : LocalZone) (v : Level) (s : State) :
    (withLevel z v s).pending = s.pending := by rfl
@[simp] theorem own_withLevel (z : LocalZone) (v : Level) (s : State) : own (withLevel z v s) = own s := by rfl
@[simp] theorem lineOf_withLevel (z : LocalZone) (v : Level) (s : State) (m : Line) :
    lineOf (withLevel z v s) m = lineOf s m := by rfl
@[simp] theorem zoneOf_withLevel (z : LocalZone) (v : Level) (s : State) (y : LocalZone) :
    zoneOf (withLevel z v s) y = zoneOf s y := by rfl
@[simp] theorem seqOf_withLevel (z : LocalZone) (v : Level) (s : State) (y : LocalZone) :
    seqOf (withLevel z v s) y = seqOf s y := by rfl
@[simp] theorem withSequencer_pins (z : LocalZone) (q : Sequencer) (s : State) :
    (withSequencer z q s).pins = s.pins := by rfl
@[simp] theorem withSequencer_phase (z : LocalZone) (q : Sequencer) (s : State) :
    (withSequencer z q s).phase = s.phase := by rfl
@[simp] theorem withSequencer_clc (z : LocalZone) (q : Sequencer) (s : State) :
    (withSequencer z q s).clc = s.clc := by rfl
@[simp] theorem withSequencer_lu (z : LocalZone) (q : Sequencer) (s : State) : (withSequencer z q s).lu = s.lu := by rfl
@[simp] theorem withSequencer_ofm (z : LocalZone) (q : Sequencer) (s : State) :
    (withSequencer z q s).ofm = s.ofm := by rfl
@[simp] theorem withSequencer_he (z : LocalZone) (q : Sequencer) (s : State) : (withSequencer z q s).he = s.he := by rfl
@[simp] theorem withSequencer_ppu (z : LocalZone) (q : Sequencer) (s : State) :
    (withSequencer z q s).ppu = s.ppu := by rfl
@[simp] theorem withSequencer_pgo (z : LocalZone) (q : Sequencer) (s : State) :
    (withSequencer z q s).pgo = s.pgo := by rfl
@[simp] theorem withSequencer_zc (z : LocalZone) (q : Sequencer) (s : State) : (withSequencer z q s).zc = s.zc := by rfl
@[simp] theorem withSequencer_lvu (z : LocalZone) (q : Sequencer) (s : State) :
    (withSequencer z q s).lvu = s.lvu := by rfl
@[simp] theorem withSequencer_spu (z : LocalZone) (q : Sequencer) (s : State) :
    (withSequencer z q s).spu = s.spu := by rfl
@[simp] theorem withSequencer_outputs (z : LocalZone) (q : Sequencer) (s : State) :
    (withSequencer z q s).outputs = s.outputs := by rfl
@[simp] theorem withSequencer_deliveries (z : LocalZone) (q : Sequencer) (s : State) :
    (withSequencer z q s).deliveries = s.deliveries := by rfl
@[simp] theorem withSequencer_choices (z : LocalZone) (q : Sequencer) (s : State) :
    (withSequencer z q s).choices = s.choices := by rfl
@[simp] theorem withSequencer_pending (z : LocalZone) (q : Sequencer) (s : State) :
    (withSequencer z q s).pending = s.pending := by rfl
@[simp] theorem own_withSequencer (z : LocalZone) (q : Sequencer) (s : State) :
    own (withSequencer z q s) = own s := by rfl
@[simp] theorem lineOf_withSequencer (z : LocalZone) (q : Sequencer) (s : State) (m : Line) :
    lineOf (withSequencer z q s) m = lineOf s m := by rfl
@[simp] theorem zoneOf_withSequencer (z : LocalZone) (q : Sequencer) (s : State) (y : LocalZone) :
    zoneOf (withSequencer z q s) y = zoneOf s y := by rfl
@[simp] theorem levelOf_withSequencer (z : LocalZone) (q : Sequencer) (s : State) (y : LocalZone) :
    levelOf (withSequencer z q s) y = levelOf s y := by rfl
@[simp] theorem withOffers_pins (os : List Offer) (s : State) : (withOffers os s).pins = s.pins := by rfl
@[simp] theorem withOffers_phase (os : List Offer) (s : State) : (withOffers os s).phase = s.phase := by rfl
@[simp] theorem withOffers_clc (os : List Offer) (s : State) : (withOffers os s).clc = s.clc := by rfl
@[simp] theorem withOffers_lu (os : List Offer) (s : State) : (withOffers os s).lu = s.lu := by rfl
@[simp] theorem withOffers_he (os : List Offer) (s : State) : (withOffers os s).he = s.he := by rfl
@[simp] theorem withOffers_ppu (os : List Offer) (s : State) : (withOffers os s).ppu = s.ppu := by rfl
@[simp] theorem withOffers_pgo (os : List Offer) (s : State) : (withOffers os s).pgo = s.pgo := by rfl
@[simp] theorem withOffers_zc (os : List Offer) (s : State) : (withOffers os s).zc = s.zc := by rfl
@[simp] theorem withOffers_ts (os : List Offer) (s : State) : (withOffers os s).ts = s.ts := by rfl
@[simp] theorem withOffers_lvu (os : List Offer) (s : State) : (withOffers os s).lvu = s.lvu := by rfl
@[simp] theorem withOffers_spu (os : List Offer) (s : State) : (withOffers os s).spu = s.spu := by rfl
@[simp] theorem withOffers_outputs (os : List Offer) (s : State) : (withOffers os s).outputs = s.outputs := by rfl
@[simp] theorem withOffers_deliveries (os : List Offer) (s : State) :
    (withOffers os s).deliveries = s.deliveries := by rfl
@[simp] theorem withOffers_choices (os : List Offer) (s : State) : (withOffers os s).choices = s.choices := by rfl
@[simp] theorem withOffers_pending (os : List Offer) (s : State) : (withOffers os s).pending = s.pending := by rfl
@[simp] theorem own_withOffers (os : List Offer) (s : State) : own (withOffers os s) = own s := by rfl
@[simp] theorem lineOf_withOffers (os : List Offer) (s : State) (m : Line) :
    lineOf (withOffers os s) m = lineOf s m := by rfl
@[simp] theorem zoneOf_withOffers (os : List Offer) (s : State) (y : LocalZone) :
    zoneOf (withOffers os s) y = zoneOf s y := by rfl
@[simp] theorem levelOf_withOffers (os : List Offer) (s : State) (y : LocalZone) :
    levelOf (withOffers os s) y = levelOf s y := by rfl
@[simp] theorem seqOf_withOffers (os : List Offer) (s : State) (y : LocalZone) :
    seqOf (withOffers os s) y = seqOf s y := by rfl
@[simp] theorem withPages_pins (ps : List PageRec) (s : State) : (withPages ps s).pins = s.pins := by rfl
@[simp] theorem withPages_phase (ps : List PageRec) (s : State) : (withPages ps s).phase = s.phase := by rfl
@[simp] theorem withPages_clc (ps : List PageRec) (s : State) : (withPages ps s).clc = s.clc := by rfl
@[simp] theorem withPages_lu (ps : List PageRec) (s : State) : (withPages ps s).lu = s.lu := by rfl
@[simp] theorem withPages_ofm (ps : List PageRec) (s : State) : (withPages ps s).ofm = s.ofm := by rfl
@[simp] theorem withPages_he (ps : List PageRec) (s : State) : (withPages ps s).he = s.he := by rfl
@[simp] theorem withPages_ppu (ps : List PageRec) (s : State) : (withPages ps s).ppu = s.ppu := by rfl
@[simp] theorem withPages_zc (ps : List PageRec) (s : State) : (withPages ps s).zc = s.zc := by rfl
@[simp] theorem withPages_ts (ps : List PageRec) (s : State) : (withPages ps s).ts = s.ts := by rfl
@[simp] theorem withPages_lvu (ps : List PageRec) (s : State) : (withPages ps s).lvu = s.lvu := by rfl
@[simp] theorem withPages_spu (ps : List PageRec) (s : State) : (withPages ps s).spu = s.spu := by rfl
@[simp] theorem withPages_outputs (ps : List PageRec) (s : State) : (withPages ps s).outputs = s.outputs := by rfl
@[simp] theorem withPages_deliveries (ps : List PageRec) (s : State) :
    (withPages ps s).deliveries = s.deliveries := by rfl
@[simp] theorem withPages_choices (ps : List PageRec) (s : State) : (withPages ps s).choices = s.choices := by rfl
@[simp] theorem withPages_pending (ps : List PageRec) (s : State) : (withPages ps s).pending = s.pending := by rfl
@[simp] theorem own_withPages (ps : List PageRec) (s : State) : own (withPages ps s) = own s := by rfl
@[simp] theorem lineOf_withPages (ps : List PageRec) (s : State) (m : Line) :
    lineOf (withPages ps s) m = lineOf s m := by rfl
@[simp] theorem zoneOf_withPages (ps : List PageRec) (s : State) (y : LocalZone) :
    zoneOf (withPages ps s) y = zoneOf s y := by rfl
@[simp] theorem levelOf_withPages (ps : List PageRec) (s : State) (y : LocalZone) :
    levelOf (withPages ps s) y = levelOf s y := by rfl
@[simp] theorem seqOf_withPages (ps : List PageRec) (s : State) (y : LocalZone) :
    seqOf (withPages ps s) y = seqOf s y := by rfl
@[simp] theorem withPeer_pins (p : Cabinet) (e : Peer) (s : State) : (withPeer p e s).pins = s.pins := by rfl
@[simp] theorem withPeer_phase (p : Cabinet) (e : Peer) (s : State) : (withPeer p e s).phase = s.phase := by rfl
@[simp] theorem withPeer_lu (p : Cabinet) (e : Peer) (s : State) : (withPeer p e s).lu = s.lu := by rfl
@[simp] theorem withPeer_ofm (p : Cabinet) (e : Peer) (s : State) : (withPeer p e s).ofm = s.ofm := by rfl
@[simp] theorem withPeer_he (p : Cabinet) (e : Peer) (s : State) : (withPeer p e s).he = s.he := by rfl
@[simp] theorem withPeer_ppu (p : Cabinet) (e : Peer) (s : State) : (withPeer p e s).ppu = s.ppu := by rfl
@[simp] theorem withPeer_pgo (p : Cabinet) (e : Peer) (s : State) : (withPeer p e s).pgo = s.pgo := by rfl
@[simp] theorem withPeer_zc (p : Cabinet) (e : Peer) (s : State) : (withPeer p e s).zc = s.zc := by rfl
@[simp] theorem withPeer_ts (p : Cabinet) (e : Peer) (s : State) : (withPeer p e s).ts = s.ts := by rfl
@[simp] theorem withPeer_lvu (p : Cabinet) (e : Peer) (s : State) : (withPeer p e s).lvu = s.lvu := by rfl
@[simp] theorem withPeer_spu (p : Cabinet) (e : Peer) (s : State) : (withPeer p e s).spu = s.spu := by rfl
@[simp] theorem withPeer_outputs (p : Cabinet) (e : Peer) (s : State) : (withPeer p e s).outputs = s.outputs := by rfl
@[simp] theorem withPeer_deliveries (p : Cabinet) (e : Peer) (s : State) :
    (withPeer p e s).deliveries = s.deliveries := by rfl
@[simp] theorem withPeer_choices (p : Cabinet) (e : Peer) (s : State) : (withPeer p e s).choices = s.choices := by rfl
@[simp] theorem withPeer_pending (p : Cabinet) (e : Peer) (s : State) : (withPeer p e s).pending = s.pending := by rfl
@[simp] theorem own_withPeer (p : Cabinet) (e : Peer) (s : State) : own (withPeer p e s) = own s := by rfl
@[simp] theorem lineOf_withPeer (p : Cabinet) (e : Peer) (s : State) (m : Line) :
    lineOf (withPeer p e s) m = lineOf s m := by rfl
@[simp] theorem zoneOf_withPeer (p : Cabinet) (e : Peer) (s : State) (y : LocalZone) :
    zoneOf (withPeer p e s) y = zoneOf s y := by rfl
@[simp] theorem levelOf_withPeer (p : Cabinet) (e : Peer) (s : State) (y : LocalZone) :
    levelOf (withPeer p e s) y = levelOf s y := by rfl
@[simp] theorem seqOf_withPeer (p : Cabinet) (e : Peer) (s : State) (y : LocalZone) :
    seqOf (withPeer p e s) y = seqOf s y := by rfl
@[simp] theorem withOutputs_outputs (os : List Output) (s : State) : (withOutputs os s).outputs = os := by rfl
@[simp] theorem withQueued_link (ns : List Notice) (s : State) : (withQueued ns s).clc.link = s.clc.link := by rfl
@[simp] theorem withQueued_peers (ns : List Notice) (s : State) : (withQueued ns s).clc.peers = s.clc.peers := by rfl
@[simp] theorem withQueued_queue (ns : List Notice) (s : State) :
    (withQueued ns s).clc.queue = s.clc.queue ++ ns.map (newEntry (own s)) := by rfl
@[simp] theorem withWithdrawn_link (p : Notice → Bool) (s : State) : (withWithdrawn p s).clc.link = s.clc.link := by rfl
@[simp] theorem withWithdrawn_queue (p : Notice → Bool) (s : State) :
    (withWithdrawn p s).clc.queue = withdrawFrom p s.clc.queue := by rfl
@[simp] theorem withPeer_link (p : Cabinet) (e : Peer) (s : State) : (withPeer p e s).clc.link = s.clc.link := by rfl
@[simp] theorem withPeer_queue (p : Cabinet) (e : Peer) (s : State) : (withPeer p e s).clc.queue = s.clc.queue := by rfl
@[simp] theorem withSent_output (rs : List OutRecord) (s : State) :
    (withSent rs s).spu.output = s.spu.output ++ rs := by rfl
@[simp] theorem lineOf_withLine_self (l : Line) (r : LineRec) (s : State) : lineOf (withLine l r s) l = r :=
  Table.get_set_self ..
theorem lineOf_withLine_ne {l m : Line} (r : LineRec) (s : State) (h : m ≠ l) :
    lineOf (withLine l r s) m = lineOf s m :=
  Table.get_set_ne _ r h
@[simp] theorem zoneOf_withZone_self (z : LocalZone) (r : ZoneRec) (s : State) : zoneOf (withZone z r s) z = r :=
  Table.get_set_self ..
theorem zoneOf_withZone_ne {z y : LocalZone} (r : ZoneRec) (s : State) (h : y ≠ z) :
    zoneOf (withZone z r s) y = zoneOf s y :=
  Table.get_set_ne _ r h
@[simp] theorem levelOf_withLevel_self (z : LocalZone) (v : Level) (s : State) : levelOf (withLevel z v s) z = v :=
  Table.get_set_self ..
@[simp] theorem seqOf_withSequencer_self (z : LocalZone) (q : Sequencer) (s : State) :
    seqOf (withSequencer z q s) z = q :=
  Table.get_set_self ..
@[simp] theorem withOffers_offers (os : List Offer) (s : State) : (withOffers os s).ofm.offers = os := by rfl
@[simp] theorem withPages_pages (ps : List PageRec) (s : State) : (withPages ps s).pgo.pages = ps := by rfl
@[simp] theorem withSequencer_notes (z : LocalZone) (q : Sequencer) (s : State) :
    (withSequencer z q s).ts.notes = s.ts.notes := by rfl

theorem withLine_same (l : Line) (r : LineRec) (s : State) (h : r = lineOf s l) : withLine l r s = s := by
  subst h
  simp [withLine, lineOf]

/-! ### The shared operations as parts -/

/-- A tone order as parts. -/
theorem orderTone_eq (l : Line) (t : Tone) (s : State) :
    orderTone l t s = withOutputs (s.outputs ++ [.tone l t]) (withLine l { lineOf s l with tone := t } s) := by rfl

/-- A ring order as parts. -/
theorem orderRing_eq (l : Line) (on : Bool) (s : State) :
    orderRing l on s = withOutputs (s.outputs ++ [.ring l on]) (withLine l { lineOf s l with ring := on } s) := by rfl

/-- A line that becomes available for no group: nothing is announced (R36). -/
theorem refresh_zero (l : Line) (s : State) (h : availableSet (lineOf s l) = 0) :
    refresh l s = withLine l { lineOf s l with available := 0 } s := by
  simp [refresh, h, onLine_eq]


/-- A frame heard in RUNNING from a known peer, at the start of a command (R4, R12, R19). -/
theorem hear_fresh (src : Cabinet) (everywhere : Bool) (f : State → State) (s : State) (link : s.clc.link = .running)
    (k : Known src s) :
    hear src everywhere f (fresh s) = f (withOutputs [.acknowledge true] (heardFrom src s)) :=
  hear_known src everywhere f (fresh s) link k

/-- A frame of a known peer heard in LISTENING, of a kind that is handed over there (R12, R19). -/
theorem hear_listening (src : Cabinet) (f : State → State) (s : State) (link : s.clc.link = .listening) (k : Known src s) :
    hear src true f (fresh s) = f (withOutputs [.acknowledge true] (heardFrom src s)) := by
  obtain ⟨ne, pr⟩ := k
  have pr : (s.clc.peers.get src).state = .present := pr
  simp [hear, link, readsBus, emit, touchPeer, peerOf, pr, modPeer, onClc, handsOver, own, heardFrom, withPeer, withOutputs,
    Table.modify, fresh]
  exact fun h => absurd h ne

end Sys2Proof.Machine
end

