-- ==== Sys2Proof/Laws/Ids.lean ====
section
/-! SUPPORT. Sequence values: the search for a free one (R46, R107). -/

namespace Sys2Proof.Machine

/-- The sequence value `k` places after another. -/
def seqAfter (k : Nat) (q : Seq) : Seq := ⟨(q.val + k) % 256, by omega⟩

theorem seqAfter_zero (q : Seq) : seqAfter 0 q = q := by
  apply Fin.ext
  simp [seqAfter]

theorem seqAfter_next (k : Nat) (q : Seq) : seqAfter k (nextSeq q) = seqAfter (k + 1) q := by
  apply Fin.ext
  simp [seqAfter, nextSeq]
  omega

theorem seqAfter_injective (q : Seq) {j k : Nat} (hj : j < 256) (hk : k < 256) (h : seqAfter j q = seqAfter k q) : j = k := by
  have := congrArg Fin.val h
  simp only [seqAfter] at this
  have := q.isLt
  omega

/-- The search stops at the candidate where that is free. -/
theorem firstFree_candidate (held : Seq → Bool) (fuel : Nat) (q : Seq) (h : held q = false) : firstFree held fuel q = q := by
  cases fuel <;> simp [firstFree, h]

/-- The search finds a free value, or has seen every value it tried held. -/
theorem firstFree_or (held : Seq → Bool) (fuel : Nat) (q : Seq) :
    (∃ k ≤ fuel, firstFree held fuel q = seqAfter k q ∧ (k < fuel → held (seqAfter k q) = false)
      ∧ ∀ j < k, held (seqAfter j q) = true) := by
  induction fuel generalizing q with
  | zero => exact ⟨0, Nat.le_refl _, by simp [firstFree, seqAfter_zero], by omega, by omega⟩
  | succ fuel ih =>
    cases hq : held q with
    | false => exact ⟨0, by omega, by simp [firstFree, hq, seqAfter_zero], by simp [seqAfter_zero, hq], by omega⟩
    | true =>
      obtain ⟨k, hk, e, f, g⟩ := ih (nextSeq q)
      refine ⟨k + 1, by omega, by simp [firstFree, hq, e, seqAfter_next], ?_, ?_⟩
      · intro lt
        rw [← seqAfter_next]
        exact f (by omega)
      · intro j lt
        cases j with
        | zero => rw [seqAfter_zero]; exact hq
        | succ j => rw [← seqAfter_next]; exact g j (by omega)

/-- A list without repeats whose members all lie in another list is no longer than it. -/
theorem length_le_of_nodup : ∀ (l m : List Seq), l.Nodup → (∀ x ∈ l, x ∈ m) → l.length ≤ m.length
  | [], _, _, _ => Nat.zero_le _
  | x :: l, m, nd, sub => by
    have hx : x ∈ m := sub x (List.mem_cons_self ..)
    have nd' := List.nodup_cons.mp nd
    have : l.length ≤ (m.erase x).length := by
      apply length_le_of_nodup l (m.erase x) nd'.2
      intro y hy
      have hne : y ≠ x := fun e => nd'.1 (e ▸ hy)
      exact (List.mem_erase_of_ne hne).mpr (sub y (List.mem_cons_of_mem _ hy))
    have e := List.length_erase_of_mem hx
    have pos := List.length_pos_of_mem hx
    simp only [List.length_cons]
    omega

/-- The search finds a value outside a list of held ones that is shorter than the number of tries. -/
theorem firstFree_free (l : List Seq) (fuel : Nat) (q : Seq) (short : l.length < fuel) (small : fuel < 256) :
    firstFree (fun x => decide (x ∈ l)) fuel q ∉ l := by
  obtain ⟨k, hk, e, f, g⟩ := firstFree_or (fun x => decide (x ∈ l)) fuel q
  rw [e]
  by_cases lt : k < fuel
  · simpa using f lt
  · exfalso
    have hk' : k = fuel := by omega
    subst hk'
    have nd : ((List.range k).map fun j => seqAfter j q).Nodup := by
      have : ((List.range k).map fun j => seqAfter j q).Pairwise (· ≠ ·) := by
        rw [List.pairwise_map]
        apply List.Pairwise.imp_of_mem _ List.pairwise_lt_range
        intro a b ha hb lt e
        have := seqAfter_injective q (by have := List.mem_range.mp ha; omega) (by have := List.mem_range.mp hb; omega) e
        omega
      exact this
    have := length_le_of_nodup _ l nd (by
      intro x hx
      obtain ⟨j, hj, rfl⟩ := List.mem_map.mp hx
      simpa using g j (List.mem_range.mp hj))
    simp at this
    omega

end Sys2Proof.Machine
end

