-- ==== Sys2Proof/Laws/Notices.lean ====
section
/-! SUPPORT. Notices that go out, whether the part is on the link or cut off from it: what queueing one does, and what it leaves. -/

namespace Sys2Proof.Machine

/-- On the link notices join the transmit queue (R7). -/
theorem noticed_running (ns : List Notice) (s : State) (link : s.clc.link = .running) : noticed ns s = withQueued ns s := by
  simp [noticed, cutOff, link]

/-- No notice is no change. -/
@[simp] theorem noticed_nil (s : State) : noticed [] s = s := by
  unfold noticed
  split
  · simp
  · exact withQueued_nil s

/-- Queueing a notice of a block is its going out, where there is room for it (R7, R10). -/
theorem queueNotice_noticed (n : Notice) (s : State) (h : isHousekeeping n = false) (room : Room 1 s) :
    queueNotice n s = noticed [n] s := by
  rcases room with c | ⟨link, room⟩
  · have p : isProbe n = false := by
      simp only [isHousekeeping, Bool.or_eq_false_iff] at h
      exact h.2
    have link : s.clc.link = .isolated ∨ s.clc.link = .listenOnly := by
      cases e : s.clc.link <;> simp [cutOff, e] at c <;> simp
    rw [queueNotice_cutOff n s link p, deliverLater_of_not n s h]
    simp [noticed, c]
  · rw [queueNotice_running n s link h (by omega), noticed_running _ _ link]

/-! ### What notices that go out leave -/

@[simp] theorem noticed_pins (ns : List Notice) (s : State) : (noticed ns s).pins = s.pins := by unfold noticed; split <;> rfl
@[simp] theorem noticed_phase (ns : List Notice) (s : State) : (noticed ns s).phase = s.phase := by unfold noticed; split <;> rfl
@[simp] theorem noticed_link (ns : List Notice) (s : State) : (noticed ns s).clc.link = s.clc.link := by
  unfold noticed; split <;> rfl
@[simp] theorem noticed_peers (ns : List Notice) (s : State) : (noticed ns s).clc.peers = s.clc.peers := by
  unfold noticed; split <;> rfl
@[simp] theorem noticed_dropRun (ns : List Notice) (s : State) : (noticed ns s).clc.dropRun = s.clc.dropRun := by
  unfold noticed; split <;> rfl
@[simp] theorem own_noticed (ns : List Notice) (s : State) : own (noticed ns s) = own s := by unfold noticed; split <;> rfl
@[simp] theorem cutOff_noticed (ns : List Notice) (s : State) : cutOff (noticed ns s) = cutOff s := by simp [cutOff]
@[simp] theorem noticed_lu (ns : List Notice) (s : State) : (noticed ns s).lu = s.lu := by unfold noticed; split <;> rfl
@[simp] theorem lineOf_noticed (ns : List Notice) (s : State) (l : Line) : lineOf (noticed ns s) l = lineOf s l := by
  simp [lineOf]
@[simp] theorem noticed_ofm (ns : List Notice) (s : State) : (noticed ns s).ofm = s.ofm := by unfold noticed; split <;> rfl
@[simp] theorem noticed_he (ns : List Notice) (s : State) : (noticed ns s).he = s.he := by unfold noticed; split <;> rfl
@[simp] theorem noticed_ppu (ns : List Notice) (s : State) : (noticed ns s).ppu = s.ppu := by unfold noticed; split <;> rfl
@[simp] theorem noticed_pgo (ns : List Notice) (s : State) : (noticed ns s).pgo = s.pgo := by unfold noticed; split <;> rfl
@[simp] theorem noticed_zc (ns : List Notice) (s : State) : (noticed ns s).zc = s.zc := by unfold noticed; split <;> rfl
@[simp] theorem noticed_ts (ns : List Notice) (s : State) : (noticed ns s).ts = s.ts := by unfold noticed; split <;> rfl
@[simp] theorem noticed_lvu (ns : List Notice) (s : State) : (noticed ns s).lvu = s.lvu := by unfold noticed; split <;> rfl
@[simp] theorem noticed_spu (ns : List Notice) (s : State) : (noticed ns s).spu = s.spu := by unfold noticed; split <;> rfl
@[simp] theorem noticed_outputs (ns : List Notice) (s : State) : (noticed ns s).outputs = s.outputs := by
  unfold noticed; split <;> rfl

@[simp] theorem zoneOf_noticed (ns : List Notice) (s : State) (z : LocalZone) : zoneOf (noticed ns s) z = zoneOf s z := by
  simp [zoneOf]
@[simp] theorem seqOf_noticed (ns : List Notice) (s : State) (z : LocalZone) : seqOf (noticed ns s) z = seqOf s z := by
  simp [seqOf]
@[simp] theorem levelOf_noticed (ns : List Notice) (s : State) (z : LocalZone) : levelOf (noticed ns s) z = levelOf s z := by
  simp [levelOf]
@[simp] theorem numberOf_noticed (ns : List Notice) (s : State) (z : LocalZone) : numberOf (noticed ns s) z = numberOf s z := by
  simp [numberOf]

/-- On the link notices that go out deliver nothing. -/
theorem noticed_deliveries (ns : List Notice) (s : State) (h : cutOff s = false) : (noticed ns s).deliveries = s.deliveries := by
  simp [noticed, h]

/-- Notices that go out add at most their number to the transmit queue. -/
theorem noticed_queue_length (ns : List Notice) (s : State) :
    (noticed ns s).clc.queue.length ≤ s.clc.queue.length + ns.length := by
  unfold noticed
  split <;> simp [withQueued]

/-- Notices go out one after another. -/
theorem noticed_twice (a b : List Notice) (s : State) : noticed b (noticed a s) = noticed (a ++ b) s := by
  by_cases c : cutOff s = true
  · simp only [noticed, c, if_true]
    rw [if_pos (by exact c), List.append_assoc]
  · have c' : ¬ cutOff (withQueued a s) = true := c
    simp only [noticed, if_neg c, if_neg c', withQueued_twice]

/-- Room for fewer notices is room. -/
theorem Room.le {m n : Nat} {s : State} (room : Room n s) (h : m ≤ n) : Room m s := by
  rcases room with c | ⟨link, room⟩
  · exact Or.inl c
  · exact Or.inr ⟨link, by omega⟩

/-- Room that is left when notices have gone out. -/
theorem Room.noticed {n : Nat} {ns : List Notice} {s : State} (room : Room (ns.length + n) s) : Room n (noticed ns s) := by
  rcases room with c | ⟨link, room⟩
  · exact Or.inl (by simpa using c)
  · refine Or.inr ⟨by simpa using link, ?_⟩
    rw [noticed_running _ _ link]
    simp [withQueued]
    omega

/-- Where the CLC stays as it is, so does the room. -/
theorem Room.of_clc {n : Nat} {s t : State} (room : Room n s) (h : t.clc = s.clc) : Room n t := by
  simpa [Room, cutOff, h] using room

/-! ### Notices that go out and other parts change places -/

@[simp] theorem withLine_noticed (ns : List Notice) (l : Line) (r : LineRec) (s : State) :
    withLine l r (noticed ns s) = noticed ns (withLine l r s) := by
  unfold noticed
  rw [show cutOff (withLine l r s) = cutOff s from rfl]
  split <;> rfl
@[simp] theorem withZone_noticed (ns : List Notice) (z : LocalZone) (r : ZoneRec) (s : State) :
    withZone z r (noticed ns s) = noticed ns (withZone z r s) := by
  unfold noticed
  rw [show cutOff (withZone z r s) = cutOff s from rfl]
  split <;> rfl
@[simp] theorem withSent_noticed (ns : List Notice) (rs : List OutRecord) (s : State) :
    withSent rs (noticed ns s) = noticed ns (withSent rs s) := by
  unfold noticed
  rw [show cutOff (withSent rs s) = cutOff s from rfl]
  split <;> rfl
@[simp] theorem noticed_withOutputs (ns : List Notice) (os : List Output) (s : State) :
    noticed ns (withOutputs os s) = withOutputs os (noticed ns s) := by
  unfold noticed
  rw [show cutOff (withOutputs os s) = cutOff s from rfl]
  split <;> rfl
@[simp] theorem withPages_noticed (ns : List Notice) (ps : List PageRec) (s : State) :
    withPages ps (noticed ns s) = noticed ns (withPages ps s) := by
  unfold noticed
  rw [show cutOff (withPages ps s) = cutOff s from rfl]
  split <;> rfl

/-- Recomputing a line's availability, with room for the notice (R36). -/
theorem refresh_noticed (l : Line) (s : State) (room : Room 1 s) :
    refresh l s = noticed (newGroups (availableSet (lineOf s l) &&& ~~~ (lineOf s l).available))
      (withLine l { lineOf s l with available := availableSet (lineOf s l) } s) := by
  unfold refresh newGroups
  simp only []
  split
  · simp [withLine, onLine, Table.modify, lineOf]
  · rw [queueNotice_noticed _ _ rfl (room.of_clc (by simp [onLine]))]
    simp [withLine, onLine, Table.modify, lineOf]

end Sys2Proof.Machine
end

