-- ==== Sys2Proof/Laws/Quiet.lean ====
section
/-! SUPPORT. What the shared operations do where they find nothing to act on: they leave the state as it is. -/

namespace Sys2Proof.Machine

/-! ### Running over a list -/

theorem forEach_same {α : Type} (l : List α) (f : α → State → State) (s : State) (h : ∀ a ∈ l, f a s = s) :
    forEach l f s = s := by
  induction l with
  | nil => rfl
  | cons a rest ih =>
    rw [forEach, h a (List.mem_cons_self ..)]
    exact ih fun b hb => h b (List.mem_cons_of_mem _ hb)

theorem forEach_append {α : Type} (l m : List α) (f : α → State → State) (s : State) :
    forEach (l ++ m) f s = forEach m f (forEach l f s) := by
  induction l generalizing s with
  | nil => rfl
  | cons a rest ih => exact ih (f a s)

/-- A property that one run of `f` keeps, a run over a list keeps. -/
theorem forEach_keeps {α : Type} (P : State → Prop) (l : List α) (f : α → State → State)
    (h : ∀ a ∈ l, ∀ s, P s → P (f a s)) (s : State) (hs : P s) : P (forEach l f s) := by
  induction l generalizing s with
  | nil => exact hs
  | cons a rest ih =>
    exact ih (fun b hb => h b (List.mem_cons_of_mem _ hb)) _ (h a (List.mem_cons_self ..) s hs)

/-! ### Updates that change nothing -/

theorem Table.modify_same {n : Nat} {α : Type} (t : Table n α) (i : Fin n) (f : α → α) (h : f (t.get i) = t.get i) :
    t.modify i f = t := by
  rw [Table.modify, h, Table.set_get]

theorem onLine_same (l : Line) (f : LineRec → LineRec) (s : State) (h : f (lineOf s l) = lineOf s l) :
    onLine l f s = s := by
  unfold onLine
  rw [Table.modify_same _ _ _ h]

theorem onZone_same (z : LocalZone) (f : ZoneRec → ZoneRec) (s : State) (h : f (zoneOf s z) = zoneOf s z) :
    onZone z f s = s := by
  unfold onZone
  rw [Table.modify_same _ _ _ h]

theorem withdrawFrom_none (p : Notice → Bool) (q : List TxEntry) (h : ∀ e ∈ q, p e.notice = false) :
    withdrawFrom p q = q := by
  unfold withdrawFrom
  induction q with
  | nil => rfl
  | cons e rest ih =>
    rw [List.filterMap_cons, ih fun x hx => h x (List.mem_cons_of_mem _ hx)]
    simp [h e (List.mem_cons_self ..)]

theorem withdraw_none (p : Notice → Bool) (s : State) (h : ∀ e ∈ s.clc.queue, p e.notice = false) :
    withdraw p s = s := by
  simp [withdraw, onClc, withdrawFrom_none p _ h]

/-! ### Zones (R129, R138, R139, R144) -/

/-- No page of the zone is picked: nothing is removed. -/
theorem removePages_none (z : LocalZone) (p : PageEntry → Bool) (o : Option ZoneOutcome) (s : State)
    (a : pickActive p (zoneOf s z) = none) (h : pickHeld p (zoneOf s z) = none)
    (w : (zoneOf s z).pending.all (fun e => !p e) = true) : removePages z p o s = s := by
  have f₁ : (zoneOf s z).pending.filter p = [] := by
    rw [List.filter_eq_nil_iff]
    intro e he
    have := List.all_eq_true.mp w e he
    simpa using this
  have f₂ : (zoneOf s z).pending.filter (fun e => !p e) = (zoneOf s z).pending :=
    List.filter_eq_self.mpr (List.all_eq_true.mp w)
  have e : onZone z (fun r => { r with
      held := if (pickHeld p r).isSome then none else r.held
      pending := r.pending.filter fun e => !p e }) s = s := by
    apply onZone_same
    simp only [h, Option.isSome_none, Bool.false_eq_true, if_false, f₂]
  unfold removePages
  simp only [e, a, h, f₁]
  cases o <;> simp [reportAll, forEach]

/-- No entry of the evacuation set is picked: nothing is removed. -/
theorem removeEvac_none (z : LocalZone) (p : PageId → Bool) (s : State) (h : ∀ e ∈ (zoneOf s z).evac, p e = false) :
    removeEvac z p s = s := by
  have f : (zoneOf s z).evac.filter (fun e => !p e) = (zoneOf s z).evac :=
    List.filter_eq_self.mpr fun e he => by simp [h e he]
  have e : onZone z (fun r => { r with evac := (zoneOf s z).evac }) s = s := onZone_same _ _ _ rfl
  unfold removeEvac
  simp only [f, e]
  split
  · next c => exact absurd c.2 c.1
  · rfl

/-- Pages are removed from every zone, and no zone places one. -/
theorem removeAll_none (p : PageEntry → Bool) (o : Option ZoneOutcome) (s : State) (h : NoPlacedPage p s) :
    forEach allZones (fun z s => removePages z p o s) s = s :=
  forEach_same _ _ _ fun z _ => removePages_none z p o s (h z).1 (h z).2.1 (h z).2.2

/-! ### Lines and offers at the loss of owners (R43, R64) -/

/-- No call of a lost owner rings at the line. -/
theorem ringingLoses_none {lost : Cabinet → Bool} (reason : RingEndReason) (l : Line) {r : LineRec} (s : State)
    (h : ∀ c, ¬ (r.state = .ringing ∧ r.call = some c ∧ lost c.call.cab = true)) : ringingLoses lost reason l r s = s := by
  unfold ringingLoses
  split
  · next c st e => exact if_neg fun x => h c ⟨st, e, x⟩
  · rfl

/-- No verdict on a call or orbit of a lost owner is pending at the line. -/
theorem verdictLoses_none {lost : Cabinet → Bool} (l : Line) {r : LineRec} (s : State)
    (h : ∀ v, ¬ (r.verdict = some v ∧ lost (targetOwner v.target) = true)) : verdictLoses lost l r s = s := by
  unfold verdictLoses
  split
  · next v e => exact if_neg fun x => h v ⟨e, x⟩
  · rfl

/-- No reservation for a call of a lost owner stands at the line. -/
theorem reservationLoses_none {lost : Cabinet → Bool} (l : Line) {r : LineRec} (s : State)
    (h : ∀ v, ¬ (r.reserved = some v ∧ lost v.call.cab = true)) : reservationLoses lost l r s = s := by
  unfold reservationLoses
  split
  · next v e => exact if_neg fun x => h v ⟨e, x⟩
  · rfl

theorem lineLosesOwner_quiet (lost : Cabinet → Bool) (reason : RingEndReason) (l : Line) (s : State)
    (h : (lineOf s l).state ≠ .ringing ∧ (lineOf s l).verdict = none ∧ (lineOf s l).reserved = none) :
    lineLosesOwner lost reason l s = s := by
  obtain ⟨a, b, c⟩ := h
  simp only [lineLosesOwner]
  rw [ringingLoses_none _ _ _ (by simp [a]), verdictLoses_none _ _ (by simp [b]), reservationLoses_none _ _ (by simp [c])]

theorem linePeerSilent_quiet (p : Cabinet) (s : State) (h : LinesQuiet s) : linePeerSilent p s = s :=
  forEach_same _ _ _ fun l _ => lineLosesOwner_quiet _ _ l s (h l)

theorem lineIsolated_quiet (s : State) (h : LinesQuiet s) : lineIsolated s = s :=
  forEach_same _ _ _ fun l _ => lineLosesOwner_quiet _ _ l s (h l)

/-- No offer needs the link: none ends at the entry to ISOLATED (R64). -/
theorem ofmIsolated_local (s : State) (h : ∀ o ∈ s.ofm.offers, endsIsolated (own s) o = false) : ofmIsolated s = s := by
  have : s.ofm.offers.filter (endsIsolated (own s)) = [] := by
    rw [List.filter_eq_nil_iff]
    intro o ho
    simp [h o ho]
  simp [ofmIsolated, this, forEach]

theorem tellIsolated_quiet (s : State) (h : LinesQuiet s) (o : ∀ o ∈ s.ofm.offers, endsIsolated (own s) o = false) :
    tellIsolated s = s := by
  rw [tellIsolated, ofmIsolated_local s o, lineIsolated_quiet s h]

/-! ### The transmit queue at an entry to ISOLATED or LISTEN-ONLY (R15) -/

/-- A queue of STATUS and PROBE alone is emptied with no delivery (R15). -/
theorem flushQueue_housekeeping (s : State) (d : s.deliveries = [])
    (h : ∀ e ∈ s.clc.queue, isHousekeeping e.notice = true) :
    flushQueue s = { s with clc := { s.clc with queue := [], driving := [] } } := by
  simp only [flushQueue]
  rw [forEach_same]
  · exact deliverAll_nil _ d
  · intro n hn
    obtain ⟨e, he, rfl⟩ := List.mem_map.mp hn
    exact deliverLater_housekeeping _ _ (h e he)

/-! ### The attempt of a queue -/

/-- The only entry in an attempt is the one found. -/
theorem attemptEntry_only (s : State) (before after : List TxEntry) (e : TxEntry) (q : s.clc.queue = before ++ e :: after)
    (a : e.inAttempt = true) (h : ∀ x ∈ before, x.inAttempt = false) : attemptEntry s = some e := by
  unfold attemptEntry
  rw [q, List.find?_append, List.find?_eq_none.mpr (by intro x hx; simp [h x hx])]
  simp [a]

theorem attemptEntry_none (s : State) (h : ∀ x ∈ s.clc.queue, x.inAttempt = false) : attemptEntry s = none := by
  unfold attemptEntry
  exact List.find?_eq_none.mpr (by intro x hx; simp [h x hx])

/-! ### The channel view (R108) -/

/-- The view entries that `p` picks become free: what stays is what `p` does not pick. -/
theorem freeView_filter (p : ChannelHold → Bool) (s : State) :
    freeView p s = { s with pgo := { s.pgo with view := s.pgo.view.map fun h => h.filter fun x => !p x } } := by
  have e : (freeView p s).pgo.view = s.pgo.view.map fun h => h.filter fun x => !p x := by
    apply Table.ext_get
    intro c
    simp only [freeView, onPgo, Table.get_map]
    cases s.pgo.view.get c with
    | none => rfl
    | some x => cases h : p x <;> simp [h, Option.filter]
  rw [← e]
  rfl

end Sys2Proof.Machine
end

