-- ==== Sys2Proof/Laws/Calls.lean ====
section
/-! SUPPORT. Records in the offer table and the page table by their sequence value, calls that end, lines that become IDLE. -/

namespace Sys2Proof.Machine

/-! ### Offer records -/

theorem findOffer_at {o : Offer} {before after : List Offer} {s : State} (h : OfferAt o before after s) :
    findOffer s o.seq = some o := by
  unfold findOffer
  rw [h.1, List.find?_append, List.find?_eq_none.mpr (by intro x hx; simpa using h.2 x (by simp [hx]))]
  simp

theorem findOffer_none {q : Seq} {s : State} (h : ∀ o ∈ s.ofm.offers, o.seq ≠ q) : findOffer s q = none := by
  unfold findOffer
  exact List.find?_eq_none.mpr (by intro x hx; simpa using h x hx)

theorem map_at {α : Type} (key : α → Seq) (o : α) (before after : List α) (f : α → α)
    (h : ∀ x ∈ before ++ after, key x ≠ key o) :
    (before ++ o :: after).map (fun x => if key x = key o then f x else x) = before ++ f o :: after := by
  have q : ∀ l : List α, (∀ x ∈ l, key x ≠ key o) → l.map (fun x => if key x = key o then f x else x) = l := by
    intro l hl
    conv => rhs; rw [← List.map_id l]
    apply List.map_congr_left
    intro x hx
    simp [hl x hx]
  rw [List.map_append, List.map_cons, q before fun x hx => h x (by simp [hx]), q after fun x hx => h x (by simp [hx])]
  simp

theorem filter_at {α : Type} (key : α → Seq) (o : α) (before after : List α)
    (h : ∀ x ∈ before ++ after, key x ≠ key o) :
    (before ++ o :: after).filter (fun x => !decide (key x = key o)) = before ++ after := by
  have q : ∀ l : List α, (∀ x ∈ l, key x ≠ key o) → l.filter (fun x => !decide (key x = key o)) = l := by
    intro l hl
    rw [List.filter_eq_self]
    intro x hx
    simp [hl x hx]
  rw [List.filter_append, List.filter_cons, q before fun x hx => h x (by simp [hx]), q after fun x hx => h x (by simp [hx])]
  simp

/-- A record that stands alone changes in its place. -/
theorem modOffer_at {o : Offer} {before after : List Offer} {s : State} (h : OfferAt o before after s) (f : Offer → Offer) :
    modOffer o.seq f s = withOffers (before ++ f o :: after) s := by
  rw [modOffer_eq, h.1, map_at (·.seq) o before after f h.2]

/-- A change that keeps the sequence value leaves the record alone in its place. -/
theorem offerAt_withOffers {o o' : Offer} {before after : List Offer} {s : State} (h : OfferAt o before after s)
    (e : o'.seq = o.seq) : OfferAt o' before after (withOffers (before ++ o' :: after) s) :=
  ⟨rfl, by rw [e]; exact h.2⟩

/-- A record leaves the table (R47). -/
theorem freeOffer_at {o : Offer} {before after : List Offer} {s : State} (h : OfferAt o before after s) :
    freeOffer o.seq s = callFreed o before after s := by
  simp only [freeOffer, dropStanding, onHe, onOfm, withdraw, onClc, callFreed, callIdOf, withWithdrawn, withOffers]
  rw [h.1, filter_at (·.seq) o before after h.2]

/-- A call that is not parked is connected (R50). -/
theorem connectCall_at {o : Offer} {before after : List Offer} {s : State} (h : OfferAt o before after s)
    (np : ∀ n, o.state ≠ .parked n) (link : s.clc.link = .running) (room : s.clc.queue.length < txCapacity)
    (shelf : s.spu.output.length < outputCapacity) (cab : Cabinet) (line : Line) (idx : Option OrderIndex) :
    connectCall o cab line idx s = callFreed o before after (withSent [.connect o.ref ⟨own s, o.seq⟩ cab line]
      (withQueued [.connected ⟨own s, o.seq⟩ cab line (targetGroup o.target) idx] s)) := by
  have fo : ∀ t, freeOrbitOf o t = t := by
    intro t
    unfold freeOrbitOf
    split
    · next n e => exact absurd e (np n)
    · rfl
  simp only [connectCall, callIdOf, fo]
  rw [queueNotice_running _ _ link rfl room, shelfSend_room _ _ (by simpa using shelf)]
  exact freeOffer_at ⟨h.1, h.2⟩

/-- A call that is not parked is ended (R51). -/
theorem endCall_at {o : Offer} {before after : List Offer} {s : State} (h : OfferAt o before after s) (o' : Offer)
    (sq : o'.seq = o.seq) (np : ∀ n, o'.state ≠ .parked n) (link : s.clc.link = .running)
    (room : s.clc.queue.length < txCapacity) (shelf : s.spu.output.length < outputCapacity) (r : Option EndReason) :
    endCall o' r s = callFreed o before after
      (withSent (r.map fun r => OutRecord.callEnded o'.ref ⟨own s, o.seq⟩ r).toList
        (withQueued (if partiesOut o' then [.cancel ⟨own s, o.seq⟩] else []) s)) := by
  have fo : ∀ t, freeOrbitOf o' t = t := by
    intro t
    unfold freeOrbitOf
    split
    · next n e => exact absurd e (np n)
    · rfl
  have nil : ∀ t, withSent [] t = t := by intro t; simp [withSent]
  simp only [endCall, callIdOf, fo, sq]
  by_cases p : partiesOut o' = true
  · simp only [p, if_true]
    rw [queueNotice_running _ _ link rfl room]
    cases r with
    | none => simp only [Option.map_none, Option.toList_none, nil]; exact freeOffer_at ⟨h.1, h.2⟩
    | some r => simp only []; rw [shelfSend_room _ _ (by simpa using shelf)]; exact freeOffer_at ⟨h.1, h.2⟩
  · simp only [p, Bool.false_eq_true, if_false, withQueued_nil]
    cases r with
    | none => simp only [Option.map_none, Option.toList_none, nil]; exact freeOffer_at ⟨h.1, h.2⟩
    | some r => simp only []; rw [shelfSend_room _ _ shelf]; exact freeOffer_at ⟨h.1, h.2⟩

/-! ### Calls offered again (R76, R79, R80) -/

theorem isDirect_hunt {o : Offer} {g : HuntGroup} (h : o.target = .hunt g) : isDirect o = false := by
  simp [isDirect, h, targetGroup]

theorem isDirect_direct {o : Offer} {cab : Cabinet} {line : Line} (h : o.target = .direct cab line) :
    isDirect o = true := by
  simp [isDirect, h, targetGroup]

theorem ownOffer_at {o : Offer} {before after : List Offer} {s : State} (h : OfferAt o before after s) :
    ownOffer s ⟨own s, o.seq⟩ = some o := by
  simp [ownOffer, findOffer_at h]

/-- A hunt call is offered again, with room in the queue (R76). -/
theorem reoffer_at {o : Offer} {before after : List Offer} {s : State} (h : OfferAt o before after s)
    (link : s.clc.link = .running) (room : s.clc.queue.length < txCapacity) (g : HuntGroup) (ht : o.target = .hunt g) :
    reoffer o.seq s = withQueued [.offer ⟨own s, o.seq⟩ g (reoffered o).attempts o.tried]
      (withOffers (before ++ reoffered o :: after) s) := by
  have c : cutOff s = false := by simp [cutOff, link]
  have h₁ := offerAt_withOffers h (o' := { o with attempts := min 255 (o.attempts + 1) }) rfl
  have e := modOffer_at h₁ (fun o => { o with state := .offering, window := none })
  have f := findOffer_at (offerAt_withOffers h₁ (o' := reoffered o) rfl)
  have ht' : (reoffered o).target = .hunt g := ht
  have same : ({ o with state := .offering, window := none, attempts := min 255 (o.attempts + 1) } : Offer)
      = reoffered o := rfl
  simp only [withOffers_twice] at f
  have f : findOffer (withOffers (before ++ reoffered o :: after) s) o.seq = some (reoffered o) := f
  simp only at e
  simp only [reoffer, c, Bool.false_eq_true, if_false]
  rw [modOffer_at h]
  simp only [offerCall]
  rw [e]
  simp only [withOffers_twice]
  rw [same, f]
  simp only [ht', targetGroup]
  rw [queueNotice_running _ _ (by exact link) rfl (by exact room)]
  rfl

/-- A hunt call is offered again with the tried set cleared (R82, R84, R86, R104). -/
theorem reofferAfresh_at {o : Offer} {before after : List Offer} {s : State} (h : OfferAt o before after s)
    (link : s.clc.link = .running) (room : s.clc.queue.length < txCapacity) (g : HuntGroup) (ht : o.target = .hunt g) :
    reofferAfresh o.seq s = withQueued [.offer ⟨own s, o.seq⟩ g (reoffered o).attempts 0]
      (withOffers (before ++ reoffered { o with tried := 0 } :: after) s) := by
  simp only [reofferAfresh]
  rw [modOffer_at h]
  have := reoffer_at (offerAt_withOffers h (o' := { o with tried := 0 }) rfl) (by exact link) (by exact room) g ht
  rw [withOffers_twice] at this
  exact this

/-- The next-step decision offers a hunt call again while an order index of its span is untried (R79). -/
theorem nextStep_at {o : Offer} {before after : List Offer} {s : State} (h : OfferAt o before after s)
    (link : s.clc.link = .running) (room : s.clc.queue.length < txCapacity) (g : HuntGroup) (ht : o.target = .hunt g)
    (p : GroupParams) (hp : s.he.groups.get g = some p) (hr : o.ringing = []) (he : exhausted o.tried p.span = false) :
    nextStep o.seq s = withQueued [.offer ⟨own s, o.seq⟩ g (reoffered o).attempts o.tried]
      (withOffers (before ++ reoffered o :: after) s) := by
  simp only [nextStep, findOffer_at h, hr]
  have : groupOf s o = some p := by simp [groupOf, ht, targetGroup, hp]
  simp only [this, he]
  exact reoffer_at h link room g ht

/-- The assign wait of a hunt call fails while an order index of its span is untried (R80). -/
theorem failAssign_at {o : Offer} {m : Member} {before after : List Offer} {s : State} (h : OfferAt o before after s)
    (link : s.clc.link = .running) (room : s.clc.queue.length < txCapacity) (g : HuntGroup) (ht : o.target = .hunt g)
    (as : o.assigned = some m) (p : GroupParams) (hp : s.he.groups.get g = some p) (hr : o.ringing = [])
    (he : exhausted (addTried m.index [] o.tried) p.span = false) :
    failAssign o.seq s = withQueued [.offer ⟨own s, o.seq⟩ g (reoffered (withoutAssigned m.index o)).attempts
        (withoutAssigned m.index o).tried]
      (withOffers (before ++ reoffered (withoutAssigned m.index o) :: after) s) := by
  simp only [failAssign]
  rw [modOffer_at h]
  have l : loseAssigned o = withoutAssigned m.index o := by
    simp [loseAssigned, as, countTried, withoutAssigned, isDirect, ht, targetGroup]
  rw [l]
  have at2 := offerAt_withOffers h (o' := withoutAssigned m.index o) rfl
  have := nextStep_at at2 (by exact link) (by exact room) g ht p hp hr (by simp [withoutAssigned, hr, he])
  rw [withOffers_twice] at this
  exact this

/-! ### Page records -/

theorem findPage_at {r : PageRec} {before after : List PageRec} {s : State} (h : PageAt r before after s) :
    findPage s r.seq = some r := by
  unfold findPage
  rw [h.1, List.find?_append, List.find?_eq_none.mpr (by intro x hx; simpa using h.2 x (by simp [hx]))]
  simp

theorem modPage_at {r : PageRec} {before after : List PageRec} {s : State} (h : PageAt r before after s)
    (f : PageRec → PageRec) : modPage r.seq f s = withPages (before ++ f r :: after) s := by
  rw [modPage_eq, h.1, map_at (·.seq) r before after f h.2]

theorem freePage_at {r : PageRec} {before after : List PageRec} {s : State} (h : PageAt r before after s) :
    freePage r.seq s = withPages (before ++ after) s := by
  rw [freePage_eq, h.1, filter_at (·.seq) r before after h.2]

/-! ### Lines -/

/-- A line becomes IDLE, with room in the queue (R24, R36). -/
theorem becomeIdle_eq (l : Line) (s : State) (link : s.clc.link = .running) (room : s.clc.queue.length < txCapacity) :
    becomeIdle l s = withOutputs (s.outputs ++ [.ring l false, .tone l .none])
      (withQueued (newlyAvailable (lineOf s l) (idleRecord (lineOf s l)))
        (withLine l (refreshed (idleRecord (lineOf s l))) s)) := by
  unfold becomeIdle
  rw [refresh_room]
  case link => exact Or.inl link
  case room => simpa [onLine_eq, orderTone_eq, orderRing_eq] using room
  simp [onLine_eq, orderTone_eq, orderRing_eq, idleRecord, refreshed, newlyAvailable]

/-- No line holds a reservation for the call. -/
theorem releaseCall_none (c : CallId) (s : State)
    (h : ∀ l, match (lineOf s l).reserved with
      | some v => v.call ≠ c
      | none => True) : releaseCall c s = s := by
  have : reservedLine s c = none := by
    unfold reservedLine
    rw [List.find?_eq_none]
    intro l _
    have := h l
    cases e : (lineOf s l).reserved with
    | none => simp
    | some v => rw [e] at this; simpa using this
  simp [releaseCall, this, withCode]

/-- Where every other line stays as it is, a run over the lines is a run at one. -/
theorem forEach_oneLine (l : Line) (f : Line → State → State) (s : State)
    (before : ∀ m, m ≠ l → f m s = s) (after : ∀ m, m ≠ l → f m (f l s) = f l s) : forEach allLines f s = f l s := by
  have split : ∃ a b : List Line, allLines = a ++ l :: b ∧ l ∉ a ∧ l ∉ b := by
    have m : l ∈ allLines := by simp [allLines]
    obtain ⟨a, b, e⟩ := List.append_of_mem m
    have nd : (a ++ l :: b).Nodup := e ▸ (by decide : allLines.Nodup)
    refine ⟨a, b, e, ?_, ?_⟩
    · intro h
      exact (List.nodup_append.mp nd).2.2 l h l (List.mem_cons_self ..) rfl
    · exact (List.nodup_cons.mp (List.nodup_append.mp nd).2.1).1
  obtain ⟨a, b, e, ha, hb⟩ := split
  rw [e, forEach_append, forEach_same _ _ _ fun m hm => before m fun h => ha (h ▸ hm), forEach]
  exact forEach_same _ _ _ fun m hm => after m fun h => hb (h ▸ hm)

end Sys2Proof.Machine
end

