-- ==== Sys2Proof/Laws/Members.lean ====
section
/-! SUPPORT. What the member side and the owner side of hunting do, said once: candidates, ringing, reservations,
    windows. -/

namespace Sys2Proof.Machine

/-! ### Candidates in order (R69) -/

/-- The order of candidates (R69). -/
theorem better_iff (a b : Candidate) : better a b = true ↔ Before a.key a.index a.line b.key b.index b.line := by
  simp [better, Before]

/-- A candidate put in its place. -/
theorem rankInto_mem (a : Candidate) (l : List Candidate) (x) : x ∈ rankInto a l ↔ x = a ∨ x ∈ l := by
  induction l with
  | nil => simp [rankInto]
  | cons b r ih => unfold rankInto; split <;> simp [ih, or_left_comm]

/-- Ordering loses no candidate. -/
theorem rank_mem (l : List Candidate) (x) : x ∈ rank l ↔ x ∈ l := by
  induction l with
  | nil => simp [rank]
  | cons b r ih => simp [rank, rankInto_mem, ih]

/-- The best candidate stands first. -/
theorem rank_head (l : List Candidate) (a : Candidate) (ha : a ∈ l) (h : ∀ x ∈ l, x = a ∨ (better a x = true ∧ better x
    a = false)) : ∃ r, rank l = a :: r := by
  induction l with
  | nil => simp at ha
  | cons b r ih =>
    by_cases hb : b = a
    · subst hb
      simp only [rank]
      cases e : rank r with
      | nil => exact ⟨[], rfl⟩
      | cons y ys =>
        have hy : y ∈ r := by rw [← rank_mem, e]; simp
        rcases h y (by simp [hy]) with h1 | h1
        · subst h1
          unfold rankInto
          split
          · exact ⟨_, rfl⟩
          · exact ⟨_, rfl⟩
        · simp [rankInto, h1.1]
    · have har : a ∈ r := by rcases List.mem_cons.mp ha with h1 | h1; exact absurd h1.symm hb; exact h1
      obtain ⟨t, ht⟩ := ih har fun x hx => h x (by simp [hx])
      have := h b (by simp)
      rcases this with h1 | h1
      · exact absurd h1 hb
      · simp only [rank, ht, rankInto, h1.2]
        exact ⟨_, rfl⟩

/-- The candidate of a line (R69, R71). -/
theorem candidateAt_iff (s : State) (g tried l) (x : Candidate) : candidateAt s g tried l = some x ↔ Candidacy s g
    tried l x.index ∧ x.line = l ∧ x.key = bidKey s g l x.index := by
  unfold candidateAt Candidacy
  obtain ⟨k, i, m⟩ := x
  cases e : indexIn (lineOf s l).memberships g with
  | none => simp
  | some j =>
    simp only [Option.some.injEq]
    by_cases h : (!hasIndex tried j && isAvailable (lineOf s l) g) = true
    · rw [if_pos h]
      simp at h
      simp
      constructor
      · rintro ⟨h1, h2, h3⟩; subst h1 h2 h3; simp [h]
      · rintro ⟨⟨h1, _, _⟩, h2, h3⟩; subst h1 h2 h3; simp
    · rw [if_neg h]
      simp at h
      simp
      intro h1 h2; subst h1
      simp [h h2]

/-- The candidates of an OFFER. -/
theorem candidates_mem (s : State) (g tried) (x : Candidate) : x ∈ candidates s g tried ↔ Candidacy s g tried x.line
    x.index ∧ x.key = bidKey s g x.line x.index := by
  unfold candidates
  rw [List.mem_filterMap]
  constructor
  · rintro ⟨l, _, h⟩
    rw [candidateAt_iff] at h
    obtain ⟨h1, h2, h3⟩ := h
    subst h2
    exact ⟨h1, h3⟩
  · rintro ⟨h1, h2⟩
    exact ⟨x.line, by simp [allLines], by rw [candidateAt_iff]; exact ⟨h1, rfl, h2⟩⟩

/-- The bid key of a discipline that bids (R69). -/
theorem keyOf_iff (s : State) (g l i k) (ns : disciplineOf s g ≠ .simultaneous) : KeyOf s g l i k ↔ k = bidKey s g l i
    := by
  unfold KeyOf bidKey
  cases h : disciplineOf s g with
  | linear => simp [Fin.ext_iff]
  | circular =>
    have h1 := i.isLt
    have h2 := (s.he.rotation.get g).isLt
    simp [Fin.ext_iff, circularKey]
    omega
  | longestIdle => simp [Fin.ext_iff, idleKey]
  | simultaneous => exact absurd h ns

/-! ### Ringing and reservations (R37, R73) -/

/-- A ring view entry leaves the lines. -/
theorem viewEnter_line (c : CallId) (cab : Cabinet) (l : Line) (p : Option PickupGroup) (m : Line) (t : State) : lineOf
    (viewEnter c cab l p t) m = lineOf t m := by
  unfold viewEnter; split
  · rfl
  · split <;> rfl

/-- A ring view entry and a line record change places. -/
theorem viewEnter_withLine (c : CallId) (cab : Cabinet) (l : Line) (p : Option PickupGroup) (m : Line) (r : LineRec) (t
    : State) :
   withLine m r (viewEnter c cab l p t) = viewEnter c cab l p (withLine m r t) := by
  unfold viewEnter
  have : (withLine m r t).ppu = t.ppu := rfl
  rw [this]
  split
  · rfl
  · split <;> rfl

/-- What a ring view entry leaves. -/
theorem viewEnter_frame (c : CallId) (cab l p) (s : State) : (viewEnter c cab l p s).clc = s.clc ∧ (viewEnter c cab l p
    s).lu = s.lu ∧ (viewEnter c cab l p s).he = s.he ∧ (viewEnter c cab l p s).deliveries = s.deliveries := by
  unfold viewEnter; split
  · simp
  · split <;> simp [raise, onPpu]

/-- A line starts ringing (R37, R38). -/
theorem startRinging_eq (l : Line) (c : CallId) (cad : Cadence) (g : Option HuntGroup) (s : State) (nr : (lineOf s
    l).reserved = none) (link : s.clc.link = .running) (room : s.clc.queue.length < txCapacity) :
   startRinging l c cad g s = viewEnter c (own s) l (lineOf s l).pickup (withOutputs (s.outputs ++ [.ring l true])
       (withQueued [.ringStarted c l (g.bind (indexIn (lineOf s l).memberships)) (lineOf s l).pickup] (withLine l
       (ringingRecord s c cad g (lineOf s l)) s))) := by
  simp only [startRinging, endReservation, nr]
  simp only [onLine_eq, orderRing_eq]
  rw [queueNotice_running _ _ (by exact link) rfl (by exact room)]
  rw [refresh_zero]
  · rw [viewEnter_withLine, viewEnter_line]
    simp [ringingRecord, nr]
  · rw [viewEnter_line]
    simp [availableSet]

/-- The line that holds the reservation for a call. -/
theorem reservedLine_at (l : Line) (c : CallId) (g : HuntGroup) (s : State) (h : (lineOf s l).reserved = some ⟨c, g⟩)
    (o : ∀ m v, m ≠ l → (lineOf s m).reserved = some v → v.call ≠ c) :
   reservedLine s c = some l := by
  unfold reservedLine
  have nd : allLines.Nodup := by decide
  have mem : l ∈ allLines := by simp [allLines]
  obtain ⟨a, b, e⟩ := List.append_of_mem mem
  rw [e] at nd ⊢
  rw [List.find?_append, List.find?_eq_none.mpr]
  · simp [h]
  · intro m hm
    have ne : m ≠ l := fun x => (List.nodup_append.mp nd).2.2 m hm l (by simp) x
    cases e : (lineOf s m).reserved with
    | none => simp
    | some v => simpa using o m v ne e

/-- A call's reservation is released (R73). -/
theorem releaseCall_at (l : Line) (c : CallId) (g : HuntGroup) (s : State) (h : (lineOf s l).reserved = some ⟨c, g⟩) (o
    : ∀ m v, m ≠ l → (lineOf s m).reserved = some v → v.call ≠ c)
   (link : s.clc.link = .running) (room : s.clc.queue.length < txCapacity) : releaseCall c s = released l c s := by
  simp only [releaseCall, reservedLine_at l c g s h o, withCode, releaseReservation, h]
  simp only [endReservation, h, Option.isSome_some, if_true]
  simp only [dropBid, onLine_eq, onHe, withdraw_eq]
  rw [refresh_room]
  · rw [released, noticed_running _ _ (by exact link)]
    simp only [withoutBid, newlyAvailable, refreshed]
    rw [show ∀ t : State, ∀ p, lineOf (withWithdrawn p t) l = lineOf t l from fun _ _ => rfl]
    simp only [withLine_withWithdrawn]
    simp only [withLine, lineOf, Table.get_set_self, Table.set_set]
  · left; exact link
  · exact Nat.lt_of_le_of_lt (withdrawFrom_length _ _) room

/-- Withdrawing twice is withdrawing once. -/
theorem withdrawFrom_twice (p : Notice → Bool) (q : List TxEntry) : withdrawFrom p (withdrawFrom p q) = withdrawFrom p
    q := by
  unfold withdrawFrom
  rw [List.filterMap_filterMap]
  congr 1
  funext e
  by_cases h : p e.notice = true
  · by_cases h2 : e.inAttempt = true <;> simp [h, h2]
  · simp [h]

/-- A bid entry ends once. -/
theorem withoutBid_twice (c : CallId) (s : State) : withoutBid c (withoutBid c s) = withoutBid c s := by
  simp only [withoutBid, withWithdrawn, withdrawFrom_twice, List.filter_filter, Bool.and_self]

/-! ### Windows at the owner side (R78) -/

/-- The lowest bid of a list, the first among equals. -/
theorem lowestBid_split (p q : List WindowBid) (b : WindowBid) (hp : ∀ x ∈ p, b.field < x.field) (hq : ∀ x ∈ q, b.field
    ≤ x.field) :
   lowestBid (p ++ b :: q) = some b := by
  have low : ∀ L : List WindowBid, lowestBid L = none ∧ L = [] ∨ ∃ x ∈ L, lowestBid L = some x := by
    intro L
    induction L with
    | nil => left; exact ⟨rfl, rfl⟩
    | cons a t ih =>
      right
      rcases ih with ⟨h, rfl⟩ | ⟨x, hx, h⟩
      · exact ⟨a, by simp, by simp [lowestBid]⟩
      · by_cases c : x.field < a.field
        · exact ⟨x, by simp [hx], by simp [lowestBid, h, c]⟩
        · exact ⟨a, by simp, by simp [lowestBid, h, c]⟩
  induction p with
  | nil =>
    simp only [List.nil_append, lowestBid]
    rcases low q with ⟨h, rfl⟩ | ⟨x, hx, h⟩
    · simp [lowestBid]
    · rw [h]; have := hq x hx; simp; omega
  | cons a t ih =>
    simp only [List.cons_append, lowestBid]
    rw [ih fun x hx => hp x (by simp [hx])]
    have := hp a (by simp)
    simp [this]

/-- A record becomes RINGING. -/
theorem becomeRinging_at {o : Offer} {before after : List Offer} {s : State} (h : OfferAt o before after s) :
   becomeRinging o.seq s = withOffers (before ++ { o with state := .ringing, window := none } :: after)
       (withoutStanding o.seq s) := by
  have h2 : OfferAt o before after (withoutStanding o.seq s) := h
  exact modOffer_at h2 _

/-- A record with no standing loses none. -/
theorem dropStanding_none (q : Seq) (s : State) (h : ∀ x ∈ s.he.queue, x.call ≠ q) : dropStanding q s = s := by
  have : (s.he.queue.filter fun x => !decide (x.call = q)) = s.he.queue := by
    rw [List.filter_eq_self]; intro x hx; simp [h x hx]
  simp [dropStanding, onHe, this]

/-- A record with no standing has none. -/
theorem standingOf_none (q : Seq) (s : State) (h : ∀ x ∈ s.he.queue, x.call ≠ q) : standingOf s q = none := by
  unfold standingOf
  rw [List.find?_eq_none]; intro x hx; simpa using h x hx

/-- A window closes with no bid and nothing ringing: the overflow step. -/
theorem windowClose_empty {o : Offer} {before after : List Offer} {s : State} (at_ : OfferAt o before after s) (hw :
    o.window = some []) (hr : o.ringing = []) (g) (ht : o.target = .hunt g) (p) (hp : s.he.groups.get g = some p) :
   closeWindow o.seq s = applyStep { o with window := none } g p (actionStep (withOffers (before ++
       { o with window := none } :: after) s) { o with window := none } p) (withOffers (before ++
       { o with window := none } :: after) s) := by
  obtain ⟨seq, ref, target, state, attempts, tried, ringing, assigned, assignTimer, depth, parkDone, window⟩ := o
  simp only at hr hw ht
  subst hr hw ht
  have fo := findOffer_at at_
  simp only at fo
  simp only [closeWindow, fo, lowestBid]
  simp only [List.isEmpty_nil, Bool.not_true, Bool.false_eq_true, if_false]
  have e := modOffer_at at_ (fun o => { o with window := none })
  simp only at e
  have at2 := offerAt_withOffers at_ (o' := ⟨seq, ref, .hunt g, state, attempts, tried, [], assigned, assignTimer,
      depth, parkDone, none⟩) rfl
  have f := findOffer_at at2
  simp only at f
  have gg : groupOf (withOffers (before ++ ⟨seq, ref, .hunt g, state, attempts, tried, [], assigned, assignTimer,
      depth, parkDone, none⟩ :: after) s) ⟨seq, ref, .hunt g, state, attempts, tried, [], assigned, assignTimer, depth,
      parkDone, none⟩ = some p := by
    simp only [groupOf, targetGroup]
    exact hp
  rw [e]
  simp only [overflow, f, gg, targetGroup]

end Sys2Proof.Machine
end

