-- ==== Sys2Proof/Laws/Lines.lean ====
section
/-! SUPPORT. Lines that stop ringing, lose their call's owner or are cleared, said once in the parts of Safety.lean. -/

namespace Sys2Proof.Machine

/-- A line stops ringing (R39). -/
theorem stopRinging_of {l : Line} {call : CallId} {reason : RingEndReason} {s t : State}
    (h : RingingStops l call reason s t) (n : reason ≠ .noAnswer) : stopRinging l reason s = t := by
  obtain ⟨c, -, hc, rfl, room, rfl⟩ := h
  simp only [stopRinging, hc, if_neg n]
  rw [queueNotice_noticed _ _ rfl, refresh_noticed]
  · simp [noticed_twice, orderTone_eq, orderRing_eq, onLine_eq, viewRemoveLine, viewRemove, onPpu, newlyAvailable, refreshed]
    rfl
  · exact Room.noticed (n := 1) (Room.of_clc room (by simp [orderTone_eq, orderRing_eq, onLine_eq, viewRemoveLine, viewRemove, onPpu, withLine]))
  · exact Room.of_clc (Room.le room (by omega)) (by simp [orderTone_eq, orderRing_eq, onLine_eq, viewRemoveLine, viewRemove, onPpu, withLine])

/-- A pending verdict resolves against its line (R41). -/
theorem resolveLost_eq (l : Line) (s : State) : resolveLost l s = resolvedLost l s := by
  simp [resolveLost, resolvedLost, orderTone_eq, onLine_eq]

/-- A line's reservation ends, with room for its AVAILABLE (R35, R73). -/
theorem releaseReservation_of {l : Line} {v : Reservation} {s : State} (h : (lineOf s l).reserved = some v) (room : Room 1 s) :
    releaseReservation l s = released l v.call s := by
  have room₂ : Room 1 (endReservation l s) := by
    simp only [endReservation, h, dropBid, onLine_eq, onHe, withdraw_eq]
    rcases room with c | ⟨link, room⟩
    · exact Or.inl c
    · exact Or.inr ⟨link, by
        show (withdrawFrom _ _).length + 1 ≤ _
        have := withdrawFrom_length (isBidFor v.call) s.clc.queue
        exact Nat.le_trans (by simp [withLine]; omega) room⟩
  simp only [releaseReservation, h, Option.isSome_some, if_true]
  rw [refresh_noticed _ _ room₂]
  simp only [endReservation, h, dropBid, onLine_eq, onHe, withdraw_eq, released, withoutBid, newlyAvailable, refreshed]
  rw [show ∀ t : State, ∀ p, lineOf (withWithdrawn p t) l = lineOf t l from fun _ _ => rfl]
  simp only [withLine_withWithdrawn]
  simp only [withLine, lineOf, Table.get_set_self, Table.set_set]

/-- What the loss of an owner makes of a line (R43). -/
theorem lineLosesOwner_of {lost : Cabinet → Bool} {reason : RingEndReason} {l : Line} {s t : State}
    (h : LineLoses lost reason l s t) (n : reason ≠ .noAnswer) : lineLosesOwner lost reason l s = t := by
  simp only [lineLosesOwner]
  rcases h with ⟨a, b, c, rfl⟩ | ⟨b, c, x, ⟨st, hx, hl⟩, stops⟩ | ⟨a, c, ⟨v, hv, hl⟩, rfl⟩ | ⟨a, b, room, v, ⟨hv, hl⟩, rfl⟩
  · rw [ringingLoses_none _ _ _ a, verdictLoses_none _ _ b, reservationLoses_none _ _ c]
  · rw [verdictLoses_none _ _ b, reservationLoses_none _ _ c]
    simp only [ringingLoses, st, hx, hl, if_true]
    exact stopRinging_of stops n
  · rw [ringingLoses_none _ _ _ a, reservationLoses_none _ _ c]
    simp only [verdictLoses, hv, hl, if_true]
    exact resolveLost_eq l s
  · rw [ringingLoses_none _ _ _ a, verdictLoses_none _ _ b]
    simp only [reservationLoses, hv, hl, if_true]
    exact releaseReservation_of hv room

/-- What SHELF-CLEAR makes of a line (R44). -/
theorem clearLine_of {l : Line} {s t : State} (h : LineCleared l s t) : clearLine l s = t := by
  unfold LineCleared at h
  unfold clearLine
  cases e : (lineOf s l).state <;> simp only [e] at h ⊢
  case ringing =>
    obtain ⟨c, h⟩ := h
    exact stopRinging_of h (by simp)
  case answerPending => rw [resolveLost_eq, h]
  case pickupPending => rw [resolveLost_eq, h]
  case talking => rw [h]; simp [clearTalking, orderTone_eq, onLine_eq]
  all_goals exact h.symm

end Sys2Proof.Machine
end

