-- ==== Sys2Proof/Laws/Link.lean ====
section
/-! SUPPORT. The transmit queue around an attempt, the peer table, and the periods (chapter 1). -/

namespace Sys2Proof.Machine

/-! ### The choice of an attempt (R7) -/

theorem lowestField_least (l : List TxEntry) :
    lowestField l = none ∧ l = [] ∨ ∃ m, lowestField l = some m ∧ (∀ x ∈ l, m ≤ x.field) ∧ ∃ x ∈ l, x.field = m := by
  induction l with
  | nil => exact Or.inl ⟨rfl, rfl⟩
  | cons a rest ih =>
    right
    rcases ih with ⟨h, rfl⟩ | ⟨m, h, le, x, hx, hm⟩
    · exact ⟨a.field, by simp [lowestField], by simp, a, by simp, rfl⟩
    · refine ⟨min a.field m, by simp [lowestField, h], ?_, ?_⟩
      · intro y hy
        rcases List.mem_cons.mp hy with rfl | hy
        · omega
        · have := le y hy; omega
      · by_cases c : a.field ≤ m
        · exact ⟨a, by simp, by omega⟩
        · exact ⟨x, by simp [hx], by omega⟩

/-- The lowest field of a queue split at its first lowest entry. -/
theorem lowestField_split (before after : List TxEntry) (e : TxEntry) (hb : ∀ x ∈ before, e.field < x.field)
    (ha : ∀ x ∈ after, e.field ≤ x.field) : lowestField (before ++ e :: after) = some e.field := by
  rcases lowestField_least (before ++ e :: after) with ⟨_, h⟩ | ⟨m, h, le, x, hx, hm⟩
  · simp at h
  · have h₁ := le e (by simp)
    have h₂ : e.field ≤ x.field := by
      rcases List.mem_append.mp hx with hx | hx
      · exact Nat.le_of_lt (hb x hx)
      · rcases List.mem_cons.mp hx with rfl | hx
        · exact Nat.le_refl _
        · exact ha x hx
    rw [h]
    congr 1
    omega

theorem markFirst_split (f : Notice → Notice) (before after : List TxEntry) (e : TxEntry)
    (hb : ∀ x ∈ before, e.field < x.field) :
    markFirst e.field f (before ++ e :: after) = before ++ { e with inAttempt := true, notice := f e.notice } :: after := by
  induction before with
  | nil => simp [markFirst]
  | cons a rest ih =>
    have h := hb a (List.mem_cons_self ..)
    simp only [List.cons_append, markFirst, ih fun x hx => hb x (List.mem_cons_of_mem _ hx)]
    rw [if_neg (by omega)]

/-! ### The end of an attempt (R3, R5, R9) -/

theorem settleQueue_quiet (l : List TxEntry) (h : ∀ x ∈ l, x.inAttempt = false) : settleQueue l = l := by
  unfold settleQueue
  induction l with
  | nil => rfl
  | cons a rest ih =>
    rw [List.filterMap_cons, ih fun x hx => h x (List.mem_cons_of_mem _ hx)]
    simp [h a (List.mem_cons_self ..)]

theorem settleQueue_split (before after : List TxEntry) (e : TxEntry) (h : OnlyAttempt e before after) :
    settleQueue (before ++ e :: after) = before ++ (settleEntry e).toList ++ after := by
  have hb := settleQueue_quiet before fun x hx => h.2 x (by simp [hx])
  have ha := settleQueue_quiet after fun x hx => h.2 x (by simp [hx])
  unfold settleQueue at *
  rw [List.filterMap_append, hb, List.filterMap_cons, ha, if_pos h.1]
  cases settleEntry e <;> simp

theorem dropAttempt_split (before after : List TxEntry) (e : TxEntry) (h : OnlyAttempt e before after) :
    dropAttempt (before ++ e :: after) = before ++ after := by
  have q : ∀ l : List TxEntry, (∀ x ∈ l, x.inAttempt = false) → dropAttempt l = l := by
    intro l hl
    unfold dropAttempt
    rw [List.filter_eq_self]
    intro x hx
    simp [hl x hx]
  have hb := q before fun x hx => h.2 x (by simp [hx])
  have ha := q after fun x hx => h.2 x (by simp [hx])
  unfold dropAttempt at *
  rw [List.filter_append, List.filter_cons, hb, ha]
  simp [h.1]

theorem countFailure_split (before after : List TxEntry) (e : TxEntry) (h : OnlyAttempt e before after) :
    countFailure (before ++ e :: after) = before ++ { e with failed := e.failed + 1 } :: after := by
  have q : ∀ l : List TxEntry, (∀ x ∈ l, x.inAttempt = false) → countFailure l = l := by
    intro l hl
    unfold countFailure
    conv => rhs; rw [← List.map_id l]
    apply List.map_congr_left
    intro x hx
    simp [hl x hx]
  have hb := q before fun x hx => h.2 x (by simp [hx])
  have ha := q after fun x hx => h.2 x (by simp [hx])
  unfold countFailure at *
  rw [List.map_append, List.map_cons, hb, ha]
  simp [h.1]

/-! ### STATUS and PROBE once in the queue (R7) -/

theorem queueNotice_already (n : Notice) (s : State) (h : sameHousekeepingQueued n s.clc.queue = true)
    (l : s.clc.link = .running ∨ (s.clc.link = .isolated ∧ isProbe n = true)) : queueNotice n s = s := by
  rcases l with l | ⟨l, p⟩
  · simp [queueNotice, l, joinQueue, h]
  · simp [queueNotice, l, joinQueue, h, p]

/-! ### The peer table (R19, R20) -/

theorem touchPeer_present (src : Cabinet) (s : State) (h : (peerOf s src).state = .present) :
    touchPeer src s = heardFrom src s := by
  simp only [touchPeer, h]
  simp [heardFrom, withPeer, modPeer, onClc, Table.modify, peerOf] at h ⊢
  rw [← h]

theorem touchPeer_returned (src : Cabinet) (s : State) (h : (peerOf s src).state ≠ .present) :
    touchPeer src s = raise .peerReturned src.val .clc (withPeer src { peerOf s src with state := .present, age := 0 } s) := by
  simp only [touchPeer]
  rw [if_pos h]
  rfl

theorem agedPeer_eq (e : Peer) : agedPeer e = secondOlder e := by
  unfold agedPeer secondOlder
  cases h : e.state <;> simp

/-- Ageing over a list of cabinets without repeats. -/
theorem agePeers_list (s : State) (cs : List Cabinet) (nd : cs.Nodup) :
    forEach cs (fun p s => if p = own s then s else modPeer p agedPeer s) s =
      { s with clc := { s.clc with
          peers := Table.build 16 fun p => if p ∈ cs ∧ p ≠ own s then secondOlder (peerOf s p) else peerOf s p } } := by
  induction cs generalizing s with
  | nil =>
    simp [forEach, peerOf]
    have : (Table.build 16 fun p => s.clc.peers.get p) = s.clc.peers := Table.ext_get (by simp)
    rw [this]
  | cons a rest ih =>
    rw [forEach, ih _ (List.nodup_cons.mp nd).2]
    have na := (List.nodup_cons.mp nd).1
    apply state_eq <;> try (split <;> rfl)
    have hc : ∀ f, (if a = own s then s else modPeer a f s).clc =
        { s.clc with peers := if a = own s then s.clc.peers else s.clc.peers.modify a f } := by
      intro f
      split <;> rfl
    have ho : own (if a = own s then s else modPeer a agedPeer s) = own s := by split <;> rfl
    simp only [hc, ho]
    congr 1
    apply Table.ext_get
    intro p
    simp only [Table.get_build, peerOf, hc]
    by_cases h : p = a
    · subst h
      by_cases o : p = own s <;> simp [o, na, agedPeer_eq]
    · by_cases o : a = own s <;> simp [o, h] at * <;> simp [h]

/-- One tick of the aging timer in the peer table (R20). -/
theorem agePeers_eq (s : State) :
    agePeers s = { s with clc := { s.clc with
      peers := Table.build 16 fun p => if p = own s then peerOf s p else secondOlder (peerOf s p) } } := by
  rw [agePeers, agePeers_list s allCabinets (by decide)]
  have : (Table.build 16 fun p => if p ∈ allCabinets ∧ p ≠ own s then secondOlder (peerOf s p) else peerOf s p) =
      Table.build 16 fun p => if p = own s then peerOf s p else secondOlder (peerOf s p) := by
    apply Table.ext_get
    intro p
    have m : p ∈ allCabinets := by simp [allCabinets]
    simp only [Table.get_build, m, true_and]
    by_cases h : p = own s <;> simp [h]
  rw [this]

end Sys2Proof.Machine
end

