-- ==== Sys2Proof/Laws/Zones.lean ====
section
/-! SUPPORT. What the operations of a zone, its sequencer and its level state do, said once in the parts of
    Safety.lean. -/

namespace Sys2Proof.Machine

/-! ### Parts that are there already -/

/-- A level state put back is no change. -/
theorem withLevel_same (z : LocalZone) (v : Level) (s : State) (h : v = levelOf s z) : withLevel z v s = s := by
  subst h; simp [withLevel, levelOf]

/-- A sequencer put back is no change. -/
theorem withSequencer_same (z : LocalZone) (v : Sequencer) (s : State) (h : v = seqOf s z) : withSequencer z v s = s :=
    by
  subst h; simp [withSequencer, seqOf]

/-- A zone record put back is no change. -/
theorem withZone_same (z : LocalZone) (v : ZoneRec) (s : State) (h : v = zoneOf s z) : withZone z v s = s := by
  subst h; simp [withZone, zoneOf]

/-- Outputs put back are no change. -/
theorem withOutputs_same (os) (s : State) (h : os = s.outputs) : withOutputs os s = s := by
  subst h; rfl

/-- A raise leaves the level states. -/
theorem levelOf_raise (c a o) (s : State) (z) : levelOf (raise c a o s) z = levelOf s z := rfl

/-! ### The level of a zone (chapter 9) -/

/-- T is recomputed and C set equal to it (R166). -/
theorem jumpLevel_eq (z : LocalZone) (s : State) : jumpLevel z s = levelSet z (targetOf (zoneOf s z).cfg.level (levelOf
    s z).level (levelClass (zoneOf s z))) s := by
  simp only [jumpLevel, retarget, onLevel_eq, setCurrent, levelOf_withLevel_self, levelSet]
  generalize targetOf (zoneOf s z).cfg.level (levelOf s z).level (levelClass (zoneOf s z)) = t
  by_cases h : (levelOf s z).current = t
  · subst h
    rw [if_pos rfl, if_pos rfl]
    simp only [List.append_nil]
    rfl
  · rw [if_neg h, if_neg h]
    simp [emit_eq]

/-- A ramp step by its two cases (R167). -/
theorem rampStep_eq (c t p : Nat) : rampStep c t p = if c ≤ t + p ∧ t ≤ c + p then t else if c < t then c + p else c -
    p := by
  unfold rampStep; split <;> split <;> (try split) <;> (try split) <;> omega

/-- C after a sample (R166, R167). -/
theorem followTarget_eq (z : LocalZone) (v : Level) (s : State) : followTarget z (withLevel z v s) = levelMoves z v s
    := by
  simp only [followTarget, levelMoves, rampStep_eq, levelOf_withLevel_self, zoneOf_withLevel, setCurrent, emit_eq,
      onLevel_eq]
  generalize (if zoneActive (zoneOf s z).state = true then _ else _) = c
  split
  · next h => subst h; simp; rfl
  · simp

/-- A is set, and the level and T recomputed (R163 to R165). -/
theorem setSmoothed_eq (z a v) (s : State) : setSmoothed z a (withLevel z v s) = withLevel z (smoothedAt (zoneOf s
    z).cfg.level (levelClass (zoneOf s z)) a v) s := by
  simp [setSmoothed, retarget, onLevel_eq, smoothedAt, ambientLevel]

/-! ### Sequencers (chapter 8) -/

/-- A stop order (R149). -/
theorem stopPattern_eq (z : LocalZone) (s : State) : stopPattern z s = patternStops z s := by
  simp only [stopPattern, patternStops]
  cases h : (seqOf s z).run with
  | none =>
    simp only [Option.isSome_none, Bool.false_eq_true, if_false, false_and, List.append_nil]
    rw [withSequencer_same]
    · rfl
    · rw [← h]
  | some r =>
    simp only [Option.isSome_some, if_true, true_and, changeSound, onSequencer_eq, seqOf_withSequencer_self]
    by_cases h2 : (seqOf s z).sound = none
    · simp only [h2, if_true]
      simp
      rw [withOutputs_same]; rfl
    · simp [h2, orderSound, emit_eq, onSequencer_eq]

/-- A start order (R148). -/
theorem startPattern_eq (z : LocalZone) (p : Pattern) (i : Fin 8) (notes : Table 8 Nat) (s : State) (hn : s.ts.notes =
    some notes) (rest t) (hp : patternSteps p = (some i, t) :: rest) :
   startPattern z p s = patternStarts z p (notes.get i) s := by
  simp only [startPattern, hn, hp, stepDivider, Option.map_some, orderSound, onSequencer_eq, emit_eq, patternStarts]
  simp

/-- A tone order where the sound differs (R147). -/
theorem changeSound_eq (z d) (s : State) : changeSound z d s = sequencerPlays z (seqOf s z).run d s := by
  simp only [changeSound, sequencerPlays]
  by_cases h : (seqOf s z).sound = d
  · subst h; simp only [if_true, List.append_nil]; rw [withSequencer_same z _ s rfl]; rfl
  · simp [h, orderSound, emit_eq, onSequencer_eq]

/-- A stop order and a zone record change places. -/
theorem patternStops_withZone (z r) (u : State) : patternStops z (withZone z r u) = withZone z r (patternStops z u) :=
    by simp [patternStops]

/-- A stop order delivers nothing. -/
theorem patternStops_deliveries (z) (u : State) : (patternStops z u).deliveries = u.deliveries := by simp [patternStops]

/-! ### States and phases (R126, R133) -/

/-- The orders of a new zone record (R126). -/
theorem selectOutputs_eq (z : LocalZone) (r : ZoneRec) (s : State) : selectOutputs z (withZone z r s) = zoneEnters z r
    (amplifierOrder r.state) (sourceOrder r) s := by
  simp only [selectOutputs, emit_eq, zoneOf_withZone_self, zoneEnters]
  simp

/-- A zone enters a state (R126, R149). -/
theorem enterState_eq (z : LocalZone) (st : ZoneState) (s : State) : enterState z st s =
   let s' := if sounding (zoneOf s z).state && !sounding st then patternStops z s else s
   zoneEnters z { zoneOf s z with state := st } (amplifierOrder st) (sourceOrder { zoneOf s z with state := st }) s' :=
       by
  simp only [enterState, stopPattern_eq, onZone_eq]
  split
  · rw [show zoneOf (patternStops z s) z = zoneOf s z from rfl]
    exact selectOutputs_eq _ _ _
  · exact selectOutputs_eq _ _ _

/-- A zone enters a state with no stop order. -/
theorem enterState_quiet (z : LocalZone) (st : ZoneState) (s : State) (h : sounding (zoneOf s z).state = false ∨
    sounding st = true) : enterState z st s =
   zoneEnters z { zoneOf s z with state := st } (amplifierOrder st) (sourceOrder { zoneOf s z with state := st }) s :=
       by
  rw [enterState_eq]
  simp only []
  rw [if_neg]
  rcases h with h | h <;> simp [h]

/-- The first sounding phase of a page, its pattern and the note that the pattern begins with. -/
theorem firstSound_spec (notes : Table 8 Nat) (e : PageEntry) (n : Nat) : ∃ i t rest, patternSteps (patternFor (.page e
    n)) = (some i, t) :: rest ∧ firstSound notes e = (firstPhase (.page e n), patternFor (.page e n), notes.get i) ∧
    sounding (firstPhase (.page e n)) = true
    ∧ firstPhase (.page e n) ≠ .live := by
  obtain ⟨p, cls, src, o⟩ := e
  cases cls <;> cases src <;> exact ⟨_, _, _, rfl, rfl, rfl, by simp [firstPhase]⟩

/-- The source order of a sounding state (R126). -/
theorem sourceOrder_sounding (r : ZoneRec) (h : sounding r.state = true) : sourceOrder r = .tone := by
  unfold sourceOrder
  cases hs : r.state <;> simp_all [sounding]

/-- The amplifier order of a sounding state (R126). -/
theorem amplifierOrder_sounding (st : ZoneState) (h : sounding st = true) : amplifierOrder st = true := by
  cases st <;> simp_all [sounding, amplifierOrder, zoneActive]

/-- A zone enters a sounding phase, and its pattern starts (R133). -/
theorem enterPhase_eq (z : LocalZone) (a : Active) (st : ZoneState) (i : Fin 8) (notes : Table 8 Nat) (s : State) (hn :
    s.ts.notes = some notes) (rest t) (hp : patternSteps (patternFor a) = (some i, t) :: rest) (hs : sounding st =
    true) :
   enterPhase z st a s = patternStarts z (patternFor a) (notes.get i) (zoneEnters z
       { zoneOf s z with state := st, keptRun := nextSeq (seqOf s z).number } true .tone s) := by
  simp only [enterPhase, enterState_eq, hs, Bool.not_true, Bool.and_false]
  rw [if_pos trivial, if_neg (by simp)]
  rw [amplifierOrder_sounding _ hs, sourceOrder_sounding _ hs]
  rw [startPattern_eq z _ i notes (zoneEnters z { zoneOf s z with state := st } true .tone s) hn rest t hp]
  simp only [onZone_eq]
  simp only [patternStarts, zoneEnters, zoneOf_withOutputs, zoneOf_withSequencer, zoneOf_withZone_self,
      seqOf_withOutputs, seqOf_withSequencer_self]
  simp

/-- A page becomes active in a RELEASED zone with a wake time (R133). -/
theorem activate_waits (z a ph) (s : State) (st : (zoneOf s z).state = .released) (w : (zoneOf s z).cfg.wake ≠ 0) :
   activate z a ph s = levelSet z (targetOf (zoneOf s z).cfg.level (levelOf s z).level (levelClass
       { zoneOf s z with active := some a, state := .waking }))
     (zoneEnters z { zoneOf s z with active := some a, state := .waking } true .none s) := by
  unfold activate
  simp only []
  have hs : ¬ (sounding (zoneOf (onZone z (fun r => { r with active := some a }) s) z).state && !sounding .waking) =
      true := by
    rw [onZone_eq, zoneOf_withZone_self]; simp only [st]; decide
  split <;> rename_i hh <;> try (rw [st] at hh; cases hh)
  · rw [if_neg w, jumpLevel_eq, enterState_eq]
    simp only [hs]
    simp only [zoneEnters, onZone_eq]
    simp
    rfl

/-- A page becomes active and sounds at once (R133). -/
theorem activate_enters (z a ph) (notes) (i) (s : State) (hn : s.ts.notes = some notes) (tm rest) (hp : patternSteps
    (patternFor a) = (some i, tm) :: rest) (so : sounding ph = true)
   (st : ((zoneOf s z).state = .released ∧ (zoneOf s z).cfg.wake = 0) ∨ (zoneOf s z).state = .hang ∨ (zoneOf s z).state
       = .chime ∨ (zoneOf s z).state = .live ∨ (zoneOf s z).state = .tone ∨ (zoneOf s z).state = .code) :
   activate z a ph s = levelSet z (targetOf (zoneOf s z).cfg.level (levelOf s z).level (levelClass
       { zoneOf s z with active := some a, state := ph }))
     (patternStarts z (patternFor a) (notes.get i) (zoneEnters z
         { zoneOf s z with active := some a, state := ph, keptRun := nextSeq (seqOf s z).number } true .tone s)) := by
  have e : activate z a ph s = jumpLevel z (enterPhase z ph a (onZone z (fun r => { r with active := some a }) s)) := by
    unfold activate
    simp only []
    rcases st with ⟨st, w⟩ | st | st | st | st | st <;> rw [st]; simp only []
    rw [if_pos w]
  rw [e, enterPhase_eq z _ _ i notes _ (by exact hn) rest tm hp so, jumpLevel_eq]
  simp only [patternStarts, zoneEnters, onZone_eq]
  simp
  rfl

/-! ### Reports and the last page (R135, R137) -/

/-- A report, with room for it. -/
theorem report_room (z : LocalZone) (p : PageId) (o : ZoneOutcome) (s : State) (ph : s.phase = .running) (room : Room 1 s) :
    report z p o s = zoneReports z p o s := by
  simp only [report, ph, if_true]
  exact queueNotice_noticed _ _ rfl room

/-- On the link a report joins the transmit queue. -/
theorem zoneReports_running (z : LocalZone) (p : PageId) (o : ZoneOutcome) (s : State) (link : s.clc.link = .running) :
    zoneReports z p o s = withQueued [.zoneReport p (numberOf s z) o] s := noticed_running _ _ link

/-- The last page is gone (R135, R137, R168). -/
theorem lastPageGone_eq (z : LocalZone) (s : State) : lastPageGone z (onZone z (fun r => { r with active := none }) s)
    = lastLeaves z s := by
  simp only [lastPageGone, onZone_eq, zoneOf_withZone_self, lastPageLevel, jumpLevel_eq, enterState_eq, lastLeaves,
      onLevel_eq]
  have f : ∀ st : ZoneState, sourceOrder { zoneOf s z with active := none, state := st } = (if sounding st then .tone
      else .none) := by
    intro st; cases st <;> rfl
  by_cases hg : (zoneOf s z).cfg.hang = 0
  · have hg' : ¬ 0 < (zoneOf s z).cfg.hang := by omega
    simp only [hg, if_true, Nat.lt_irrefl, decide_false, Bool.false_eq_true, if_false]
    have sr : sounding .released = false := rfl
    simp only [sr, Bool.not_false, Bool.and_true, f]
    by_cases so : sounding (zoneOf s z).state = true
    · simp only [so, if_true]
      have ps : patternStops z (withZone z { zoneOf s z with active := none } s) = withZone z
          { zoneOf s z with active := none } (patternStops z s) := by
        simp [patternStops]
      rw [ps]
      simp only [zoneEnters]
      have lc : ∀ u : State, levelClass { zoneOf s z with active := none, state := .released } = if (zoneOf s z).evac =
          [] then none else some .evac := by
        intro u; simp [levelClass, activeClass]
      simp [lc s]
      rfl
    · have so : sounding (zoneOf s z).state = false := by simpa using so
      simp only [so, Bool.false_eq_true, if_false]
      simp only [zoneEnters]
      have lc : ∀ u : State, levelClass { zoneOf s z with active := none, state := .released } = if (zoneOf s z).evac =
          [] then none else some .evac := by
        intro u; simp [levelClass, activeClass]
      simp [lc s]
      rfl
  · have hg' : 0 < (zoneOf s z).cfg.hang := by omega
    simp only [hg, if_false, hg', decide_true, if_true]
    have sr : sounding .hang = false := rfl
    simp only [sr, Bool.not_false, Bool.and_true, f]
    have lc : ∀ u : State, levelClass { zoneOf s z with active := none, state := .hang } = if (zoneOf s z).evac = []
        then none else some .evac := by
      intro u; simp [levelClass, activeClass]
    by_cases so : sounding (zoneOf s z).state = true
    · simp only [so, if_true]
      have ps : patternStops z (withZone z { zoneOf s z with active := none } s) = withZone z
          { zoneOf s z with active := none } (patternStops z s) := by
        simp [patternStops]
      rw [ps]
      simp only [zoneEnters]
      simp [lc s]
      rfl
    · have so : sounding (zoneOf s z).state = false := by simpa using so
      simp only [so, Bool.false_eq_true, if_false]
      simp only [zoneEnters]
      simp [lc s]
      rfl

/-- What stood in the active place does not matter once it is gone. -/
theorem lastLeaves_active (z : LocalZone) (a : Option Active) (s : State) :
    lastLeaves z (withZone z { zoneOf s z with active := a } s) = lastLeaves z s := by
  have ps : ∀ r u, patternStops z (withZone z r u) = withZone z r (patternStops z u) := by
    intro r u; simp [patternStops]
  by_cases so : sounding (zoneOf s z).state = true <;> simp only [lastLeaves, zoneOf_withZone_self, levelOf_withZone,
      so, if_true, if_false, Bool.false_eq_true, ps, zoneEnters, withZone_twice] <;> rfl

/-- A last page that leaves delivers nothing. -/
theorem lastLeaves_deliveries (z) (s : State) : (lastLeaves z s).deliveries = s.deliveries := by
  simp only [lastLeaves, levelSet, zoneEnters, patternStops]
  split <;> simp

/-- The active page leaves with a report, nothing being held or pending. -/
theorem leaveWith_last (z p o) (s : State) (ph : s.phase = .running) (room : Room 1 s)
   (hh : (zoneOf s z).held = none) (hp : (zoneOf s z).pending = []) : leaveWith z p o s = lastLeaves z (zoneReports z p
       o s) := by
  rw [leaveWith, report_room z p o s ph room, ← lastPageGone_eq]
  have zr : zoneOf (zoneReports z p o s) z = zoneOf s z := zoneOf_noticed ..
  simp only [leaveActive, resumeChoice, onZone_eq, zoneOf_withZone_self, zr, hh, hp]

/-! ### A PAGE-START for one zone (R128) -/

/-- Where every other zone stays as it is, a run over the zones is a run at one. -/
theorem forEach_oneZone (l : LocalZone) (f : LocalZone → State → State) (s : State)
    (before : ∀ m, m ≠ l → f m s = s) (after : ∀ m, m ≠ l → f m (f l s) = f l s) : forEach allZones f s = f l s := by
  have split : ∃ a b : List LocalZone, allZones = a ++ l :: b ∧ l ∉ a ∧ l ∉ b := by
    have m : l ∈ allZones := by simp [allZones]
    obtain ⟨a, b, e⟩ := List.append_of_mem m
    have nd : (a ++ l :: b).Nodup := e ▸ (by decide : allZones.Nodup)
    refine ⟨a, b, e, ?_, ?_⟩
    · intro h
      exact (List.nodup_append.mp nd).2.2 l h l (List.mem_cons_self ..) rfl
    · exact (List.nodup_cons.mp (List.nodup_append.mp nd).2.1).1
  obtain ⟨a, b, e, ha, hb⟩ := split
  rw [e, forEach_append, forEach_same _ _ _ fun m hm => before m fun h => ha (h ▸ hm), forEach]
  exact forEach_same _ _ _ fun m hm => after m fun h => hb (h ▸ hm)

/-- A heard PAGE-START that one zone of the part belongs to is that zone's acceptance. -/
theorem heardStart_at {b src e t z override} {s : State} (h : StartFor b src e t z override s)
    (ph : takesClass s.phase e.cls = true) (u : State)
    (hu : accept z e override (withOutputs [.acknowledge true] (startSeen src e s)) = u)
    (hy : ∀ y, y ≠ z → (zoneOf u y).cfg = (zoneOf s y).cfg) :
    heardStart b (withOutputs [.acknowledge true] (heardFrom src s)) = u := by
  obtain ⟨k, hp, hc, ht, ho, hs, hr, hcd, f0, f1, it, hold⟩ := h
  obtain ⟨p, cls, source, orbit⟩ := e
  have key : ∀ ch, entryOf ⟨p, cls, t, ch, false, override, orbit⟩ = ⟨p, cls, source, orbit⟩ → lacksNeeded ⟨p, cls, t,
      ch, false, override, orbit⟩ = false →
      zonePageStart ⟨p, cls, t, ch, false, override, orbit⟩ (withOutputs [.acknowledge true] (startSeen src ⟨p, cls,
          source, orbit⟩ s)) = u := by
    intro ch he hl
    have ph' : (withOutputs [.acknowledge true] (startSeen src ⟨p, cls, source, orbit⟩ s)).phase = s.phase := by cases
        source <;> rfl
    have zz : ∀ y, zoneOf (withOutputs [.acknowledge true] (startSeen src ⟨p, cls, source, orbit⟩ s)) y = zoneOf s y :=
        by intro y; cases source <;> rfl
    have ph : takesClass s.phase cls = true := ph
    simp only [zonePageStart, ph', ph, hl]
    have az : acceptAt ⟨p, cls, t, ch, false, override, orbit⟩ z (withOutputs [.acknowledge true] (startSeen src ⟨p,
        cls, source, orbit⟩ s)) = u := by
      simp only [acceptAt, zz, it, hold, he, hu]
      simp
    simp only [Bool.not_false, Bool.and_self, if_true]
    rw [← az]
    apply forEach_oneZone
    · intro m hm
      simp only [acceptAt, zz, it]
      simp [hm]
    · intro m hm
      rw [az]
      have : inTarget (zoneOf u m) t = inTarget (zoneOf s m) t := by
        cases t with
        | all => rfl
        | group g => simp only [inTarget, hy m hm]
      simp only [acceptAt, this, it]
      simp [hm]
  cases source with
  | channel c =>
    obtain ⟨hch, hcr⟩ := hs
    simp only [heardStart, pgoHeardStart, zoneHeardStart, hp, hc, ht, hch, ho, withCode, heardPageStart, f0, f1]
    have crx : channelRecord (withOutputs [.acknowledge true] (heardFrom src s)) c = none := hcr
    simp only [channelSeen, crx]
    apply key
    · rfl
    · simp only [lacksNeeded, Option.isNone_some, Bool.and_false, Bool.false_or]
      cases orbit <;> simp_all
  | tone =>
    have hs' : codeOrNone 4 b.channel = some none := hs
    simp only [heardStart, pgoHeardStart, zoneHeardStart, hp, hc, ht, hs', ho, withCode, heardPageStart, f0, f1]
    apply key
    · rfl
    · simp only [lacksNeeded]
      cases orbit <;> simp_all

/-- A heard PAGE-START in RUNNING that one zone of the part belongs to is that zone's acceptance. -/
theorem heardStart_oneZone {b src e t z override} {s : State} (h : OneZoneStart b src e t z override s) (u : State)
    (hu : accept z e override (withOutputs [.acknowledge true] (startSeen src e s)) = u)
    (hy : ∀ y, y ≠ z → (zoneOf u y).cfg = (zoneOf s y).cfg) : hear src true (heardStart b) (fresh s) = u := by
  rw [hear_fresh src true _ s h.1.2.1 h.2.2.1]
  exact heardStart_at h.2.2 (by rw [h.2.1]; rfl) u hu hy

/-- A heard PAGE-START of a class that the part's start-up phase does not let its zones take is noted in the channel view alone (R128). -/
theorem heardStart_passed {b src e t z override} {s : State} (h : StartFor b src e t z override s)
    (ph : takesClass s.phase e.cls = false) :
    heardStart b (withOutputs [.acknowledge true] (heardFrom src s)) = withOutputs [.acknowledge true] (startSeen src e s) := by
  obtain ⟨k, hp, hc, ht, ho, hs, hr, hcd, f0, f1, it, hold⟩ := h
  obtain ⟨p, cls, source, orbit⟩ := e
  have pass : ∀ ch (v : State), v.phase = s.phase → zonePageStart ⟨p, cls, t, ch, false, override, orbit⟩ v = v := by
    intro ch v hv
    have ph : takesClass s.phase cls = false := ph
    simp [zonePageStart, hv, ph]
  cases source with
  | channel c =>
    obtain ⟨hch, hcr⟩ := hs
    simp only [heardStart, pgoHeardStart, zoneHeardStart, hp, hc, ht, hch, ho, withCode, heardPageStart, f0, f1]
    have crx : channelRecord (withOutputs [.acknowledge true] (heardFrom src s)) c = none := hcr
    simp only [channelSeen, crx]
    exact pass _ _ rfl
  | tone =>
    have hs' : codeOrNone 4 b.channel = some none := hs
    simp only [heardStart, pgoHeardStart, zoneHeardStart, hp, hc, ht, hs', ho, withCode, heardPageStart, f0, f1]
    exact pass _ _ rfl

end Sys2Proof.Machine
end

