-- ==== Sys2Proof/Laws/Pages.lean ====
section
/-! SUPPORT. What the operations of the page table do, said once. -/

namespace Sys2Proof.Machine

/-- A new record is written and its PAGE-START queued (R107, R116). -/
theorem queueStart_new (r : PageRec) (s : State) (nf : ∀ x ∈ s.pgo.pages, x.seq ≠ r.seq) (link : s.clc.link = .running)
    (room : s.clc.queue.length < txCapacity) :
   queueStart r.seq (writePage r s) = withQueued [.pageStart (startBody s r)] (withNewPage r s) := by
  have : writePage r s = withNewPage r s := rfl
  rw [this]
  have fp : findPage (withNewPage r s) r.seq = some r := by
    unfold findPage
    rw [show (withNewPage r s).pgo.pages = s.pgo.pages ++ [r] from rfl, List.find?_append, List.find?_eq_none.mpr (by
        intro x hx; simpa using nf x hx)]
    simp
  simp only [queueStart, fp]
  rw [queueNotice_running _ _ (by exact link) rfl (by exact room)]
  rfl

/-- An announced page ends with its PAGE-END, and its record is freed (R117). -/
theorem endAnnounced_at {r : PageRec} {before after : List PageRec} {s : State} (h : PageAt r before after s) (reason :
    PageEndReason) (link : s.clc.link = .running) (room : s.clc.queue.length < txCapacity) :
   endAnnounced r reason s = withQueued [.pageEnd ⟨own s, r.seq⟩ r.cls reason] (withPages (before ++ after) s) := by
  simp only [endAnnounced]
  rw [queueNotice_running _ _ link rfl room]
  have h2 : PageAt r before after (withQueued [.pageEnd (pageIdOf s r.seq) r.cls reason] s) := h
  rw [freePage_at h2]
  rfl

/-- A page that no line originated ends (R117). -/
theorem endPage_notLine {r : PageRec} {before after : List PageRec} {s : State} (h : PageAt r before after s) (reason :
    PageEndReason) (t) (link : s.clc.link = .running) (room : s.clc.queue.length < txCapacity)
   (ns : r.state ≠ .claiming) (no : ∀ l, r.origin ≠ .line l) :
   endPage r reason t s = withQueued [.pageEnd ⟨own s, r.seq⟩ r.cls reason] (withPages (before ++ after) s) := by
  simp only [endPage, ns, if_false, endAnnounced_at h reason link room, endAtLine]
  cases e : r.origin with
  | line l => exact absurd e (no l)
  | input i => rfl
  | orbit i => rfl

/-- A page of a line ends, announced (R117, R32). -/
theorem endPage_line {r : PageRec} {before after : List PageRec} {s : State} (h : PageAt r before after s) (reason :
    PageEndReason) (t : Tone) (l c) (link : s.clc.link = .running) (room : s.clc.queue.length < txCapacity) (sroom :
    s.spu.output.length < outputCapacity)
   (ns : r.state ≠ .claiming) (no : r.origin = .line l) (hc : r.connectSent = true → r.channel = some c) :
   endPage r reason (some t) s = withOutputs (s.outputs ++ [.tone l t]) (withSent (if r.connectSent then
       [.disconnectPage l c] else []) (withQueued [.pageEnd ⟨own s, r.seq⟩ r.cls reason] (pageEnded l t (withPages
       (before ++ after) s)))) := by
  simp only [endPage, ns, if_false, endAnnounced_at h reason link room, endAtLine, no, linePageEnded, onLine_eq,
      orderTone_eq]
  have nil : ∀ t, withSent [] t = t := by intro t; simp [withSent]
  by_cases cs : r.connectSent = true
  · simp only [cs, hc cs, if_true]
    rw [shelfSend_room _ _ (by exact sroom)]
    simp [pageEnded]
  · have cs : r.connectSent = false := by simpa using cs
    simp only [cs, Bool.false_eq_true, if_false, nil]
    simp [pageEnded]

/-- A PAGE-START that seizes nothing and reaches no zone of the part changes nothing at the zones (R128). -/
theorem zonePageStart_outside (b : PageStartBody) (s : State) (h : ∀ z, inTarget (zoneOf s z) b.target = false) (hs :
    b.seize = false) : zonePageStart b s = s := by
  unfold zonePageStart
  split
  · simp only [hs]
    apply forEach_same
    intro z _
    simp [acceptAt, h z]
  · rfl

/-- An orbit forgets its code page (R103). -/
theorem clearCodePage_eq (p : PageId) (s : State) :
    clearCodePage p s = { s with ppu := { s.ppu with
      orbits := s.ppu.orbits.map fun o => o.map fun x => if x.page = some p then { x with page := none } else x
          } } := by
  have e : (clearCodePage p s).ppu.orbits
      = s.ppu.orbits.map fun o => o.map fun x => if x.page = some p then { x with page := none } else x := by
    apply Table.ext_get
    intro i
    simp only [clearCodePage, onPpu, Table.get_map]
    cases s.ppu.orbits.get i <;> rfl
  rw [← e]
  rfl

end Sys2Proof.Machine
end

