-- ==== Sys2Proof/Laws/Orbits.lean ====
section
/-! SUPPORT. Orbits that are freed, and what a freed orbit leaves as it was. -/

namespace Sys2Proof.Machine

/-- A request for the end of a code page that no record holds brings nothing (R118). -/
theorem endCodePage_none (p : PageId) (s : State) (h : ∀ r ∈ s.pgo.pages, r.seq ≠ p.seq) : endCodePage p s = s := by
  have : findPage s p.seq = none := by
    unfold findPage
    exact List.find?_eq_none.mpr (by intro r hr; simpa using h r hr)
  simp [endCodePage, endPageSeq, this]

/-- No view entry names the page: nothing in the channel view becomes free (R108). -/
theorem freeViewPage_none (p : PageId) (s : State) (h : ∀ c x, s.pgo.view.get c = some x → x.page ≠ p) :
    freeViewPage p s = s := by
  have e : (s.pgo.view.map fun h => match h with
      | some x => if decide (x.page = p) then none else some x
      | none => none) = s.pgo.view := by
    apply Table.ext_get
    intro c
    rw [Table.get_map]
    cases q : s.pgo.view.get c with
    | none => rfl
    | some x => simp [h c x q]
  exact congrArg (fun v => ({ s with pgo := { s.pgo with view := v } } : State)) e

/-- No orbit's code page is this one: nothing at the orbits changes (R102). -/
theorem clearCodePage_same (p : PageId) (s : State) (h : ∀ i x, slotOf s i = some x → x.page ≠ some p) :
    clearCodePage p s = s := by
  have e : (s.ppu.orbits.map fun o => match o with
      | some x => some (if x.page = some p then { x with page := none } else x)
      | none => none) = s.ppu.orbits := by
    apply Table.ext_get
    intro i
    rw [Table.get_map]
    cases q : s.ppu.orbits.get i with
    | none => rfl
    | some x => simp [h i x q]
  exact congrArg (fun v => ({ s with ppu := { s.ppu with orbits := v } } : State)) e

/-- An announced page ends with its PAGE-END, and its record is freed (R117). -/
theorem endAnnounced_noticed {r : PageRec} {before after : List PageRec} {s : State} (h : PageAt r before after s)
    (reason : PageEndReason) (room : Room 1 s) :
    endAnnounced r reason s = noticed [.pageEnd ⟨own s, r.seq⟩ r.cls reason] (withPages (before ++ after) s) := by
  have h₂ : PageAt r before after (noticed [.pageEnd ⟨own s, r.seq⟩ r.cls reason] s) := by simpa [PageAt] using h
  simp only [endAnnounced, pageIdOf]
  rw [queueNotice_noticed _ _ rfl room, freePage_at h₂, withPages_noticed]

/-- A page that is not yet announced ends without PAGE-END, and its view entry becomes free (R117). -/
theorem endClaiming_at {r : PageRec} {before after : List PageRec} {s : State} (h : PageAt r before after s)
    (os : ∀ i x, slotOf s i = some x → x.page ≠ some ⟨own s, r.seq⟩) :
    endClaiming r s = withWithdrawn (isStartOf ⟨own s, r.seq⟩) { withPages (before ++ after) s with
      pgo := { (withPages (before ++ after) s).pgo with
        view := s.pgo.view.map fun h => h.filter fun x => !decide (x.page = ⟨own s, r.seq⟩) } } := by
  have h₂ : PageAt r before after (withdraw (isStartOf ⟨own s, r.seq⟩) s) := h
  simp only [endClaiming, pageIdOf]
  rw [freePage_at h₂, clearCodePage_same]
  · simp only [freeViewPage]
    rw [freeView_filter]
    rfl
  · exact os

/-- A slot set twice holds what was set last. -/
theorem withSlot_twice (i : OrbitSlot) (o o' : Option Orbit) (s : State) : withSlot i o (withSlot i o' s) = withSlot i o s := by
  simp [withSlot]

/-- Setting a slot and sending notices do not touch each other. -/
theorem withSlot_noticed (i : OrbitSlot) (o : Option Orbit) (ns : List Notice) (s : State) :
    withSlot i o (noticed ns s) = noticed ns (withSlot i o s) := by
  unfold noticed
  rw [show cutOff (withSlot i o s) = cutOff s from rfl]
  split <;> rfl

/-- The code page of an orbit ends, with the slot set to what holds no page (R101, R103). -/
theorem endCodePage_of {i : OrbitSlot} {x : Orbit} {o : Option Orbit} {s t : State} (hx : slotOf s i = some x)
    (h : OrbitFreed i s t) (room : Room 1 s) (empty : ∀ y, o = some y → y.page = none) :
    withCode x.page endCodePage (setSlot i o s) = withSlot i o t := by
  obtain ⟨x', hx', h⟩ := h
  obtain rfl : x = x' := Option.some.inj (hx.symm.trans hx')
  rcases h with ⟨np, rfl⟩ | ⟨r, before, after, hp, at', ho, h⟩
  · rw [withSlot_twice]
    cases hp : x.page with
    | none => rfl
    | some p => exact endCodePage_none p _ (by exact np p hp)
  · have at₂ : PageAt r before after (setSlot i o s) := at'
    have eo : ∀ u, endAtLine r none u = u := by intro u; simp [endAtLine, ho]
    simp only [hp, withCode, endCodePage, endPageSeq]
    rw [findPage_at at₂]
    simp only [endPage, eo]
    rcases h with ⟨nc, rfl⟩ | ⟨cl, os, vs, rfl⟩
    · rw [if_neg nc, withSlot_noticed, endAnnounced_noticed at₂ _ (room.of_clc rfl)]
      exact congrArg (noticed _) (congrArg (withPages _) (withSlot_twice i o none s).symm)
    · have at₃ : PageAt r before after (withdraw (isStartOf ⟨own s, r.seq⟩) (setSlot i o s)) := at'
      simp only [cl, if_true, endClaiming]
      show clearCodePage ⟨own s, r.seq⟩ (freeViewPage ⟨own s, r.seq⟩ (freePage r.seq (withdraw (isStartOf ⟨own s, r.seq⟩) _))) = _
      rw [freePage_at at₃, freeViewPage_none, clearCodePage_same]
      · rw [show withSlot i o (withWithdrawn (isStartOf ⟨own s, r.seq⟩) (withPages (before ++ after) (withSlot i none s)))
          = withWithdrawn (isStartOf ⟨own s, r.seq⟩) (withPages (before ++ after) (withSlot i o (withSlot i none s))) from rfl,
          withSlot_twice]
        rfl
      · intro j y hy
        by_cases e : j = i
        · subst e
          have : o = some y := by simpa [slotOf, setSlot, onPpu, withPages, withdraw, onClc, Table.get_set_self] using hy
          simp [empty y this]
        · refine os j y e ?_
          simpa [slotOf, setSlot, onPpu, withPages, withdraw, onClc, Table.get_set_ne _ _ e] using hy
      · exact vs

/-- An occupied orbit is freed (R103). -/
theorem freeSlot_of {i : OrbitSlot} {s t : State} (h : OrbitFreed i s t) (room : Room 1 s) : freeSlot i s = t := by
  obtain ⟨x, hx, -⟩ := id h
  have free : slotOf t i = none := by
    obtain ⟨_, -, ⟨-, rfl⟩ | ⟨r, before, after, -, -, -, ⟨-, rfl⟩ | ⟨-, -, -, rfl⟩⟩⟩ := h
    · simp [slotOf, withSlot]
    · rw [show slotOf (noticed _ _) i = slotOf (withSlot i none s) i from by simp [slotOf, withPages]]
      simp [slotOf, withSlot]
    · simp [slotOf, withSlot, withWithdrawn, withPages]
  have same : withSlot i none t = t := by
    have : t.ppu.orbits.set i none = t.ppu.orbits := by
      rw [← free]
      exact Table.set_get ..
    simp only [withSlot, this]
  have e := endCodePage_of (o := none) hx h room (by simp)
  rw [same] at e
  simp only [freeSlot, hx]
  cases hp : x.page <;> simpa [hp, withCode] using e

/-- What the end of an orbit leaves as it was. -/
theorem orbitFreed_frame {i : OrbitSlot} {s t : State} (h : OrbitFreed i s t) :
    t.ofm = s.ofm ∧ t.spu = s.spu ∧ t.he = s.he ∧ t.lu = s.lu ∧ t.outputs = s.outputs ∧ own t = own s
      ∧ t.clc.link = s.clc.link ∧ (cutOff s = false → t.deliveries = s.deliveries) := by
  obtain ⟨x, hx, ⟨np, rfl⟩ | ⟨r, before, after, hp, at', ho, ⟨nc, rfl⟩ | ⟨cl, os, vs, rfl⟩⟩⟩ := h
  · exact ⟨rfl, rfl, rfl, rfl, rfl, rfl, rfl, fun _ => rfl⟩
  · refine ⟨by simp; rfl, by simp; rfl, by simp; rfl, by simp; rfl, by simp; rfl, by simp; rfl, by simp; rfl, fun c => ?_⟩
    unfold noticed
    rw [if_neg (by rw [show cutOff (withPages (before ++ after) (withSlot i none s)) = cutOff s from rfl]; simp [c])]
    rfl
  · exact ⟨rfl, rfl, rfl, rfl, rfl, rfl, rfl, fun _ => rfl⟩

/-- An orbit that is freed is freed whatever the shelf was sent. -/
theorem OrbitFreed.withSent {i : OrbitSlot} {s t : State} (h : OrbitFreed i s t) (rs : List OutRecord) :
    OrbitFreed i (withSent rs s) (withSent rs t) := by
  obtain ⟨x, hx, ⟨np, rfl⟩ | ⟨r, b, a, hp, at', ho, ⟨nc, rfl⟩ | ⟨cl, os, vs, rfl⟩⟩⟩ := h
  · exact ⟨x, hx, Or.inl ⟨np, rfl⟩⟩
  · exact ⟨x, hx, Or.inr ⟨r, b, a, hp, at', ho, Or.inl ⟨nc, by rw [withSent_noticed]; rfl⟩⟩⟩
  · exact ⟨x, hx, Or.inr ⟨r, b, a, hp, at', ho, Or.inr ⟨cl, os, vs, rfl⟩⟩⟩

/-- An orbit that is freed is freed whatever orders have gone out. -/
theorem OrbitFreed.withOutputs {i : OrbitSlot} {s t : State} (h : OrbitFreed i s t) (os : List Output) :
    OrbitFreed i (withOutputs os s) (withOutputs os t) := by
  obtain ⟨x, hx, ⟨np, rfl⟩ | ⟨r, b, a, hp, at', ho, ⟨nc, rfl⟩ | ⟨cl, os', vs, rfl⟩⟩⟩ := h
  · exact ⟨x, hx, Or.inl ⟨np, rfl⟩⟩
  · exact ⟨x, hx, Or.inr ⟨r, b, a, hp, at', ho, Or.inl ⟨nc, by rw [← noticed_withOutputs]; rfl⟩⟩⟩
  · exact ⟨x, hx, Or.inr ⟨r, b, a, hp, at', ho, Or.inr ⟨cl, os', vs, rfl⟩⟩⟩

/-- The slot of an orbit of the part. -/
theorem orbitSlot_orbitNumber (c : Cabinet) (n : OrbitSlot) : orbitSlot (orbitNumber c n) = n := by
  apply Fin.ext
  simp [orbitSlot, orbitNumber]

/-- A parked call is connected, and its orbit freed (R50). -/
theorem connectCall_parked {o : Offer} {before after : List Offer} {n : OrbitSlot} {cab : Cabinet} {line : Line}
    {idx : Option OrderIndex} {s t : State} (h : OfferAt o before after s) (parked : o.state = .parked (orbitNumber (own s) n))
    (link : s.clc.link = .running) (room : s.clc.queue.length + 2 ≤ txCapacity) (shelf : s.spu.output.length < outputCapacity)
    (f : OrbitFreed n (withQueued [.connected ⟨own s, o.seq⟩ cab line (targetGroup o.target) idx] s) t) :
    connectCall o cab line idx s = callFreed o before after (withSent [.connect o.ref ⟨own s, o.seq⟩ cab line] t) := by
  have f₂ := f.withSent [.connect o.ref ⟨own s, o.seq⟩ cab line]
  have fr := orbitFreed_frame f₂
  simp only [connectCall, callIdOf, freeOrbitOf, parked, orbitSlot_orbitNumber]
  rw [queueNotice_running _ _ link rfl (by omega), shelfSend_room _ _ (by exact shelf),
    freeSlot_of f₂ (Or.inr ⟨link, by simp [withSent, withQueued]; omega⟩)]
  have at₂ : OfferAt o before after (withSent [.connect o.ref ⟨own s, o.seq⟩ cab line] t) := by
    simp only [OfferAt, fr.1]
    exact h
  rw [freeOffer_at at₂]

/-- The outcome of a call goes to the shelf, if there is one (R51). -/
theorem outcomeSent (outcome : Option EndReason) (ref : Word16) (id : CallId) (s : State)
    (shelf : s.spu.output.length < outputCapacity) :
    (match outcome with
      | some r => shelfSend (.callEnded ref id r) s
      | none => s) = withSent (outcome.map fun x => OutRecord.callEnded ref id x).toList s := by
  cases outcome with
  | none => simp [withSent]
  | some r => exact shelfSend_room _ _ shelf

/-- A call ends (R51). -/
theorem endCall_of {o : Offer} {outcome : Option EndReason} {s t : State} (h : CallEnds outcome o s t) :
    endCall o outcome s = t := by
  obtain ⟨before, after, at', shelf, h⟩ := h
  have room : Room 1 s := h.elim (·.1) fun ⟨_, _, r, _⟩ => r.le (by omega)
  have shelf' : s.spu.output.length < outputCapacity := by unfold ShelfRoom at shelf; omega
  have cancel : (if partiesOut o then queueNotice (.cancel ⟨own s, o.seq⟩) s else s)
      = noticed (if partiesOut o then [.cancel ⟨own s, o.seq⟩] else []) s := by
    split
    · exact queueNotice_noticed _ _ rfl room
    · simp
  simp only [endCall, callIdOf]
  rw [cancel]
  have sent := outcomeSent outcome o.ref ⟨own s, o.seq⟩ (noticed (if partiesOut o then [.cancel ⟨own s, o.seq⟩] else []) s)
    (by simpa using shelf')
  refine (congrArg (fun u => freeOffer o.seq (freeOrbitOf o u)) sent).trans ?_
  clear sent
  have ofm : ∀ ns rs, (withSent rs (noticed ns s)).ofm = s.ofm := by intro ns rs; simp [withSent]
  rcases h with ⟨-, np, rfl⟩ | ⟨i, v, room₂, parked, f, rfl⟩
  · have fo : ∀ u, freeOrbitOf o u = u := by
      intro u
      unfold freeOrbitOf
      split
      · next n e => exact absurd e (np n)
      · rfl
    rw [fo]
    exact freeOffer_at (by simp only [OfferAt, ofm]; exact at')
  · have room₁ : Room 1 (withSent (outcome.map fun x => OutRecord.callEnded o.ref ⟨own s, o.seq⟩ x).toList
        (noticed (if partiesOut o then [.cancel ⟨own s, o.seq⟩] else []) s)) := by
      have : Room 1 (noticed (if partiesOut o then [.cancel ⟨own s, o.seq⟩] else []) s) := by
        apply Room.noticed
        apply room₂.le
        split <;> simp
      exact this.of_clc rfl
    simp only [freeOrbitOf, parked, orbitSlot_orbitNumber]
    rw [freeSlot_of f room₁]
    exact freeOffer_at (by simp only [OfferAt, (orbitFreed_frame f).1, ofm]; exact at')

/-- A call that stands in the table ends by its sequence value. -/
theorem endCallSeq_of {o : Offer} {outcome : Option EndReason} {s t : State} (h : CallEnds outcome o s t) :
    endCallSeq o.seq outcome s = t := by
  obtain ⟨before, after, at', _⟩ := id h
  simp only [endCallSeq, findOffer_at at', withCode]
  exact endCall_of h

end Sys2Proof.Machine
end

