-- ==== Sys2Proof/Laws/Endings.lean ====
section
/-! SUPPORT. Calls and pages that end or go on one after another, said once: what a run over a list does where each of its steps is
one of the relations of Safety.lean. -/

namespace Sys2Proof.Machine

/-! ### Runs over a list -/

/-- A run over a list is a chain of what its steps do. -/
theorem forEach_chain {α : Type} {happens : α → State → State → Prop} {f : α → State → State} {l : List α} {s t : State}
    (step : ∀ a ∈ l, ∀ u v, happens a u v → f a u = v) (h : Chain happens l s t) : forEach l f s = t := by
  induction l generalizing s with
  | nil => exact h.symm
  | cons a rest ih =>
    obtain ⟨u, ha, h⟩ := h
    rw [forEach, step a (List.mem_cons_self ..) s u ha]
    exact ih (fun b hb => step b (List.mem_cons_of_mem _ hb)) h

/-- What each step of a chain keeps, the chain keeps. -/
theorem Chain.keeps {α : Type} {happens : α → State → State → Prop} {β : Type} (f : State → β) {l : List α} {s t : State}
    (step : ∀ a ∈ l, ∀ u v, happens a u v → f v = f u) (h : Chain happens l s t) : f t = f s := by
  induction l generalizing s with
  | nil => rw [show t = s from h]
  | cons a rest ih =>
    obtain ⟨u, ha, h⟩ := h
    rw [ih (fun b hb => step b (List.mem_cons_of_mem _ hb)) h, step a (List.mem_cons_self ..) s u ha]

theorem forEach_map {α β : Type} (g : α → β) (l : List α) (f : β → State → State) (s : State) :
    forEach (l.map g) f s = forEach l (fun a => f (g a)) s := by
  induction l generalizing s with
  | nil => rfl
  | cons a rest ih => exact ih _

theorem forEach_filter {α : Type} (p : α → Bool) (l : List α) (f : α → State → State) (s : State) :
    forEach (l.filter p) f s = forEach l (fun a s => if p a then f a s else s) s := by
  induction l generalizing s with
  | nil => rfl
  | cons a rest ih =>
    rw [List.filter_cons]
    cases h : p a <;> simp only [h, if_true, Bool.false_eq_true, if_false, forEach] <;> exact ih _

/-! ### The next step of a call (R79, R81 to R83, R86) -/

/-- The tried set holds the group's whole span. -/
theorem exhausted_iff (t : IndexSet) (span : Nat) :
    exhausted t span = true ↔ ∀ i : OrderIndex, i.val < span → hasIndex t i = true := by
  simp only [exhausted, List.all_eq_true, List.mem_finRange, true_implies, Bool.or_eq_true, decide_eq_true_eq]
  exact forall_congr' fun i => ⟨fun h hi => h.resolve_left (by omega), fun h => (Nat.lt_or_ge i.val span).symm.imp id h⟩

/-- A call that is not parked ends in the same way whatever else of its record has changed. -/
theorem CallEnds.withOffers {outcome : Option EndReason} {o o' : Offer} {before after : List Offer} {s t : State}
    (h : CallEnds outcome o s t) (at' : OfferAt o before after s) (np : ∀ n, o.state ≠ .parked n) (sq : o'.seq = o.seq)
    (ref : o'.ref = o.ref) (st : o'.state = o.state) (out : partiesOut o' = partiesOut o) :
    CallEnds outcome o' (withOffers (before ++ o' :: after) s) t := by
  obtain ⟨b, a, at₀, shelf, ⟨room, -, rfl⟩ | ⟨i, v, -, parked, -⟩⟩ := h
  · have at₂ : OfferAt o' before after (Machine.withOffers (before ++ o' :: after) s) := offerAt_withOffers at' sq
    have comm : ∀ ns, noticed ns (Machine.withOffers (before ++ o' :: after) s)
        = Machine.withOffers (before ++ o' :: after) (noticed ns s) := by
      intro ns
      unfold noticed
      rw [show cutOff (Machine.withOffers (before ++ o' :: after) s) = cutOff s from rfl]
      split <;> rfl
    have same : b ++ a = before ++ after := by
      rw [← filter_at (·.seq) o b a at₀.2, ← filter_at (·.seq) o before after at'.2, ← at₀.1, ← at'.1]
    refine ⟨before, after, at₂, shelf, Or.inl ⟨room.of_clc rfl, by rw [st]; exact np, ?_⟩⟩
    rw [out, comm, ref, callFreed, callFreed, same, sq]
    rfl
  · exact absurd parked (np _)

/-- A code page is asked for, and is given or refused (R100, R113). -/
theorem requestCodePage_of {i : OrbitSlot} {x : Orbit} {s t : State} (hx : slotOf s i = some x) (h : CodePageAsked i x s t) :
    requestCodePage i x.paging s = t := by
  rcases h with ⟨n, link, room, fresh, rfl⟩ | ⟨n, rfl⟩
  · have cs : codeRequestSeq s = some (nextPageSeq s) := by
      simp only [codeRequestSeq]
      rw [if_neg]
      rintro (h | h)
      · unfold sharedPlaces at h
        omega
      · exact h link
    have slot : (onPpu (fun u => { u with orbits := u.orbits.modify i (withPage (pageIdOf s (nextPageSeq s))) }) s)
        = withSlot i (some { x with page := some ⟨own s, nextPageSeq s⟩ }) s := by
      have : s.ppu.orbits.get i = some x := hx
      simp only [onPpu, Table.modify, this, withPage, Option.map_some]
      rfl
    simp only [requestCodePage, cs, originateCode, slot]
    refine (queueStart_new (newPage (nextPageSeq s) .code (.group x.paging) (.orbit (orbitNumber (own s) i)) false) _ ?_
      (by exact link) (by exact room)).trans rfl
    exact fresh
  · have cs : codeRequestSeq t = none := by
      simp only [codeRequestSeq]
      rw [if_pos (n.imp (fun h => by unfold sharedPlaces; omega) id)]
    simp only [requestCodePage, cs]

/-- A call is parked in the lowest free slot (R100). -/
theorem parkCall_of {o : Offer} {before after : List Offer} {g : HuntGroup} {p : GroupParams} {i : OrbitSlot} {s t : State}
    (at' : OfferAt o before after s) (free : slotOf s i = none) (low : ∀ j, j < i → slotOf s j ≠ none)
    (h : CodePageAsked i (parkSlot o g p) (withSlot i (some (parkSlot o g p))
      (withOffers (before ++ { o with state := .parked (orbitNumber (own s) i), window := none } :: after)
        (withoutStanding o.seq s))) t) : parkCall o.seq g p s = t := by
  have fs : freeSlotIndex s = some i := by
    unfold freeSlotIndex
    rw [show allSlots = List.finRange 4 from rfl]
    rw [List.find?_eq_some_iff_append]
    refine ⟨by simp [free], (List.finRange 4).take i.val, (List.finRange 4).drop (i.val + 1), ?_, ?_⟩
    · clear h free low
      revert i
      decide
    · intro j hj
      have : j < i := by
        clear h free low
        revert j i
        decide
      cases e : slotOf s j with
      | none => exact absurd e (low j this)
      | some y => simp
  have at₂ : OfferAt o before after (dropStanding o.seq (setSlot i (some (parkSlot o g p)) s)) := at'
  have m := modOffer_at at₂ (fun o => { o with state := .parked (orbitNumber (own s) i), window := none })
  simp only [parkCall, fs]
  refine Eq.trans ?_ (requestCodePage_of (by simp [slotOf, withSlot, Table.get_set_self]) h)
  exact congrArg (requestCodePage i p.parkPaging) m

/-- An action of a hunt group as the step that it comes to (R81, R85 to R87). -/
def stepOf (a : QueueExpiryAction) (o : Offer) (p : GroupParams) (s : State) : OverflowStep :=
  match a with
  | .recycle => .recycle
  | .forward => forwardStep s o p
  | .park => parkStep s o
  | .endCall => .endCall

/-- An action of a hunt group is applied to a call (R65, R81). -/
theorem applyStep_of {a : QueueExpiryAction} {o : Offer} {g : HuntGroup} {p : GroupParams} {before after : List Offer} {s t : State}
    (at' : OfferAt o before after s) (h : ActionTaken a o g p before after s t) : applyStep o g p (stepOf a o p s) s = t := by
  have can : canForward s o p = true ↔ o.depth < 2 ∧ (s.he.groups.get p.forward).isSome = true := by simp [canForward]
  have ends : stepOf a o p s = .endCall ↔ a = .endCall
      ∨ (a = .forward ∧ ¬ (o.depth < 2 ∧ (s.he.groups.get p.forward).isSome = true)) := by
    rw [← can]
    cases a <;> simp only [stepOf, forwardStep, parkStep] <;> first | (split <;> simp_all) | simp
  have full : freeSlotIndex s = none ↔ ∀ i, slotOf s i ≠ none := by
    simp [freeSlotIndex, allSlots, Option.isNone_iff_eq_none]
  simp only [ActionTaken] at h
  rcases h with ⟨e, h⟩ | ⟨e, c, h⟩ | ⟨c, hr, e⟩ | ⟨ha, f, link, room, e⟩ | ⟨ha, nf, c, i, free, low, h⟩
  · simp only [ends.mpr e, applyStep, if_true]
    exact endCall_of h
  · simp only [applyStep, if_neg (mt ends.mp e), c, if_true]
    exact endCall_of h
  · subst e
    have st : stepOf a o p s = .recycle := by
      rcases hr with rfl | ⟨rfl, hf⟩
      · rfl
      · simp only [stepOf, parkStep]
        rw [if_neg]
        rintro ⟨h₁, h₂⟩
        rcases hf with hf | hf
        · rw [h₁] at hf; cases hf
        · rw [full.mpr hf] at h₂; cases h₂
    simp only [st, applyStep, c, Bool.false_eq_true, if_false, reduceCtorEq, recycleCall]
    exact modOffer_at (s := withoutStanding o.seq s) at' _
  · subst ha e
    have c : cutOff s = false := by simp [cutOff, link]
    have st : stepOf .forward o p s = .forward := by simp only [stepOf, forwardStep, can.mpr f, if_true]
    simp only [st, applyStep, c, Bool.false_eq_true, if_false, reduceCtorEq, forwardCall]
    have at₂ : OfferAt o before after (withoutStanding o.seq s) := at'
    have e := modOffer_at at₂ (fun o => { o with depth := o.depth + 1, target := .hunt p.forward })
    refine (congrArg (reofferAfresh o.seq) e).trans ?_
    exact reofferAfresh_at (offerAt_withOffers at₂ (o' := { o with depth := o.depth + 1, target := .hunt p.forward }) rfl)
      (by exact link) (by exact room) p.forward rfl
  · subst ha
    have nf' : o.parkDone = false ∧ (freeSlotIndex s).isSome = true := by
      rw [not_or] at nf
      refine ⟨by simpa using nf.1, ?_⟩
      cases e : freeSlotIndex s with
      | none => exact absurd (full.mp e) nf.2
      | some j => rfl
    have st : stepOf .park o p s = .park := by simp only [stepOf, parkStep, if_pos nf']
    simp only [st, applyStep, c, Bool.false_eq_true, if_false, reduceCtorEq]
    exact parkCall_of at' free low h

/-- The overflow step of a call (R81). -/
theorem overflow_of {o : Offer} {before after : List Offer} {s t : State} (at' : OfferAt o before after s)
    (h : Overflowed o before after s t) : overflow o.seq s = t := by
  obtain ⟨g, ht, h⟩ := h
  have tg : targetGroup o.target = some g := by simp [ht, targetGroup]
  rcases h with ⟨hp, h⟩ | ⟨p, hp, h⟩
  · have gr : groupOf s o = none := by simp [groupOf, ht, targetGroup, hp]
    simp only [overflow, findOffer_at at', gr, tg]
    exact endCall_of h
  · have gr : groupOf s o = some p := by simp [groupOf, ht, targetGroup, hp]
    simp only [overflow, findOffer_at at', gr, tg]
    have by_ : ∀ a, actionStep s o p = stepOf a o p s → ActionTaken a o g p before after s t →
        applyStep o g p (actionStep s o p) s = t := by
      intro a e h
      rw [e]
      exact applyStep_of at' h
    have stands : ∀ y, standingOf s o.seq = some y → y ∈ s.he.queue ∧ y.call = o.seq := by
      intro y e
      exact ⟨List.mem_of_find?_eq_some e, by simpa using List.find?_some e⟩
    have stood : standingOf s o.seq = none → ¬ ∃ x ∈ s.he.queue, x.call = o.seq := by
      rintro e ⟨x, hx, hc⟩
      exact absurd hc (by simpa using List.find?_eq_none.mp e x hx)
    rcases h with ⟨ov, h⟩ | ⟨ov, h⟩ | ⟨ov, h⟩ | ⟨ov, fl, h⟩ | ⟨ov, fl, ⟨st, ex⟩, h⟩ | ⟨ov, fl, ne, h⟩
    · exact by_ .recycle (by simp [actionStep, ov, stepOf]) h
    · exact by_ .forward (by simp [actionStep, ov, stepOf]) h
    · exact by_ .park (by simp [actionStep, ov, stepOf]) h
    · exact by_ .recycle (by simp [actionStep, ov, queueStep, fl, stepOf]) h
    · refine by_ p.queueExpiry ?_ h
      cases e : standingOf s o.seq with
      | none => exact absurd st (stood e)
      | some y =>
        have hy := stands y e
        simp only [actionStep, ov, queueStep, fl, e, ex y hy.1 hy.2, expiryStep, stepOf]
        simp only [Bool.true_eq_false, if_false, if_true]
        all_goals cases p.queueExpiry <;> rfl
    · have st : actionStep s o p = .queue := by
        cases e : standingOf s o.seq with
        | none => simp [actionStep, ov, queueStep, fl, e]
        | some y =>
          have hy := stands y e
          simp [actionStep, ov, queueStep, fl, e, ne y hy.1 hy.2]
      rcases h with ⟨c, h⟩ | ⟨c, st', rfl⟩ | ⟨c, st', rfl⟩
      · simp only [st, applyStep, c, if_true, reduceCtorEq, if_false]
        exact endCall_of h
      · have so : (standingOf s o.seq).isSome = true := by
          cases e : standingOf s o.seq with
          | none => exact absurd st' (stood e)
          | some y => rfl
        simp only [st, applyStep, c, Bool.false_eq_true, if_false, reduceCtorEq, queueCall, so, if_true]
        exact modOffer_at at' _
      · have so : (standingOf s o.seq).isSome = false := by
          cases e : standingOf s o.seq with
          | none => rfl
          | some y => exact absurd ⟨y, stands y e⟩ st'
        simp only [st, applyStep, c, Bool.false_eq_true, if_false, reduceCtorEq, queueCall, so]
        exact modOffer_at (s := onHe (fun h => { h with queue := h.queue ++ [⟨o.seq, g, false⟩] }) s) at' _

/-- A re-offer (R65, R76). -/
theorem reoffer_of {o : Offer} {before after : List Offer} {g : HuntGroup} {s t : State} (at' : OfferAt o before after s)
    (ht : o.target = .hunt g) (h : OfferedAgain o g (reoffered o) before after s t) : reoffer o.seq s = t := by
  rcases h with ⟨c, h⟩ | ⟨link, room, rfl⟩
  · simp only [reoffer, c, if_true]
    exact endCallSeq_of h
  · exact reoffer_at at' link room g ht

/-- A re-offer with the tried set cleared, of a call that is not parked (R65, R82, R84). -/
theorem reofferAfresh_of {o : Offer} {before after : List Offer} {g : HuntGroup} {s t : State} (at' : OfferAt o before after s)
    (ht : o.target = .hunt g) (np : ∀ n, o.state ≠ .parked n)
    (h : OfferedAgain o g (reoffered { o with tried := 0 }) before after s t) : reofferAfresh o.seq s = t := by
  rcases h with ⟨c, h⟩ | ⟨link, room, rfl⟩
  · simp only [reofferAfresh]
    rw [modOffer_at at']
    have c₂ : cutOff (withOffers (before ++ { o with tried := 0 } :: after) s) = true := c
    simp only [reoffer, c₂, if_true]
    exact endCallSeq_of (o := { o with tried := 0 }) (h.withOffers at' np rfl rfl rfl rfl)
  · exact reofferAfresh_at at' link room g ht

/-- The next-step decision (R79). -/
theorem nextStep_of {o : Offer} {before after : List Offer} {s t : State} (at' : OfferAt o before after s)
    (h : NextStep o before after s t) : nextStep o.seq s = t := by
  rcases h with ⟨hr, rfl⟩ | ⟨hr, g, ht, h⟩
  · simp only [nextStep, findOffer_at at']
    rw [if_pos (by simpa using hr)]
    exact becomeRinging_at at'
  · have none_ : s.he.groups.get g = none → groupOf s o = none := by intro e; simp [groupOf, ht, targetGroup, e]
    have some_ : ∀ p, s.he.groups.get g = some p → groupOf s o = some p := by
      intro p e
      simp [groupOf, ht, targetGroup, e]
    have not_ex : ∀ p : GroupParams, exhausted o.tried p.span = false ↔ ∃ i : OrderIndex, i.val < p.span ∧ hasIndex o.tried i = false := by
      intro p
      rw [← Bool.not_eq_true, exhausted_iff]
      simp
    simp only [nextStep, findOffer_at at', hr]
    rcases h with ⟨⟨p, hp, un⟩, h⟩ | ⟨un, h⟩
    · simp only [some_ p hp, (not_ex p).mpr un, List.isEmpty_nil, Bool.not_true, Bool.false_eq_true, if_false]
      exact reoffer_of at' ht h
    · cases e : s.he.groups.get g with
      | none =>
        simp only [none_ e, List.isEmpty_nil, Bool.not_true, Bool.false_eq_true, if_false]
        exact overflow_of at' h
      | some p =>
        have : exhausted o.tried p.span = true := by
          rw [← Bool.not_eq_false, not_ex]
          exact fun x => un ⟨p, e, x⟩
        simp only [some_ p e, this, List.isEmpty_nil, Bool.not_true, Bool.false_eq_true, if_false, if_true]
        exact overflow_of at' h

/-! ### Members that are lost (R60, R63) -/

/-- The counting of lost members leaves every other part of a record. -/
theorem countTried_foldl (l : List Member) (o : Offer) :
    l.foldl (fun o m => countTried m.index o) o
      = if isDirect o then o else { o with tried := l.foldl (fun t m => addTried m.index o.ringing t) o.tried } := by
  induction l generalizing o with
  | nil => simp
  | cons m rest ih =>
    rw [List.foldl_cons, ih]
    by_cases d : isDirect o = true
    · simp [countTried, d]
    · have d : isDirect o = false := by simpa using d
      have : isDirect (countTried m.index o) = false := by
        simp only [countTried, d, Bool.false_eq_true, if_false]
        exact d
      simp [this, d]
      simp [countTried, d]

/-- What the loss of members makes of one record (R60, R63). -/
theorem loseAt_of {p : Member → Bool} {q : Seq} {s t : State} (h : RecordLoses p q s t) : loseAt p q s = t := by
  obtain ⟨o, before, after, at', rfl, h⟩ := h
  have some_lost : (o.ringing.any p = true ∨ o.assigned.any p = true) ↔
      (o.ringing ++ o.assigned.toList).filter p ≠ [] := by
    cases ha : o.assigned with
    | none => simp
    | some m =>
      by_cases hm : p m = true <;> simp [hm]
  rcases h with ⟨none_, rfl⟩ | ⟨any, np, h⟩
  · simp only [loseAt, findOffer_at at']
    rw [if_neg (by rw [some_lost]; simpa using none_)]
  · simp only [loseAt, findOffer_at at']
    rw [if_pos (some_lost.mpr any)]
    generalize hl : ({ o with
      ringing := o.ringing.filter fun m => !p m
      assigned := if o.assigned.any p then none else o.assigned
      assignTimer := if o.assigned.any p then false else o.assignTimer
      tried := if (targetGroup o.target).isSome then
          ((o.ringing ++ o.assigned.toList).filter p).foldl
            (fun t m => addTried m.index (o.ringing.filter fun m => !p m) t) o.tried
        else o.tried } : Offer) = left at h
    have e : loseMembers p o = left := by
      rw [← hl]
      simp only [loseMembers, countTried_foldl]
      by_cases d : (targetGroup o.target).isSome = true
      · have d₂ : ∀ r, isDirect { o with ringing := r } = false := by
          intro r
          cases ht : targetGroup o.target <;> simp [isDirect, ht] at d ⊢
        rw [d₂]
        cases ha : o.assigned with
        | none => simp [d]
        | some m =>
          by_cases hm : p m = true
          · simp [hm, d, loseAssigned, countTried, isDirect]
            cases ht : targetGroup o.target <;> simp [ht] at d ⊢
          · simp [hm, d]
      · have d₂ : ∀ r, isDirect { o with ringing := r } = true := by
          intro r
          cases ht : targetGroup o.target <;> simp [isDirect, ht] at d ⊢
        rw [d₂]
        cases ha : o.assigned with
        | none => simp [d]
        | some m =>
          by_cases hm : p m = true
          · simp [hm, d, loseAssigned, countTried, isDirect]
            cases ht : targetGroup o.target <;> simp [ht] at d ⊢
          · simp [hm, d]
    have sq : left.seq = o.seq := by rw [← hl]
    have at₂ : OfferAt left before after (withOffers (before ++ left :: after) s) := offerAt_withOffers at' sq
    have con : lossConcludes o left = true ↔ (o.assigned.any p = true
        ∨ (o.state = .ringing ∧ (o.ringing.filter fun m => !p m) = [])) := by
      rw [← hl]
      cases ha : o.assigned with
      | none => simp [lossConcludes, ha]; exact and_comm
      | some m =>
        by_cases hm : p m = true
        · simp [lossConcludes, ha, hm]
        · simp [lossConcludes, ha, hm]; exact and_comm
    have dir : isDirect left = true ↔ (targetGroup o.target).isSome = false := by
      rw [← hl]
      cases ht : targetGroup o.target <;> simp [isDirect, ht]
    rw [e]
    rw [modOffer_at at' (fun _ => left)]
    simp only [afterLoss]
    rcases h with ⟨no, rfl⟩ | ⟨yes, hunt, h⟩ | ⟨yes, direct, h⟩
    · rw [if_neg (by rw [con]; exact no)]
    · rw [if_pos (con.mpr yes), if_neg (by rw [dir, hunt]; simp)]
      exact nextStep_of at₂ h
    · rw [if_pos (con.mpr yes), if_pos (dir.mpr direct)]
      exact endCall_of h

/-! ### Records and pages that end in turn (R51, R64, R66, R117, R124) -/

/-- The end of a call leaves the part's own address and the link state. -/
theorem callEnds_frame {outcome : Option EndReason} {o : Offer} {s t : State} (h : CallEnds outcome o s t) :
    own t = own s ∧ t.clc.link = s.clc.link := by
  obtain ⟨b, a, at', -, ⟨-, -, rfl⟩ | ⟨i, v, -, -, f, rfl⟩⟩ := h
  · exact ⟨own_noticed _ s, noticed_link _ s⟩
  · have := orbitFreed_frame f
    exact ⟨by
      show own v = own s
      rw [this.2.2.2.2.2.1]
      simp, by
      show v.clc.link = s.clc.link
      rw [this.2.2.2.2.2.2.1]
      simp⟩

/-- The OFM at entry to ISOLATED (R64). -/
theorem ofmIsolated_of {s t : State} (h : Chain RecordIsolated s.ofm.offers s t) : ofmIsolated s = t := by
  unfold ofmIsolated
  rw [forEach_filter]
  have gen : ∀ (l : List Offer) (c : Cabinet) (u : State), own u = c → Chain RecordIsolated l u t →
      forEach l (fun o s => if endsIsolated c o then endCallSeq o.seq (some .isolated) s else s) u = t := by
    intro l c
    induction l with
    | nil => intro u _ h; exact h.symm
    | cons o rest ih =>
      intro u hu ⟨v, ho, h⟩
      have iff : endsIsolated c o = true ↔ (o.state = .offering ∨ (∃ w, o.state = .waiting w) ∨ (∃ n, o.state = .parked n)
          ∨ ∃ m, m ∈ o.ringing ++ o.assigned.toList ∧ m.cab ≠ c) := by
        cases hs : o.state <;> cases ha : o.assigned <;> simp [endsIsolated, hs, ha, or_comm]
      rw [forEach]
      rcases ho with ⟨no, rfl⟩ | ⟨yes, ends⟩
      · rw [if_neg (by rw [iff, ← hu]; exact no)]
        exact ih _ hu h
      · rw [if_pos (iff.mpr (by rw [← hu]; exact yes)), endCallSeq_of ends]
        exact ih _ ((callEnds_frame ends).1.trans hu) h
  exact gen _ _ _ rfl h

/-- SHELF-CLEAR at the OFM (R66). -/
theorem ofmShelfClear_of {s t : State} (h : Chain (CallEnds none) s.ofm.offers s t) : ofmShelfClear s = t := by
  unfold ofmShelfClear offerSeqs
  rw [forEach_map]
  exact forEach_chain (fun o _ u v e => endCallSeq_of e) h

/-- The OFM at a peer's silence, once its bids and RING-ASSIGN notices are gone (R63). -/
theorem ofmLosesPeer_of {p : Cabinet} {qs : List Seq} {s t : State} (h : Chain (RecordLoses fun m => decide (m.cab = p)) qs s t) :
    forEach qs (loseAt fun m => decide (m.cab = p)) s = t :=
  forEach_chain (fun _ _ _ _ e => loseAt_of e) h

/-- The lines at the loss of owners (R43). -/
theorem linesLose_of {lost : Cabinet → Bool} {reason : RingEndReason} {s t : State} (n : reason ≠ .noAnswer)
    (h : Chain (LineLoses lost reason) allLines s t) : forEach allLines (lineLosesOwner lost reason) s = t :=
  forEach_chain (fun _ _ _ _ e => lineLosesOwner_of e n) h

/-- The lines at SHELF-CLEAR (R44). -/
theorem lineShelfClear_of {s t : State} (h : Chain LineCleared allLines s t) : lineShelfClear s = t :=
  forEach_chain (fun _ _ _ _ e => clearLine_of e) h

/-- A page of a line ends (R32, R117). -/
theorem endPageSeq_of {reason : PageEndReason} {r : PageRec} {s t : State} (h : LinePageEnds reason r s t) :
    endPageSeq r.seq reason (some .lost) s = t := by
  obtain ⟨l, before, after, ho, at', room, shelf, hc, h⟩ := h
  have shelf : s.spu.output.length < outputCapacity := shelf
  have ended : ∀ u : State, u.spu = s.spu → endAtLine r (some .lost) u = withOutputs (u.outputs ++ [.tone l .lost])
      (withSent (if r.connectSent then r.channel.toList.map (.disconnectPage l) else []) (pageEnded l .lost u)) := by
    intro u hu
    simp only [endAtLine, ho, linePageEnded, orderTone_eq, onLine_eq]
    cases cs : r.connectSent with
    | false =>
      have nil : ∀ v, withSent [] v = v := by intro v; simp [withSent]
      simp [nil, pageEnded]
    | true =>
      obtain ⟨c, hc⟩ := hc cs
      simp only [hc]
      rw [shelfSend_room _ _ (by simpa [withLine, withOutputs, hu] using shelf)]
      simp [pageEnded]
  simp only [endPageSeq, findPage_at at', endPage]
  rcases h with ⟨nc, rfl⟩ | ⟨cl, os, rfl⟩
  · rw [if_neg nc, endAnnounced_noticed at' reason room]
    exact ended _ (by simp)
  · rw [if_pos cl, endClaiming_at at' os]
    exact ended _ (by rfl)

/-- SHELF-CLEAR at the PGO (R124). -/
theorem pgoShelfClear_of {s t : State} (h : Chain (LinePageEnds .cleared) (s.pgo.pages.filter fun r => match r.origin with
      | .line _ => true
      | .input _ | .orbit _ => false) s t) : pgoShelfClear s = t :=
  forEach_chain (fun _ _ _ _ e => endPageSeq_of e) h

end Sys2Proof.Machine
end

