-- ==== Sys2Proof/Laws/Resume.lean ====
section
/-! SUPPORT. Removals, faults and the resume choice of a zone, said once in the parts of Safety.lean. -/

namespace Sys2Proof.Machine

/-! ### Reports and the amplifier fault (R142, R143) -/

/-- Reports of several pages, with room for them. -/
theorem reportAll_room (z : LocalZone) (o : ZoneOutcome) (ps : List PageId) (s : State) (ph : s.phase = .running)
    (room : Room ps.length s) : reportAll z ps o s = noticed (ps.map fun p => .zoneReport p (numberOf s z) o) s := by
  induction ps generalizing s with
  | nil => simp [reportAll, forEach]
  | cons p rest ih =>
    rw [List.length_cons] at room
    show reportAll z rest o (report z p o s) = _
    rw [report_room z p o s ph (room.le (by omega)), ih (zoneReports z p o s) (by simpa [zoneReports] using ph)
        (Room.noticed (room.le (by simp; omega)))]
    simp only [zoneReports, noticed_twice, numberOf_noticed, List.map_cons, List.singleton_append]

/-- A zone enters FAULT (R142). -/
theorem enterFault_eq (z : LocalZone) (s : State) (ph : s.phase = .running) (link : s.clc.link = .running)
    (ps : List PageId) (hps : placedPages (zoneOf s z) ++ (zoneOf s z).evac = ps)
    (room : s.clc.queue.length + ps.length ≤ txCapacity)
   (u : State) (hu : u = withQueued (ps.map fun p => .zoneReport p (numberOf s z) .fault) s) (v : State)
   (hv : v = raise .ampFault (numberOf s z).val .zc
          (zoneEnters z { zoneOf s z with active := none, held := none, pending := [], state := .fault } false .none
            (if sounding (zoneOf s z).state then patternStops z u else u))) :
   enterFault z s = if (zoneOf s z).active.isSome then levelSet z
       (targetOf (zoneOf s z).cfg.level (levelOf s z).level (if (zoneOf s z).evac = [] then none else some .evac)) v
       else v := by
  have e1 : enterState z .fault (onZone z (fun r => { r with active := none, held := none, pending := [] }) u) =
      zoneEnters z { zoneOf s z with active := none, held := none, pending := [], state := .fault } false .none
            (if sounding (zoneOf s z).state then patternStops z u else u) := by
    have zu : zoneOf u z = zoneOf s z := by rw [hu]; rfl
    rw [enterState_eq, onZone_eq, zu]
    simp only [zoneOf_withZone_self, show (!sounding .fault) = true from rfl, Bool.and_true]
    by_cases so : sounding (zoneOf s z).state = true
    · simp only [so, if_true, patternStops_withZone, zoneEnters, withZone_twice]
      rfl
    · rw [Bool.not_eq_true] at so
      simp only [so, Bool.false_eq_true, if_false, zoneEnters, withZone_twice]
      rfl
  simp only [enterFault, hps]
  rw [reportAll_room _ _ _ _ ph (Or.inr ⟨link, room⟩), noticed_running _ _ link, ← hu, e1]
  have nu : numberOf (zoneEnters z { zoneOf s z with active := none, held := none, pending := [], state := .fault }
      false .none
            (if sounding (zoneOf s z).state then patternStops z u else u)) z = numberOf s z := by
    rw [hu]; split <;> rfl
  rw [nu, ← hv]
  congr 1
  rw [jumpLevel_eq]
  have zv : zoneOf v z = { zoneOf s z with active := none, held := none, pending := [], state := .fault } := by
    rw [hv]; simp [zoneEnters]
  have lv : levelOf v z = levelOf s z := by
    rw [hv, hu]
    split <;> simp [zoneEnters, patternStops, levelOf_raise]
  rw [zv, lv]
  have lc : levelClass { zoneOf s z with active := none, held := none, pending := [], state := .fault } = if
      (zoneOf s z).evac = [] then none else some .evac := by
    simp [levelClass, activeClass]
  rw [lc]

/-- A zone leaves FAULT (R143). -/
theorem faultInactive_eq (z : LocalZone) (s : State) (st : (zoneOf s z).state = .fault) : faultInactive z s =
   if (zoneOf s z).evac ≠ [] then activate z .evacuation .tone
       (zoneEnters z { zoneOf s z with ampFault := false, state := .released } false .none s) else zoneEnters z
       { zoneOf s z with ampFault := false, state := .released } false .none s := by
  have e : enterState z .released (onZone z (fun r => { r with ampFault := false }) s) = zoneEnters z
      { zoneOf s z with ampFault := false, state := .released } false .none s := by
    rw [onZone_eq, enterState_quiet _ _ _
        (.inl (by rw [zoneOf_withZone_self]; show sounding (zoneOf s z).state = false; rw [st]; rfl)),
        zoneOf_withZone_self]
    simp only [zoneEnters, withZone_twice]
    rfl
  have zf : (zoneOf (zoneEnters z { zoneOf s z with ampFault := false, state := .released } false .none s) z).evac =
      (zoneOf s z).evac := by simp [zoneEnters]
  unfold faultInactive
  simp only [e, zf]
  rw [if_pos]
  rw [onZone_eq, zoneOf_withZone_self]
  exact st

/-! ### Pages that begin and resume (R133, R135) -/

/-- The level class of a zone that plays a page (R165). -/
theorem levelClass_page (r : ZoneRec) (e n) (he : r.evac = []) (ha : r.active = some (.page e n)) : levelClass r = some
    e.cls := by
  simp [levelClass, activeClass, he, ha]

/-- A page becomes active in a WAKING zone (R133). -/
theorem activate_waking (z a ph) (s : State) (st : (zoneOf s z).state = .waking) :
   activate z a ph s = levelSet z (targetOf (zoneOf s z).cfg.level (levelOf s z).level
       (levelClass { zoneOf s z with active := some a })) (withZone z { zoneOf s z with active := some a } s) := by
  unfold activate
  simp only [st, onZone_eq]
  rw [jumpLevel_eq]
  simp

/-- A page that begins leaves the CLC and the phase, its report apart. -/
theorem pageBegins_before_report (z : LocalZone) (r : ZoneRec) (e : PageEntry) (notes : Table 8 Nat) (s : State) :
   (levelSet z (targetOf r.cfg.level (levelOf s z).level (some e.cls)) (if r.state = .waking then withZone z r s
     else patternStarts z (firstSound notes e).2.1 (firstSound notes e).2.2 (zoneEnters z { r with
       state := (firstSound notes e).1, keptRun := nextSeq (seqOf s z).number } true .tone s))).clc = s.clc
   ∧ (levelSet z (targetOf r.cfg.level (levelOf s z).level (some e.cls)) (if r.state = .waking then withZone z r s
     else patternStarts z (firstSound notes e).2.1 (firstSound notes e).2.2 (zoneEnters z { r with
       state := (firstSound notes e).1, keptRun := nextSeq (seqOf s z).number } true .tone s))).phase = s.phase := by
  split <;> simp [levelSet, patternStarts, zoneEnters]

/-- A page that resumes leaves the CLC and the phase, its report apart. -/
theorem liveResumes_before_report (z : LocalZone) (r : ZoneRec) (e : PageEntry) (c : Channel) (s : State) :
   (levelSet z (targetOf r.cfg.level (levelOf s z).level (some e.cls))
       (zoneEnters z { r with state := .live } true (.channel c)
       (if sounding r.state then patternStops z s else s))).clc = s.clc
   ∧ (levelSet z (targetOf r.cfg.level (levelOf s z).level (some e.cls))
       (zoneEnters z { r with state := .live } true (.channel c)
       (if sounding r.state then patternStops z s else s))).phase = s.phase := by
  split <;> simp [levelSet, patternStops, zoneEnters]

/-- A page begins in a zone that is active (R133, R135). -/
theorem activate_begins (z : LocalZone) (x : PageEntry) (n : Nat) (notes) (r : ZoneRec) (s : State)
    (ph : s.phase = .running) (room : Room 1 s)
   (hn : s.ts.notes = some notes) (hr : { zoneOf s z with active := some (.page x n) } = r)
       (za : zoneActive (zoneOf s z).state = true) (he : (zoneOf s z).evac = []) :
   report z x.page .playing (activate z (.page x n) (firstPhase (.page x n)) s) = pageBegins z r x notes s := by
  have he' : r.evac = [] := by rw [← hr]; exact he
  have ha' : r.active = some (.page x n) := by rw [← hr]
  have hs' : r.state = (zoneOf s z).state := by rw [← hr]
  have hc' : r.cfg = (zoneOf s z).cfg := by rw [← hr]
  have key : activate z (.page x n) (firstPhase (.page x n)) s = levelSet z
      (targetOf r.cfg.level (levelOf s z).level (some x.cls))
    (if r.state = .waking then withZone z r s
     else patternStarts z (firstSound notes x).2.1 (firstSound notes x).2.2 (zoneEnters z { r with
       state := (firstSound notes x).1, keptRun := nextSeq (seqOf s z).number } true .tone s)) := by
    by_cases w : (zoneOf s z).state = .waking
    · rw [activate_waking _ _ _ _ w, hr, levelClass_page r x n he' ha', hs', if_pos w, hc']
    · rw [hs', if_neg w]
      obtain ⟨i, t, rest, h1, h2, h3, _⟩ := firstSound_spec notes x n
      rw [activate_enters z _ _ notes i s hn t rest h1 h3]
      · rw [h2, ← hc']
        have e : ({ zoneOf s z with active := some (.page x n), state := firstPhase (.page x n) } : ZoneRec) =
            { r with state := firstPhase (.page x n) } := by rw [← hr]
        have e2 : ({ zoneOf s z with
            active := some (.page x n), state := firstPhase (.page x n)
            keptRun := nextSeq (seqOf s z).number } : ZoneRec)
          = { r with state := firstPhase (.page x n), keptRun := nextSeq (seqOf s z).number } := by rw [← hr]
        rw [e, e2, levelClass_page _ x n (by exact he') (by exact ha')]
      · cases hst : (zoneOf s z).state <;> simp_all [zoneActive]
  have pc := pageBegins_before_report z r x notes s
  rw [key]
  exact report_room _ _ _ _ (pc.2.trans ph) (room.of_clc pc.1)

/-- An ALARM page resumes in LIVE (R135). -/
theorem activate_resumes (z : LocalZone) (x : PageEntry) (n : Nat) (c) (r : ZoneRec) (s : State)
    (ph : s.phase = .running) (room : Room 1 s)
   (hr : { zoneOf s z with active := some (.page x n) } = r) (za : zoneActive (zoneOf s z).state = true)
       (w : (zoneOf s z).state ≠ .waking) (he : (zoneOf s z).evac = []) (hs : x.source = .channel c) :
   report z x.page .playing (activate z (.page x n) .live s) = liveResumes z r x c s := by
  have he' : r.evac = [] := by rw [← hr]; exact he
  have ha' : r.active = some (.page x n) := by rw [← hr]
  have hs' : r.state = (zoneOf s z).state := by rw [← hr]
  have hc' : r.cfg = (zoneOf s z).cfg := by rw [← hr]
  have key : activate z (.page x n) .live s = levelSet z (targetOf r.cfg.level (levelOf s z).level (some x.cls))
    (zoneEnters z { r with state := .live } true (.channel c) (if sounding r.state then patternStops z s else s)) := by
    have e : activate z (.page x n) .live s = jumpLevel z (enterPhase z .live (.page x n) (withZone z r s)) := by
      unfold activate
      simp only [onZone_eq, hr]
      cases hst : (zoneOf s z).state <;> simp_all [zoneActive]
    have so : sourceOrder { r with state := .live } = .channel c := by
      obtain ⟨p, cl, src, orb⟩ := x
      have : src = .channel c := hs
      subst this
      simp [sourceOrder, ha']
    rw [e]
    simp only [enterPhase, enterState_eq, zoneOf_withZone_self]
    rw [if_neg (by simp [sounding]), so]
    have am : amplifierOrder .live = true := rfl
    rw [am]
    simp only [show (!sounding .live) = true from rfl, Bool.and_true]
    rw [jumpLevel_eq]
    have zo : ∀ u : State, zoneOf (zoneEnters z { r with state := .live } true (.channel c) u) z =
        { r with state := .live } := by intro u; simp [zoneEnters]
    rw [zo, levelClass_page _ x n (by exact he') (by exact ha')]
    by_cases sd : sounding r.state = true
    · simp only [sd, if_true, patternStops_withZone]
      have : levelOf (zoneEnters z { r with state := .live } true (.channel c) (withZone z r (patternStops z s))) z =
          levelOf s z := by simp [zoneEnters, patternStops]
      rw [this]
      simp only [zoneEnters, withZone_twice]
      rfl
    · simp only [sd]
      have : levelOf (zoneEnters z { r with state := .live } true (.channel c) (withZone z r s)) z = levelOf s
          z := by simp [zoneEnters]
      simp only [Bool.false_eq_true, if_false, this]
      simp only [zoneEnters, withZone_twice]
      rfl
  have pc := liveResumes_before_report z r x c s
  rw [key]
  exact report_room _ _ _ _ (pc.2.trans ph) (room.of_clc pc.1)

/-- On the link a page that begins delivers nothing. -/
theorem pageBegins_deliveries (z r e n) (s : State) (h : cutOff s = false) :
    (pageBegins z r e n s).deliveries = s.deliveries := by
  unfold pageBegins zoneReports
  rw [noticed_deliveries _ _ (by unfold cutOff; rw [(pageBegins_before_report z r e n s).1]; exact h)]
  split <;> simp [levelSet, zoneEnters, patternStarts]

/-- On the link a page that resumes delivers nothing. -/
theorem liveResumes_deliveries (z r e c) (s : State) (h : cutOff s = false) :
    (liveResumes z r e c s).deliveries = s.deliveries := by
  unfold liveResumes zoneReports
  rw [noticed_deliveries _ _ (by unfold cutOff; rw [(liveResumes_before_report z r e c s).1]; exact h)]
  split <;> simp [levelSet, zoneEnters, patternStops]

/-- A page that begins leaves the PPU. -/
theorem pageBegins_ppu (z r e n) (s : State) : (pageBegins z r e n s).ppu = s.ppu := by
  unfold pageBegins; split <;> simp [zoneReports, levelSet, zoneEnters, patternStarts]

/-- A page that resumes leaves the PPU. -/
theorem liveResumes_ppu (z r e c) (s : State) : (liveResumes z r e c s).ppu = s.ppu := by
  unfold liveResumes; split <;> simp [zoneReports, levelSet, zoneEnters, patternStops]

/-- A page that begins leaves the link state. -/
theorem pageBegins_link (z r e n) (s : State) : (pageBegins z r e n s).clc.link = s.clc.link := by
  unfold pageBegins; split <;> simp [zoneReports, levelSet, zoneEnters, patternStarts]

/-- A page that begins leaves the drop run. -/
theorem pageBegins_dropRun (z r e n) (s : State) : (pageBegins z r e n s).clc.dropRun = s.clc.dropRun := by
  unfold pageBegins; split <;> simp [zoneReports, levelSet, zoneEnters, patternStarts]

/-- A page that resumes leaves the link state. -/
theorem liveResumes_link (z r e c) (s : State) : (liveResumes z r e c s).clc.link = s.clc.link := by
  unfold liveResumes; split <;> simp [zoneReports, levelSet, zoneEnters, patternStops]

/-- A page that resumes leaves the drop run. -/
theorem liveResumes_dropRun (z r e c) (s : State) : (liveResumes z r e c s).clc.dropRun = s.clc.dropRun := by
  unfold liveResumes; split <;> simp [zoneReports, levelSet, zoneEnters, patternStops]

/-- A page that begins leaves the other zones. -/
theorem pageBegins_others (z r e n) (s : State) (y) (h : y ≠ z) : zoneOf (pageBegins z r e n s) y = zoneOf s y := by
  unfold pageBegins
  split <;> simp [zoneReports, levelSet, zoneEnters, patternStarts, zoneOf_withZone_ne _ _ h]

/-- A page that resumes leaves the other zones. -/
theorem liveResumes_others (z r e c) (s : State) (y) (h : y ≠ z) : zoneOf (liveResumes z r e c s) y = zoneOf s y := by
  unfold liveResumes
  split <;> simp [zoneReports, levelSet, zoneEnters, patternStops, zoneOf_withZone_ne _ _ h]

/-- A page that begins leaves the evacuation set. -/
theorem pageBegins_evac (z r e n) (s : State) : (zoneOf (pageBegins z r e n s) z).evac = r.evac := by
  unfold pageBegins
  split <;> simp [zoneReports, levelSet, zoneEnters, patternStarts]

/-- A page that resumes leaves the evacuation set. -/
theorem liveResumes_evac (z r e c) (s : State) : (zoneOf (liveResumes z r e c s) z).evac = r.evac := by
  unfold liveResumes
  split <;> simp [zoneReports, levelSet, zoneEnters, patternStops]

/-- The held page resumes (R135). -/
theorem resumeChoice_held {z : LocalZone} {h} {s : State} (hh : (zoneOf s z).held = some h)
    (hr : heldResumes h (zoneOf s z).pending = true) : resumeChoice z s = resumeHeld z h s := by
  simp only [resumeChoice, hh, hr, if_true]

/-- The first pending page starts (R135). -/
theorem resumeChoice_pending {z : LocalZone} {x rest} {s : State} (hx : (zoneOf s z).pending = x :: rest)
    (hr : ∀ h, (zoneOf s z).held = some h → classRank h.entry.cls < classRank x.cls) : resumeChoice z s = startPending
    z x rest s := by
  cases hh : (zoneOf s z).held with
  | none => simp only [resumeChoice, hh, hx]
  | some h =>
    have : heldResumes h (x :: rest) = false := by
      unfold heldResumes; have := hr h hh; simp; omega
    simp only [resumeChoice, hh, hx, this]
    rw [if_neg (by simp)]

/-! ### Pages that are removed (R129, R138) -/

/-- A removal with reports: the zone without the pages, the reports, then the resume choice. -/
theorem removePages_lost (z : LocalZone) (p : PageEntry → Bool) (s : State) (ph : s.phase = .running)
    (room : Room ((pickActive p (zoneOf s z)).toList ++ (pickHeld p (zoneOf s z)).toList ++
       (zoneOf s z).pending.filter p).length s) :
   removePages z p (some .lost) s = (if (pickActive p (zoneOf s z)).isSome then leaveActive z else id)
     (noticed (((pickActive p (zoneOf s z)).toList ++ (pickHeld p (zoneOf s z)).toList ++
         (zoneOf s z).pending.filter p).map fun e => .zoneReport e.page (numberOf s z) .lost)
      (withZone z { zoneOf s z with
        held := (zoneOf s z).held.filter fun h => !p h.entry
        pending := (zoneOf s z).pending.filter fun e => !p e } s)) := by
  have hf : (if (pickHeld p (zoneOf s z)).isSome then none else (zoneOf s z).held) = (zoneOf s z).held.filter fun h =>
      !p h.entry := by
    cases hh : (zoneOf s z).held with
    | none => simp [pickHeld, hh]
    | some h => cases hp : p h.entry <;> simp [pickHeld, hh, hp, Option.filter]
  simp only [removePages, onZone_eq, hf]
  rw [reportAll_room _ _ _ _ (by exact ph) (Room.of_clc (by rw [List.length_map]; exact room) rfl)]
  rw [List.map_map]
  split <;> rfl

/-- With no orbit occupied no code page is forgotten. -/
theorem clearCodePage_none (p : PageId) (s : State) (h : ∀ i, slotOf s i = none) : clearCodePage p s = s := by
  have e : (clearCodePage p s).ppu.orbits = s.ppu.orbits := by
    apply Table.ext_get
    intro i
    have : s.ppu.orbits.get i = none := h i
    simp only [clearCodePage, onPpu, Table.get_map, this]
    try rfl
  have : clearCodePage p s = { s with ppu := { s.ppu with orbits := (clearCodePage p s).ppu.orbits } } := rfl
  rw [this, e]

/-- A PAGE-END that one zone of the part alone holds the page of (R138). -/
theorem pageEnd_oneZone {src page reason} {e : PageEntry} {z : LocalZone} {s t : State} (r : s.pins.reset = false)
    (link : s.clc.link = .running) (k : Known src s) (hp : codePage page = some e.page)
   (others : ∀ y, y ≠ z → holdsPage (zoneOf s y) e.page = false) (sl : ∀ i, slotOf s i = none)
   (u : State) (hu : u = withOutputs [.acknowledge true] { heardFrom src s with
      pgo := { s.pgo with view := s.pgo.view.map fun h => h.filter fun x => !decide (x.page = e.page) } })
   (pz : removePages z (fun x => decide (x.page = e.page)) none u = t) (te : (zoneOf t z).evac = [])
       (tn : ∀ y, y ≠ z → zoneOf t y = zoneOf s y) (tp : t.ppu = s.ppu) (td : t.deliveries = []) :
   exec (.pageEnd src page reason) s = .next t := by
  refine exec_of_act rfl r ?_ td
  rw [hear_fresh src true _ s link k]
  simp only [heardPageEnd, hp, withCode, takePageEnd, pgoPageEnd, freeViewPage, freeView_filter]
  refine Eq.trans (congrArg (fun v => clearCodePage e.page (zonePageEnd e.page v)) (hu.symm : _ = u)) ?_
  show clearCodePage e.page (zonePageEnd e.page u) = t
  have zu : ∀ y, zoneOf u y = zoneOf s y := by intro y; rw [hu]; rfl
  have fin : forEach allZones (fun z s => removeEvac z (fun x => decide (x = e.page))
      (removePages z (fun x => decide (x.page = e.page)) none s)) u = t := by
    have ez : removeEvac z (fun x => decide (x = e.page)) t = t := removeEvac_none _ _ _ (by rw [te]; simp)
    have other : ∀ y, y ≠ z → ∀ v : State, zoneOf v y = zoneOf s y → removeEvac y (fun x => decide (x = e.page))
        (removePages y (fun x => decide (x.page = e.page)) none v) = v := by
      intro y hy v hv
      have o := others y hy
      simp only [holdsPage, Bool.or_eq_false_iff] at o
      obtain ⟨⟨⟨o1, o2⟩, o3⟩, o4⟩ := o
      rw [removePages_none]
      · apply removeEvac_none
        intro x hx
        rw [hv] at hx
        exact (List.any_eq_false.mp o4 x hx |> fun h => by simpa using h)
      · rw [hv]; simpa using o1
      · rw [hv]; simpa using o2
      · rw [hv, List.all_eq_true]; intro x hx; have := List.any_eq_false.mp o3 x hx; simpa using this
    rw [forEach_oneZone z]
    · rw [pz, ez]
    · intro m hm; exact other m hm u (zu m)
    · intro m hm; rw [pz, ez]; exact other m hm _ (tn m hm)
  unfold zonePageEnd
  rw [fin]
  apply clearCodePage_none
  intro i
  show t.ppu.orbits.get i = none
  rw [tp]
  exact sl i

/-- A PAGE-START that seizes, where one zone of the part alone holds pages of its channel (R129). -/
theorem seizing_oneZone {src b p c z} {s : State} (h : SeizingStart b src p c s) (t : State)
   (others : ∀ y, y ≠ z → pickActive (fun e => decide (e.source = .channel c ∧ e.page ≠ p.page)) (zoneOf s y) = none ∧
       pickHeld (fun e => decide (e.source = .channel c ∧ e.page ≠ p.page)) (zoneOf s y) = none
      ∧ (zoneOf s y).pending.all (fun e => !(decide (e.source = .channel c ∧ e.page ≠ p.page))) = true)
   (ht : removePages z (fun e => decide (e.source = .channel c ∧ e.page ≠ p.page)) (some .lost)
       (withOutputs [.acknowledge true] (withView c (some p) (heardFrom src s))) = t)
   (tn : ∀ y, y ≠ z → zoneOf t y = zoneOf s y) (tc : (zoneOf t z).cfg = (zoneOf s z).cfg) (td : t.deliveries = [])
       : exec (.pageStart src b) s = .next t := by
  obtain ⟨⟨r, d⟩, link, ph, k, hp, hc, hch, hf, hcr, tg, o, htg, ho, hco, hz⟩ := h
  refine exec_of_act rfl r ?_ td
  rw [hear_fresh src true _ s link k]
  have crx : channelRecord (withOutputs [.acknowledge true] (heardFrom src s)) c = none := hcr
  simp only [heardStart, pgoHeardStart, zoneHeardStart, hp, hc, htg, hch, ho, withCode, heardPageStart, channelSeen,
      crx, hf]
  have e0 : setView c (some ⟨p.page, p.cls⟩) (withOutputs [.acknowledge true] (heardFrom src s)) = withOutputs
      [.acknowledge true] (withView c (some p) (heardFrom src s)) := rfl
  rw [e0]
  generalize hu : withOutputs [.acknowledge true] (withView c (some p) (heardFrom src s)) = u
  have zu : ∀ y, zoneOf u y = zoneOf s y := by intro y; rw [← hu]; rfl
  have phu : u.phase = .running := by rw [← hu]; exact ph
  have lk : lacksNeeded ⟨p.page, p.cls, tg, some c, true, b.flags.getLsbD 1, o⟩ = false := by
    simp only [lacksNeeded, Option.isNone_some, Bool.and_false, Bool.false_or]
    cases o <;> simp_all
  simp only [zonePageStart, phu, takesClass, lk]
  rw [if_pos (by rfl)]
  have seized : forEach allZones (seizeAt ⟨p.page, p.cls, tg, some c, true, b.flags.getLsbD 1, o⟩ c) u = t := by
    have at_ : ∀ y v, seizeAt ⟨p.page, p.cls, tg, some c, true, b.flags.getLsbD 1, o⟩ c y v = removePages y
        (fun e => decide (e.source = .channel c ∧ e.page ≠ p.page)) (some .lost) v := fun _ _ => rfl
    have other : ∀ y, y ≠ z → ∀ v : State, zoneOf v y = zoneOf s y → removePages y
        (fun e => decide (e.source = .channel c ∧ e.page ≠ p.page)) (some .lost) v = v := by
      intro y hy v hv
      have := others y hy
      exact removePages_none _ _ _ _ (by rw [hv]; exact this.1) (by rw [hv]; exact this.2.1)
          (by rw [hv]; exact this.2.2)
    rw [forEach_oneZone z]
    · rw [at_, ← ht, hu]
    · intro m hm; rw [at_]; exact other m hm u (zu m)
    · intro m hm
      have e : seizeAt ⟨p.page, p.cls, tg, some c, true, b.flags.getLsbD 1, o⟩ c z u = t := by rw [at_, ← ht, hu]
      rw [e, at_]
      exact other m hm t (tn m hm)
  simp only [seized]
  apply forEach_same
  intro y _
  have : inTarget (zoneOf t y) tg = false := by
    rw [← hz y]
    by_cases hy : y = z
    · subst hy
      cases tg with
      | all => rfl
      | group g => simp only [inTarget, tc]
    · rw [tn y hy]
  simp [acceptAt, this]

end Sys2Proof.Machine
end

