-- ==== Sys2Proof/Laws/Places.lean ====
section
/-! SUPPORT. The places of a zone, said once in the parts of Safety.lean: pages that leave them, wait in them and take them. -/

namespace Sys2Proof.Machine

/-! ### Pages that leave (R135, R138, R141, R144) -/

/-- A page that begins does not read the record that stood in its zone. -/
theorem pageBegins_withZone (z : LocalZone) (r q : ZoneRec) (e : PageEntry) (notes : Table 8 Nat) (s : State) :
    pageBegins z r e notes (withZone z q s) = pageBegins z r e notes s := by
  unfold pageBegins
  by_cases w : r.state = .waking
  · simp only [w, if_true, withZone_twice, levelOf_withZone]
  · simp only [w, if_false, zoneEnters, withZone_twice, levelOf_withZone, seqOf_withZone]
    rfl

/-- A page that resumes does not read the record that stood in its zone. -/
theorem liveResumes_withZone (z : LocalZone) (r q : ZoneRec) (e : PageEntry) (c : Channel) (s : State) :
    liveResumes z r e c (withZone z q s) = liveResumes z r e c s := by
  unfold liveResumes
  by_cases w : sounding r.state = true
  · simp only [w, if_true, patternStops_withZone, zoneEnters, withZone_twice, levelOf_withZone]
    rfl
  · simp only [w, if_false, Bool.false_eq_true, zoneEnters, withZone_twice, levelOf_withZone]
    rfl

/-- The held page resumes unless the first pending one is of higher class (R135). -/
theorem heldResumes_of {h : Held} {l : List PageEntry} (r : ∀ x, l.head? = some x → classRank x.cls ≤ classRank h.entry.cls) :
    heldResumes h l = true := by
  cases l with
  | nil => rfl
  | cons x rest => simpa [heldResumes] using r x rfl

/-- The resume choice of a zone whose active place has been emptied (R135). -/
theorem resumes_of {z : LocalZone} {r : ZoneRec} {s t : State} (h : Resumes z r s t) :
    leaveActive z (withZone z r s) = t := by
  have zo : zoneOf (withZone z { r with active := none } s) z = { r with active := none } := zoneOf_withZone_self ..
  have leave : leaveActive z (withZone z r s) = resumeChoice z (withZone z { r with active := none } s) := by
    simp only [leaveActive, onZone_eq, zoneOf_withZone_self, withZone_twice]
  rw [leave]
  obtain ⟨za, ev, h⟩ := h
  rcases h with ⟨hh, hp, rfl⟩ | ⟨x, rest, hp, hh, notes, room, ph, hn, rfl⟩ | ⟨x, hh, hp, h⟩
  · have e : resumeChoice z (withZone z { r with active := none } s) = lastPageGone z (withZone z { r with active := none } s) := by
      simp [resumeChoice, hh, hp]
    rw [e, ← lastPageGone_eq]
    simp only [onZone_eq, zoneOf_withZone_self, withZone_twice]
  · rw [resumeChoice_pending (by rw [zo]; exact hp) (by rw [zo]; exact hh)]
    simp only [startPending, onZone_eq, zo, withZone_twice]
    rw [activate_begins z x 0 notes { r with active := some (.page x 0), pending := rest } _ (by exact ph)
      (by exact room.of_clc rfl) (by exact hn) (by rw [zoneOf_withZone_self])
      (by rw [zoneOf_withZone_self]; exact za) (by rw [zoneOf_withZone_self]; exact ev), pageBegins_withZone]
  · rw [resumeChoice_held (h := x) (by rw [zo]; exact hh) (by rw [zo]; exact heldResumes_of hp)]
    simp only [resumeHeld, onZone_eq, zo, withZone_twice]
    rcases h with ⟨how, notes, room, ph, hn, rfl⟩ | ⟨c, w, ac, lv, src, room, ph, rfl⟩
    · by_cases wk : r.state = .waking
      · have any : ∀ p a, activate z a p (withZone z { r with held := none, active := none } s)
            = activate z a (firstPhase a) (withZone z { r with held := none, active := none } s) := by
          intro p a
          rw [activate_waking _ _ _ _ (by rw [zoneOf_withZone_self]; exact wk),
            activate_waking _ _ _ _ (by rw [zoneOf_withZone_self]; exact wk)]
        refine Eq.trans (congrArg (report z x.entry.page .playing) (any _ _)) ?_
        rw [activate_begins z x.entry x.elapsed notes { r with active := some (.page x.entry x.elapsed), held := none } _
          (by exact ph) (by exact room.of_clc rfl) (by exact hn) (by rw [zoneOf_withZone_self])
          (by rw [zoneOf_withZone_self]; exact za) (by rw [zoneOf_withZone_self]; exact ev), pageBegins_withZone]
      · have rp : resumePhase x (.page x.entry x.elapsed) = firstPhase (.page x.entry x.elapsed) := by
          have how := how.resolve_left wk
          cases cc : x.entry.cls <;> cases pp : x.phase <;> simp_all [resumePhase, firstPhase]
        rw [rp, activate_begins z x.entry x.elapsed notes { r with active := some (.page x.entry x.elapsed), held := none } _
          (by exact ph) (by exact room.of_clc rfl) (by exact hn) (by rw [zoneOf_withZone_self])
          (by rw [zoneOf_withZone_self]; exact za) (by rw [zoneOf_withZone_self]; exact ev), pageBegins_withZone]
    · have rp : resumePhase x (.page x.entry x.elapsed) = .live := by simp [resumePhase, ac, lv]
      rw [rp, activate_resumes z x.entry x.elapsed c { r with active := some (.page x.entry x.elapsed), held := none } _
        (by exact ph) (by exact room.of_clc rfl) (by rw [zoneOf_withZone_self])
        (by rw [zoneOf_withZone_self]; exact za) (by rw [zoneOf_withZone_self]; exact w)
        (by rw [zoneOf_withZone_self]; exact ev) src, liveResumes_withZone]

/-- The pages that `gone` picks leave a zone without reports (R135, R138, R141, R144). -/
theorem removePages_of {gone : PageEntry → Bool} {z : LocalZone} {s t : State} (h : ZoneFreed gone z s t) :
    removePages z gone none s = t := by
  have hf : (if (pickHeld gone (zoneOf s z)).isSome then none else (zoneOf s z).held)
      = (zoneOf s z).held.filter fun h => !gone h.entry := by
    cases hh : (zoneOf s z).held with
    | none => simp [pickHeld, hh]
    | some h => cases hp : gone h.entry <;> simp [pickHeld, hh, hp, Option.filter]
  have start : removePages z gone none s = if (pickActive gone (zoneOf s z)).isSome then leaveActive z (withZone z (withoutPages gone (zoneOf s z)) s)
      else withZone z (withoutPages gone (zoneOf s z)) s := by
    simp only [removePages, onZone_eq, hf]
    rfl
  rw [start]
  rcases h with ⟨none_, rfl⟩ | ⟨e, n, act, ge, h⟩
  · rw [none_]
    rfl
  · have pick : pickActive gone (zoneOf s z) = some e := by simp [pickActive, act, ge]
    rw [pick]
    simp only [Option.isSome_some, if_true]
    exact resumes_of h

/-- A resume choice leaves the evacuation set, every other zone, and what is no zone's. -/
theorem resumes_frame {z : LocalZone} {r : ZoneRec} {s t : State} (h : Resumes z r s t) :
    (zoneOf t z).evac = r.evac ∧ (∀ y, y ≠ z → zoneOf t y = zoneOf s y) ∧ t.ppu = s.ppu ∧ (cutOff s = false → t.deliveries = s.deliveries)
      ∧ t.clc.link = s.clc.link ∧ t.clc.dropRun = s.clc.dropRun := by
  obtain ⟨-, -, h⟩ := h
  rcases h with ⟨hh, hp, rfl⟩ | ⟨x, rest, hp, hh, notes, -, ph, hn, rfl⟩ | ⟨x, hh, hp, h⟩
  · refine ⟨by simp [lastLeaves, levelSet, zoneEnters], fun y hy => ?_, ?_, fun _ => lastLeaves_deliveries .., ?_, ?_⟩
    all_goals simp only [lastLeaves, levelSet, zoneEnters, patternStops]
    · split <;> simp [zoneOf_withZone_ne _ _ hy]
    all_goals split <;> simp [withZone]
  · exact ⟨pageBegins_evac .., fun y hy => pageBegins_others _ _ _ _ _ _ hy, pageBegins_ppu .., fun c => pageBegins_deliveries _ _ _ _ _ c,
      pageBegins_link .., pageBegins_dropRun ..⟩
  · rcases h with ⟨how, notes, -, ph, hn, rfl⟩ | ⟨c, w, ac, lv, src, -, ph, rfl⟩
    · exact ⟨pageBegins_evac .., fun y hy => pageBegins_others _ _ _ _ _ _ hy, pageBegins_ppu .., fun c => pageBegins_deliveries _ _ _ _ _ c,
        pageBegins_link .., pageBegins_dropRun ..⟩
    · exact ⟨liveResumes_evac .., fun y hy => liveResumes_others _ _ _ _ _ _ hy, liveResumes_ppu .., fun c => liveResumes_deliveries _ _ _ _ _ c,
        liveResumes_link .., liveResumes_dropRun ..⟩

/-- Pages that leave a zone leave every evacuation set, and every other zone. -/
theorem zoneFreed_frame {gone : PageEntry → Bool} {z : LocalZone} {s t : State} (h : ZoneFreed gone z s t) :
    (∀ y, (zoneOf t y).evac = (zoneOf s y).evac) ∧ (∀ y, y ≠ z → zoneOf t y = zoneOf s y) ∧ t.ppu = s.ppu
      ∧ (cutOff s = false → t.deliveries = s.deliveries) ∧ t.clc.link = s.clc.link ∧ t.clc.dropRun = s.clc.dropRun := by
  rcases h with ⟨-, rfl⟩ | ⟨e, n, -, -, h⟩
  · refine ⟨fun y => ?_, fun y hy => zoneOf_withZone_ne _ _ hy, rfl, fun _ => rfl, rfl, rfl⟩
    by_cases hy : y = z
    · subst hy; simp [withoutPages]
    · rw [zoneOf_withZone_ne _ _ hy]
  · obtain ⟨ev, o, f⟩ := resumes_frame h
    refine ⟨fun y => ?_, o, f⟩
    by_cases hy : y = z
    · subst hy; rw [ev]; rfl
    · rw [o y hy]

/-- The pages that `gone` picks leave a zone's evacuation set (R138, R139). -/
theorem removeEvac_of {gone : PageId → Bool} {z : LocalZone} {s t : State} (h : EvacuationFreed gone z s t) :
    removeEvac z gone s = t := by
  simp only [EvacuationFreed] at h
  simp only [removeEvac, onZone_eq, zoneOf_withZone_self]
  rcases h with ⟨no, rfl⟩ | ⟨had, left, h⟩
  · rw [if_neg]
    rintro ⟨h₁, h₂⟩
    exact no.elim h₁ fun h => h h₂
  · rw [if_pos ⟨had, left⟩]
    rcases h with ⟨act, rfl⟩ | ⟨act, h⟩
    · rw [if_neg (by simp [evacuating, act]), jumpLevel_eq]
      simp [levelClass, activeClass, act, left]
    · rw [if_pos (by simp [evacuating, act])]
      exact resumes_of h

/-- Pages leave every zone of the part. -/
theorem zonesFreed_of {gone : PageEntry → Bool} {s t : State} (h : Chain (ZoneFreed gone) allZones s t) :
    forEach allZones (fun z s => removePages z gone none s) s = t :=
  forEach_chain (fun _ _ _ _ e => removePages_of e) h

/-- A page ends (R138). -/
theorem zonePageEnd_of {p : PageId} {s t : State} (h : Chain (PageLeaves p) allZones s t) : zonePageEnd p s = t :=
  forEach_chain (fun _ _ _ _ ⟨_, f, e⟩ => by rw [removePages_of f, removeEvac_of e]) h

/-- A page ends that is in no evacuation set of the part (R138). -/
theorem pageLeaves_unset {p : PageId} {s t : State} (ne : ∀ z, p ∉ (zoneOf s z).evac)
    (h : Chain (ZoneFreed fun e => decide (e.page = p)) allZones s t) : Chain (PageLeaves p) allZones s t := by
  have gen : ∀ (l : List LocalZone) (u : State), (∀ z, p ∉ (zoneOf u z).evac) →
      Chain (ZoneFreed fun e => decide (e.page = p)) l u t → Chain (PageLeaves p) l u t := by
    intro l
    induction l with
    | nil => intro u _ h; exact h
    | cons z rest ih =>
      intro u hu ⟨v, hv, h⟩
      have fr := (zoneFreed_frame hv).1
      have hv' : ∀ y, p ∉ (zoneOf v y).evac := fun y => by rw [fr]; exact hu y
      have all : ((zoneOf v z).evac.filter fun x => !decide (x = p)) = (zoneOf v z).evac := by
        rw [List.filter_eq_self]
        intro x hx
        simp only [Bool.not_eq_true', decide_eq_false_iff_not]
        rintro rfl
        exact hv' z hx
      refine ⟨v, ⟨v, hv, Or.inl ?_⟩, ih v hv' h⟩
      simp only [all]
      refine ⟨?_, (withZone_same z _ v rfl).symm⟩
      by_cases e : (zoneOf v z).evac = []
      · exact Or.inl e
      · exact Or.inr e
  exact gen _ _ ne h

/-- A zone is freed of the pages that a seizure takes the channel from (R129). -/
theorem seizeAt_of {b : PageStartBody} {c : Channel} {z : LocalZone} {s t : State} (h : ZoneSeized b.page c z s t) :
    seizeAt b c z s = t := by
  obtain ⟨ph, room, f⟩ := h
  rw [← removePages_of f]
  simp only [seizeAt, removePages, onZone_eq, zoneOf_noticed, withZone_noticed]
  rw [reportAll_room _ _ _ _ (by exact ph) (by exact Room.of_clc (s := s) (by simpa using room) rfl)]
  simp only [List.map_map]
  rfl

/-! ### Pages that wait (R127, R131) -/

/-- A page takes its place in a pending list (R127). -/
theorem placePending_of {front : Bool} {e : PageEntry} {l l' : List PageEntry} (h : Placed front e l l') :
    placePending front e l = l' := by
  obtain ⟨a, b, rfl, rfl, ha, hb⟩ := h
  induction a with
  | nil =>
    cases b with
    | nil => rfl
    | cons x rest =>
      have := hb x (List.mem_cons_self ..)
      show (if _ then _ else _) = _
      rw [if_neg]
      · rfl
      · rintro (h | ⟨h₁, h₂⟩)
        · rcases this with g | ⟨g, -⟩
          · omega
          · rw [g] at h; omega
        · rcases this with g | ⟨-, g⟩
          · omega
          · rw [h₂] at g; cases g
  | cons x rest ih =>
    have := ha x (List.mem_cons_self ..)
    show (if _ then _ else _) = _
    rw [if_pos]
    · exact congrArg (x :: ·) (ih fun y hy => ha y (List.mem_cons_of_mem _ hy))
    · rcases this with g | ⟨g, f⟩
      · exact Or.inl g
      · exact Or.inr ⟨by rw [g], f⟩

/-- A pending list that grows to at most four entries loses none (R127). -/
theorem insertPending_fits {front : Bool} {e : PageEntry} {l l' : List PageEntry} (h : Placed front e l l')
    (n : l'.length ≤ 4) : insertPending front e l = (l', none) := by
  simp only [insertPending, placePending_of h]
  exact if_neg (by unfold pendingCapacity; omega)

/-- A pending list that grows to five entries loses its last (R127). -/
theorem insertPending_full {front : Bool} {e y : PageEntry} {l l' : List PageEntry} (h : Placed front e l l')
    (n : l'.length = 5) (last : l'.getLast? = some y) : insertPending front e l = (l'.take 4, some y) := by
  simp only [insertPending, placePending_of h]
  rw [if_pos (by unfold pendingCapacity; omega)]
  rw [List.getLast?_eq_getElem?, n] at last
  exact congrArg (Prod.mk (l'.take 4)) last

/-- Two reports, or a report and the record of a zone, change places. -/
theorem withZone_zoneReports (z : LocalZone) (r : ZoneRec) (p : PageId) (o : ZoneOutcome) (s : State) :
    withZone z r (zoneReports z p o s) = zoneReports z p o (withZone z r s) :=
  withZone_noticed ..

/-- A page moves from the held place to the pending list (R127, R131). -/
theorem holdToPending_of {z : LocalZone} {e : PageEntry} {l : List PageEntry} {s : State}
    (pl : Placed true e (zoneOf s z).pending l) (ph : s.phase = .running) (room : Room 2 s) :
    let moved := withZone z { zoneOf s z with pending := l.take 4 } s
    (l.length ≤ 4 → holdToPending z e s = zoneReports z e.page .pending moved)
    ∧ ∀ y, l.length = 5 → l.getLast? = some y →
      (y = e → holdToPending z e s = zoneReports z y.page .dropped moved)
      ∧ (y ≠ e → holdToPending z e s = zoneReports z y.page .dropped (zoneReports z e.page .pending moved)) := by
  refine ⟨fun len => ?_, fun y len last => ⟨fun eq => ?_, fun ne => ?_⟩⟩
  · simp only [holdToPending, insertPending_fits pl len, onZone_eq, List.take_of_length_le len]
    exact report_room _ _ _ _ ph (by exact (room.le (by omega)).of_clc rfl)
  · simp only [holdToPending, insertPending_full pl len last, onZone_eq, eq, if_true]
    exact report_room _ _ _ _ ph (by exact (room.le (by omega)).of_clc rfl)
  · simp only [holdToPending, insertPending_full pl len last, onZone_eq, if_neg ne]
    rw [report_room z e.page .pending _ (by exact ph) (by exact (room.le (by omega)).of_clc rfl)]
    exact report_room _ _ _ _ (by simpa [zoneReports] using ph) (by exact Room.noticed (n := 1) (room.of_clc rfl))

/-- The active page of a zone gives way (R131). -/
theorem displaceActive_of {z : LocalZone} {s t : State} (h : Displaced z s t) (ph : s.phase = .running)
    (room : Room 3 s) : displaceActive z s = t := by
  obtain ⟨x, n, act, ⟨rt, rfl⟩ | ⟨nr, nh, rfl⟩ | ⟨h, l, nr, hh, pl, h'⟩⟩ := h
  · simp only [displaceActive, act, rt, if_true]
    exact report_room _ _ _ _ ph (room.le (by omega))
  · simp only [displaceActive, act, if_neg nr, onZone_eq, nh]
    exact report_room _ _ _ _ ph (by exact (room.le (by omega)).of_clc rfl)
  · have start : displaceActive z s = holdToPending z h.entry (zoneReports z x.page .held
        (withZone z { zoneOf s z with held := some ⟨x, (zoneOf s z).state, n⟩ } s)) := by
      simp only [displaceActive, act, if_neg nr, onZone_eq, hh]
      rw [report_room _ _ _ _ (by exact ph) (by exact (room.le (by omega)).of_clc rfl)]
    rw [start]
    clear start
    have moves := holdToPending_of (z := z) (e := h.entry) (l := l) (s := zoneReports z x.page .held
        (withZone z { zoneOf s z with held := some ⟨x, (zoneOf s z).state, n⟩ } s))
      (by simpa [zoneReports] using pl) (by simpa [zoneReports] using ph) (by exact Room.noticed (n := 2) (room.of_clc rfl))
    have moved : ∀ k, withZone z { zoneOf (zoneReports z x.page .held
          (withZone z { zoneOf s z with held := some ⟨x, (zoneOf s z).state, n⟩ } s)) z with pending := k }
        (zoneReports z x.page .held (withZone z { zoneOf s z with held := some ⟨x, (zoneOf s z).state, n⟩ } s))
        = zoneReports z x.page .held (withZone z
          { zoneOf s z with held := some ⟨x, (zoneOf s z).state, n⟩, pending := k } s) := by
      intro k
      rw [show ∀ u, zoneOf (zoneReports z x.page .held u) z = zoneOf u z from fun _ => zoneOf_noticed .., zoneOf_withZone_self,
        withZone_zoneReports, withZone_twice]
    simp only [moved] at moves
    rcases h' with ⟨len, rfl⟩ | ⟨y, len, last, ⟨eq, rfl⟩ | ⟨ne, rfl⟩⟩
    · exact moves.1 len
    · exact (moves.2 y len last).1 eq
    · exact (moves.2 y len last).2 ne

/-- What gives way in a zone leaves what the zone is, and what it takes up. -/
theorem displaced_frame {z : LocalZone} {s t : State} (h : Displaced z s t) :
    (zoneOf t z).state = (zoneOf s z).state ∧ (zoneOf t z).evac = (zoneOf s z).evac ∧ (zoneOf t z).cfg = (zoneOf s z).cfg
      ∧ t.phase = s.phase ∧ t.clc.link = s.clc.link ∧ t.clc.dropRun = s.clc.dropRun ∧ (Room 4 s → Room 1 t) ∧ t.ts = s.ts
      ∧ (cutOff s = false → t.deliveries = s.deliveries) ∧ own t = own s ∧ ∀ y, y ≠ z → zoneOf t y = zoneOf s y := by
  obtain ⟨x, n, act, ⟨rt, rfl⟩ | ⟨nr, nh, rfl⟩ | ⟨h, l, nr, hh, pl, ⟨len, rfl⟩ | ⟨y, len, last, ⟨eq, rfl⟩ | ⟨ne, rfl⟩⟩⟩⟩ := h
  all_goals
    refine ⟨?_, ?_, ?_, ?_, ?_, ?_, fun room => ?_, ?_, fun c => ?_, ?_, fun y hy => ?_⟩
    case refine_9 =>
      simp only [zoneReports, noticed_twice]
      exact noticed_deliveries _ _ c
    case refine_7 =>
      simp only [zoneReports, noticed_twice]
      exact Room.noticed ((room.le (by simp)).of_clc rfl)
    all_goals simp [zoneReports]
    all_goals simp [zoneOf_withZone_ne _ _ hy]

/-! ### Pages and the evacuation that take a zone (R130, R131, R133, R139) -/

/-- A page becomes active in a zone that plays (R133). -/
theorem activate_plays (z : LocalZone) (x : PageEntry) (n : Nat) (notes : Table 8 Nat) (s : State)
    (ph : s.phase = .running) (room : Room 1 s) (hn : s.ts.notes = some notes)
    (ok : (zoneOf s z).state ≠ .fault ∧ (zoneOf s z).state ≠ .outOfService) (he : (zoneOf s z).evac = []) :
    report z x.page .playing (activate z (.page x n) (firstPhase (.page x n)) s)
      = pagePlays z { zoneOf s z with active := some (.page x n) } x notes s := by
  have lc : ∀ st, levelClass { zoneOf s z with active := some (.page x n), state := st } = some x.cls :=
    fun st => levelClass_page _ x n he rfl
  simp only [pagePlays]
  by_cases w : (zoneOf s z).state = .released ∧ 0 < (zoneOf s z).cfg.wake
  · rw [if_pos w, activate_waits _ _ _ _ w.1 (by omega), lc]
    refine report_room _ _ _ _ ?_ (room.of_clc ?_)
    · simpa [levelSet, zoneEnters] using ph
    · simp [levelSet, zoneEnters]
  · rw [if_neg w]
    by_cases za : zoneActive (zoneOf s z).state = true
    · exact activate_begins z x n notes _ s ph room hn rfl za he
    · obtain ⟨i, t, rest, h1, h2, h3, _⟩ := firstSound_spec notes x n
      rw [activate_enters z _ _ notes i s hn t rest h1 h3, lc]
      · have nw : (zoneOf s z).state ≠ .waking := by
          intro e
          rw [e] at za
          exact za rfl
        simp only [pageBegins, if_neg nw, h2]
        refine report_room _ _ _ _ ?_ (room.of_clc ?_)
        · simpa [levelSet, patternStarts, zoneEnters] using ph
        · simp [levelSet, patternStarts, zoneEnters]
      · cases hs : (zoneOf s z).state <;> simp_all [zoneActive]

/-- The evacuation becomes active in a zone (R133, R139). -/
theorem activate_evacuates (z : LocalZone) (notes : Table 8 Nat) (s : State) (hn : s.ts.notes = some notes)
    (ok : (zoneOf s z).state ≠ .fault ∧ (zoneOf s z).state ≠ .outOfService) (he : (zoneOf s z).evac ≠ []) :
    raise .evacActive (numberOf s z).val .zc (activate z .evacuation .tone s)
      = evacuationStarts z { zoneOf s z with active := some .evacuation } notes s := by
  have lc : ∀ st, levelClass { zoneOf s z with active := some .evacuation, state := st } = some .evac := by
    intro st
    simp [levelClass, he]
  have fl : ∀ p a, targetOf p a (some .evac) = p.floor := by
    intro p a
    simp [targetOf]
  simp only [evacuationStarts]
  congr 1
  by_cases wk : (zoneOf s z).state = .waking
  · rw [if_pos wk, activate_waking _ _ _ _ wk, show levelClass _ = some PageClass.evac from lc _, fl]
  · rw [if_neg wk]
    by_cases w : (zoneOf s z).state = .released ∧ 0 < (zoneOf s z).cfg.wake
    · rw [if_pos w, activate_waits _ _ _ _ w.1 (by omega), lc, fl]
    · rw [if_neg w, activate_enters z _ _ notes 6 s hn _ _ rfl rfl, lc, fl]
      · rfl
      · cases hs : (zoneOf s z).state <;> simp_all

end Sys2Proof.Machine
end

