-- ==== Sys2Proof/Laws/Acceptance.lean ====
section
/-! SUPPORT. What a zone makes of a page that reaches it, said once: the decision (R130 to R132, R139), and the part's own PAGE-START at its
zones (R128, R129). -/

namespace Sys2Proof.Machine

/-! ### What a page that plays, and the evacuation, leave as they are -/

/-- On the link a page that plays delivers nothing. -/
theorem pagePlays_deliveries (z r e n) (s : State) (h : cutOff s = false) : (pagePlays z r e n s).deliveries = s.deliveries := by
  unfold pagePlays
  split
  · exact noticed_deliveries _ _ h
  · exact pageBegins_deliveries _ _ _ _ _ h

theorem pagePlays_others (z r e n) (s : State) (y) (h : y ≠ z) : zoneOf (pagePlays z r e n s) y = zoneOf s y := by
  unfold pagePlays
  split
  · simp [zoneReports, levelSet, zoneEnters, zoneOf_withZone_ne _ _ h]
  · exact pageBegins_others _ _ _ _ _ _ h

theorem pagePlays_link (z r e n) (s : State) :
    (pagePlays z r e n s).clc.link = s.clc.link ∧ (pagePlays z r e n s).clc.dropRun = s.clc.dropRun := by
  unfold pagePlays
  split
  · simp [zoneReports, levelSet, zoneEnters]
  · exact ⟨pageBegins_link .., pageBegins_dropRun ..⟩

theorem evacuationStarts_deliveries (z r n) (s : State) : (evacuationStarts z r n s).deliveries = s.deliveries := by
  unfold evacuationStarts
  split
  · simp [raise, levelSet]
  · split <;> simp [raise, levelSet, zoneEnters, patternStarts]

theorem evacuationStarts_others (z r n) (s : State) (y) (h : y ≠ z) :
    zoneOf (evacuationStarts z r n s) y = zoneOf s y := by
  unfold evacuationStarts
  rw [show ∀ v c a o, zoneOf (raise c a o v) y = zoneOf v y from fun _ _ _ _ => rfl]
  split
  · simp [levelSet, zoneOf_withZone_ne _ _ h]
  · split <;> simp [levelSet, zoneEnters, patternStarts, zoneOf_withZone_ne _ _ h]

theorem evacuationStarts_clc (z r n) (s : State) :
    (evacuationStarts z r n s).phase = s.phase ∧ (evacuationStarts z r n s).clc = s.clc := by
  unfold evacuationStarts
  split
  · simp [raise, levelSet]
  · split <;> simp [raise, levelSet, zoneEnters, patternStarts]

/-- The evacuation does not read the record that stood in its zone. -/
theorem evacuationStarts_withZone (z r q n) (s : State) : evacuationStarts z r n (withZone z q s) = evacuationStarts z r n s := by
  unfold evacuationStarts
  simp only [zoneEnters, withZone_twice, seqOf_withZone]
  congr 1

theorem displaceActive_none (z : LocalZone) (s : State) (h : (zoneOf s z).active = none) : displaceActive z s = s := by
  simp [displaceActive, h]

/-! ### The decision of one zone (R130 to R132, R139) -/

/-- The evacuation starts in a zone whose set was empty, once the active page has given way, and before the report (R131, R139). -/
theorem evacAccept_starts (z : LocalZone) (p : PageId) (notes : Table 8 Nat) (s u : State) (empty : (zoneOf s z).evac = [])
    (give : displaceActive z s = u) (hn : u.ts.notes = some notes)
    (ok : (zoneOf u z).state ≠ .fault ∧ (zoneOf u z).state ≠ .outOfService) (he : (zoneOf u z).evac = []) :
    evacAccept z p s = report z p .playing
      (evacuationStarts z { zoneOf u z with active := some .evacuation, evac := [p] } notes u) := by
  simp only [evacAccept, if_pos empty, give, onZone_eq, he]
  rw [show joinEvac p [] = [p] from rfl]
  have a := activate_evacuates z notes (withZone z { zoneOf u z with evac := [p] } u) hn (by simpa using ok) (by simp)
  have clc : (activate z .evacuation .tone (withZone z { zoneOf u z with evac := [p] } u)).clc = u.clc := by
    have := (congrArg (fun v : State => v.clc) a).trans (evacuationStarts_clc _ _ _ _).2
    simpa [raise] using this
  have number : numberOf (activate z .evacuation .tone (withZone z { zoneOf u z with evac := [p] } u)) z
      = numberOf (withZone z { zoneOf u z with evac := [p] } u) z := by
    simp only [numberOf, own, clc]
    rfl
  rw [number, a, zoneOf_withZone_self, evacuationStarts_withZone]

/-- An EVAC page reaches a FAULT zone (R139, R165). -/
theorem evacInFault_eq (z : LocalZone) (p : PageId) (s : State) (ph : s.phase = .running) (room : Room 1 s) :
    let joined := withZone z { zoneOf s z with
      evac := if (zoneOf s z).evac.any (fun x => decide (x.cab = p.cab)) then (zoneOf s z).evac else (zoneOf s z).evac ++ [p] } s
    evacInFault z p s = zoneReports z p .fault (if (zoneOf s z).evac = [] then
      levelSet z (zoneOf s z).cfg.level.floor (raise .evacActive (numberOf s z).val .zc joined) else joined) := by
  have jump : ∀ (r : ZoneRec), r.evac ≠ [] → jumpLevel z (raise .evacActive (numberOf s z).val .zc (withZone z r s))
      = levelSet z r.cfg.level.floor (raise .evacActive (numberOf s z).val .zc (withZone z r s)) := by
    intro r hr
    rw [jumpLevel_eq, show zoneOf (raise .evacActive (numberOf s z).val .zc (withZone z r s)) z = r from zoneOf_withZone_self ..]
    simp [levelClass, hr, targetOf]
  simp only [evacInFault, onZone_eq, joinEvac]
  by_cases e : (zoneOf s z).evac = []
  · rw [if_pos e, if_pos e]
    rw [show numberOf (withZone z _ s) z = numberOf s z from rfl, jump _ (by simp [e])]
    exact report_room _ _ _ _ (by exact ph) (by exact room.of_clc rfl)
  · rw [if_neg e, if_neg e]
    exact report_room _ _ _ _ (by exact ph) (by exact room.of_clc rfl)

/-- A page waits in its order, with the report that its place brings (R127, R132). -/
theorem arriveToPending_of {z : LocalZone} {e : PageEntry} {l : List PageEntry} {s t : State}
    (pl : Placed false e (zoneOf s z).pending l) (ph : s.phase = .running) (room : Room 2 s)
    (h : let waits := withZone z { zoneOf s z with pending := l.take 4 } s
      (l.length ≤ 4 ∧ t = zoneReports z e.page .pending waits)
      ∨ ∃ y, l.length = 5 ∧ l.getLast? = some y ∧
        ((y = e ∧ t = zoneReports z e.page .full waits)
        ∨ (y ≠ e ∧ t = zoneReports z e.page .pending (zoneReports z y.page .dropped waits)))) :
    arriveToPending z e s = t := by
  have rp : ∀ (p o), report z p o (withZone z { zoneOf s z with pending := l.take 4 } s)
      = zoneReports z p o (withZone z { zoneOf s z with pending := l.take 4 } s) :=
    fun p o => report_room _ _ _ _ (by exact ph) (by exact (room.le (by omega)).of_clc rfl)
  rcases h with ⟨len, rfl⟩ | ⟨y, len, last, ⟨eq, rfl⟩ | ⟨ne, rfl⟩⟩
  · simp only [arriveToPending, insertPending_fits pl len, onZone_eq]
    rw [List.take_of_length_le len] at rp ⊢
    exact rp _ _
  · simp only [arriveToPending, insertPending_full pl len last, onZone_eq, eq, if_true]
    exact rp _ _
  · simp only [arriveToPending, insertPending_full pl len last, onZone_eq, if_neg ne]
    rw [rp]
    exact report_room _ _ _ _ (by simpa [zoneReports] using ph) (by exact Room.noticed (n := 1) (room.of_clc rfl))

/-- A zone decides a page that it does not hold (R130 to R132, R139). -/
theorem accept_of {z : LocalZone} {e : PageEntry} {override : Bool} {s t : State} (h : PageDecided z e override s t) :
    accept z e override s = t := by
  simp only [PageDecided] at h
  obtain ⟨room, ph, h⟩ := h
  have rp : ∀ o, report z e.page o s = zoneReports z e.page o s := fun o => report_room _ _ _ _ ph (room.le (by omega))
  unfold accept
  rcases h with ⟨st, rfl⟩ | ⟨st, ev, rfl⟩ | ⟨nf, no, locked, rfl⟩ | ⟨⟨nf, no, nl⟩, ev, ne, rfl⟩ | ⟨⟨nf, no, nl⟩, empty, notes, u, hn, hu, rfl⟩
    | ⟨⟨nf, no, nl⟩, cls, against, rfl⟩ | ⟨⟨nf, no, nl⟩, cls, against, l, pl, h⟩
  · by_cases o : (zoneOf s z).state = .outOfService
    · rw [if_pos o, rp]
    · have f := st.resolve_left o
      rw [if_neg o, if_pos f.1, if_neg f.2, rp]
  · rw [if_neg (by rw [st]; simp), if_pos st, if_pos ev]
    exact evacInFault_eq z e.page s ph (room.le (by omega))
  · rw [if_neg no, if_neg nf, if_pos locked, rp]
  · rw [if_neg no, if_neg nf, if_neg nl, if_pos ev]
    simp only [evacAccept, if_neg ne, onZone_eq, joinEvac]
    exact report_room _ _ _ _ (by exact ph) (by exact (room.le (by omega)).of_clc rfl)
  · rw [if_neg no, if_neg nf, if_neg nl]
    have kept : displaceActive z s = u ∧ (zoneOf u z).state = (zoneOf s z).state ∧ (zoneOf u z).evac = [] ∧ u.phase = .running
        ∧ Room 1 u ∧ u.ts = s.ts := by
      rcases hu with ⟨an, rfl⟩ | ⟨-, d⟩
      · exact ⟨displaceActive_none _ _ an, rfl, empty, ph, room.le (by omega), rfl⟩
      · have f := displaced_frame d
        exact ⟨displaceActive_of d ph (room.le (by omega)), f.1, f.2.1.trans empty, f.2.2.2.1.trans ph,
          f.2.2.2.2.2.2.1 room, f.2.2.2.2.2.2.2.1⟩
    obtain ⟨give, st, ev, phu, rmu, tsu⟩ := kept
    have ok : (zoneOf u z).state ≠ .fault ∧ (zoneOf u z).state ≠ .outOfService := by rw [st]; exact ⟨nf, no⟩
    by_cases he : e.cls = .evac
    · rw [if_pos he, if_pos he, evacAccept_starts z e.page notes s u empty give (by rw [tsu]; exact hn) ok ev]
      exact report_room _ _ _ _ ((evacuationStarts_clc _ _ _ _).1.trans phu) (rmu.of_clc (evacuationStarts_clc _ _ _ _).2)
    · rw [if_neg he, if_neg he]
      have fin := activate_plays z e 0 notes u phu rmu (by rw [tsu]; exact hn) ok ev
      rcases hu with ⟨an, rfl⟩ | ⟨⟨x, n, ax, lt⟩, -⟩
      · simp only [an, activeClass, acceptPlaying]
        exact fin
      · simp only [ax, activeClass, acceptAgainst]
        rw [if_pos lt, give]
        exact fin
  · rw [if_neg no, if_neg nf, if_neg nl, if_neg (by rw [cls]; simp)]
    rcases against with ha | ⟨x, n, ha, le⟩
    · simp only [ha, activeClass, acceptAgainst]
      rw [if_neg (by rw [cls]; decide), if_pos cls, rp]
    · simp only [ha, activeClass, acceptAgainst]
      rw [if_neg (by omega), if_pos cls, rp]
  · have ne : e.cls ≠ .evac := by rcases cls with h | h <;> rw [h] <;> simp
    have nr : e.cls ≠ .routine := by rcases cls with h | h <;> rw [h] <;> simp
    rw [if_neg no, if_neg nf, if_neg nl, if_neg ne]
    have fin := arriveToPending_of pl ph (room.le (by omega)) h
    rcases against with ha | ⟨x, n, ha, le⟩
    · simp only [ha, activeClass, acceptAgainst]
      rw [if_neg (by rcases cls with h | h <;> rw [h] <;> decide), if_neg nr]
      exact fin
    · simp only [ha, activeClass, acceptAgainst]
      rw [if_neg (by omega), if_neg nr]
      exact fin

/-- What a decision leaves of the link and the drop run. -/
theorem pageDecided_link {z : LocalZone} {e : PageEntry} {override : Bool} {s t : State} (h : PageDecided z e override s t) :
    t.clc.link = s.clc.link ∧ t.clc.dropRun = s.clc.dropRun := by
  simp only [PageDecided] at h
  obtain ⟨-, -, h⟩ := h
  rcases h with ⟨-, rfl⟩ | ⟨-, -, rfl⟩ | ⟨-, -, -, rfl⟩ | ⟨-, -, -, rfl⟩ | ⟨-, -, notes, u, -, hu, rfl⟩
    | ⟨-, -, -, rfl⟩ | ⟨-, -, -, l, -, ⟨-, rfl⟩ | ⟨y, -, -, ⟨-, rfl⟩ | ⟨-, rfl⟩⟩⟩
  case inr.inr.inr.inr.inl =>
    have keep : u.clc.link = s.clc.link ∧ u.clc.dropRun = s.clc.dropRun := by
      rcases hu with ⟨-, rfl⟩ | ⟨-, d⟩
      · exact ⟨rfl, rfl⟩
      · have f := displaced_frame d
        exact ⟨f.2.2.2.2.1, f.2.2.2.2.2.1⟩
    rw [← keep.1, ← keep.2]
    split
    · have := (evacuationStarts_clc z { zoneOf u z with active := some .evacuation, evac := [e.page] } notes u).2
      simp [zoneReports, this]
    · exact pagePlays_link ..
  case inr.inl => split <;> simp [zoneReports, levelSet]
  all_goals simp [zoneReports]

/-! ### The part's own PAGE-START (R128, R129) -/

/-- A PAGE-START at one zone in the acceptance pass (R128). -/
theorem acceptAt_of {b : PageStartBody} {z : LocalZone} {s t : State} (h : PageMeets b z s t) : acceptAt b z s = t := by
  rcases h with ⟨out, rfl⟩ | ⟨tgt, free, h⟩
  · simp only [acceptAt]
    rw [if_neg]
    rcases out with h | h <;> simp [h]
  · simp only [acceptAt, tgt, free, Bool.not_false, Bool.and_self, if_true]
    exact accept_of h

/-- What a PAGE-START at one zone leaves of the link and the drop run. -/
theorem pageMeets_link {b : PageStartBody} {z : LocalZone} {s t : State} (h : PageMeets b z s t) :
    t.clc.link = s.clc.link ∧ t.clc.dropRun = s.clc.dropRun := by
  rcases h with ⟨-, rfl⟩ | ⟨-, -, h⟩
  · exact ⟨rfl, rfl⟩
  · exact pageDecided_link h

/-- What a seizure at one zone leaves of the link and the drop run. -/
theorem zoneSeized_link {p : PageId} {c : Channel} {z : LocalZone} {s t : State} (h : ZoneSeized p c z s t) :
    t.clc.link = s.clc.link ∧ t.clc.dropRun = s.clc.dropRun := by
  have f := (zoneFreed_frame h.2.2).2.2.2.2
  simpa using f

/-- The part's own PAGE-START at its zones (R128, R129). -/
theorem zonePageStart_of {b : PageStartBody} {s t : State} (h : ZonesTake b s t) : zonePageStart b s = t := by
  rcases h with ⟨ns, out, rfl⟩ | ⟨ph, rt, cd, u, hu, h⟩
  · exact zonePageStart_outside b t out ns
  · have lacks : lacksNeeded b = false := by
      simp only [lacksNeeded, Bool.or_eq_false_iff, Bool.and_eq_false_iff, decide_eq_false_iff_not, Option.isNone_eq_false_iff,
        Option.isSome_iff_ne_none]
      exact ⟨Classical.or_iff_not_imp_left.mpr fun h => rt (Classical.not_not.mp h),
        Classical.or_iff_not_imp_left.mpr fun h => cd (Classical.not_not.mp h)⟩
    simp only [zonePageStart, ph, takesClass, lacks, Bool.not_false, Bool.and_self, if_true]
    have pass : ∀ v, v = u → forEach allZones (acceptAt b) v = t := by
      rintro v rfl
      exact forEach_chain (fun _ _ _ _ h => acceptAt_of h) h
    cases hs : b.seize with
    | false =>
      simp only [hs] at hu
      exact pass _ hu.symm
    | true =>
      cases hc : b.channel with
      | none =>
        simp only [hs, hc] at hu
        exact pass _ hu.symm
      | some c =>
        simp only [hs, hc] at hu
        exact pass _ (forEach_chain (fun _ _ _ _ h => seizeAt_of h) hu)

/-- What the part's own PAGE-START at its zones leaves of the link and the drop run. -/
theorem zonesTake_link {b : PageStartBody} {s t : State} (h : ZonesTake b s t) :
    t.clc.link = s.clc.link ∧ t.clc.dropRun = s.clc.dropRun := by
  rcases h with ⟨-, -, rfl⟩ | ⟨-, -, -, u, hu, h⟩
  · exact ⟨rfl, rfl⟩
  · have a₁ := Chain.keeps (fun v : State => v.clc.link) (fun _ _ _ _ h => (pageMeets_link h).1) h
    have a₂ := Chain.keeps (fun v : State => v.clc.dropRun) (fun _ _ _ _ h => (pageMeets_link h).2) h
    have b₁ : u.clc.link = s.clc.link ∧ u.clc.dropRun = s.clc.dropRun := by
      split at hu
      · exact ⟨Chain.keeps (fun v : State => v.clc.link) (fun _ _ _ _ h => (zoneSeized_link h).1) hu,
          Chain.keeps (fun v : State => v.clc.dropRun) (fun _ _ _ _ h => (zoneSeized_link h).2) hu⟩
      · rw [hu]
        exact ⟨rfl, rfl⟩
    exact ⟨a₁.trans b₁.1, a₂.trans b₁.2⟩

end Sys2Proof.Machine
end

