-- ==== Sys2Proof/Laws/Status.lean ====
section
/-! SUPPORT. What a STATUS does at the peer table, the channel view and the zones, said once. -/

namespace Sys2Proof.Machine

/-- Two channel views that agree everywhere. -/
theorem view_congr (s : State) (v w : Table 4 (Option ChannelHold)) (h : ∀ i, v.get i = w.get i)
    : ({ s with pgo := { s.pgo with view := v } } : State) = { s with pgo := { s.pgo with view := w } } := by
  rw [Table.ext_get h]

/-- A STATUS of a known peer at the CLC, before the PGO and the ZC take it (R19, R21). -/
theorem heardStatus_known (src : Cabinet) (b : RawStatus) (f e t) (s : State) (link : s.clc.link = .running)
    (k : Known src s) (h1 : codeLinkField b.link = some f) (h2 : codeEvacuation b = some e)
    (h3 : codeChannels b = some t) :
   hear src true (heardStatus src b) (fresh s) = zoneStatus src
       (pgoStatus src ((if asksStatus f then queueStatus .running else id)
       (withOutputs [.acknowledge true]
       (withPeer src { state := .present, age := 0, evac := e, channels := t } s)))) := by
  rw [hear_fresh src true _ s link k]
  have m : recordChannels src b (recordEvacuation src b (withOutputs [.acknowledge true] (heardFrom src s))) =
      withOutputs [.acknowledge true] (withPeer src { state := .present, age := 0, evac := e, channels := t } s) := by
    obtain ⟨ne, pr⟩ := k
    simp only [peerOf] at pr
    simp only [recordChannels, recordEvacuation, h2, h3, withCode, modPeer, onClc, heardFrom, withPeer, withOutputs,
        Table.modify, Table.get_set_self, Table.set_set, peerOf, pr]
  simp only [heardStatus, h2, h3, withCode, answerStatus, h1, m]
  have l : (withOutputs [.acknowledge true]
      (withPeer src { state := .present, age := 0, evac := e, channels := t } s)).clc.link = .running := link
  simp only [l, decide_true, Bool.and_true]
  congr 2
  split <;> rfl

/-- Channels that no page of the part stands on are entered one by one (R108). -/
theorem channelSeen_all (s : State) (t : Table 4 (Option ChannelHold))
    (h : ∀ c, (t.get c).isSome = true → channelRecord s c = none) (l : List Channel) (nd : l.Nodup) :
   forEach l (fun c s => match t.get c with
    | some h => channelSeen c h s
    | none => s) s = { s with pgo := { s.pgo with view := Table.build 4 fun c => if c ∈ l then (match t.get c with
          | some h => some h
          | none => s.pgo.view.get c) else s.pgo.view.get c } } := by
  induction l generalizing s with
  | nil =>
    have : (Table.build 4 fun c => s.pgo.view.get c) = s.pgo.view := by apply Table.ext_get; intro i; simp
    simp [forEach, this]
  | cons a r ih =>
    rw [forEach]
    have nd' := List.nodup_cons.mp nd
    cases ht : t.get a with
    | none =>
      simp only
      rw [ih s h nd'.2]
      apply view_congr
      intro i
      simp only [Table.get_build, List.mem_cons]
      by_cases hi : i = a
      · subst hi; simp [ht]
      · simp [hi]
    | some x =>
      simp only
      have cr : channelRecord s a = none := h a (by simp [ht])
      rw [show channelSeen a x s = setView a (some x) s by simp only [channelSeen, cr]]
      rw [ih (setView a (some x) s) (fun c hc => h c hc) nd'.2]
      have : (setView a (some x) s) = { s with pgo := { s.pgo with view := s.pgo.view.set a (some x) } } := rfl
      rw [this]
      simp only
      apply view_congr
      intro i
      simp only [Table.get_build, List.mem_cons]
      by_cases hi : i = a
      · subst hi; simp [ht, nd'.1, Table.get_set_self]
      · simp [hi, Table.get_set_ne _ _ hi]

/-- A STATUS at the PGO, where no page of the part stands on what it lists (R108). -/
theorem pgoStatus_free (s : State) (p : Cabinet) (t : Table 4 (Option ChannelHold))
    (ht : (s.clc.peers.get p).channels = t) (h : ∀ c, (t.get c).isSome = true → channelRecord s c = none) :
   pgoStatus p s = { s with pgo := { s.pgo with view := Table.build 4 fun c => match t.get c with
          | some h => some h
          | none => (s.pgo.view.get c).filter fun x => !decide (x.page.cab = p) } } := by
  simp only [pgoStatus, ht]
  refine (congrArg _ (channelSeen_all s t h allChannels (by decide))).trans ?_
  simp only [onPgo]
  congr 2
  apply Table.ext_get
  intro i
  simp only [Table.get_build]
  have : i ∈ allChannels := by simp [allChannels]
  simp only [this, if_true]
  cases hh : t.get i with
  | some x => simp
  | none =>
    simp only
    cases s.pgo.view.get i with
    | none => rfl
    | some x => by_cases q : x.page.cab = p <;> simp [q, Option.filter]

/-- What a STATUS leaves before the ZC takes it (R19, R21, R108). -/
theorem heardStatus_taken {src b f e t s} (h : StatusHeard src b f e t s) :
   hear src true (heardStatus src b) (fresh s) = zoneStatus src
       (withOutputs [.acknowledge true] (statusTaken src f e t s)) := by
  obtain ⟨⟨⟨r, d⟩, link, room⟩, k, ns, h1, h2, h3, cr⟩ := h
  rw [heardStatus_known src b f e t s link k h1 h2 h3]
  congr 1
  have qs : (if asksStatus f = true then queueStatus .running else id)
      (withOutputs [.acknowledge true] (withPeer src { state := .present, age := 0, evac := e, channels := t } s))
     = withQueued (if f = .running then [] else [.status .running (assembleStatus s)])
         (withOutputs [.acknowledge true]
         (withPeer src { state := .present, age := 0, evac := e, channels := t } s)) := by
    have qn : ∀ v : State, v.clc.link = .running → v.clc.queue = s.clc.queue → own v = own s → assembleStatus v =
        assembleStatus s → queueStatus .running v = withQueued [.status .running (assembleStatus s)] v := by
      intro v l q o a
      simp only [queueStatus]
      rw [queueNotice_room, a]
      · left; exact l
      · have : s.clc.queue.any (fun e => isStatus e.notice) = false := by
          rw [List.any_eq_false]; intro x hx; simp [ns x hx]
        simp only [sameHousekeepingQueued, q, this]
        rfl
      · rw [q]; omega
    cases f
    · show withOutputs [.acknowledge true] (withPeer src { state := .present, age := 0, evac := e, channels := t } s) =
        withQueued [] _
      exact (withQueued_nil _).symm
    · exact qn _ link rfl rfl rfl
    · exact qn _ link rfl rfl rfl
  rw [qs]
  refine (pgoStatus_free (withQueued (if f = .running then [] else [.status .running (assembleStatus s)])
      (withOutputs [.acknowledge true] (withPeer src { state := .present, age := 0, evac := e, channels := t } s))) src
      t ?_ cr).trans ?_
  · simp [withQueued, withOutputs, withPeer]
  · rfl

/-- A STATUS at the ZC, where one zone alone changes (R140). -/
theorem zoneStatus_at {p : Cabinet} {z : LocalZone} {u t : State} (e : Option PageId)
    (he : (u.clc.peers.get p).evac = e)
   (others : ∀ y, y ≠ z → (zoneOf u y).evac.any (fun q => decide (q.cab = p)) = e.isSome)
       (tn : ∀ y, y ≠ z → zoneOf t y = zoneOf u y)
   (hs : ∀ q, e = some q → (zoneOf u z).evac.any (fun x => decide (x.cab = p)) = false ∧ acceptAt
       ⟨q, .evac, .all, none, false, false, none⟩ z u = t)
   (hn : e = none → removeEvac z (fun x => decide (x.cab = p)) u = t) : zoneStatus p u = t := by
  unfold zoneStatus
  rw [he]
  cases e with
  | some q =>
    simp only
    obtain ⟨h1, h2⟩ := hs q rfl
    rw [forEach_oneZone z]
    · rw [h1, if_neg (by simp)]; exact h2
    · intro m hm
      rw [others m hm]; rfl
    · intro m hm
      simp only [h1, Bool.false_eq_true, if_false, h2]
      rw [tn m hm, others m hm]; rfl
  | none =>
    simp only
    have other : ∀ y, y ≠ z → ∀ v : State, zoneOf v y = zoneOf u y → removeEvac y (fun x => decide (x.cab = p)) v =
        v := by
      intro y hy v hv
      apply removeEvac_none
      intro x hx
      rw [hv] at hx
      have := others y hy
      rw [Option.isSome_none, List.any_eq_false] at this
      simpa using this x hx
    rw [forEach_oneZone z]
    · exact hn rfl
    · intro m hm; exact other m hm u rfl
    · intro m hm; rw [hn rfl]; exact other m hm t (tn m hm)

end Sys2Proof.Machine
end

