-- ==== Sys2Proof/Laws/Channels.lean ====
section
/-! SUPPORT. Pages that meet on a channel (R108 to R111), said once: what a command that names a channel does, and the
    page that
chooses again. -/

namespace Sys2Proof.Machine

/-- The lowest channel of a kind. -/
theorem allChannels_find (p : Channel → Bool) (d : Channel) (h : p d = true) (lo : ∀ m, m < d → p m = false)
    : allChannels.find? p = some d := by
  have e : allChannels = [0, 1, 2, 3] := by decide
  rw [e]
  match d, h, lo with
  | 0, h, lo => simp [List.find?, h]
  | 1, h, lo => simp [List.find?, h, lo 0 (by decide)]
  | 2, h, lo => simp [List.find?, h, lo 0 (by decide), lo 1 (by decide)]
  | 3, h, lo => simp [List.find?, h, lo 0 (by decide), lo 1 (by decide), lo 2 (by decide)]

/-- A notice that is not in an attempt is replaced at once (R9). -/
theorem replaceNotice_free (p : Notice → Bool) (n : Notice) (s : State)
    (h : ∀ e ∈ s.clc.queue, p e.notice = true → e.inAttempt = false) : replaceNotice p n s = withReplaced p n s := by
  have : replaceIn p n s.clc.queue = s.clc.queue.map fun e => if p e.notice then { e with notice := n } else e := by
    unfold replaceIn
    apply List.map_congr_left
    intro e he
    by_cases hp : p e.notice = true
    · simp [hp, h e he hp]
    · simp [hp]
  simp only [replaceNotice, onClc, this]
  rfl

/-- One record of the page table becomes another. -/
theorem pages_map_at {r x : PageRec} {before after : List PageRec} (n : ∀ y ∈ before ++ after, y.seq ≠ r.seq)
    : ((before ++ r :: after).map fun y => if y.seq = r.seq then x else y) = before ++ x :: after := by
  have hm : ∀ l : List PageRec, (∀ y ∈ l, y.seq ≠ r.seq) → (l.map fun y => if y.seq = r.seq then x else y) = l := by
    intro l hl
    conv => rhs; rw [← List.map_id l]
    apply List.map_congr_left
    intro y hy
    simp [hl y hy]
  rw [List.map_append, List.map_cons, if_pos rfl, hm before (fun y hy => n y (by simp [hy])), hm after
      (fun y hy => n y (by simp [hy]))]

/-- A CLAIMING page takes a channel again, the table being written as a map (R110). -/
theorem repick_map {r : PageRec} {pages : List PageRec} {s v : State} {l : Line} {d : Channel} {seize : Bool}
    {o : Cabinet} (so : own s = o) (no : r.origin = .line l)
  (ch : chooseChannel s.pgo.view r.cls = some (d, seize)) (es : (if seize then endSeized d s else s) = v)
      (pp : v.pgo.pages = pages) (mem : r ∈ pages) (uni : ∀ y ∈ pages, y.seq = r.seq → y = r) (ow : own v = o)
  (h : ∀ e ∈ v.clc.queue, isStartOf ⟨o, r.seq⟩ e.notice = true → e.inAttempt = false) :
  repick r s = withReplaced (isStartOf ⟨o, r.seq⟩)
      (.pageStart ⟨⟨o, r.seq⟩, r.cls, r.target, some d, seize, r.override, none⟩)
        (withView d (some ⟨⟨o, r.seq⟩, r.cls⟩)
            (withPages (pages.map fun y => if y.seq = r.seq then { r with channel := some d, seize := seize } else y)
            v)) := by
  subst pp
  simp only [repick, ch, takeChannel, es]
  have mp : modPage r.seq (fun r => { r with channel := some d, seize := seize }) v = withPages
      (v.pgo.pages.map fun y => if y.seq = r.seq then { r with channel := some d, seize := seize } else y) v := by
    have : (v.pgo.pages.map fun y => if y.seq = r.seq then { y with channel := some d, seize := seize } else y) =
        v.pgo.pages.map fun y => if y.seq = r.seq then { r with channel := some d, seize := seize } else y := by
      apply List.map_congr_left
      intro y hy
      by_cases e : y.seq = r.seq
      · rw [uni y hy e]
      · simp [e]
    simp only [modPage, onPgo, this]
    rfl
  rw [mp]
  have pid : ∀ w : State, own w = o → pageIdOf w r.seq = ⟨o, r.seq⟩ := by intro w hw; unfold pageIdOf; rw [hw]
  have f : ∀ w : State, w.pgo.pages =
      (v.pgo.pages.map fun y => if y.seq = r.seq then { r with channel := some d, seize := seize } else y) → findPage w
      r.seq = some { r with channel := some d, seize := seize } := by
    intro w hw
    unfold findPage
    rw [hw, List.find?_map]
    have : (v.pgo.pages.find? ((fun x : PageRec => decide (x.seq = r.seq)) ∘ fun y => if y.seq = r.seq then
        { r with channel := some d, seize := seize } else y)).isSome = true := by
      rw [List.find?_isSome]
      exact ⟨r, mem, by simp⟩
    obtain ⟨z, hz⟩ := Option.isSome_iff_exists.mp this
    rw [hz]
    have := List.find?_some hz
    simp only [Function.comp] at this
    by_cases e : z.seq = r.seq
    · simp [e]
    · simp [e] at this
  rw [f _ rfl]
  simp only
  rw [replaceNotice_free _ _ _ (by
    intro e he hp
    rw [pid s so] at hp
    exact h e he hp)]
  rw [pid s so, pid v ow]
  have sb : ∀ w : State, own w = o → startBody w { r with channel := some d, seize := seize } =
      ⟨⟨o, r.seq⟩, r.cls, r.target, some d, seize, r.override, none⟩ := by
    intro w hw
    simp only [startBody, pageIdOf, hw, no]
  rw [sb _ (by show own v = _; exact ow)]
  rfl

/-- A CLAIMING page takes a channel again, its place in the table being known (R110). -/
theorem repick_at {r : PageRec} {before after : List PageRec} {s v : State} {l : Line} {d : Channel} {seize : Bool}
    {o : Cabinet} (so : own s = o) (no : r.origin = .line l)
  (ch : chooseChannel s.pgo.view r.cls = some (d, seize)) (es : (if seize then endSeized d s else s) = v)
      (pa : PageAt r before after v) (ow : own v = o)
  (h : ∀ e ∈ v.clc.queue, isStartOf ⟨o, r.seq⟩ e.notice = true → e.inAttempt = false) :
  repick r s = withReplaced (isStartOf ⟨o, r.seq⟩)
      (.pageStart ⟨⟨o, r.seq⟩, r.cls, r.target, some d, seize, r.override, none⟩)
        (withView d (some ⟨⟨o, r.seq⟩, r.cls⟩)
            (withPages (before ++ { r with channel := some d, seize := seize } :: after) v)) := by
  rw [repick_map so no ch es pa.1 (by simp) (by
    intro y hy e
    rcases List.mem_append.mp hy with hy | hy
    · exact absurd e (pa.2 y (by simp [hy]))
    · rcases List.mem_cons.mp hy with rfl | hy
      · rfl
      · exact absurd e (pa.2 y (by simp [hy]))) ow h]
  rw [pages_map_at pa.2]

/-- A channel named where a CLAIMING page of the part stands on it (R110). -/
theorem channelSeen_claiming {c h} {s : State} {r : PageRec} (hcr : channelRecord s c = some r)
    (st : r.state = .claiming) : channelSeen c h s = repick r (setView c (some h) s) := by
  simp only [channelSeen, hcr, st, if_true]

/-- A command that names one channel does what the PGO does with that channel, and nothing else. -/
theorem namesChannel_exec {i src c h s u} (nc : NamesChannel i src c h s u) (link : s.clc.link = .running)
    (r : s.pins.reset = false) (v : State)
   (hv : channelSeen c h (withOutputs [.acknowledge true] u) = v) (vz : v.zc = s.zc) (vp : (v.clc.peers = u.clc.peers))
       (vd : v.deliveries = [])
   (vw : ∀ m x, v.pgo.view.get m = some x → x.page.cab = src → (m = c ∧ x = h) ∨ (m ≠ c ∧ s.pgo.view.get m = some x)) :
   exec i s = .next v := by
  obtain ⟨k, nc⟩ := nc
  rcases nc with ⟨b, t, o, rfl, hp, hc, ht, hch, ho, hz, hf, rfl⟩ | ⟨b, rfl, h1, h2, h3, he, hm, rfl⟩
  · refine exec_of_act rfl r ?_ vd
    rw [hear_fresh src true _ s link k]
    simp only [heardStart, pgoHeardStart, zoneHeardStart, hp, hc, ht, hch, ho, withCode, heardPageStart, hf]
    rw [show channelSeen c ⟨h.page, h.cls⟩ (withOutputs [.acknowledge true] (heardFrom src s)) = v from hv]
    exact zonePageStart_outside _ _ (by intro z; show inTarget (v.zc.zones.get z) t = false; rw [vz]; exact hz z) rfl
  · refine exec_of_act rfl r ?_ vd
    refine (heardStatus_known src b .running none _ s link k h1 h2 h3).trans ?_
    generalize hX : (if asksStatus LinkField.running = true then queueStatus .running else id)
        (withOutputs [.acknowledge true]
        (withPeer src { state := .present, age := 0, evac := none, channels := (Table.fill 4 none).set c (some h) } s))
        = X
    have eX : X = withOutputs [.acknowledge true]
        (withPeer src { state := .present, age := 0, evac := none, channels := (Table.fill 4 none).set c (some h) }
        s) := by rw [← hX]; rfl
    have rec_ : (X.clc.peers.get src).channels = (Table.fill 4 none).set c
        (some h) := by rw [eX]; simp [withOutputs, withPeer]
    have one : forEach allChannels (fun d s => match ((Table.fill 4 none).set c (some h)).get d with
      | some h => channelSeen d h s
      | none => s) X = v := by
      have : ∀ l : List Channel, l.Nodup → forEach l (fun d s => match ((Table.fill 4 none).set c (some h)).get d with
        | some h => channelSeen d h s
        | none => s) X = if c ∈ l then channelSeen c h X else X := by
        intro l
        have rest : ∀ (l : List Channel) (Y : State), c ∉ l → forEach l
            (fun d s => match ((Table.fill 4 none).set c (some h)).get d with
          | some h => channelSeen d h s
          | none => s) Y = Y := by
          intro l Y hl
          apply forEach_same
          intro a ha
          have : a ≠ c := fun e => hl (e ▸ ha)
          rw [Table.get_set_ne _ _ this, Table.get_fill]
        induction l with
        | nil => intro _; simp [forEach]
        | cons a l ih =>
          intro nd
          have nd' := List.nodup_cons.mp nd
          rw [forEach]
          by_cases ha : a = c
          · subst ha
            rw [rest _ _ nd'.1]
            simp [Table.get_set_self]
          · rw [Table.get_set_ne _ _ ha, Table.get_fill]
            simp only
            rw [ih nd'.2]
            simp [Ne.symm ha]
      refine (this allChannels (by decide)).trans ?_
      rw [if_pos (by simp [allChannels]), eX]
      exact hv
    have pg : pgoStatus src X = v := by
      simp only [pgoStatus, rec_]
      refine (congrArg _ one).trans ?_
      refine (view_congr v _ v.pgo.view ?_).trans rfl
      · intro d
        rw [Table.get_build]
        cases hd : v.pgo.view.get d with
        | none => rfl
        | some x =>
          simp only
          rw [if_neg]
          rintro ⟨hs, hn⟩
          rcases vw d x hd hs with ⟨rfl, rfl⟩ | ⟨n, hx⟩
          · exact hn (Table.get_set_self _ _ _)
          · exact hm d x n hx hs
    rw [pg]
    have ev : (v.clc.peers.get src).evac = none := by rw [vp]; simp [withPeer]
    simp only [zoneStatus, ev]
    apply forEach_same
    intro z _
    apply removeEvac_none
    intro x hx
    have : x ∈ (zoneOf s z).evac := by
      have e : zoneOf v z = zoneOf s z := by show v.zc.zones.get z = _; rw [vz]; rfl
      rw [← e]; exact hx
    simpa using he z x this

/-- What such a command leaves. -/
theorem namesChannel_frame {i src c h s u} (nc : NamesChannel i src c h s u) : src ≠ own s ∧ u.pgo = s.pgo ∧ u.zc =
    s.zc ∧ u.deliveries = s.deliveries ∧ u.clc.queue = s.clc.queue ∧ u.clc.link = s.clc.link ∧ u.clc.address =
    s.clc.address ∧ u.spu = s.spu ∧ u.ofm = s.ofm ∧ u.lu = s.lu := by
  obtain ⟨k, nc⟩ := nc
  rcases nc with ⟨b, t, o, rfl, hp, hc, ht, hch, ho, hz, hf, rfl⟩ | ⟨b, rfl, h1, h2, h3, he, hm, rfl⟩ <;> exact
      ⟨k.1, rfl, rfl, rfl, rfl, rfl, rfl, rfl, rfl, rfl⟩

/-- The entries of a channel view in which one has been written. -/
theorem view_set_entries {s v : State} {c : Channel} {h : ChannelHold} {src : Cabinet}
    (e : v.pgo.view = s.pgo.view.set c (some h)) :
   ∀ m x, v.pgo.view.get m = some x → x.page.cab = src → (m = c ∧ x = h) ∨ (m ≠ c ∧ s.pgo.view.get m = some x) := by
  intro m x hm hs
  rw [e] at hm
  by_cases hc : m = c
  · subst hc; rw [Table.get_set_self] at hm; exact .inl ⟨rfl, (Option.some.inj hm).symm⟩
  · rw [Table.get_set_ne _ _ hc] at hm; exact .inr ⟨hc, hm⟩

end Sys2Proof.Machine
end

