-- ==== Sys2Proof/Laws/Taken.lean ====
section
/-! SUPPORT. What the blocks of lines and calls make of a notice, said once: each operation by its relation of Safety.lean. -/

namespace Sys2Proof.Machine

/-! ### Reservations and the member side (R35, R37, R70 to R75) -/

/-- A change that changes no record of its sequence value is no change. -/
theorem modOffer_same (q : Seq) (f : Offer → Offer) (s : State) (h : ∀ o ∈ s.ofm.offers, o.seq = q → f o = o) :
    modOffer q f s = s := by
  have e : (s.ofm.offers.map fun o => if o.seq = q then f o else o) = s.ofm.offers := by
    conv => rhs; rw [← List.map_id s.ofm.offers]
    apply List.map_congr_left
    intro o ho
    by_cases hq : o.seq = q
    · simp [hq, h o ho hq]
    · simp [hq]
  rw [modOffer_eq, e]
  rfl

/-- Exactly one line holds the reservation for a call. -/
theorem reservedLine_of {l : Line} {v : Reservation} {c : CallId} {s : State} (h : (lineOf s l).reserved = some v) (hc : v.call = c)
    (only : ∀ m w, m ≠ l → (lineOf s m).reserved = some w → w.call ≠ c) : reservedLine s c = some l := by
  subst hc
  exact reservedLine_at l v.call v.group s h only

/-- No line holds the reservation for a call. -/
theorem reservedLine_none {c : CallId} {s : State} (h : ∀ l v, (lineOf s l).reserved = some v → v.call ≠ c) :
    reservedLine s c = none := by
  unfold reservedLine
  rw [List.find?_eq_none]
  intro l _
  cases e : (lineOf s l).reserved with
  | none => simp
  | some v => simpa using h l v e

/-- The reservation for a call ends, if a line holds it (R35, R73). -/
theorem releaseCall_of {c : CallId} {s t : State} (h : ReservationEnds c s t) : releaseCall c s = t := by
  rcases h with ⟨none_, rfl⟩ | ⟨room, l, v, hl, rfl, only, rfl⟩
  · simp only [releaseCall, reservedLine_none none_, withCode]
  · simp only [releaseCall, reservedLine_of hl rfl only, withCode]
    exact releaseReservation_of hl room

/-- A ringing start at the ring view (R90). -/
theorem viewEnter_eq (c : CallId) (cab : Cabinet) (l : Line) (p : Option PickupGroup) (s : State) :
    viewEnter c cab l p s = viewEntered ⟨c, cab, l, p, false⟩ s := by
  unfold viewEnter viewEntered
  by_cases h : ∃ x ∈ s.ppu.view, x.call = c ∧ x.cab = cab ∧ x.line = l
  · rw [if_pos h, if_pos (by simpa using h)]
  · rw [if_neg h, if_neg (by simpa using h)]
    rfl

/-- A line that holds no reservation starts ringing, with room for its RING-STARTED (R37, R38). -/
theorem startRinging_noticed (l : Line) (c : CallId) (cad : Cadence) (g : Option HuntGroup) (s : State)
    (nr : (lineOf s l).reserved = none) (room : Room 1 s) : startRinging l c cad g s = ringStarts l c cad g s := by
  simp only [startRinging, endReservation, nr, onLine_eq, orderRing_eq]
  rw [queueNotice_noticed _ _ rfl (room.of_clc (by simp [withLine]))]
  rw [refresh_zero]
  · rw [viewEnter_withLine, viewEnter_line, viewEnter_eq]
    simp [ringStarts, ringingRecord, own]
  · rw [viewEnter_line]
    simp [availableSet]

/-- An available line holds no reservation (R36). -/
theorem isAvailable_free {r : LineRec} {g : HuntGroup} (h : isAvailable r g = true) : r.reserved = none := by
  unfold isAvailable availableSet at h
  by_cases c : r.inService = true ∧ r.state = .idle ∧ r.dnd = false ∧ r.reserved = none
  · exact c.2.2.2
  · rw [if_neg c] at h
    simp [hasGroup] at h

/-- The own OFFER opens its record's window (R76). -/
theorem openWindow_of {c : CallId} {s t : State} (h : WindowOpens c s t) : openWindow c s = t := by
  rcases h with ⟨o, before, after, at', rfl, st, rfl⟩ | ⟨no, rfl⟩
  · simp only [openWindow, if_true]
    rw [modOffer_at at']
    simp [st]
  · unfold openWindow
    split
    · next own_ => exact modOffer_same _ _ _ fun o ho hq => if_neg (no own_ o ho hq)
    · rfl

/-- With no candidate the member side orders none. -/
theorem candidates_none {s : State} {g : HuntGroup} {tried : IndexSet} (h : ∀ l i, ¬ Candidacy s g tried l i) :
    candidates s g tried = [] := by
  rw [List.eq_nil_iff_forall_not_mem]
  intro x hx
  rw [candidates_mem] at hx
  exact h _ _ hx.1

/-- The member side answers an OFFER that it has taken up (R71, R74). -/
theorem memberAnswers_of {c : CallId} {g : HuntGroup} {tried : IndexSet} {s t : State} (h : MemberAnswers c g tried s t) :
    (match disciplineOf s g with
      | .simultaneous => ringAll c g tried s
      | .linear | .circular | .longestIdle => bidFor c g tried s) = t := by
  rcases h with ⟨no, rfl⟩ | ⟨sim, chain⟩ | ⟨ns, room, l, i, k, hcand, hk, best, rfl⟩
  · simp only [ringAll, bidFor, candidates_none no, rank, forEach, List.find?_nil]
    split <;> rfl
  · rw [sim]
    refine forEach_chain (fun x _ u v hv => ?_) chain
    unfold simultaneousRequest
    rcases hv with ⟨av, room, rfl⟩ | ⟨na, rfl⟩
    · rw [if_pos av]
      exact startRinging_noticed _ _ _ _ _ (isAvailable_free av) room
    · rw [if_neg (by simp [na])]
  · have hk' := (keyOf_iff s g l i k ns).mp hk
    obtain ⟨rest, hr⟩ := rank_head (candidates s g tried) ⟨k, i, l⟩ (by rw [candidates_mem]; exact ⟨hcand, hk'⟩) (by
      intro x hx
      rw [candidates_mem] at hx
      by_cases e : x.line = l
      · left
        obtain ⟨k₂, i₂, l₂⟩ := x
        simp only at e
        subst e
        have : i₂ = i := Option.some.inj (hx.1.1.symm.trans hcand.1)
        subst this
        simp only at hx
        rw [hx.2, hk']
      · right
        have b := best x.line x.index x.key hx.1 e ((keyOf_iff s g _ _ _ ns).mpr hx.2)
        refine ⟨by rw [better_iff]; exact b, ?_⟩
        rw [Bool.eq_false_iff, Ne, better_iff]
        unfold Before at *
        simp only [Fin.lt_def, Fin.ext_iff] at *
        omega)
    have bids : bidFor c g tried s = noticed [.bid c l i k] (withLine l { lineOf s l with reserved := some ⟨c, g⟩, available := 0 }
        (withBids (s.he.bids ++ [⟨c, l, i, k, .queued, true, false⟩]) s)) := by
      simp only [bidFor, hr, List.find?_cons, hcand.2.2, formBid, reserve, onLine_eq]
      rw [refresh_zero _ _ (by simp [availableSet])]
      rw [queueNotice_noticed _ _ rfl (room.of_clc (by simp [withLine, onHe]))]
      simp only [lineOf_withLine_self, withLine_twice]
      rfl
    rw [← bids]
    cases e : disciplineOf s g <;> first | rfl | exact absurd e ns

/-- An OFFER at the member side (R70, R71, R74). -/
theorem memberOffer_of {c : CallId} {g : HuntGroup} {tried : IndexSet} {s t u : State}
    (ends : ReservationEnds c (withNewestOffer c g s) t) (answers : MemberAnswers c g tried t u) : memberOffer c g tried s = u := by
  have heard : hearOffer c g s = withNewestOffer c g s := rfl
  simp only [memberOffer, heard, releaseCall_of ends]
  exact memberAnswers_of answers

/-- A RING-ASSIGN at a line of the part is accepted in a group, or not (R37). -/
theorem assignAccepted_iff (c : CallId) (l : Line) (cad : Cadence) (s : State) :
    (∀ g, AcceptsIn c l cad g s → assignAccepted s c l cad = true ∧ assignGroup s c l cad = g)
    ∧ ((∀ g, ¬ AcceptsIn c l cad g s) → assignAccepted s c l cad = false) := by
  have dir : cad = .direct ∨ cad ≠ .direct := Classical.em _
  have heard : ∀ r : LineRec, (match heardGroup s c with
      | some g => isAvailable r g
      | none => false) = true ↔ ∃ h, heardGroup s c = some h ∧ isAvailable r h = true := by
    intro r
    cases heardGroup s c <;> simp
  have res : ∀ r : LineRec, reservedFor r c = true ↔ ∃ h, r.reserved = some ⟨c, h⟩ := by
    intro r
    unfold reservedFor
    cases e : r.reserved with
    | none => simp
    | some v =>
      obtain ⟨d, g⟩ := v
      simp only [decide_eq_true_eq, Option.some.injEq, Reservation.mk.injEq]
      exact ⟨fun h => ⟨g, h, rfl⟩, fun ⟨_, h, _⟩ => h⟩
  constructor
  · rintro g (⟨rfl, rfl, a, b, d, e⟩ | ⟨nd, h, rfl, hh⟩)
    · exact ⟨by simp [assignAccepted, a, b, d, e], rfl⟩
    · have acc : (reservedFor (lineOf s l) c || (match heardGroup s c with
          | some g => isAvailable (lineOf s l) g
          | none => false)) = true := by
        rw [Bool.or_eq_true, res, heard]
        exact hh.imp (fun e => ⟨h, e⟩) fun e => ⟨h, e.2⟩
      have grp : (match (lineOf s l).reserved with
          | some v => if v.call = c then some v.group else heardGroup s c
          | none => heardGroup s c) = some h := by
        rcases hh with e | ⟨nr, e, -⟩
        · rw [e]
          simp
        · cases q : (lineOf s l).reserved with
          | none => exact e
          | some v =>
            show (if v.call = c then _ else _) = _
            rw [if_neg (nr v q)]
            exact e
      cases cad
      · exact ⟨acc, grp⟩
      · exact absurd rfl nd
      · exact ⟨acc, grp⟩
  · intro no
    rw [Bool.eq_false_iff]
    intro yes
    rcases dir with rfl | nd
    · have : _ := of_decide_eq_true yes
      exact no none (Or.inl ⟨rfl, rfl, this⟩)
    · have acc : (reservedFor (lineOf s l) c || (match heardGroup s c with
          | some g => isAvailable (lineOf s l) g
          | none => false)) = true := by
        cases cad
        · exact yes
        · exact absurd rfl nd
        · exact yes
      rw [Bool.or_eq_true, res, heard] at acc
      by_cases r : ∃ h, (lineOf s l).reserved = some ⟨c, h⟩
      · obtain ⟨h, hr⟩ := r
        exact no (some h) (Or.inr ⟨nd, h, rfl, Or.inl hr⟩)
      · obtain ⟨h, hh, av⟩ := acc.resolve_left r
        refine no (some h) (Or.inr ⟨nd, h, rfl, Or.inr ⟨fun v hv e => r ⟨v.group, ?_⟩, hh, av⟩⟩)
        rw [hv, ← e]

/-- A line that accepts a ring request holds no reservation but one for its call. -/
theorem acceptsIn_free {c : CallId} {l : Line} {cad : Cadence} {g : Option HuntGroup} {s : State} (h : AcceptsIn c l cad g s) :
    ∀ v, (lineOf s l).reserved = some v → v.call = c := by
  intro v hv
  rcases h with ⟨-, -, -, -, -, nr⟩ | ⟨-, h, -, hr | ⟨-, -, av⟩⟩
  · rw [nr] at hv; cases hv
  · rw [hr] at hv
    rw [← Option.some.inj hv]
  · rw [isAvailable_free av] at hv; cases hv

/-- A RING-ASSIGN at the HE and the LU (R35, R37, R75). -/
theorem takeAssign_of {c : CallId} {cab : Cabinet} {l : Line} {cad : Cadence} {s t : State} (h : AssignTaken c cab l cad s t) :
    takeAssign c cab l cad s = t := by
  obtain ⟨room, h⟩ := h
  have bid : dropBid c s = withoutBid c s := rfl
  have lines : ∀ m, lineOf (withoutBid c s) m = lineOf s m := fun _ => rfl
  have left : Room 2 (withoutBid c s) := by
    rcases room with h | ⟨link, room⟩
    · exact Or.inl h
    · refine Or.inr ⟨link, ?_⟩
      have := withdrawFrom_length (isBidFor c) s.clc.queue
      show (withdrawFrom (isBidFor c) s.clc.queue).length + 2 ≤ _
      omega
  have ownB : own (withoutBid c s) = own s := rfl
  have acc : assignAccepted (withoutBid c s) c l cad = assignAccepted s c l cad
      ∧ assignGroup (withoutBid c s) c l cad = assignGroup s c l cad := ⟨rfl, rfl⟩
  -- What the named line makes of the request, in a state whose lines are as before but for the ended reservation.
  have decide_ : ∀ u v : State, own u = own s → Room 2 u → ringsFor (lineOf u l) c = ringsFor (lineOf s l) c →
      (∀ r, (lineOf u l).reserved = some r → (lineOf s l).reserved = some r ∧ r.call ≠ c) →
      (((cab ≠ own s ∨ ringsFor (lineOf s l) c = true) ∧ v = u)
        ∨ (cab = own s ∧ ringsFor (lineOf s l) c = false ∧
          ((∃ g, AcceptsIn c l cad g s ∧ v = ringStarts l c cad g u)
          ∨ ((∀ g, ¬ AcceptsIn c l cad g s) ∧ v = noticed [.decline c l] u)))) →
      (if cab = own u then decideAssign c l cad (assignAccepted s c l cad) (assignGroup s c l cad) u else u) = v
        ∧ Room 1 v := by
    intro u v ou ru rg fr hv
    rw [ou]
    rcases hv with ⟨other, rfl⟩ | ⟨here, nr, hv⟩
    · refine ⟨?_, ru.le (by omega)⟩
      by_cases here : cab = own s
      · have := other.resolve_left (fun h => h here)
        rw [if_pos here, decideAssign, if_pos (by rw [rg]; exact this)]
      · rw [if_neg here]
    · rw [if_pos here, decideAssign, if_neg (by rw [rg, nr]; simp)]
      rcases hv with ⟨g, ha, rfl⟩ | ⟨no, rfl⟩
      · obtain ⟨yes, grp⟩ := (assignAccepted_iff c l cad s).1 g ha
        rw [if_pos yes, grp]
        have free : (lineOf u l).reserved = none := by
          cases e : (lineOf u l).reserved with
          | none => rfl
          | some r =>
            have := fr r e
            exact absurd (acceptsIn_free ha r this.1) this.2
        refine ⟨startRinging_noticed l c cad g u free (ru.le (by omega)), ?_⟩
        have clc : (ringStarts l c cad g u).clc = (noticed [.ringStarted c l (g.bind (indexIn (lineOf u l).memberships))
            (lineOf u l).pickup] (withLine l (ringingRecord u c cad g (lineOf u l)) u)).clc := by
          unfold ringStarts
          rw [← viewEnter_eq, (viewEnter_frame ..).1]
          rfl
        exact Room.of_clc (Room.noticed (n := 1) (ru.of_clc rfl)) clc
      · rw [if_neg (by rw [(assignAccepted_iff c l cad s).2 no]; simp)]
        exact ⟨queueNotice_noticed _ _ rfl (ru.le (by omega)), Room.noticed (n := 1) ru⟩
  simp only [takeAssign, lineAssign, bid]
  rw [acc.1, acc.2]
  rcases h with ⟨none_, h⟩ | ⟨m, v, ⟨w, hw, hc⟩, only, h, rfl⟩
  · rw [reservedLine_none (by exact none_)]
    simp only [withCode]
    exact (decide_ (withoutBid c s) t rfl left rfl (fun r hr => ⟨hr, none_ l r hr⟩) h).1
  · have rl : reservedLine (withoutBid c s) c = some m := reservedLine_of (by exact hw) hc (by exact only)
    have ended : endReservation m (withoutBid c s) = withLine m { lineOf s m with reserved := none } (withoutBid c s) := by
      have : (lineOf (withoutBid c s) m).reserved = some w := hw
      simp only [endReservation, this, onLine_eq, hc]
      exact congrArg (withLine m { lineOf s m with reserved := none }) (withoutBid_twice c s)
    rw [rl]
    simp only [withCode, ended]
    have d := decide_ (withLine m { lineOf s m with reserved := none } (withoutBid c s)) v rfl (left.of_clc rfl) (by
        by_cases e : l = m
        · subst e
          rw [lineOf_withLine_self]
          rfl
        · rw [lineOf_withLine_ne _ _ e, lines])
      (by
        intro r hr
        by_cases e : l = m
        · subst e
          rw [lineOf_withLine_self] at hr
          cases hr
        · rw [lineOf_withLine_ne _ _ e, lines] at hr
          exact ⟨hr, only l r e hr⟩) h
    rw [d.1, refresh_noticed _ _ d.2]
    rfl

/-! ### The owner side (R52, R53, R59 to R61, R76, R77, R80, R84) -/

/-- A bid at the owner side (R77). -/
theorem ownerBid_of {c : CallId} {b : WindowBid} {s t : State} (h : BidEnters c b s t) : ownerBid c b s = t := by
  rcases h with ⟨no, rfl⟩ | ⟨o, p, q, at', rfl, h⟩
  · unfold ownerBid
    split
    · next own_ => exact modOffer_same _ _ _ fun o ho hq => absurd hq (no own_ o ho)
    · rfl
  · simp only [ownerBid, if_true]
    rw [modOffer_at at']
    rcases h with ⟨no, rfl⟩ | ⟨w, w', hw, nt, rfl, hin⟩
    · have same : enterBid b o = o := by
        unfold enterBid
        cases hw : o.window with
        | none => rfl
        | some w =>
          obtain ⟨j, hj, ht⟩ := no.resolve_left (by simp [hw])
          simp [hj, ht]
      rw [same, ← at'.1]
      rfl
    · have entered : enterBid b o = { o with window := some w' } := by
        simp only [enterBid, hw]
        rw [if_neg (by
          cases e : b.index with
          | none => simp
          | some i => simp [nt i e])]
        rcases hin with ⟨new, rfl⟩ | ⟨x, y, z, rfl, hy, others, rfl⟩
        · rw [if_neg (by simpa using new)]
        · have ns : ∀ l : List WindowBid, (∀ v ∈ l, v.cab ≠ b.cab) → (l.map fun x => if x.cab = b.cab then b else x) = l := by
            intro l hl
            conv => rhs; rw [← List.map_id l]
            apply List.map_congr_left
            intro v hv
            simp [hl v hv]
          rw [if_pos (by simp [hy]), List.map_append, List.map_cons, if_pos hy, ns x fun v hv => others v (by simp [hv]),
            ns z fun v hv => others v (by simp [hv])]
      rw [entered]

/-- The assign timer of an ASSIGNED record starts (R49, R80). -/
theorem startAssignTimer_of {c : CallId} {cab : Cabinet} {l : Line} {s t : State} (h : AssignTimerStarts c cab l s t) :
    startAssignTimer c cab l s = t := by
  have iff : ∀ o : Offer, (o.state = .assigned ∧ o.assigned.any (atLine cab l) = true) ↔
      (o.state = .assigned ∧ ∃ m, o.assigned = some m ∧ m.cab = cab ∧ m.line = l) := by
    intro o
    cases o.assigned <;> simp [atLine]
  rcases h with ⟨o, before, after, at', rfl, w, rfl⟩ | ⟨no, rfl⟩
  · simp only [startAssignTimer, if_true]
    rw [modOffer_at at', if_pos ((iff o).mpr w)]
  · unfold startAssignTimer
    split
    · next own_ => exact modOffer_same _ _ _ fun o ho hq => if_neg (by rw [iff]; exact no own_ o ho hq)
    · rfl

/-- A record that is not parked ends in the same way where it stands changed in the table. -/
theorem endCall_changed {o o' : Offer} {before after : List Offer} {outcome : Option EndReason} {s t : State}
    (at' : OfferAt o before after s) (np : ∀ n, o'.state ≠ .parked n)
    (sq : o'.seq = o.seq) (h : CallEnds outcome o' (withOffers (before ++ o' :: after) s) t) : endCall o' outcome s = t := by
  obtain ⟨b, a, at₂, shelf, ⟨room, -, rfl⟩ | ⟨i, v, -, parked, -⟩⟩ := h
  · have room : Room 1 s := room.of_clc rfl
    have shelf' : s.spu.output.length < outputCapacity := by unfold ShelfRoom at shelf; exact shelf
    have same : b ++ a = before ++ after := by
      have l : before ++ o' :: after = b ++ o' :: a := at₂.1
      rw [← filter_at (·.seq) o' b a at₂.2, ← l, filter_at (·.seq) o' before after (by rw [sq]; exact at'.2)]
    have fo : ∀ u, freeOrbitOf o' u = u := by
      intro u
      unfold freeOrbitOf
      split
      · next n e => exact absurd e (np n)
      · rfl
    have cancel : (if partiesOut o' then queueNotice (.cancel ⟨own s, o.seq⟩) s else s)
        = noticed (if partiesOut o' then [.cancel ⟨own s, o.seq⟩] else []) s := by
      split
      · exact queueNotice_noticed _ _ rfl room
      · simp
    simp only [endCall, callIdOf, sq, fo]
    rw [cancel]
    refine (congrArg (freeOffer o.seq) (outcomeSent outcome o'.ref ⟨own s, o.seq⟩
      (noticed (if partiesOut o' then [.cancel ⟨own s, o.seq⟩] else []) s) (by simpa using shelf'))).trans ?_
    rw [freeOffer_at (before := before) (after := after) (by simpa [OfferAt, withSent] using at')]
    have comm : ∀ ns, noticed ns (withOffers (before ++ o' :: after) s) = withOffers (before ++ o' :: after) (noticed ns s) := by
      intro ns
      unfold noticed
      rw [show cutOff (withOffers (before ++ o' :: after) s) = cutOff s from rfl]
      split <;> rfl
    simp only [comm, callFreed, same, sq]
    rfl
  · exact absurd parked (np _)

/-- A DECLINE at the owner of a call (R53, R61, R80). -/
theorem takeDecline_of {c : CallId} {cab : Cabinet} {l : Line} {s t : State} (h : DeclineTaken c cab l s t) :
    takeDecline c cab l s = t := by
  have iff : ∀ o : Offer, (o.state = .assigned ∧ o.assigned.any (atLine cab l) = true) ↔
      (o.state = .assigned ∧ ∃ m, o.assigned = some m ∧ m.cab = cab ∧ m.line = l) := by
    intro o
    cases o.assigned <;> simp [atLine]
  rcases h with ⟨no, rfl⟩ | ⟨o, before, after, at', rfl, fr, h⟩
  · simp only [takeDecline, ownOffer]
    by_cases own_ : c.cab = own t
    · rw [if_pos own_]
      cases f : findOffer t c.seq with
      | none => rfl
      | some o =>
        have mem := List.mem_of_find?_eq_some f
        have sq : o.seq = c.seq := by simpa using List.find?_some f
        show (if _ then _ else _) = _
        rw [if_neg (by rw [iff]; exact no own_ o mem sq)]
    · rw [if_neg own_]
  · simp only [takeDecline, ownOffer_at at']
    rw [if_pos ((iff o).mpr fr)]
    rcases h with ⟨cb, dl, ht, h⟩ | ⟨g, m, ht, as, h⟩
    · rw [if_pos (isDirect_direct ht)]
      exact endCall_changed (o' := { o with assigned := none, assignTimer := false }) at'
        (fun n => by show o.state ≠ _; rw [fr.1]; simp) rfl h
    · rw [if_neg (by rw [isDirect_hunt ht]; simp)]
      simp only [failAssign]
      rw [modOffer_at at']
      have lost : loseAssigned o = withoutAssigned m.index o := by
        simp [loseAssigned, as, countTried, withoutAssigned, isDirect, ht, targetGroup]
      rw [lost]
      exact nextStep_of (o := withoutAssigned m.index o) (offerAt_withOffers at' rfl) h

/-- A change of a record that has changed already. -/
theorem modOffer_changed {o o' : Offer} {before after : List Offer} {s : State} (at' : OfferAt o before after s)
    (sq : o'.seq = o.seq) (f : Offer → Offer) :
    modOffer o.seq f (withOffers (before ++ o' :: after) s) = withOffers (before ++ f o' :: after) s := by
  have e := modOffer_at (offerAt_withOffers at' sq) f
  rw [sq] at e
  exact e

/-- A record that has changed already becomes RINGING. -/
theorem becomeRinging_changed {o o' : Offer} {before after : List Offer} {s : State} (at' : OfferAt o before after s)
    (sq : o'.seq = o.seq) : becomeRinging o.seq (withOffers (before ++ o' :: after) s)
      = withOffers (before ++ { o' with state := .ringing, window := none } :: after) (withoutStanding o.seq s) := by
  refine Eq.trans (congrArg (fun q => becomeRinging q _) sq.symm) ((becomeRinging_at (offerAt_withOffers at' sq)).trans ?_)
  rw [sq]
  rfl

/-- A member joins the ringing set of a record (R59). -/
theorem recordMember_eq (x : Member) (o : Offer) :
    recordMember x o = { o with
      ringing := if (∃ y ∈ o.ringing, y.cab = x.cab ∧ y.line = x.line) ∨ 16 ≤ o.ringing.length then o.ringing else o.ringing ++ [x]
      tried := match x.index with
        | some i => eraseIndex i o.tried
        | none => o.tried } := by
  have here : o.ringing.any (atLine x.cab x.line) = true ↔ ∃ y ∈ o.ringing, y.cab = x.cab ∧ y.line = x.line := by simp [atLine]
  unfold recordMember ringingCapacity
  cases x.index with
  | none =>
    simp only [here, ge_iff_le]
    split <;> rfl
  | some i =>
    simp only [here, ge_iff_le]
    split <;> rfl

/-- A RING-STARTED at the owner of a call (R52, R59). -/
theorem takeRingStarted_of {c : CallId} {m : Member} {s t : State} (h : StartRecorded c m s t) : takeRingStarted c m s = t := by
  rcases h with ⟨no, rfl⟩ | ⟨own_, room, rfl, h⟩ | ⟨o, before, after, at', rfl, np, h⟩
  · simp only [takeRingStarted, if_neg no]
  · simp only [takeRingStarted, if_pos own_]
    rcases h with none_ | ⟨o, before, after, n, at', sq, st⟩
    · rw [findOffer_none none_]
      exact queueNotice_noticed _ _ rfl room
    · rw [← sq, findOffer_at at']
      simp only [st]
      exact queueNotice_noticed _ _ rfl room
  · have member : (if isDirect o then { m with index := none } else m) = { m with index := if isDirect o then none else m.index } := by
      split <;> rfl
    generalize hx : ({ m with index := if isDirect o then none else m.index } : Member) = x at h member
    have xc : m.cab = x.cab ∧ m.line = x.line := by rw [← hx]; exact ⟨rfl, rfl⟩
    have itsMember : o.assigned.any (atLine x.cab x.line) = true ↔ ∃ a, o.assigned = some a ∧ a.cab = x.cab ∧ a.line = x.line := by
      cases o.assigned <;> simp [atLine]
    have recorded := recordMember_eq x o
    generalize ho : recordMember x o = o' at recorded
    have holds : o'.ringing.any (atLine x.cab x.line) = true ↔
        ((∃ y ∈ o.ringing, y.cab = x.cab ∧ y.line = x.line) ∨ o.ringing.length < 16) := by
      rw [recorded]
      by_cases k : ∃ y ∈ o.ringing, y.cab = x.cab ∧ y.line = x.line
      · simp only [k, true_or, if_true]
        simpa [atLine] using k
      · by_cases f : 16 ≤ o.ringing.length
        · simp only [k, f, or_true, if_true, false_or]
          exact iff_of_false (by simpa [atLine] using k) (by omega)
        · simp only [k, f, or_false, if_false, false_or]
          exact iff_of_true (by simp [atLine]) (by omega)
    have sq : o'.seq = o.seq := by rw [recorded]
    simp only [← holds, ← itsMember] at h
    have start : takeRingStarted ⟨own s, o.seq⟩ m s = (if o'.ringing.any (atLine x.cab x.line) then
        match o.state with
        | .assigned =>
          if o.assigned.any (atLine x.cab x.line) then
            becomeRinging o.seq (modOffer o.seq (fun o => { o with assigned := none, assignTimer := false })
              (withOffers (before ++ o' :: after) s))
          else withOffers (before ++ o' :: after) s
        | .waiting _ => becomeRinging o.seq (withOffers (before ++ o' :: after) s)
        | .offering | .ringing | .parked _ => withOffers (before ++ o' :: after) s
      else withOffers (before ++ o' :: after) s) := by
      simp only [takeRingStarted, if_true, findOffer_at at', member, ho]
      simp only [xc.1, xc.2, modOffer_at at' (fun _ => o')]
      cases st : o.state <;> first | rfl | exact absurd st (np _)
    rw [start]
    rcases h with ⟨⟨hold, how⟩, rfl⟩ | ⟨no, rfl⟩
    · rw [if_pos hold]
      rcases how with ⟨st, its⟩ | ⟨w, st⟩
      · simp only [st, if_pos its, if_true]
        rw [modOffer_changed at' sq, becomeRinging_changed (o' := { o' with assigned := none, assignTimer := false }) at' sq, recorded]
        all_goals rfl
      · simp only [st, reduceCtorEq, if_false]
        rw [becomeRinging_changed at' sq, recorded]
        all_goals rfl
    · refine Eq.trans ?_ (congrArg (fun k => withOffers (before ++ k :: after) s) recorded)
      by_cases a : o'.ringing.any (atLine x.cab x.line) = true
      · rw [if_pos a]
        cases st : o.state with
        | waiting w => exact absurd ⟨a, Or.inr ⟨w, st⟩⟩ no
        | assigned => exact if_neg fun b => no ⟨a, Or.inl ⟨st, b⟩⟩
        | offering | ringing | parked n => rfl
      · rw [if_neg a]

/-- The members of a call are lost (R60). -/
theorem membersLost_of {p : Member → Bool} {c : CallId} {s t : State} (h : MembersLost p c s t) :
    (if c.cab = own s then loseAt p c.seq s else s) = t := by
  rcases h with ⟨no, rfl⟩ | ⟨own_, h⟩
  · split
    · next own_ => simp only [loseAt, findOffer_none (no own_)]
    · rfl
  · rw [if_pos own_]
    exact loseAt_of h

/-- The oldest QUEUED record of a group (R84). -/
theorem oldestQueued_at {o : Offer} {before after : List Offer} {g : HuntGroup} {e : Bool} {ahead behind : List Standing} {s : State}
    (at' : OfferAt o before after s) (st : o.state = .waiting .queued) (q : s.he.queue = ahead ++ ⟨o.seq, g, e⟩ :: behind)
    (old : ∀ x ∈ ahead, x.group = g → ¬ ∃ o ∈ s.ofm.offers, o.seq = x.call ∧ o.state = .waiting .queued) :
    oldestQueued s g = some o.seq := by
  simp only [oldestQueued, groupQueue, q, List.filter_append, List.filter_cons, decide_true, if_true, List.map_append, List.map_cons]
  rw [List.find?_append, List.find?_eq_none.mpr]
  · simp [findOffer_at at', st]
  · intro y hy
    obtain ⟨x, hx, rfl⟩ := List.mem_map.mp hy
    have hx := List.mem_filter.mp hx
    cases f : findOffer s x.call with
    | none => simp
    | some z =>
      have mem := List.mem_of_find?_eq_some f
      have sq : z.seq = x.call := by simpa using List.find?_some f
      simp only [Option.any_some, decide_eq_true_eq]
      exact fun w => old x hx.1 (by simpa using hx.2) ⟨z, mem, sq, w⟩

/-- An AVAILABLE at the owner side (R84). -/
theorem takeAvailable_of {groups : GroupSet} {s t : State} (h : Chain GroupServed (groupsOf groups) s t) :
    takeAvailable groups s = t := by
  refine forEach_chain (fun g _ u v hv => ?_) h
  rcases hv with ⟨no, rfl⟩ | ⟨o, before, after, hg, ahead, e, behind, at', ht, st, q, old, h⟩
  · have : oldestQueued v g = none := by
      simp only [oldestQueued, groupQueue]
      rw [List.find?_eq_none]
      intro y hy
      obtain ⟨x, hx, rfl⟩ := List.mem_map.mp hy
      have hx := List.mem_filter.mp hx
      cases f : findOffer v x.call with
      | none => simp
      | some z =>
        have mem := List.mem_of_find?_eq_some f
        have sq : z.seq = x.call := by simpa using List.find?_some f
        simp only [Option.any_some, decide_eq_true_eq]
        exact fun w => no x hx.1 (by simpa using hx.2) ⟨z, mem, sq, w⟩
    simp only [this, withCode]
  · simp only [oldestQueued_at at' st q old, withCode]
    exact reofferAfresh_of at' ht (fun n => by rw [st]; simp) h

/-! ### Parties of a call (R39, R41) -/

/-- A line loses a call that is connected elsewhere or cancelled (R39, R41). -/
theorem partyLoses_of {c : CallId} {reason : RingEndReason} {l : Line} {s t : State} (h : PartyLoses c reason l s t)
    (n : reason ≠ .noAnswer) : (if awaits (lineOf s l) (.call c) then resolveLost l s
      else if ringsFor (lineOf s l) c then stopRinging l reason s else s) = t := by
  rcases h with ⟨aw, rfl⟩ | ⟨na, stops⟩ | ⟨na, nr, rfl⟩
  · rw [if_pos aw, resolveLost_eq]
  · obtain ⟨x, st, hx, e, -, -⟩ := id stops
    rw [if_neg (by simp [na]), if_pos (by simp [ringsFor, st, hx, e])]
    exact stopRinging_of stops n
  · rw [if_neg (by simp [na]), if_neg (by simp [nr])]

/-- A CONNECTED at a line of the part (R39, R41). -/
theorem lineConnects_of {c : CallId} {cab : Cabinet} {n l : Line} {g : Option HuntGroup} {i : Option OrderIndex} {s t : State}
    (h : LineConnects c cab n g i l s t) :
    (if cab = own s ∧ l = n then connectedHere l c g i s else connectedElsewhere c l s) = t := by
  rcases h with ⟨here, ⟨v, hv, how⟩, rfl⟩ | ⟨here, none_, shelf, rfl⟩ | ⟨no, h⟩
  · rw [if_pos here]
    obtain ⟨tg, k⟩ := v
    rcases how with e | ⟨o, e⟩
    · simp only at e
      subst e
      simp [connectedHere, hv, resolveTalking, orderTone_eq, onLine_eq]
    · simp only at e
      subst e
      simp [connectedHere, hv, resolveTalking, orderTone_eq, onLine_eq]
  · rw [if_pos here]
    have shelf' : s.spu.output.length < outputCapacity := by unfold ShelfRoom at shelf; exact shelf
    cases hv : (lineOf s l).verdict with
    | none => simp only [connectedHere, hv]; exact shelfSend_room _ _ shelf'
    | some v =>
      obtain ⟨d, e, ne⟩ := none_ v hv
      obtain ⟨tg, k⟩ := v
      simp only at e
      subst e
      simp only [connectedHere, hv, if_neg ne]
      exact shelfSend_room _ _ shelf'
  · rw [if_neg no]
    exact partyLoses_of h (by simp)

/-! ### Pages at the PGO (R108, R116, R119, R121, R122) -/

/-- The own PAGE-START at the PGO (R108, R116). -/
theorem ownPageStart_of {b : PageStartBody} {s t : State} (h : StartAnnounced b s t) : ownPageStart b s = t := by
  rcases h with ⟨r, before, after, at', sq, rfl⟩ | ⟨none_, room, rfl⟩
  · simp only [ownPageStart, ← sq, findPage_at at']
    split
    · exact modPage_at at' announced
    · rfl
  · have : findPage s b.page.seq = none := by
      unfold findPage
      exact List.find?_eq_none.mpr (by intro r hr; simpa using none_ r hr)
    simp only [ownPageStart, this]
    exact queueNotice_noticed _ _ rfl room

/-- A ZONE-REPORT at the PGO (R119, R121). -/
theorem pgoReport_of {p : PageId} {z : ZoneNumber} {o : ZoneOutcome} {s t : State} (h : ReportTaken p z o s t) :
    pgoReport p z o s = t := by
  have takes : ∀ r : PageRec, takesReports r = true ↔ (∃ l, r.origin = .line l) ∧ r.state ≠ .claiming := by
    intro r
    cases e : r.origin <;> simp [takesReports, e]
  rcases h with ⟨none_, rfl⟩ | ⟨r, before, after, h⟩
  · unfold pgoReport
    split
    · next own_ =>
      cases f : findPage t p.seq with
      | none => rfl
      | some r =>
        have mem := List.mem_of_find?_eq_some f
        have sq : r.seq = p.seq := by simpa using List.find?_some f
        show (if takesReports r then _ else t) = t
        rw [if_neg]
        rw [takes]
        rintro ⟨a, b⟩
        refine none_ r mem ⟨?_, a, b⟩
        rw [sq, ← own_]
    · rfl
  · obtain ⟨at', ⟨rfl, org, st⟩, h⟩ := h
    have body : ∀ l : List (ZoneNumber × ZoneOutcome), l = takeReport z o r.reports →
        pgoReport ⟨own s, r.seq⟩ z o s = (if decide (r.state = .onAir) && l.all (fun e => !live e.2)
          then endPageSeq r.seq .noZone (some .lost) (withPages (before ++ { r with reports := l } :: after) s)
          else withPages (before ++ { r with reports := l } :: after) s) := by
      rintro l rfl
      simp only [pgoReport, if_true, findPage_at at', (takes r).mpr ⟨org, st⟩]
      rw [modPage_at at']
    rw [body _ rfl]
    have listed : takeReport z o r.reports = (if r.reports.any (fun e => decide (e.1 = z))
        then r.reports.map fun e => if e.1 = z then (z, o) else e
        else if r.reports.length < 16 then r.reports ++ [(z, o)] else r.reports) := rfl
    rw [← listed] at h
    generalize takeReport z o r.reports = l at h ⊢
    have none_ : (decide (r.state = .onAir) && l.all (fun e => !live e.2)) = true ↔
        (r.state = .onAir ∧ ∀ e ∈ l, e.2 ≠ .playing ∧ e.2 ≠ .pending ∧ e.2 ≠ .held) := by
      have dead : ∀ x : ZoneOutcome, live x = false ↔ (x ≠ .playing ∧ x ≠ .pending ∧ x ≠ .held) := by
        intro x
        cases x <;> simp [live]
      simp [dead]
    rcases h with ⟨no, rfl⟩ | ⟨air, dead, h⟩
    · rw [if_neg (by rw [none_]; exact no)]
    · rw [if_pos (none_.mpr ⟨air, dead⟩)]
      exact endPageSeq_of (r := { r with reports := l }) h

/-- An ALL-STOP at the PGO (R122). -/
theorem pgoAllStop_of {s t : State} (h : Chain (LinePageEnds .allStop) (s.pgo.pages.filter fun r => decide (r.cls = .routine)) s t) :
    pgoAllStop s = t :=
  forEach_chain (fun _ _ _ _ e => endPageSeq_of e) h

end Sys2Proof.Machine
end

