-- ==== Sys2Proof/Laws/Delivery.lean ====
section
/-! SUPPORT. Own delivery (R10), said once: what deliverOwn makes of each notice, by the relations of Safety.lean, and what it leaves of the link. -/

namespace Sys2Proof.Machine

/-! ### What own delivery leaves of the link -/

/-- The link state and the drop run are the same. -/
def LinkKept (s t : State) : Prop := t.clc.link = s.clc.link ∧ t.clc.dropRun = s.clc.dropRun

theorem LinkKept.refl (s : State) : LinkKept s s := ⟨rfl, rfl⟩

theorem LinkKept.trans {s t u : State} (h : LinkKept s t) (k : LinkKept t u) : LinkKept s u :=
  ⟨k.1.trans h.1, k.2.trans h.2⟩

/-- What is kept from a state with the same link is kept. -/
theorem LinkKept.since {s t u : State} (k : LinkKept t u) (h : LinkKept s t) : LinkKept s u := h.trans k

theorem LinkKept.noticed {s t : State} (h : LinkKept s t) (ns : List Notice) : LinkKept s (noticed ns t) :=
  ⟨(noticed_link ns t).trans h.1, (noticed_dropRun ns t).trans h.2⟩

theorem LinkKept.chain {α : Type} {happens : α → State → State → Prop} {l : List α} {s t : State}
    (step : ∀ a u v, happens a u v → LinkKept u v) (h : Chain happens l s t) : LinkKept s t :=
  ⟨Chain.keeps (fun v : State => v.clc.link) (fun a _ u v e => (step a u v e).1) h,
    Chain.keeps (fun v : State => v.clc.dropRun) (fun a _ u v e => (step a u v e).2) h⟩

theorem orbitFreed_link {i : OrbitSlot} {s t : State} (h : OrbitFreed i s t) : LinkKept s t := by
  obtain ⟨x, -, ⟨-, rfl⟩ | ⟨r, b, a, -, -, -, ⟨-, rfl⟩ | ⟨-, -, -, rfl⟩⟩⟩ := h
  · exact ⟨rfl, rfl⟩
  · exact LinkKept.noticed ⟨rfl, rfl⟩ _
  · exact ⟨rfl, rfl⟩

theorem callEnds_link {x : Option EndReason} {o : Offer} {s t : State} (h : CallEnds x o s t) : LinkKept s t := by
  obtain ⟨b, a, -, -, ⟨-, -, rfl⟩ | ⟨i, v, -, -, f, rfl⟩⟩ := h
  · exact (LinkKept.refl s).noticed _
  · exact ((LinkKept.refl s).noticed _).trans ((orbitFreed_link f).trans ⟨rfl, rfl⟩)

theorem offeredAgain_link {o o' : Offer} {g b a} {s t : State} (h : OfferedAgain o g o' b a s t) : LinkKept s t := by
  rcases h with ⟨-, h⟩ | ⟨-, -, rfl⟩
  · exact callEnds_link h
  · exact ⟨rfl, rfl⟩

theorem codePageAsked_link {i x} {s t : State} (h : CodePageAsked i x s t) : LinkKept s t := by
  rcases h with ⟨-, -, -, -, rfl⟩ | ⟨-, rfl⟩ <;> exact ⟨rfl, rfl⟩

theorem actionTaken_link {ac : QueueExpiryAction} {o g p b a} {s t : State} (h : ActionTaken ac o g p b a s t) : LinkKept s t := by
  rcases h with ⟨-, h⟩ | ⟨-, -, h⟩ | ⟨-, -, rfl⟩ | ⟨-, -, -, -, rfl⟩ | ⟨-, -, -, i, -, -, h⟩
  · exact callEnds_link h
  · exact callEnds_link h
  · exact ⟨rfl, rfl⟩
  · exact ⟨rfl, rfl⟩
  · exact (codePageAsked_link h).since ⟨rfl, rfl⟩

theorem overflowed_link {o b a} {s t : State} (h : Overflowed o b a s t) : LinkKept s t := by
  obtain ⟨g, -, ⟨-, h⟩ | ⟨p, -, h⟩⟩ := h
  · exact callEnds_link h
  · rcases h with ⟨-, h⟩ | ⟨-, h⟩ | ⟨-, h⟩ | ⟨-, -, h⟩ | ⟨-, -, -, h⟩ | ⟨-, -, -, ⟨-, h⟩ | ⟨-, -, rfl⟩ | ⟨-, -, rfl⟩⟩
    · exact actionTaken_link h
    · exact actionTaken_link h
    · exact actionTaken_link h
    · exact actionTaken_link h
    · exact actionTaken_link h
    · exact callEnds_link h
    · exact ⟨rfl, rfl⟩
    · exact ⟨rfl, rfl⟩

theorem nextStep_link {o b a} {s t : State} (h : NextStep o b a s t) : LinkKept s t := by
  rcases h with ⟨-, rfl⟩ | ⟨-, g, -, ⟨-, h⟩ | ⟨-, h⟩⟩
  · exact ⟨rfl, rfl⟩
  · exact offeredAgain_link h
  · exact overflowed_link h

theorem membersLost_link {p c} {s t : State} (h : MembersLost p c s t) : LinkKept s t := by
  rcases h with ⟨-, rfl⟩ | ⟨-, o, b, a, -, -, ⟨-, rfl⟩ | ⟨-, -, ⟨-, rfl⟩ | ⟨-, -, h⟩ | ⟨-, -, h⟩⟩⟩
  · exact ⟨rfl, rfl⟩
  · exact ⟨rfl, rfl⟩
  · exact ⟨rfl, rfl⟩
  · exact (nextStep_link h).since ⟨rfl, rfl⟩
  · exact (callEnds_link h).since ⟨rfl, rfl⟩

theorem reservationEnds_link {c} {s t : State} (h : ReservationEnds c s t) : LinkKept s t := by
  rcases h with ⟨-, rfl⟩ | ⟨-, l, v, -, -, -, rfl⟩
  · exact LinkKept.refl _
  · exact LinkKept.noticed ⟨rfl, rfl⟩ _

theorem ringStarts_link (l c cad g) (s : State) : LinkKept s (ringStarts l c cad g s) := by
  have clc : (ringStarts l c cad g s).clc = (noticed [.ringStarted c l (g.bind (indexIn (lineOf s l).memberships))
      (lineOf s l).pickup] (withLine l (ringingRecord s c cad g (lineOf s l)) s)).clc := by
    unfold ringStarts
    rw [← viewEnter_eq, (viewEnter_frame ..).1]
    rfl
  have k := LinkKept.noticed (s := s) (t := withLine l (ringingRecord s c cad g (lineOf s l)) s) ⟨rfl, rfl⟩
    [.ringStarted c l (g.bind (indexIn (lineOf s l).memberships)) (lineOf s l).pickup]
  exact ⟨(congrArg (·.link) clc).trans k.1, (congrArg (·.dropRun) clc).trans k.2⟩

theorem memberAnswers_link {c g tried} {s t : State} (h : MemberAnswers c g tried s t) : LinkKept s t := by
  rcases h with ⟨-, rfl⟩ | ⟨-, h⟩ | ⟨-, -, l, i, k, -, -, -, rfl⟩
  · exact LinkKept.refl _
  · refine LinkKept.chain (fun x u v hv => ?_) h
    rcases hv with ⟨-, -, rfl⟩ | ⟨-, rfl⟩
    · exact ringStarts_link ..
    · exact LinkKept.refl _
  · exact LinkKept.noticed ⟨rfl, rfl⟩ _

theorem assignTaken_link {c cab l cad} {s t : State} (h : AssignTaken c cab l cad s t) : LinkKept s t := by
  obtain ⟨-, ⟨-, h⟩ | ⟨m, v, -, -, h, rfl⟩⟩ := h
  · rcases h with ⟨-, rfl⟩ | ⟨-, -, ⟨g, -, rfl⟩ | ⟨-, rfl⟩⟩
    · exact ⟨rfl, rfl⟩
    · exact (ringStarts_link ..).since ⟨rfl, rfl⟩
    · exact LinkKept.noticed ⟨rfl, rfl⟩ _
  · refine LinkKept.trans (t := v) ?_ (LinkKept.noticed ⟨rfl, rfl⟩ _)
    rcases h with ⟨-, rfl⟩ | ⟨-, -, ⟨g, -, rfl⟩ | ⟨-, rfl⟩⟩
    · exact ⟨rfl, rfl⟩
    · exact (ringStarts_link ..).since ⟨rfl, rfl⟩
    · exact LinkKept.noticed ⟨rfl, rfl⟩ _

theorem partyLoses_link {c reason l} {s t : State} (h : PartyLoses c reason l s t) : LinkKept s t := by
  rcases h with ⟨-, rfl⟩ | ⟨-, x, -, -, -, -, rfl⟩ | ⟨-, -, rfl⟩
  · exact ⟨rfl, rfl⟩
  · exact ⟨by simp, by simp⟩
  · exact ⟨rfl, rfl⟩

theorem lineConnects_link {c cab n g i l} {s t : State} (h : LineConnects c cab n g i l s t) : LinkKept s t := by
  rcases h with ⟨-, -, rfl⟩ | ⟨-, -, -, rfl⟩ | ⟨-, h⟩
  · exact ⟨rfl, rfl⟩
  · exact ⟨rfl, rfl⟩
  · exact partyLoses_link h

theorem linePageEnds_link {reason r} {s t : State} (h : LinePageEnds reason r s t) : LinkKept s t := by
  obtain ⟨l, b, a, -, -, -, -, -, ⟨-, rfl⟩ | ⟨-, -, rfl⟩⟩ := h
  · exact ⟨by simp [pageEnded], by simp [pageEnded]⟩
  · exact ⟨rfl, rfl⟩

/-- An own delivery leaves the link state and the drop run. -/
theorem ownDelivery_frame (n : Notice) (s u : State) (h : OwnDelivery n s u) : LinkKept s u := by
  cases n with
  | status | probe => exact h.elim
  | offer c g a tried =>
    obtain ⟨v, w, wo, re, ma⟩ := h
    have k : LinkKept s v := by
      rcases wo with ⟨o, b, a, -, -, -, rfl⟩ | ⟨-, rfl⟩ <;> exact ⟨rfl, rfl⟩
    exact k.trans (LinkKept.trans ((reservationEnds_link re).since ⟨rfl, rfl⟩) (memberAnswers_link ma))
  | bid c l i k =>
    rcases h with ⟨-, rfl⟩ | ⟨o, p, q, -, -, ⟨-, rfl⟩ | ⟨w, w', -, -, rfl, -⟩⟩ <;> exact ⟨rfl, rfl⟩
  | ringAssign c cab l cad =>
    obtain ⟨v, ha, ht⟩ := h
    have k : LinkKept v u := by
      rcases ht with ⟨o, b, a, -, -, -, rfl⟩ | ⟨-, rfl⟩ <;> exact ⟨rfl, rfl⟩
    exact (assignTaken_link ha).trans k
  | decline c l =>
    rcases h with ⟨-, rfl⟩ | ⟨o, b, a, -, -, -, ⟨cb, dl, -, h⟩ | ⟨g, m, -, -, h⟩⟩
    · exact ⟨rfl, rfl⟩
    · exact (callEnds_link h).since ⟨rfl, rfl⟩
    · exact (nextStep_link h).since ⟨rfl, rfl⟩
  | ringStarted c l i p =>
    rcases h with ⟨-, rfl⟩ | ⟨-, -, rfl, -⟩ | ⟨o, b, a, -, -, -, ⟨-, rfl⟩ | ⟨-, rfl⟩⟩
    · exact ⟨rfl, rfl⟩
    · exact (LinkKept.refl s).noticed _
    · exact ⟨rfl, rfl⟩
    · exact ⟨rfl, rfl⟩
  | ringEnded c l r =>
    rcases h with ⟨-, rfl⟩ | ⟨-, h⟩
    · exact ⟨rfl, rfl⟩
    · exact membersLost_link h
  | noAnswer c l => exact membersLost_link h
  | answered c l i =>
    obtain ⟨-, rfl⟩ := h
    exact LinkKept.refl _
  | claim t cab l =>
    cases t with
    | call c =>
      obtain ⟨-, rfl⟩ := h
      exact ⟨rfl, rfl⟩
    | orbit o =>
      obtain ⟨-, rfl⟩ := h
      exact LinkKept.refl _
  | connected c cab l g i =>
    obtain ⟨v, w, re, ch, rfl⟩ := h
    have k : LinkKept s (offerForgotten c (rotated g i s)) := by
      cases g <;> cases i <;> exact ⟨rfl, rfl⟩
    exact (k.trans (reservationEnds_link re)).trans ((LinkKept.chain (fun _ _ _ e => lineConnects_link e) ch).trans ⟨rfl, rfl⟩)
  | refused t cab l r =>
    rcases h with ⟨-, -, rfl⟩ | ⟨-, rfl⟩ <;> exact ⟨rfl, rfl⟩
  | cancel c =>
    obtain ⟨v, w, ch, re, rfl⟩ := h
    exact LinkKept.trans (t := v) ((LinkKept.chain (fun _ _ _ e => partyLoses_link e) ch).since ⟨rfl, rfl⟩)
      ((reservationEnds_link re).trans ⟨rfl, rfl⟩)
  | available g =>
    refine LinkKept.chain (fun _ u v e => ?_) h
    rcases e with ⟨-, rfl⟩ | ⟨o, b, a, h, ahead, x, behind, -, -, -, -, -, e⟩
    · exact LinkKept.refl _
    · exact offeredAgain_link e
  | pageStart b =>
    obtain ⟨v, sa, zt⟩ := h
    have k : LinkKept s v := by
      rcases sa with ⟨r, b, a, -, -, rfl⟩ | ⟨-, -, rfl⟩
      · split <;> exact ⟨rfl, rfl⟩
      · exact (LinkKept.refl s).noticed _
    exact k.trans (zonesTake_link zt)
  | pageEnd p cls r =>
    obtain ⟨v, ch, rfl⟩ := h
    have leaves : ∀ z u w, PageLeaves p z u w → LinkKept u w := by
      rintro z u w ⟨x, f, e⟩
      have k₁ := (zoneFreed_frame f).2.2.2.2
      refine LinkKept.trans (t := x) ⟨k₁.1, k₁.2⟩ ?_
      rcases e with ⟨-, rfl⟩ | ⟨-, -, ⟨-, rfl⟩ | ⟨-, e⟩⟩
      · exact ⟨rfl, rfl⟩
      · exact ⟨rfl, rfl⟩
      · have k₂ := (resumes_frame e).2.2.2.2
        exact ⟨k₂.1, k₂.2⟩
    exact ((LinkKept.chain leaves ch).since ⟨rfl, rfl⟩).trans ⟨rfl, rfl⟩
  | zoneReport p z o =>
    rcases h with ⟨-, rfl⟩ | ⟨r, b, a, -, -, ⟨-, rfl⟩ | ⟨-, -, h⟩⟩
    · exact ⟨rfl, rfl⟩
    · exact ⟨rfl, rfl⟩
    · exact (linePageEnds_link h).since ⟨rfl, rfl⟩
  | allStop cab =>
    obtain ⟨v, ch, zf⟩ := h
    have freed : ∀ z u w, ZoneFreed (fun e => decide (e.cls = .routine ∨ e.cls = .code)) z u w → LinkKept u w := fun z u w e =>
      ⟨(zoneFreed_frame e).2.2.2.2.1, (zoneFreed_frame e).2.2.2.2.2⟩
    exact LinkKept.trans (t := v) (LinkKept.chain (fun _ _ _ e => linePageEnds_link e) ch)
      ((LinkKept.chain freed zf).since ⟨rfl, rfl⟩)

/-! ### Each notice (R10, R12) -/

/-- A notice of a block reaches the part's own blocks as OwnDelivery says (R10). -/
theorem deliverOwn_of (n : Notice) (s u : State) (h : OwnDelivery n s u) : deliverOwn n s = u := by
  cases n with
  | status | probe => exact h.elim
  | offer c g a tried =>
    obtain ⟨v, w, wo, re, ma⟩ := h
    simp only [deliverOwn, openWindow_of wo]
    exact memberOffer_of re ma
  | bid c l i k => exact ownerBid_of h
  | ringAssign c cab l cad =>
    obtain ⟨v, ha, ht⟩ := h
    simp only [deliverOwn, takeAssign_of ha]
    exact startAssignTimer_of ht
  | decline c l => exact takeDecline_of h
  | ringStarted c l i p => exact takeRingStarted_of h
  | ringEnded c l r =>
    simp only [deliverOwn, takeRingEnded]
    rcases h with ⟨no, rfl⟩ | ⟨yes, h⟩
    · rw [if_neg (by simp [no])]
    · rw [if_pos yes]
      exact membersLost_of h
  | noAnswer c l => exact membersLost_of h
  | answered c l i =>
    obtain ⟨no, rfl⟩ := h
    simp only [deliverOwn, takeAnswer, if_neg no]
  | claim t cab l =>
    cases t with
    | call c =>
      obtain ⟨no, rfl⟩ := h
      have away : takeClaim (.call c) cab l false s = s := if_neg no
      simp only [deliverOwn, away, markClaim]
      rfl
    | orbit o =>
      obtain ⟨no, rfl⟩ := h
      have away : takeClaim (.orbit o) cab l false u = u := if_neg no
      simp only [deliverOwn, away, markClaim]
  | connected c cab l g i =>
    obtain ⟨v, w, re, ch, rfl⟩ := h
    have hunt : huntConnected c g i s = v := by
      refine Eq.trans ?_ (releaseCall_of re)
      cases g <;> cases i <;> rfl
    simp only [deliverOwn, takeConnected, hunt, lineConnected]
    rw [forEach_chain (fun _ _ _ _ e => lineConnects_of e) ch]
    rfl
  | refused t cab l r =>
    simp only [deliverOwn, takeRefused, takeRefusal]
    rcases h with ⟨here, aw, rfl⟩ | ⟨no, rfl⟩
    · rw [if_pos here, if_pos aw]
      exact resolveLost_eq l s
    · split
      · next here => rw [if_neg (by rw [no here]; simp)]
      · rfl
  | cancel c =>
    obtain ⟨v, w, ch, re, rfl⟩ := h
    have lines : forEach allLines (cancelAt c) (huntCancel c s) = v :=
      forEach_chain (fun _ _ _ _ e => partyLoses_of e (by simp)) ch
    simp only [deliverOwn, takeCancel, lineCancel, lines, releaseCall_of re]
    rfl
  | available g => exact takeAvailable_of h
  | pageStart b =>
    obtain ⟨v, sa, zt⟩ := h
    simp only [deliverOwn, ownPageStart_of sa]
    exact zonePageStart_of zt
  | pageEnd p cls r =>
    obtain ⟨v, ch, rfl⟩ := h
    simp only [deliverOwn, takePageEnd, pgoPageEnd, freeViewPage, freeView_filter]
    rw [zonePageEnd_of ch, clearCodePage_eq]
  | zoneReport p z o => exact pgoReport_of h
  | allStop cab =>
    obtain ⟨v, ch, zf⟩ := h
    simp only [deliverOwn, takeAllStop, pgoAllStop_of ch]
    refine Eq.trans (congrArg zoneAllStop ?_) (zonesFreed_of zf)
    simp only [ppuAllStop, onPpu]

/-- No such notice is a STATUS or a PROBE. -/
theorem ownDelivery_notice (n : Notice) (s u : State) (h : OwnDelivery n s u) : isHousekeeping n = false ∧ isProbe n =
    false := by
  cases n <;> first | exact ⟨rfl, rfl⟩ | exact h.elim

/-! ### Every waiting notice -/

/-- Waiting notices are delivered one after another (R10, log 4). -/
theorem drain_deliveredIn {k fuel : Nat} {s t : State} (h : deliveredIn k s t) (le : k ≤ fuel) :
    drain fuel s = t ∧ t.deliveries = [] ∧ t.clc.link = s.clc.link ∧ t.clc.dropRun = s.clc.dropRun := by
  induction k generalizing fuel s with
  | zero =>
    obtain ⟨d, rfl⟩ := h
    exact ⟨drain_nil _ _ d, d, rfl, rfl⟩
  | succ k ih =>
    rcases h with ⟨d, rfl⟩ | ⟨n, rest, u, d, own, more⟩
    · exact ⟨drain_nil _ _ d, d, rfl, rfl⟩
    · obtain ⟨fuel, rfl⟩ : ∃ f, fuel = f + 1 := ⟨fuel - 1, by omega⟩
      obtain ⟨a, b, c, e⟩ := ih more (by omega : k ≤ fuel)
      have f := ownDelivery_frame _ _ _ own
      refine ⟨?_, b, c.trans f.1, e.trans f.2⟩
      rw [drain, d]
      simp only [setDeliveries, deliverOwn_of _ _ _ own]
      exact a

/-- Every waiting notice is delivered (R10). -/
theorem deliverAll_of {s t : State} (h : Delivered s t) :
    deliverAll s = t ∧ t.deliveries = [] ∧ t.clc.link = s.clc.link ∧ t.clc.dropRun = s.clc.dropRun := by
  obtain ⟨k, le, h⟩ := h
  exact drain_deliveredIn h le

/-- A notice that is delivered is no STATUS and no PROBE. -/
theorem delivered_notice {n : Notice} {s t : State} (h : Delivered { s with deliveries := [n] } t) :
    isHousekeeping n = false ∧ isProbe n = false := by
  obtain ⟨k, -, h⟩ := h
  cases k with
  | zero => exact absurd h.1 (by simp)
  | succ k =>
    rcases h with ⟨d, -⟩ | ⟨m, rest, u, d, own, -⟩
    · exact absurd d (by simp)
    · obtain ⟨rfl, rfl⟩ := List.cons.inj d
      exact ownDelivery_notice _ _ _ own

/-- A command that leaves notices for own delivery answers what their delivery leaves. -/
theorem exec_delivered {c : Instr} {f : State → State} {s t u : State} (h : exec c s = act f s) (r : s.pins.reset = false)
    (key : f (fresh s) = t) (d : Delivered t u) : exec c s = .next u := by
  rw [h, act, r, if_neg (by simp), key, (deliverAll_of d).1]

/-- A notice of a block is put to wait for own delivery. -/
theorem deliverLater_one (n : Notice) (s : State) (hh : isHousekeeping n = false) (ds : s.deliveries = [])
    : deliverLater n s = { s with deliveries := [n] } := by
  simp only [deliverLater, hh, ds]
  rfl

end Sys2Proof.Machine
end

