-- ==== Sys2Proof/Laws/Load.lean ====
section
/-! SUPPORT. What a load leaves, said once: the sum of the words, and every field after a good load. -/

namespace Sys2Proof.Machine

/-- The sum of the first words, as a number (R180). -/
theorem wordSum_toNat (memory : List Byte) (n : Nat) (hn : n ≤ 244): (wordSum memory n).toNat =
    (((List.range n).map fun i => (wordAt memory i).toNat).sum) % 65536 := by
  induction n with
  | zero => rfl
  | succ n ih => rw [List.range_succ, wordSum, BitVec.toNat_add, ih (by omega)]; simp

/-- A zone whose amplifier-fault input reads inactive stays as it is at a good load (R125). -/
theorem loadFault_none (z : LocalZone) (s : State) (h : s.pins.ampFault.get z = false) : loadFault z s = s := by
  simp [loadFault, h]

/-- A run over the zones, written out. -/
theorem forEach_allZones (f : LocalZone → State → State) (s : State) : forEach allZones f s = f 3
    (f 2 (f 1 (f 0 s))) := rfl

/-- What a good load makes of a zone by its amplifier-fault input (R125, R142): an active one sets the flag, and takes a zone in
service to FAULT. -/
def faultedRecord (active : Bool) (r : ZoneRec) : ZoneRec :=
  if active then { r with ampFault := true, state := if r.state = .outOfService then .outOfService else .fault } else r

/-- The zones of a list whose amplifier-fault inputs are active and that are in service. -/
def faultyZones (zs : List LocalZone) (s : State) : List LocalZone :=
  zs.filter fun z => s.pins.ampFault.get z && !decide ((zoneOf s z).state = .outOfService)

/-- An amplifier-fault input at a good load, at a zone whose places are empty: the record, AMP-FAULT where it is in service, and orders
(R142). -/
theorem loadFault_eq (z : LocalZone) (s : State) (active : (zoneOf s z).active = none) (held : (zoneOf s z).held = none)
    (pending : (zoneOf s z).pending = []) (evac : (zoneOf s z).evac = []) (silent : sounding (zoneOf s z).state = false) :
    ∃ os, loadFault z s = withOutputs os (withZone z (faultedRecord (s.pins.ampFault.get z) (zoneOf s z))
      (if s.pins.ampFault.get z && !decide ((zoneOf s z).state = .outOfService)
        then raise .ampFault (numberOf s z).val .zc s else s)) := by
  unfold loadFault faultActive
  cases h : s.pins.ampFault.get z with
  | false =>
    refine ⟨s.outputs, ?_⟩
    simp only [faultedRecord, Bool.false_eq_true, if_false, Bool.false_and]
    simp [withOutputs, withZone, zoneOf]
  | true =>
    by_cases o : (zoneOf s z).state = .outOfService
    · exact ⟨s.outputs, by simp [faultedRecord, onZone_eq, o, zoneOf_withZone_self]; rfl⟩
    · refine ⟨s.outputs ++ [.amplifier z false, .source z .none], ?_⟩
      simp only [onZone_eq, zoneOf_withZone_self, o, if_false, enterFault, placedPages, pickActive, pickHeld, active, held, pending,
        evac, reportAll, forEach, Option.toList_none, List.append_nil, List.map_nil, Option.isSome_none, Bool.false_eq_true,
        enterState_eq, silent, Bool.false_and, zoneEnters, faultedRecord, if_true]
      simp [withZone, withOutputs, raise, numberOf, own, amplifierOrder, sourceOrder, zoneActive, zoneOf]

/-- The amplifier-fault inputs at a good load, over zones whose places are empty. -/
theorem loadFaults_eq (zs : List LocalZone) (distinct : zs.Nodup) (s : State)
    (quiet : ∀ z ∈ zs, (zoneOf s z).active = none ∧ (zoneOf s z).held = none ∧ (zoneOf s z).pending = [] ∧ (zoneOf s z).evac = []
      ∧ sounding (zoneOf s z).state = false) :
    ∃ os zones, forEach zs loadFault s = withOutputs os { s with
        zc := { s.zc with zones := zones }
        spu := ((faultyZones zs s).foldl (fun u z => raise .ampFault (numberOf s z).val .zc u) s).spu }
      ∧ ∀ z, zones.get z = if z ∈ zs then faultedRecord (s.pins.ampFault.get z) (zoneOf s z) else zoneOf s z := by
  have spu : ∀ (l : List LocalZone) (n : LocalZone → Nat) (u v : State), u.spu = v.spu →
      (l.foldl (fun u z => raise .ampFault (n z) .zc u) u).spu = (l.foldl (fun u z => raise .ampFault (n z) .zc u) v).spu := by
    intro l n
    induction l with
    | nil => exact fun _ _ h => h
    | cons z l ih => exact fun u v h => ih _ _ (by simp only [raise, h])
  induction zs generalizing s with
  | nil => exact ⟨s.outputs, s.zc.zones, rfl, fun z => by simp [zoneOf]⟩
  | cons z zs ih =>
    obtain ⟨hz, distinct⟩ := List.nodup_cons.1 distinct
    obtain ⟨a, h, p, e, q⟩ := quiet z (List.mem_cons_self ..)
    obtain ⟨os, one⟩ := loadFault_eq z s a h p e q
    have other : ∀ y, y ≠ z → zoneOf (loadFault z s) y = zoneOf s y := by
      intro y hy
      rw [one]
      split <;> simp [zoneOf, withOutputs, withZone, raise, hy]
    obtain ⟨os', zones, all, get⟩ := ih distinct (loadFault z s) fun y hy => by
      rw [other y (fun e => hz (e ▸ hy))]
      exact quiet y (List.mem_cons_of_mem _ hy)
    have pins : (loadFault z s).pins = s.pins := by rw [one]; split <;> rfl
    have nums : ∀ y, numberOf (loadFault z s) y = numberOf s y := by intro y; rw [one]; split <;> rfl
    refine ⟨os', zones, ?_, fun y => ?_⟩
    · rw [show forEach (z :: zs) loadFault s = forEach zs loadFault (loadFault z s) from rfl, all]
      have f : faultyZones zs (loadFault z s) = faultyZones zs s := by
        unfold faultyZones
        apply List.filter_congr
        intro y hy
        rw [pins, other y (fun e => hz (e ▸ hy))]
      have c : faultyZones (z :: zs) s = if s.pins.ampFault.get z && !decide ((zoneOf s z).state = .outOfService)
          then z :: faultyZones zs s else faultyZones zs s := by simp [faultyZones, List.filter_cons]
      simp only [f, nums, c]
      by_cases g : (s.pins.ampFault.get z && !decide ((zoneOf s z).state = .outOfService)) = true
      · rw [if_pos g] at one
        rw [if_pos g, List.foldl_cons, spu _ _ (loadFault z s) (raise .ampFault (numberOf s z).val .zc s) (by rw [one]; rfl), one]
        rfl
      · rw [if_neg g] at one
        rw [if_neg g, spu _ _ (loadFault z s) s (by rw [one]; rfl), one]
        rfl
    · rw [get, pins]
      by_cases hy : y = z
      · subst hy
        rw [if_neg hz, if_pos (List.mem_cons_self ..), one]
        split <;> simp [zoneOf, withOutputs, withZone]
      · simp only [other y hy, List.mem_cons, hy, false_or]

/-- The state after a good load, field by field (R183): only the orders are left open. -/
theorem goodLoad_fields (img : Image) (s : State) :
    ∃ os zones lv, goodLoad img s = withOutputs os { s with
      phase := .listening
      clc := { s.clc with
        address := img.address, link := .listening
        peers := s.clc.peers.modify img.address fun e => { e with state := .present } }
      lu := img.lines.map loadedLine, he := { s.he with groups := img.groups }
      pgo := { s.pgo with alarmGroup := img.alarmGroup }
      zc := { zones := zones, routineMax := img.routineMax, alarmMax := img.alarmMax }
      ts := { s.ts with notes := some img.notes }, lvu := lv
      spu := { ((allZones.filter fun z => s.pins.ampFault.get z && (img.zones.get z).inService).foldl
        (fun u z => raise .ampFault (4 * img.address.val + z.val) .zc u) s).spu with mask := img.mask } }
      ∧ (∀ z, zones.get z = faultedRecord (s.pins.ampFault.get z) (loadedZone (img.zones.get z)))
      ∧ ∀ z, lv.get z = (let p := (img.zones.get z).level; let t := targetOf p (ambientLevel (16 * p.fallback)) none;
         { faultRun := 0, failed := false, holdOff := 0, smoothed := 16 * p.fallback
           level := ambientLevel (16 * p.fallback), target := t, current := t }) := by
  obtain ⟨u, g, os, lv, e, hl⟩ : ∃ u, goodLoad img s = forEach allZones loadFault u ∧ ∃ os lv, u = withOutputs os { s with
      phase := .listening
      clc := { s.clc with
        address := img.address, link := .listening
        peers := s.clc.peers.modify img.address fun e => { e with state := .present } }
      lu := img.lines.map loadedLine, he := { s.he with groups := img.groups }
      pgo := { s.pgo with alarmGroup := img.alarmGroup }
      zc := { zones := img.zones.map loadedZone, routineMax := img.routineMax, alarmMax := img.alarmMax }
      ts := { s.ts with notes := some img.notes }, lvu := lv, spu := { s.spu with mask := img.mask } }
      ∧ ∀ z, lv.get z = (let p := (img.zones.get z).level; let t := targetOf p (ambientLevel (16 * p.fallback)) none;
         { faultRun := 0, failed := false, holdOff := 0, smoothed := 16 * p.fallback
           level := ambientLevel (16 * p.fallback), target := t, current := t }) := by
    refine ⟨_, rfl, ?_⟩
    simp only [forEach_allZones, loadLevel, loadZones, selectOutputs, emit_eq, onLevel_eq, loadClc, loadLines, onClc,
      onPgo, onHe, onSpu, setPhase, withOutputs, withLevel, zoneOf, Table.get_map, loadedZone]
    refine ⟨_, _, rfl, ?_⟩
    intro z
    simp only [Table.get_set]
    match z with
    | 0 => rfl
    | 1 => rfl
    | 2 => rfl
    | 3 => rfl
  obtain ⟨os', zones, f, hz⟩ := loadFaults_eq allZones (by decide) u (by
    rw [e]
    intro z _
    simp only [zoneOf, withOutputs, Table.get_map, loadedZone]
    refine ⟨rfl, rfl, rfl, rfl, ?_⟩
    split <;> rfl)
  refine ⟨os', zones, lv, ?_, ?_, hl⟩
  · have faulty : faultyZones allZones u = allZones.filter fun z => s.pins.ampFault.get z && (img.zones.get z).inService := by
      apply List.filter_congr
      intro z _
      rw [e]
      simp only [withOutputs, zoneOf, Table.get_map, loadedZone]
      cases (img.zones.get z).inService <;> simp
    have number : ∀ z, (numberOf u z).val = 4 * img.address.val + z.val := by
      intro z
      rw [e]
      rfl
    have masked : ∀ (l : List LocalZone) (n : LocalZone → Nat) (m : BitVec 12) (u v : State), u.spu = { v.spu with mask := m } →
        (l.foldl (fun u z => raise .ampFault (n z) .zc u) u).spu
          = { (l.foldl (fun u z => raise .ampFault (n z) .zc u) v).spu with mask := m } := by
      intro l n m
      induction l with
      | nil => exact fun _ _ h => h
      | cons z l ih => exact fun u v h => ih _ _ (by simp only [raise, h])
    rw [g, f, faulty]
    simp only [number]
    rw [masked _ _ img.mask u s (by rw [e]; rfl), e]
    rfl
  · intro z
    rw [hz, if_pos (show z ∈ allZones from List.mem_finRange z), e]
    simp only [zoneOf, withOutputs, Table.get_map]

end Sys2Proof.Machine
end

