-- ==== Sys2Proof/Laws/Losses.lean ====
section
/-! SUPPORT. What a peer's silence, and the part's own leaving of the link, end: the steps of each, by the relations of Safety.lean. -/

namespace Sys2Proof.Machine

/-- The part has aged its peer table, and one peer alone falls silent (R20). -/
theorem agingTick_silent {p : Cabinet} {s : State} (h : FallsSilent p s) : agingTick s
    = zonePeerSilent p (silenceViewed p (linePeerSilent p
        (forEach (s.ofm.offers.map (·.seq)) (loseAt fun m => decide (m.cab = p)) (silenceHeard p s)))) := by
  obtain ⟨reads, ne, pr, ag, others⟩ := h
  generalize hB : ({ s with clc := { s.clc with
    peers := Table.build 16 fun p => if p = own s then peerOf s p else secondOlder (peerOf s p) } } : State) = B
  have aged : agePeers s = B := by rw [agePeers_eq, ← hB]
  have pB : ∀ q, peerOf B q = if q = own s then peerOf s q else secondOlder (peerOf s q) := by
    intro q
    rw [← hB]
    simp [peerOf]
  have oB : own B = own s := by rw [← hB]; rfl
  have falls : ∀ q, fallsSilent B q = decide (q = p) := by
    intro q
    simp only [fallsSilent, pB, oB]
    apply decide_eq_decide.mpr
    constructor
    · rintro ⟨h1, h2, h3⟩
      rw [if_neg h1] at h2 h3
      apply Classical.byContradiction
      intro hp
      have := others q h1 hp
      simp only [secondOlder, silentAge] at *
      split at h2
      · next e => rw [e] at h2; simp at h2
      · next e =>
        rw [if_neg e] at h3
        have := this h2
        simp at h3
        omega
    · rintro rfl
      refine ⟨ne, ?_, ?_⟩
      · rw [if_neg ne]
        simp [secondOlder, pr]
      · rw [if_neg ne]
        simp [secondOlder, pr, silentAge]
        omega
  have alone : allCabinets.filter (fallsSilent B) = [p] := by
    have : fallsSilent B = fun q => decide (q = p) := funext falls
    rw [this]
    exact (by decide : ∀ p : Cabinet, allCabinets.filter (fun q => decide (q = p)) = [p]) p
  have e : agingTick s = peerSilent p (takeChoice B) := by
    simp only [agingTick, aged, alone, orderBy, orderInto, forEach]
    cases hl : s.clc.link <;> simp [hl, readsBus] at reads ⊢
  have heard : ownerPeerSilent p (raise .peerSilent p.val .clc
      (modPeer p (fun e => { e with state := .silent, channels := Table.fill 4 none }) (takeChoice B))) = silenceHeard p s := by
    have peers : (B.clc.peers.modify p fun e => { e with state := .silent, channels := Table.fill 4 none })
        = Table.build 16 (silencedPeer p s) := by
      apply Table.ext_get
      intro q
      rw [← hB]
      simp only [Table.get_modify, Table.get_build, silencedPeer]
      by_cases h1 : q = p
      · subst h1
        simp [ne]
      · by_cases h2 : q = own s
        · subst h2
          simp [Ne.symm ne]
        · simp [h1, h2]
    simp only [ownerPeerSilent, modPeer, onClc, takeChoice, onOfm, withdraw, silenceHeard, withWithdrawn, raise]
    rw [peers]
    subst hB
    rfl
  have seqs : offerSeqs (silenceHeard p s) = s.ofm.offers.map (·.seq) := by
    have : (silenceHeard p s).ofm.offers = s.ofm.offers.map fun o =>
      { o with window := o.window.map fun l => l.filter fun b => !decide (b.cab = p) } := rfl
    simp [offerSeqs, this, Function.comp_def]
  rw [e]
  simp only [peerSilent, ofmPeerSilent]
  rw [heard, seqs]
  generalize linePeerSilent p _ = u
  simp only [pgoPeerSilent, freeView_filter, viewRemove, onPpu, silenceViewed]

/-- The transmit queue is flushed (R15). -/
theorem flushQueue_of {s t : State} (d : s.deliveries = []) (h : Delivered (flushed s) t) : flushQueue s = t := by
  have gen : ∀ (l : List Notice) (u : State), forEach l deliverLater u
      = { u with deliveries := u.deliveries ++ l.filter fun n => !isHousekeeping n } := by
    intro l
    induction l with
    | nil => intro u; simp [forEach]
    | cons n rest ih =>
      intro u
      rw [forEach, ih]
      unfold deliverLater
      cases hk : isHousekeeping n <;> simp [hk, setDeliveries]
  simp only [flushQueue]
  rw [gen]
  have e : ({ onClc (fun c => { c with queue := [], driving := [] }) s with
      deliveries := (onClc (fun c => { c with queue := [], driving := [] }) s).deliveries
        ++ (s.clc.queue.map (·.notice)).filter fun n => !isHousekeeping n } : State) = flushed s := by
    simp [flushed, onClc, d]
  rw [e]
  exact (deliverAll_of h).1

/-- OFM and LU act on the entry to ISOLATED (R43, R64). -/
theorem tellIsolated_of {s a t : State} (h : Chain RecordIsolated s.ofm.offers s a)
    (l : Chain (LineLoses (fun c => !decide (c = own a)) .isolated) allLines a t) : tellIsolated s = t := by
  simp only [tellIsolated, ofmIsolated_of h]
  exact linesLose_of (by simp) l

/-- A lost arbitration at a queue whose attempt, if there is one, has no request waiting: the queue keeps its notices (R3, R9). -/
theorem loseArbitration_flushed (s : State) (h : ∀ x ∈ s.clc.queue, x.inAttempt = true → x.request = none) :
    flushed (loseArbitration s) = flushed s ∧ (loseArbitration s).deliveries = s.deliveries := by
  have settle : ∀ q : List TxEntry, (∀ x ∈ q, x.inAttempt = true → x.request = none) →
      (settleQueue q).map (·.notice) = q.map (·.notice) := by
    intro q
    induction q with
    | nil => intro _; rfl
    | cons x rest ih =>
      intro hx
      have r := ih fun y hy => hx y (List.mem_cons_of_mem _ hy)
      have one : ∀ y, (if x.inAttempt then settleEntry x else some x) = some y → y.notice = x.notice := by
        intro y hy
        by_cases a : x.inAttempt = true
        · rw [if_pos a, settleEntry, hx x (List.mem_cons_self ..) a] at hy
          rw [← Option.some.inj hy]
        · rw [if_neg a] at hy
          rw [← Option.some.inj hy]
      have some_ : ∃ y, (if x.inAttempt then settleEntry x else some x) = some y := by
        by_cases a : x.inAttempt = true
        · rw [if_pos a, settleEntry, hx x (List.mem_cons_self ..) a]
          exact ⟨_, rfl⟩
        · rw [if_neg a]
          exact ⟨_, rfl⟩
      obtain ⟨y, hy⟩ := some_
      rw [settleQueue, List.filterMap_cons, hy, List.map_cons, one y hy, List.map_cons]
      exact congrArg (x.notice :: ·) r
  simp only [loseArbitration]
  cases e : attemptEntry s with
  | none => exact ⟨rfl, rfl⟩
  | some x =>
    have mem : x ∈ s.clc.queue ∧ x.inAttempt = true :=
      ⟨List.mem_of_find?_eq_some e, by simpa using List.find?_some e⟩
    have req := h x mem.1 mem.2
    have t : tellWithdrawn x (endAttempt settleQueue s) = endAttempt settleQueue s := by simp [tellWithdrawn, req]
    simp only [t]
    refine ⟨?_, rfl⟩
    simp only [flushed, endAttempt, onClc, settle _ h]

end Sys2Proof.Machine
end

