-- ==== Sys2Proof/Laws/PerInstr.lean ====
section
/-! SUPPORT. A fact of every command as syntax: the frames heard are well-formed whatever their bytes hold, but for the frame
of unknown kind, which has a check of its own. -/

namespace Sys2Proof.Laws.HeardWellFormed

/-- A command that is a heard frame is well-formed, or a frame of unknown kind. -/
def Statement (i : Instr) : Prop :=
  (heardSource i).isSome = true → check i = none ∨ ∃ src kind length, i = .frameUnknownKind src kind length

theorem powerOn : Statement .powerOn := fun h => nomatch h
theorem resetAssert : Statement .resetAssert := fun h => nomatch h
theorem resetRelease : Statement .resetRelease := fun h => nomatch h
theorem loadComplete (memory : List Byte) : Statement (.loadComplete memory) := fun h => nomatch h
theorem join : Statement .join := fun h => nomatch h
theorem attemptStart : Statement .attemptStart := fun h => nomatch h
theorem arbitrationLost : Statement .arbitrationLost := fun h => nomatch h
theorem attemptAcknowledged : Statement .attemptAcknowledged := fun h => nomatch h
theorem attemptFailed : Statement .attemptFailed := fun h => nomatch h
theorem frameAbandoned : Statement .frameAbandoned := fun h => nomatch h
theorem frameCrcMismatch : Statement .frameCrcMismatch := fun h => nomatch h
theorem frameUnknownKind (src : Cabinet) (kind length : BitVec 5) :
    Statement (.frameUnknownKind src kind length) := fun _ => Or.inr ⟨src, kind, length, rfl⟩
theorem status (src : Cabinet) (body : RawStatus) : Statement (.status src body) := fun _ => Or.inl rfl
theorem probe (src : Cabinet) : Statement (.probe src) := fun _ => Or.inl rfl
theorem statusPeriod : Statement .statusPeriod := fun h => nomatch h
theorem probePeriod : Statement .probePeriod := fun h => nomatch h
theorem peerAgingTick : Statement .peerAgingTick := fun h => nomatch h
theorem offHook (line : Line) : Statement (.offHook line) := fun h => nomatch h
theorem onHook (line : Line) : Statement (.onHook line) := fun h => nomatch h
theorem digit (line : Line) (d : Digit) : Statement (.digit line d) := fun h => nomatch h
theorem digitTimerExpiry (line : Line) : Statement (.digitTimerExpiry line) := fun h => nomatch h
theorem reservationTimerExpiry (line : Line) : Statement (.reservationTimerExpiry line) := fun h => nomatch h
theorem cadenceIntervalExpiry (line : Line) : Statement (.cadenceIntervalExpiry line) := fun h => nomatch h
theorem noAnswerTimerExpiry (line : Line) : Statement (.noAnswerTimerExpiry line) := fun h => nomatch h
theorem verdictTimerExpiry (line : Line) : Statement (.verdictTimerExpiry line) := fun h => nomatch h
theorem wrapUpTick (line : Line) : Statement (.wrapUpTick line) := fun h => nomatch h
theorem idleSecondTick (line : Line) : Statement (.idleSecondTick line) := fun h => nomatch h
theorem callArrival (ref : Word16) (targetType : Byte) (target : Word16) :
    Statement (.callArrival ref targetType target) := fun h => nomatch h
theorem callGone (ref : Word16) : Statement (.callGone ref) := fun h => nomatch h
theorem assignTimerExpiry (call : Seq) : Statement (.assignTimerExpiry call) := fun h => nomatch h
theorem offer (src : Cabinet) (call : RawId) (group attempt : Byte) (tried : BitVec 32) :
    Statement (.offer src call group attempt tried) := fun _ => Or.inl rfl
theorem bid (src : Cabinet) (key : BidKey) (call : RawId) (line index : Byte) (payloadKey : Word16) :
    Statement (.bid src key call line index payloadKey) := fun _ => Or.inl rfl
theorem sendLimitExpiry (call : CallId) : Statement (.sendLimitExpiry call) := fun h => nomatch h
theorem bidWindowClose (call : Seq) : Statement (.bidWindowClose call) := fun h => nomatch h
theorem recyclePauseExpiry (call : Seq) : Statement (.recyclePauseExpiry call) := fun h => nomatch h
theorem queueWaitExpiry (call : Seq) : Statement (.queueWaitExpiry call) := fun h => nomatch h
theorem ringAssign (src : Cabinet) (call : RawId) (cab line cadence : Byte) :
    Statement (.ringAssign src call cab line cadence) := fun _ => Or.inl rfl
theorem decline (src : Cabinet) (call : RawId) (line : Byte) : Statement (.decline src call line) := fun _ => Or.inl rfl
theorem ringStarted (src : Cabinet) (call : RawId) (line index pickup : Byte) :
    Statement (.ringStarted src call line index pickup) := fun _ => Or.inl rfl
theorem ringEnded (src : Cabinet) (call : RawId) (line reason : Byte) :
    Statement (.ringEnded src call line reason) := fun _ => Or.inl rfl
theorem noAnswer (src : Cabinet) (call : RawId) (line : Byte) : Statement (.noAnswer src call line) := fun _ => Or.inl rfl
theorem answered (src : Cabinet) (call : RawId) (line index : Byte) :
    Statement (.answered src call line index) := fun _ => Or.inl rfl
theorem claim (src : Cabinet) (body : RawClaim) : Statement (.claim src body) := fun _ => Or.inl rfl
theorem connected (src : Cabinet) (call : RawId) (cab line group index : Byte) :
    Statement (.connected src call cab line group index) := fun _ => Or.inl rfl
theorem refused (src : Cabinet) (body : RawClaim) (reason : Byte) :
    Statement (.refused src body reason) := fun _ => Or.inl rfl
theorem cancel (src : Cabinet) (call : RawId) : Statement (.cancel src call) := fun _ => Or.inl rfl
theorem available (src : Cabinet) (groups : BitVec 16) : Statement (.available src groups) := fun _ => Or.inl rfl
theorem recallTimerExpiry (slot : OrbitSlot) : Statement (.recallTimerExpiry slot) := fun h => nomatch h
theorem repeatTimerExpiry (slot : OrbitSlot) : Statement (.repeatTimerExpiry slot) := fun h => nomatch h
theorem contactInputActive (input : ContactInput) : Statement (.contactInputActive input) := fun h => nomatch h
theorem contactInputInactive (input : ContactInput) : Statement (.contactInputInactive input) := fun h => nomatch h
theorem minimumTimerExpiry (input : ContactInput) : Statement (.minimumTimerExpiry input) := fun h => nomatch h
theorem pageStart (src : Cabinet) (body : RawPageStart) : Statement (.pageStart src body) := fun _ => Or.inl rfl
theorem pageEnd (src : Cabinet) (page : RawId) (reason : Byte) : Statement (.pageEnd src page reason) := fun _ => Or.inl rfl
theorem reportWindowExpiry (page : Seq) : Statement (.reportWindowExpiry page) := fun h => nomatch h
theorem codeLifeExpiry (page : Seq) : Statement (.codeLifeExpiry page) := fun h => nomatch h
theorem zoneReport (src : Cabinet) (page : RawId) (zone outcome : Byte) :
    Statement (.zoneReport src page zone outcome) := fun _ => Or.inl rfl
theorem allStop (src : Cabinet) (cab : Byte) : Statement (.allStop src cab) := fun _ => Or.inl rfl
theorem wakeTimerExpiry (zone : LocalZone) : Statement (.wakeTimerExpiry zone) := fun h => nomatch h
theorem stepTimerExpiry (zone : LocalZone) : Statement (.stepTimerExpiry zone) := fun h => nomatch h
theorem patternCompletion (zone : LocalZone) : Statement (.patternCompletion zone) := fun h => nomatch h
theorem elapsedSecondTick (zone : LocalZone) : Statement (.elapsedSecondTick zone) := fun h => nomatch h
theorem hangTimerExpiry (zone : LocalZone) : Statement (.hangTimerExpiry zone) := fun h => nomatch h
theorem ampFaultActive (zone : LocalZone) : Statement (.ampFaultActive zone) := fun h => nomatch h
theorem ampFaultInactive (zone : LocalZone) : Statement (.ampFaultInactive zone) := fun h => nomatch h
theorem ambientSample (zone : LocalZone) (code : Byte) : Statement (.ambientSample zone code) := fun h => nomatch h
theorem conditionRead : Statement .conditionRead := fun h => nomatch h
theorem shelfClear : Statement .shelfClear := fun h => nomatch h
theorem shelfRecordBad (bytes : List Byte) : Statement (.shelfRecordBad bytes) := fun h => nomatch h
theorem recordGapTimeout (bytes : List Byte) : Statement (.recordGapTimeout bytes) := fun h => nomatch h
theorem outputRecordSent : Statement .outputRecordSent := fun h => nomatch h

end Sys2Proof.Laws.HeardWellFormed
end

