-- ==== Sys2Proof/Laws/Shelf.lean ====
section
/-! SUPPORT. Records and conditions of the Shelf Port, said once. -/

namespace Sys2Proof.Machine

/-- The sum of a record's bytes, as a number (R169). -/
theorem byteSum_toNat (l : List Byte) : (byteSum l).toNat = (l.map fun b => b.toNat).sum % 256 := by
  induction l with
  | nil => rfl
  | cons a r ih => rw [byteSum, BitVec.toNat_add, ih, List.map_cons, List.sum_cons]; simp

/-- A record whose sum is good (R170). -/
theorem byteSum_zero (l : List Byte) : byteSum l = 0 ↔ (l.map fun b => b.toNat).sum % 256 = 0 := by
  rw [← byteSum_toNat]
  constructor
  · intro h; rw [h]; rfl
  · intro h; exact BitVec.eq_of_toNat_eq h

/-- The payload lengths of the kinds that the part takes (table 12-4). -/
theorem inLength_eq (k : Byte) : inLength k = if k = 1 then some 5 else if k = 2 then some 2 else if k = 3 ∨ k = 4 then
    some 0 else none := by
  have h : ∀ n : Nat, n < 256 → (k = BitVec.ofNat 8 n ↔ k.toNat = n) := by
    intro n hn
    rw [← BitVec.toNat_inj, BitVec.toNat_ofNat, Nat.mod_eq_of_lt hn]
  have h1 := h 1 (by omega); have h2 := h 2 (by omega); have h3 := h 3 (by omega); have h4 := h 4 (by omega)
  unfold inLength
  by_cases a : k = 1
  · subst a; rfl
  by_cases b : k = 2
  · subst b; rfl
  by_cases c : k = 3
  · subst c; rfl
  by_cases d : k = 4
  · subst d; rfl
  simp only [a, b, c, d, if_false, or_self]
  have n1 : k.toNat ≠ 1 := fun e => a (h1.mpr e)
  have n2 : k.toNat ≠ 2 := fun e => b (h2.mpr e)
  have n3 : k.toNat ≠ 3 := fun e => c (h3.mpr e)
  have n4 : k.toNat ≠ 4 := fun e => d (h4.mpr e)
  split <;> first | contradiction | rfl

/-- A word of two bytes, as a number. -/
theorem wordOf_eq (a b : Byte) : wordOf a b = BitVec.ofNat 16 (256 * a.toNat + b.toNat) := by
  apply BitVec.eq_of_toNat_eq
  unfold wordOf
  rw [BitVec.toNat_append, BitVec.toNat_ofNat]
  have := a.isLt; have := b.isLt
  rw [Nat.shiftLeft_eq, Nat.mul_comm, ← Nat.two_pow_add_eq_or_of_lt (by omega)]
  omega

/-- Bytes of a record that is not complete are kept (R169). -/
theorem shelfByte_part (l : List Byte) (s : State) (pre : List Byte) (r : s.pins.reset = false)
    (hp : s.spu.incoming = pre)
   (h : ∀ a b, l = a ++ b → a ≠ [] → recordComplete (pre ++ a) = false) : l.foldl (fun t b => shelfByte b t) s =
       { s with spu := { s.spu with incoming := pre ++ l } } := by
  induction l generalizing s pre with
  | nil =>
    rw [List.append_nil, ← hp]
    rfl
  | cons x rest ih =>
    have c := h [x] rest rfl (by simp)
    have e : shelfByte x s = { s with spu := { s.spu with incoming := pre ++ [x] } } := by
      simp only [shelfByte, r, hp, c, Bool.false_eq_true, if_false]
      rfl
    rw [List.foldl_cons, e, ih { s with spu := { s.spu with incoming := pre ++ [x] } } (pre ++ [x]) r rfl]
    · rw [List.append_assoc]; rfl
    · intro a b hab _
      have := h (x :: a) b (by rw [hab]; rfl) (by simp)
      rw [List.append_assoc]
      exact this

/-- Every condition has a priority. -/
theorem conditionsByPriority_all (c : Condition) : c ∈ conditionsByPriority := by cases c <;> decide

/-- The condition set in order of priority. -/
theorem conditions_rows (t : Table 12 CondEntry) : t.rows = conditionsByPriority.map fun c => t.get
    (conditionPlace c) := by
  obtain ⟨rows, size⟩ := t
  match rows, size with
  | [a,b,c,d,e,f,g,h,i,j,k,l], _ => rfl

/-- How many flags are set. -/
theorem pendingCount_eq (s : State) : pendingCount s =
    (conditionsByPriority.filter fun d => (conditionEntry s d).pending).length := by
  unfold pendingCount
  rw [conditions_rows, List.filter_map, List.length_map]
  rfl

/-- The set flag of highest priority (R176). -/
theorem highestPending_eq (s : State) (c) (h : (conditionEntry s c).pending = true)
    (o : ∀ d, conditionPlace d < conditionPlace c → (conditionEntry s d).pending = false) : highestPending s = some
    c := by
  unfold highestPending
  have : ∃ a b, conditionsByPriority = a ++ c :: b ∧ ∀ d ∈ a, conditionPlace d < conditionPlace c := by
    cases c
    all_goals first
      | exact ⟨[], _, rfl, by decide⟩
      | exact ⟨[.configFault], _, rfl, by decide⟩
      | exact ⟨[.configFault, .duplicateAddress], _, rfl, by decide⟩
      | exact ⟨[.configFault, .duplicateAddress, .evacActive], _, rfl, by decide⟩
      | exact ⟨[.configFault, .duplicateAddress, .evacActive, .isolated], _, rfl, by decide⟩
      | exact ⟨[.configFault, .duplicateAddress, .evacActive, .isolated, .ampFault], _, rfl, by decide⟩
      | exact ⟨[.configFault, .duplicateAddress, .evacActive, .isolated, .ampFault, .sensorFailed], _, rfl, by decide⟩
      | exact ⟨[.configFault, .duplicateAddress, .evacActive, .isolated, .ampFault, .sensorFailed, .peerSilent], _,
          rfl, by decide⟩
      | exact ⟨[.configFault, .duplicateAddress, .evacActive, .isolated, .ampFault, .sensorFailed, .peerSilent,
          .rejoined], _, rfl, by decide⟩
      | exact ⟨[.configFault, .duplicateAddress, .evacActive, .isolated, .ampFault, .sensorFailed, .peerSilent,
          .rejoined, .peerReturned], _, rfl, by decide⟩
      | exact ⟨[.configFault, .duplicateAddress, .evacActive, .isolated, .ampFault, .sensorFailed, .peerSilent,
          .rejoined, .peerReturned, .offerTableFull], _, rfl, by decide⟩
      | exact ⟨[.configFault, .duplicateAddress, .evacActive, .isolated, .ampFault, .sensorFailed, .peerSilent,
          .rejoined, .peerReturned, .offerTableFull, .viewOverflow], _, rfl, by decide⟩
  obtain ⟨a, b, e, ha⟩ := this
  rw [e, List.find?_append, List.find?_eq_none.mpr (by intro d hd; simp [o d (ha d hd)])]
  simp [h]

end Sys2Proof.Machine
end

