-- ==== Sys2Proof/Laws/Verdicts.lean ====
section
/-! SUPPORT. A CONNECTED at the lines, said once (R39 to R41). -/

namespace Sys2Proof.Machine

/-- A CONNECTED without group or without order index leaves the rotation pointers (R88). -/
theorem rotate_none (g : Option HuntGroup) (i : Option OrderIndex) (s : State) (h : g = none ∨ i = none) : rotate g i s
    = s := by
  rcases h with rfl | rfl
  · rfl
  · cases g <;> rfl

/-- A CONNECTED at the lines, where one line alone is a party of its call. -/
theorem lineConnected_at {l n : Line} {c : CallId} {cb : Cabinet} {g i} {u t s : State} (op : OnlyParty l c s)
    (lu : ∀ m, lineOf u m = lineOf s m) (same : cb = own s → n = l) (ou : own u = own s)
   (h : (if cb = own s then connectedHere l c g i u else connectedElsewhere c l u) = t) (ot : own t = own s)
       (lt : ∀ m, m ≠ l → lineOf t m = lineOf s m) :
   lineConnected c cb n g i u = t := by
  have elsewhere : ∀ (m : Line) (t : State), m ≠ l → lineOf t m = lineOf s m → connectedElsewhere c m t = t := by
    intro m t hm e
    simp [connectedElsewhere, e, ((op m).1 hm).1, ((op m).1 hm).2]
  have first : (if cb = own u ∧ l = n then connectedHere l c g i u else connectedElsewhere c l u) = t := by
    rw [← h, ou]
    by_cases hh : cb = own s
    · simp [hh, same hh]
    · simp [hh]
  unfold lineConnected
  rw [forEach_oneLine l]
  · exact first
  · intro m hm
    have : ¬ (cb = own u ∧ m = n) := fun ⟨h, e⟩ => hm (by rw [e, same (h.trans ou)])
    simp only [this, if_false]
    exact elsewhere m u hm (lu m)
  · intro m hm
    rw [first]
    have : ¬ (cb = own t ∧ m = n) := fun ⟨h, e⟩ => hm (by rw [e, same (h.trans ot)])
    simp only [this, if_false]
    exact elsewhere m t hm (lt m hm)

/-- A CONNECTED of a known peer, before the lines take it. -/
theorem heardConnected_known {src call cab line group index c cb n g i} {s : State} (link : s.clc.link = .running)
    (k : Known src s) (hc : codeCall call = some c) (hcb : codeBelow 16 cab = some cb)
   (hn : codeBelow 16 line = some n) (hg : codeOrNone 16 group = some g) (hi : codeOrNone 32 index = some i)
       (gi : g = none ∨ i = none) (l : Line) (op : OnlyParty l c s) :
   hear src false (heardConnected call cab line group index) (fresh s) = viewRemoveCall c
       (lineConnected c cb n g i (forgetOffer c (withOutputs [.acknowledge true] (heardFrom src s)))) := by
  rw [hear_fresh src false _ s link k]
  simp only [heardConnected, hc, hcb, hn, hg, hi, withCode, huntConnected, rotate_none g i _ gi]
  rw [releaseCall_none]
  exact fun m => (op m).2

end Sys2Proof.Machine
end

