-- ==== Sys2Proof/Tests/Slice0.lean ====
section
/-! SUPPORT. Tests: the ill-formed terms that the check refuses, examples of the spec run by one command each, and for every
statement with hypotheses a state and operands that meet them together. -/

namespace Sys2Proof.Tests

open Sys2Proof Sys2Proof.Machine

set_option maxRecDepth 10000

/-! ### WellFormed: one ill-formed command for each check -/

theorem test_refuses_a_known_kind_as_unknown : check (.frameUnknownKind 1 2 0) = some .knownKind := by decide

theorem test_refuses_a_length_above_24 : check (.frameUnknownKind 1 31 25) = some .lengthAbove24 := by decide

theorem test_refuses_an_incomplete_bad_record : check (.shelfRecordBad [2, 2, 0]) = some .recordNotComplete := by
  decide

theorem test_refuses_a_good_record_as_bad : check (.shelfRecordBad [0, 3, 253]) = some .recordGood := by decide

theorem test_accepts_the_boundary_forms :
    wellFormed (.frameUnknownKind 1 31 24) = true ∧ wellFormed (.frameUnknownKind 1 2 1) = true
      ∧ wellFormed (.shelfRecordBad [0, 3, 252]) = true := by
  decide

/-! ### Small states -/

/-- A peer entry PRESENT with an age. -/
def peerAt (age : Nat) : Peer := { resetPeer with state := .present, age := age }

/-- Parameters of a hunt group of four members. -/
def params : GroupParams :=
  { discipline := .linear, span := 4, noAnswer := 20, wrapUp := 5, queueFlag := true, queueMax := 60, overflow := .recycle,
    forward := 6, parkPaging := 1, queueExpiry := .endCall, recallTime := 60, repeatInterval := 30, repeatLimit := 3 }

/-- The part of cabinet 3, RUNNING, with every peer PRESENT, hunt groups 2 and 6, and every note at divider 100. -/
def run : State :=
  { State.reset with
      phase := .running
      clc := { resetClc with link := .running, address := 3, peers := Table.fill 16 (peerAt 28) }
      he := { resetHe with groups := ((Table.fill 16 none).set 2 (some params)).set 6 (some params) }
      ts := { resetTs with notes := some (Table.fill 8 100) } }

/-- The same part in another link state. -/
def linkAt (x : LinkState) (s : State) : State := { s with clc := { s.clc with link := x } }

/-- The same part in another start-up phase. -/
def phaseAt (x : Phase) (s : State) : State := { s with phase := x }

/-- An IDLE line in pickup group 5, member 4 of hunt group 2. -/
def idleLine : LineRec :=
  { resetLine with inService := true, privilege := .supervisor, pickup := some 5, memberships := [⟨2, 4, true⟩],
                   state := .idle, available := 4 }

/-- A line that collects a code, with these digits so far. -/
def diallingLine (buffer : List Digit) : LineRec :=
  { idleLine with state := .dialing, collecting := true, buffer := buffer, digitTimer := some .interDigit,
                  available := 0 }

/-- A call of cabinet 1. -/
def call1 : CallId := ⟨1, 9⟩

/-- A line with HUNT ringing for a call. -/
def ringingLine (c : CallId) : LineRec :=
  { idleLine with state := .ringing, call := some ⟨c, some .hunt, some 2, some 4⟩, cadenceAt := some 3,
                  noAnswer := some 20, ring := false, available := 0 }

/-- A line that awaits a verdict. -/
def pendingLine (t : ClaimTarget) : LineRec :=
  { idleLine with state := .answerPending, verdict := some ⟨t, .answer⟩, available := 0 }

/-- The running part with one line. -/
def runLine (r : LineRec) : State := withLine 7 r run

/-- A record of hunt group 2 in a state. -/
def offerIn (x : OfferState) : Offer :=
  { seq := 5, ref := 77, target := .hunt 2, state := x, attempts := 1, tried := 1, ringing := [], assigned := none,
    assignTimer := false, depth := 0, parkDone := false, window := none }

/-- The running part with one record. -/
def runOffer (o : Offer) : State := withOffers [o] run

/-- A ROUTINE page of line 7 on channel 2. -/
def linePageIn (x : PageState) : PageRec :=
  { newPage 8 .routine (.group 0) (.line 7) false with channel := some 2, state := x }

/-- The running part with one page, and line 7 paging. -/
def runPage (r : PageRec) : State :=
  withPages [r] (withLine 7 { idleLine with state := .paging, page := some ⟨3, r.seq⟩, available := 0 } run)

/-- A zone in service, in paging group 0, with a wake time. -/
def zone0 : ZoneRec :=
  { resetZone with cfg := { resetZoneConfig with inService := true, paging := 1, wake := 500, hang := 2 } }

/-- The running part with zone 2 in a record. -/
def runZone (r : ZoneRec) : State := withZone 2 r run

/-- A page entry of cabinet 1. -/
def entryOfClass (x : PageClass) (src : PageSource) : PageEntry :=
  { page := ⟨1, 4⟩, cls := x, source := src, orbit := if x = .code then some 6 else none }

/-- The PAGE-START of that page for paging group 0, with a channel byte and flags. -/
def startOf (x : PageClass) (channel flags : Byte) : RawPageStart :=
  { page := ⟨1, 4⟩, cls := classByte x, target := 0, channel := channel, flags := flags,
    orbit := if x = .code then 6 else 255 }

/-! ### The spec's examples and tables -/

/-- The CALL-ARRIVAL of 12.2's example is read from its bytes, and so are the three other records of table 12-4. -/
theorem test_records_are_read :
    recordCommand [0x05, 0x01, 0x11, 0x3A, 0x02, 0x00, 0xBD, 0xF0] = some (.callArrival 4410 2 189)
      ∧ recordCommand [2, 2, 0x12, 0x34, 182] = some (.callGone 0x1234)
      ∧ recordCommand [0, 3, 253] = some .conditionRead ∧ recordCommand [0, 4, 252] = some .shelfClear := by
  decide

/-- The same bytes, received one by one after a reset, put the command in the queue; a gap before the last of them raises the fault
with the kind byte, and the next byte is a length byte. -/
theorem test_records_are_framed :
    let received := fun (bytes : List Byte) (s : State) => bytes.foldl (fun t b => shelfByte b t) s
    (received [0x05, 0x01, 0x11, 0x3A, 0x02, 0x00, 0xBD, 0xF0, 0, 3, 253] State.reset).pending = [.callArrival 4410 2 189, .conditionRead]
      ∧ (received [0x05, 0x01, 0x11] State.reset).spu.incoming = [0x05, 0x01, 0x11]
      ∧ (conditionEntry (abandonRecord [] (received [0x05, 0x01, 0x11] State.reset)) .shelfRecordFault).argument = 257
      ∧ (received [0, 3, 253] (abandonRecord [] (received [0x05, 0x01, 0x11] State.reset))).pending = [.conditionRead]
      ∧ (conditionEntry (abandonRecord [0x05, 0x01, 0x11] State.reset) .shelfRecordFault).argument = 257
      ∧ (received [0, 3, 253] (fullReset (received [0x05, 0x01, 0x11] State.reset))).pending = [.conditionRead] := by
  decide

/-- The membership lists of chapter 11's worked sequence. -/
theorem test_membership_lists :
    let kept := fun g i => (⟨g, i, true⟩ : Membership)
    buildMemberships [] [[kept 4 7, kept 6 0], [kept 6 3], [kept 4 7, kept 4 12, kept 6 3], [kept 6 31, kept 6 1]]
        = [[kept 4 7, kept 6 0], [kept 6 3], [kept 4 12], [kept 6 31]]
      ∧ membershipSlot 0xC628 = some (kept 6 31) ∧ membershipSlot 0x4628 = none := by
  decide

/-- The keys and fields of chapter 4's worked key case. -/
theorem test_circular_keys :
    circularKey 2 30 = 3 ∧ circularKey 31 30 = 0 ∧ circularKey 5 30 = 6 ∧ circularKey 0 31 = 0 ∧ circularKey 31 31 = 31
      ∧ idleKey 1023 = 0 ∧ idleKey 300 = 723 ∧ arbNumber 2 3 1 = 8241 ∧ arbNumber 2 0 4 = 8196 ∧ arbNumber 2 6 2 = 8290 := by
  decide

/-- Chapter 9's worked values at the limits. -/
theorem test_level_limits :
    let p : LevelParams := ⟨40, 100, 3, 0, 80, 2, 2, 10, 100⟩
    compensation p 90 = -7 ∧ targetOf p 90 (some .routine) = 47
      ∧ targetOf { p with slope := 8 } 254 none = 0 ∧ targetOf { p with slope := 8, refAmb := 254 } 0 none = 80
      ∧ targetOf { p with slope := 8, floor := 10 } 254 (some .alarm) = 10 ∧ targetOf { p with floor := 10 } 7 (some .evac) = 10
      ∧ ambientLevel 4064 = 254 ∧ ambientLevel 7 = 0 ∧ filterStep 1750 109 2 = 1749 ∧ filterStep 1600 115 8 = 1600
      ∧ filterStep 0 73 0 = 1168 ∧ ambientLevel 1168 = 73 := by
  decide

/-- A record goes out with its length byte, kind byte, payload and sum byte. -/
theorem test_connect_record_bytes :
    outBytes (.connect 0x0102 ⟨3, 5⟩ 3 7) = [6, 0x83, 1, 2, 3, 5, 0, 155, 209] := by decide

/-- Directory number 155 is line 7 of cabinet 3. -/
theorem test_directory_number : directoryLine 155 = some (3, 7) ∧ directoryLine 99 = none ∧ directoryLine 356 = none := by
  decide

/-- A frame that the part drives is read as the notice it carries (a statement says so of every notice). -/
theorem test_frames_read_back :
    frameCommand (stuff (plainFrame 3 .probe)) = .probe 3
      ∧ frameCommand (stuff (plainFrame 3 (.bid call1 7 4 1023))) = .bid 3 1023 ⟨1, 9⟩ 7 4 1023
      ∧ frameCommand (stuff (plainFrame 0 (.available 0))) = .available 0 0 := by
  decide

/-- A step takes the front of the queue; an empty queue idles. -/
theorem test_step_takes_the_front :
    step { run with pending := [.resetAssert, .powerOn] } = exec .resetAssert { run with pending := [.powerOn] }
      ∧ step run = .next run :=
  ⟨rfl, rfl⟩

/-! ### Two ways to meet a hypothesis about every present thing -/

theorem all_of_none {α β : Type} {f : α → Option β} {p : α → β → Prop} (h : ∀ a, f a = none) :
    ∀ a b, f a = some b → p a b := by
  intro a b e
  rw [h a] at e
  cases e

theorem others_of_none {α β : Type} {f : α → Option β} {p : α → β → Prop} {x : α} (h : ∀ a, a ≠ x → f a = none) :
    ∀ a b, a ≠ x → f a = some b → p a b := by
  intro a b n e
  rw [h a n] at e
  cases e

theorem onlyParty_of {l : Line} {c : CallId} {s : State}
    (h : ∀ m, (m ≠ l → awaits (lineOf s m) (.call c) = false ∧ ringsFor (lineOf s m) c = false)
      ∧ (lineOf s m).reserved = none) : OnlyParty l c s := by
  intro m
  refine ⟨(h m).1, ?_⟩
  rw [(h m).2]
  trivial

/-! ### Hypotheses met: the queue and start-up -/

theorem witness_StepRunsTheFrontCommand :
    ({ run with pending := [.join, .conditionRead] } : State).pending = .join :: [.conditionRead] ∧ run.pending = [] := by
  decide

/-- The part held in RESET. -/
def held : State := { run with pins := { run.pins with reset := true } }

theorem witness_ResetHoldsThePartUntilItsRelease : held.pins.reset = true ∧ takenInReset .conditionRead = false := by
  decide

/-- The bytes of a memory that holds these words, the high byte of each first (R188). -/
def memoryOf (words : List Word16) : List Byte := words.flatMap fun w => [w.extractLsb' 8 8, w.extractLsb' 0 8]

/-- An image with a sum of 0 modulo 65536, and one without. -/
def image : List Byte := memoryOf ([244, 1] ++ List.replicate 241 0 ++ [BitVec.ofNat 16 (65536 - 245)])

def unsummedImage : List Byte := memoryOf ([244, 1] ++ List.replicate 241 0 ++ [1])

theorem witness_BadLoadHaltsThePart :
    Ready State.reset ∧ State.reset.phase = .loading
      ∧ (wordAt [] 0 = 0xFFFF#16 ∧ wordAt [0, 0] 0 = 0)
      ∧ (wordAt [0, 244, 0, 2] 0 ≠ 0 ∧ wordAt [0, 244, 0, 2] 0 ≠ 0xFFFF#16 ∧ wordAt [0, 244, 0, 2] 1 ≠ 1)
      ∧ (wordAt [0, 243, 0, 1] 0 ≠ 0 ∧ wordAt [0, 243, 0, 1] 0 ≠ 0xFFFF#16 ∧ (wordAt [0, 243, 0, 1] 0).toNat ≠ 244)
      ∧ (wordAt unsummedImage 0 = 244 ∧ wordAt unsummedImage 1 = 1
          ∧ ((List.range 244).map fun i => (wordAt unsummedImage i).toNat).sum % 65536 ≠ 0)
      ∧ (wordAt image 0 = 244 ∧ wordAt image 1 = 1
          ∧ ((List.range 244).map fun i => (wordAt image i).toNat).sum % 65536 = 0) := by
  decide

/-- An image with zone 2 alone in service. -/
def zonedImage : List Byte :=
  memoryOf ([244, 1] ++ List.replicate 215 0 ++ [0x8000] ++ List.replicate 25 0 ++ [BitVec.ofNat 16 (65536 - 245 - 0x8000)])

/-- A good load with no amplifier-fault input active, and with those of zone 2, in service, and of zone 1, out of service. -/
theorem witness_GoodLoadEntersListening :
    (∀ m ∈ [image, zonedImage], judgeImage m = none)
    ∧ (∀ z, ((readImage zonedImage).zones.get z).inService = decide (z = 2))
    ∧ ∀ p ∈ [Table.fill 4 false, ((Table.fill 4 false).set 1 true).set 2 true],
      let s := { State.reset with pins := { State.reset.pins with ampFault := p } }
      Ready s ∧ s.phase = .loading := by
  decide

/-- An image in which line 0 is a member of group 2 with index 4, and line 1 of group 2 with index 5. -/
def memberImage : List Byte :=
  memoryOf ([244, 1, 3, 5, 60, 300, 0] ++ [0x8000, 0x8204, 0, 0, 0, 0x8000, 0x8205, 0, 0, 0] ++ List.replicate 227 0)

theorem witness_ImageReadsIntoItsRanges :
    (readImage memberImage).groups.get 2 = none
      ∧ ((readImage memberImage).lines.get 0).memberships.length = 1
      ∧ ((readImage memberImage).lines.get 1).memberships.length = 1
      ∧ ((readImage (memoryOf ([244, 1, 3, 5, 60, 300, 0] ++ List.replicate 80 0 ++ List.replicate 100 0xFFFF))).groups.get 0).isSome
          = true
      ∧ ([] : List Byte).length = 2 * 0 ∧ (image.take 486).length = 2 * 243 := by
  decide

theorem witness_JoinAnnouncesThePart :
    let s := linkAt .listening run
    Ready s ∧ s.clc.link = .listening ∧ (∀ e ∈ s.clc.queue, isStatus e.notice = false)
      ∧ s.clc.queue.length + 2 ≤ txCapacity := by
  decide

/-! ### Hypotheses met: the cabinet link -/

/-- The part with a transmit queue. -/
def queued (q : List TxEntry) : State := withQueue q run

/-- A queued notice in an attempt, with this many failed attempts. -/
def trying (n : Notice) (failed : Nat) : TxEntry := { newEntry 3 n with inAttempt := true, failed := failed }

/-- A STATUS of the part. -/
def status1 : Notice := .status .running (assembleStatus run)

theorem witness_AttemptTakesTheLowestField :
    let e := newEntry 3 (.cancel call1)
    let s := queued ([newEntry 3 .probe] ++ e :: [newEntry 3 (.cancel ⟨1, 10⟩)])
    (Ready s ∧ s.clc.link = .running ∧ s.clc.queue = [newEntry 3 .probe] ++ e :: [newEntry 3 (.cancel ⟨1, 10⟩)]
      ∧ (∀ x ∈ s.clc.queue, x.inAttempt = false) ∧ (∀ x ∈ [newEntry 3 .probe], e.field < x.field)
      ∧ (∀ x ∈ [newEntry 3 (.cancel ⟨1, 10⟩)], e.field ≤ x.field))
    ∧ (Ready run ∧ run.clc.queue = [])
    ∧ Ready (linkAt .listening s) ∧ (linkAt .listening s).clc.link ≠ .running ∧ (linkAt .listening s).clc.link ≠ .isolated := by
  decide

theorem witness_AttemptsEndSentLostOrFailed :
    let other := newEntry 3 .probe
    let e := trying (.cancel call1) 2
    let s := fun x => queued ([] ++ x :: [other])
    (∀ r ∈ [none, some (.replace .probe), some TxRequest.withdraw],
      let x := { e with request := r }
      Ready (s x) ∧ (s x).clc.queue = [] ++ x :: [other] ∧ OnlyAttempt x [] [other])
    ∧ e.failed < 3 ∧ e.request = none
    ∧ (Ready (queued [trying status1 0]) ∧ isHousekeeping (trying status1 0).notice = true
        ∧ OnlyAttempt (trying status1 0) [] [] ∧ (queued [trying status1 0]).clc.link ≠ .isolated) := by
  decide

theorem witness_AttemptsEndSentLostOrFailed_withdrawn :
    ∀ c l i k, (trying (.cancel call1) 0).notice = .bid c l i k → bidOf run c = none := by
  intro c l i k h
  cases h

/-- The state after an attempt at a notice that was the only entry of the queue, with a drop run, the notice waiting for own delivery. -/
def attempted (n : Notice) (drops : Nat) (s : State) : State :=
  { afterAttempt ([] ++ []) drops (withOutputs [] { s with clc := { s.clc with queue := [trying n 3], dropRun := 6 } }) with
    deliveries := [n] }

/-- A notice that waits alone, whose delivery leaves nothing to deliver, is delivered. -/
theorem delivered_one {n : Notice} {s u : State} (waits : s.deliveries = [n]) (h : OwnDelivery n { s with deliveries := [] } u)
    (d : u.deliveries = []) : ∃ v, Delivered s v :=
  ⟨u, 1, by decide, Or.inr ⟨n, [], u, waits, h, d, rfl⟩⟩

/-- A record OFFERING with an open window. -/
def openWindow (w : List WindowBid) : Offer := { offerIn .offering with window := some w }

/-- A bid of a cabinet with a key. -/
def bidOfCabinet (c : Cabinet) (k : Nat) : WindowBid := ⟨c, 4, some 2, 8192 + k * 16 + c.val⟩

/-- The part with line 7 reserved and a bid for a call. -/
def biddingFor (c : CallId) (standing : BidStanding) (limit : Bool) (s : State) : State :=
  let t := withLine 7 { idleLine with reserved := some ⟨c, 2⟩, available := 0 } s
  { t with he := { t.he with bids := [⟨c, 7, 4, 4, standing, limit, false⟩] } }

/-- The part after a number of dropped notices, its STATUS in the attempt that would be the fourth to fail. -/
def dropping (n : Nat) : State :=
  { run with clc := { run.clc with queue := [trying status1 3], dropRun := n } }

theorem witness_LeavingAndRejoiningTheLink :
    (∀ n ∈ [6, 7], Ready (dropping n) ∧ (dropping n).clc.queue = [] ++ trying status1 3 :: []
      ∧ OnlyAttempt (trying status1 3) [] [] ∧ (trying status1 3).failed = 3 ∧ (trying status1 3).request = none
      ∧ isHousekeeping (trying status1 3).notice = true ∧ (dropping n).clc.link = .running ∧ (dropping n).clc.dropRun = n
      ∧ LinesQuiet (dropping n) ∧ (∀ o ∈ (dropping n).ofm.offers, endsIsolated (own (dropping n)) o = false))
    ∧ (linkAt .isolated (dropping 8)).clc.link = .isolated
    ∧ (let s := linkAt .isolated (queued [trying .probe 0]);
      Ready s ∧ s.clc.link = .isolated ∧ s.clc.queue = [trying .probe 0] ∧ (trying .probe 0).inAttempt = true
        ∧ (trying .probe 0).notice = .probe) := by
  decide

theorem witness_FramesHeardReachThePeerTable :
    (Ready run ∧ readsBus run.clc.link = true ∧ (1 : Cabinet) ≠ own run ∧ (peerOf run 1).state = .present)
    ∧ (Ready State.reset ∧ readsBus State.reset.clc.link = false)
    ∧ (let s := withPeer 1 { resetPeer with state := .silent } run;
      Ready s ∧ readsBus s.clc.link = true ∧ (1 : Cabinet) ≠ own s ∧ (peerOf s 1).state ≠ .present)
    ∧ (let s := linkAt .isolated run;
      Ready s ∧ s.clc.link ≠ .running ∧ heardSource (.cancel 1 ⟨3, 5⟩) = some 1 ∧ handedEverywhere (.cancel 1 ⟨3, 5⟩) = false) := by
  decide

theorem witness_OwnAddressHeardGoesToListenOnly :
    (Ready run ∧ heardSource (.probe 3) = some (own run) ∧ readsBus run.clc.link = true ∧ run.clc.link ≠ .listenOnly
      ∧ (∀ x ∈ run.clc.queue, isHousekeeping x.notice = true) ∧ (∀ x ∈ run.clc.queue, x.inAttempt = false)
      ∧ LinesQuiet run ∧ (∀ o ∈ run.ofm.offers, endsIsolated (own run) o = false))
    ∧ Ready (linkAt .listenOnly run) ∧ heardSource (.probe 3) = some (own (linkAt .listenOnly run))
      ∧ (linkAt .listenOnly run).clc.link = .listenOnly := by
  decide

/-- A heard STATUS of cabinet 1 with a link-state field, an evacuation flag for its page 1-4, and channel 2 held by its ROUTINE page
1-6 where it is said to list it. -/
def statusBody (link evac : Byte) (lists : Bool) : RawStatus :=
  ⟨link, evac, ⟨1, 4⟩, ⟨255, ⟨0, 0⟩⟩, ⟨255, ⟨0, 0⟩⟩, if lists then ⟨1, ⟨1, 6⟩⟩ else ⟨255, ⟨0, 0⟩⟩, ⟨255, ⟨0, 0⟩⟩, 8⟩

/-- The channels that it lists. -/
def statusList (lists : Bool) : Table 4 (Option ChannelHold) :=
  if lists then (Table.fill 4 none).set 2 (some ⟨⟨1, 6⟩, .routine⟩) else Table.fill 4 none

/-- Zone 2 evacuating with these page ids in its set. -/
def evacuatingWith (l : List PageId) : ZoneRec := { zone0 with state := .tone, active := some .evacuation, evac := l }

theorem witness_HeardStatusIsRecordedAndAnswered :
    ∀ f ∈ [((0 : Byte), LinkField.running), (1, .joining), (2, .rejoining)], ∀ e ∈ [((0 : Byte), none), (1, some (⟨1, 4⟩ : PageId))],
      ∀ lists ∈ [true, false],
      StatusHeard 1 (statusBody f.1 e.1 lists) f.2 e.2 (statusList lists) run := by
  decide

theorem witness_HeardStatusIsRecordedAndAnswered_sets :
    (∀ z, (zoneOf run z).evac.any (fun p => decide (p.cab = 1)) = (none : Option PageId).isSome)
    ∧ let s := { run with zc := { run.zc with zones := Table.fill 4 (evacuatingWith [⟨1, 4⟩]) } }
      (∀ z, (zoneOf s z).evac.any (fun p => decide (p.cab = 1)) = (some (⟨1, 4⟩ : PageId)).isSome)
        ∧ StatusHeard 1 (statusBody 0 1 true) .running (some ⟨1, 4⟩) (statusList true) s := by
  decide

/-- The part whose zones evacuate for page 1-4, but for zone 2 in a record. -/
def evacuatingBut (r : ZoneRec) : State :=
  { run with zc := { run.zc with zones := (Table.fill 4 (evacuatingWith [⟨1, 4⟩])).set 2 r } }

theorem witness_HeardStatusIsRecordedAndAnswered_joins :
    ∀ r ∈ [evacuatingWith [⟨2, 9⟩], zone0],
      let s := evacuatingBut r
      StatusHeard 1 (statusBody 0 1 false) .running (some ⟨1, 4⟩) (statusList false) s ∧ s.phase = .running
        ∧ (∀ y, y ≠ 2 → (zoneOf s y).evac.any (fun p => decide (p.cab = 1)) = (some (⟨1, 4⟩ : PageId)).isSome)
        ∧ (∀ x ∈ (zoneOf s 2).evac, x.cab ≠ 1) ∧ holdsPage (zoneOf s 2) ⟨1, 4⟩ = false ∧ zoneOf s 2 = r := by
  decide

theorem witness_HeardStatusIsRecordedAndAnswered_joined :
    (let r := evacuatingWith [⟨2, 9⟩];
      r.state ≠ .outOfService ∧ r.state ≠ .fault ∧ r.evac ≠ [])
    ∧ zone0.state = .released ∧ zone0.active = none ∧ zone0.evac = [] ∧ 0 < zone0.cfg.wake := by
  decide

theorem witness_HeardStatusIsRecordedAndAnswered_leaves :
    ∀ l ∈ [[(⟨2, 9⟩ : PageId)], []],
      let s := runZone (evacuatingWith (l ++ ⟨1, 4⟩ :: []))
      StatusHeard 1 (statusBody 0 0 false) .running none (statusList false) s ∧ s.phase = .running
        ∧ (∀ y, y ≠ 2 → (zoneOf s y).evac.any (fun p => decide (p.cab = 1)) = (none : Option PageId).isSome)
        ∧ (zoneOf s 2).evac = l ++ ⟨1, 4⟩ :: [] ∧ (∀ x ∈ l ++ [], x.cab ≠ 1) ∧ (zoneOf s 2).active = some .evacuation
        ∧ (zoneOf s 2).held = none ∧ (zoneOf s 2).pending = [] := by
  decide

theorem witness_LinkTimersQueueAndAge :
    let full := queued (List.replicate 23 (newEntry 3 (.cancel call1)))
    (Ready full ∧ full.clc.link = .running ∧ full.clc.queue.length < txCapacity
      ∧ (∀ x ∈ full.clc.queue, isStatus x.notice = false))
    ∧ (Ready (linkAt .isolated full) ∧ (linkAt .isolated full).clc.link = .isolated
      ∧ (linkAt .isolated full).clc.queue.length < txCapacity
      ∧ (∀ x ∈ (linkAt .isolated full).clc.queue, isProbe x.notice = false))
    ∧ (∃ x ∈ (queued [newEntry 3 status1]).clc.queue, isStatus x.notice = true)
    ∧ (∃ x ∈ (queued [newEntry 3 .probe]).clc.queue, isProbe x.notice = true)
    ∧ (linkAt .isolated run).clc.link ≠ .running ∧ run.clc.link ≠ .isolated
    ∧ Ready run ∧ readsBus run.clc.link = true
    ∧ (∀ p, p ≠ own run → (peerOf run p).state = .present → (peerOf run p).age < 29) := by
  decide

theorem witness_PeerFallsSilentAtThirtySeconds :
    let s := withPeer 1 (peerAt 29) run
    Ready s ∧ readsBus s.clc.link = true ∧ (1 : Cabinet) ≠ own s ∧ (peerOf s 1).state = .present ∧ 29 ≤ (peerOf s 1).age
      ∧ (∀ q, q ≠ own s → q ≠ 1 → (peerOf s q).state = .present → (peerOf s q).age < 29) ∧ s.ofm.offers = []
      ∧ LinesQuiet s ∧ NoPlacedPage (fun x => decide (x.page.cab = 1)) s
      ∧ (∀ x ∈ s.clc.queue, isAssignTo 1 x.notice = false) := by
  decide

/-! ### Hypotheses met: lines -/

/-- An IDLE line with a reservation. -/
def reservedLine (c : CallId) : LineRec := { idleLine with reserved := some ⟨c, 2⟩, available := 0 }

theorem witness_OffHookByLineState :
    (Ready (runLine idleLine) ∧ (lineOf (runLine idleLine) 7).state = .idle ∧ (lineOf (runLine idleLine) 7).reserved = none)
    ∧ (let s := runLine { idleLine with state := .wrapUp, wrapUp := some 3 };
      Ready s ∧ (lineOf s 7).state = .wrapUp ∧ (lineOf s 7).reserved = none)
    ∧ (let s := runLine (reservedLine call1);
      Ready s ∧ (lineOf s 7).state = .idle ∧ (lineOf s 7).reserved = some ⟨call1, 2⟩)
    ∧ (let s := runLine (ringingLine call1);
      Sending 1 s ∧ (lineOf s 7).state = .ringing ∧ (lineOf s 7).call = some ⟨call1, some .hunt, some 2, some 4⟩
        ∧ call1.cab ≠ own s)
    ∧ (∀ x ∈ [OfferState.assigned, .ringing, .offering, .waiting .queued],
      let s := withLine 7 (ringingLine ⟨3, 5⟩) (runOffer (offerIn x))
      Sending 1 s ∧ ShelfRoom 1 s ∧ (lineOf s 7).state = .ringing
        ∧ (lineOf s 7).call = some ⟨⟨3, 5⟩, some .hunt, some 2, some 4⟩ ∧ (⟨3, 5⟩ : CallId).cab = own s
        ∧ OfferAt (offerIn x) [] [] s ∧ (offerIn x).seq = 5 ∧ ∀ n, (offerIn x).state ≠ .parked n)
    ∧ (let s := runLine (ringingLine ⟨3, 5⟩)
      (lineOf s 7).state = .ringing ∧ ∀ o ∈ s.ofm.offers, o.seq ≠ 5)
    ∧ (Ready run ∧ (lineOf run 0).state = .outOfService ∧ run.phase ≠ .halted)
    ∧ (let s := phaseAt .halted (linkAt .halted run);
      Ready s ∧ (lineOf s 0).state = .outOfService ∧ s.phase = .halted)
    ∧ (let s := runLine (diallingLine []);
      Ready s ∧ (lineOf s 7).state ≠ .outOfService ∧ (lineOf s 7).state ≠ .idle ∧ (lineOf s 7).state ≠ .wrapUp
        ∧ (lineOf s 7).state ≠ .ringing) := by
  decide

/-- A TALKING line. -/
def talkingLine (g : Option HuntGroup) : LineRec :=
  { idleLine with state := .talking, call := some ⟨call1, none, g, none⟩, available := 0 }

theorem witness_OnHookByLineState :
    (∀ x ∈ [LineState.dialing, .answerPending, .pickupPending, .busy],
      let s := runLine { idleLine with state := x, available := 0 }
      Sending 1 s ∧ ShelfRoom 1 s ∧ (lineOf s 7).state = x)
    ∧ (let s := runLine (talkingLine (some 2));
      Sending 1 s ∧ ShelfRoom 1 s ∧ (lineOf s 7).state = .talking
        ∧ (lineOf s 7).call = some ⟨call1, none, some 2, none⟩
        ∧ ∀ g, some 2 = some g → (indexIn (lineOf s 7).memberships g).isSome = true ∧ 0 < groupWrapUp s g)
    ∧ (∀ o ∈ [none, some (6 : HuntGroup)],
      let s := runLine (talkingLine o)
      (lineOf s 7).call = some ⟨call1, none, o, none⟩
        ∧ ∀ g, o = some g → (indexIn (lineOf s 7).memberships g).isSome = false ∨ groupWrapUp s g = 0)
    ∧ (∀ x ∈ [PageState.reporting, .onAir, .claiming],
      let r := linePageIn x
      let s := runPage r
      Sending 2 s ∧ ShelfRoom 1 s ∧ (lineOf s 7).state = .paging ∧ PageAt r [] [] s ∧ linePage s 7 = some r
        ∧ r.channel = some 2 ∧ r.state = x ∧ r.connectSent = false) := by
  decide

theorem witness_OnHookByLineState_claiming :
    ∀ i x, slotOf (runPage (linePageIn .claiming)) i = some x → x.page ≠ some ⟨own (runPage (linePageIn .claiming)), 8⟩ :=
  all_of_none (by decide)

theorem witness_DigitsBuildACode :
    (Ready (runLine idleLine) ∧ (lineOf (runLine idleLine) 7).state ≠ .dialing)
    ∧ (let s := runLine { diallingLine [] with collecting := false };
      Ready s ∧ (lineOf s 7).state = .dialing ∧ (lineOf s 7).collecting = false)
    ∧ (∀ x ∈ [Phase.running, .listening],
      let s := phaseAt x (runLine (diallingLine []))
      Ready s ∧ ShelfRoom 1 s ∧ (lineOf s 7).state = .dialing ∧ (lineOf s 7).collecting = true ∧ (lineOf s 7).buffer = [])
    ∧ (phaseAt .listening run).phase ≠ .running
    ∧ (let s := runLine (diallingLine []);
      Ready s ∧ s.phase = .running ∧ (lineOf s 7).state = .dialing ∧ (lineOf s 7).collecting = true
        ∧ ((lineOf s 7).buffer = [] → Digit.star = .star ∨ Digit.star = .hash)
        ∧ compareBuffer (withDigit .star (lineOf s 7)).buffer = .beginning)
    ∧ (let s := runLine (diallingLine [.star]);
      Ready s ∧ s.phase = .running ∧ (lineOf s 7).state = .dialing ∧ (lineOf s 7).collecting = true
        ∧ (lineOf s 7).buffer ≠ [] ∧ compareBuffer (withDigit .star (lineOf s 7)).buffer = .neither)
    ∧ (let s := runLine { diallingLine [.star] with privilege := .ordinary };
      compareBuffer (withDigit (.num 9) (lineOf s 7)).buffer = .complete .allStop 0
        ∧ passesChecks (withDigit (.num 9) (lineOf s 7)) .allStop 0 = false)
    ∧ (let s := runLine (diallingLine [.star, .num 1, .num 1]);
      compareBuffer (withDigit (.num 6) (lineOf s 7)).buffer = .complete .login 16
        ∧ passesChecks (withDigit (.num 6) (lineOf s 7)) .login 16 = false) := by
  decide

theorem witness_LineFeatureCodesAct :
    let s := runLine (diallingLine [.star])
    Ready s ∧ s.phase = .running ∧ (lineOf s 7).state = .dialing ∧ (lineOf s 7).collecting = true
      ∧ (lineOf s 7).buffer = [.star] ∧ Sending 1 s ∧ LastDigit 7 (.num 9) .allStop 0 s := by
  decide

theorem witness_LineFeatureCodesAct_login :
    ∀ x ∈ [((1 : Fin 10), (0 : Fin 10), (2 : Fin 10), (2 : HuntGroup), true), (2, 0, 2, 2, true), (1, 1, 5, 15, false),
        (2, 1, 5, 15, false)],
      let s := runLine (diallingLine [.star, .num x.1, .num x.2.1])
      Ready s ∧ s.phase = .running ∧ (lineOf s 7).state = .dialing ∧ (lineOf s 7).collecting = true
        ∧ 10 * x.2.1.val + x.2.2.1.val = x.2.2.2.1.val ∧ (x.1 = 1 ∨ x.1 = 2)
        ∧ (lineOf s 7).buffer = [.star, .num x.1, .num x.2.1]
        ∧ (indexIn (lineOf s 7).memberships x.2.2.2.1).isSome = x.2.2.2.2 := by
  decide

theorem witness_DialVerdictAndReservationTimers :
    (let s := runLine (diallingLine [.star]);
      Ready s ∧ (lineOf s 7).digitTimer ≠ none ∧ (lineOf s 6).digitTimer = none)
    ∧ (let s := runLine (reservedLine call1);
      Sending 1 s ∧ (lineOf s 7).reserved = some ⟨call1, 2⟩)
    ∧ (let s := runLine (pendingLine (.call call1));
      Ready s ∧ (lineOf s 7).verdict ≠ none) := by
  decide

theorem witness_RingingFollowsItsCadence :
    (∀ x ∈ [(Cadence.hunt, 3), (.hunt, 0), (.direct, 0), (.direct, 1), (.recall, 5), (.recall, 6)],
      let s := runLine { ringingLine call1 with call := some ⟨call1, some x.1, some 2, some 4⟩, cadenceAt := some x.2 }
      Ready s ∧ (lineOf s 7).state = .ringing ∧ (lineOf s 7).cadenceAt = some x.2
        ∧ (lineOf s 7).call = some ⟨call1, some x.1, some 2, some 4⟩)
    ∧ (let s := runLine (ringingLine call1);
      Sending 3 s ∧ (lineOf s 7).state = .ringing ∧ (lineOf s 7).call = some ⟨call1, some .hunt, some 2, some 4⟩
        ∧ (lineOf s 7).noAnswer ≠ none) := by
  decide

theorem witness_WrapUpAndIdleSecondsCount :
    (∀ n ∈ [1, 2],
      let s := runLine { idleLine with state := .wrapUp, wrapUp := some n, available := 0 }
      Sending 1 s ∧ (lineOf s 7).state = .wrapUp ∧ (lineOf s 7).wrapUp = some n)
    ∧ (let s := runLine { idleLine with idleSecs := 1023 };
      Sending 1 s ∧ (lineOf s 7).state = .idle) := by
  decide

/-! ### Hypotheses met: calls -/

theorem noKnownTarget_of {s : State} {ty : Byte} {v : Word16}
    (h : (∀ g, ¬ KnownTarget s ty v (.hunt g)) ∧ ∀ cab line, ¬ KnownTarget s ty v (.direct cab line)) :
    ∀ t, ¬ KnownTarget s ty v t := by
  intro t
  cases t with
  | hunt g => exact h.1 g
  | direct cab line => exact h.2 cab line

theorem witness_RefusedArrivals :
    (Ready (linkAt .listening run) ∧ ShelfRoom 1 (linkAt .listening run) ∧ (linkAt .listening run).clc.link ≠ .running)
    ∧ (let s := runOffer (offerIn .offering);
      Ready s ∧ ShelfRoom 1 s ∧ s.clc.link = .running ∧ ∃ o ∈ s.ofm.offers, o.ref = 77)
    ∧ (let s := withOffers (List.replicate 8 (offerIn .offering)) run;
      Ready s ∧ ShelfRoom 1 s ∧ s.clc.link = .running ∧ (¬ ∃ o ∈ s.ofm.offers, o.ref = 78) ∧ KnownTarget s 1 2 (.hunt 2)
        ∧ 8 ≤ s.ofm.offers.length) := by
  decide

theorem witness_RefusedArrivals_unknown :
    (∀ t, ¬ KnownTarget run 1 16 t) ∧ (∀ t, ¬ KnownTarget run 1 3 t) ∧ (∀ t, ¬ KnownTarget run 2 99 t)
      ∧ (∀ t, ¬ KnownTarget run 2 356 t) ∧ ∀ t, ¬ KnownTarget run 0 100 t :=
  ⟨noKnownTarget_of (by decide), noKnownTarget_of (by decide), noKnownTarget_of (by decide),
    noKnownTarget_of (by decide), noKnownTarget_of (by decide)⟩

theorem witness_AcceptedArrivalsGetAFreeCallId :
    let s := withOffers (List.replicate 7 (offerIn .offering)) run
    Sending 1 s ∧ ShelfRoom 1 s ∧ (∀ o ∈ s.ofm.offers, o.ref ≠ 78) ∧ s.ofm.offers.length < 8
      ∧ KnownTarget s 1 2 (.hunt 2) ∧ KnownTarget s 2 100 (.direct 0 0) ∧ KnownTarget s 2 355 (.direct 15 15)
      ∧ s.ofm.offers.length ≤ 8 ∧ ∀ o ∈ s.ofm.offers, o.seq ≠ s.ofm.counter := by
  decide

/-- An occupied orbit. -/
def orbitWith (p : Option PageId) (repeats : Nat) : Orbit :=
  { call := 5, group := 2, paging := 1, page := p, repeats := repeats, limit := 3, interval := 30, recallTime := 60,
    repeating := true }

/-- The record parked in orbit 13 (slot 1 of cabinet 3). -/
def parkedState (x : Orbit) : State := withSlot 1 (some x) (runOffer (offerIn (.parked 13)))

theorem witness_CallGoneEndsTheCall :
    (let s := runOffer (offerIn .offering);
      Sending 1 s ∧ OfferAt (offerIn .offering) [] [] s ∧ (∀ n, (offerIn .offering).state ≠ .parked n)
        ∧ ∀ x ∈ s.ofm.offers, x.ref ≠ 78)
    ∧ (let s := parkedState (orbitWith none 0);
      let o := offerIn (.parked 13)
      Sending 1 s ∧ OfferAt o [] [] s ∧ o.state = .parked 13 ∧ o.assigned = none ∧ o.ringing = []
        ∧ slotOf s (orbitSlot 13) = some (orbitWith none 0) ∧ (orbitWith none 0).page = none) := by
  decide

/-- A record ASSIGNED to line 4 of cabinet 1. -/
def assignedTo (t : CallTarget) (timer : Bool) : Offer :=
  { offerIn .assigned with target := t, assigned := some ⟨1, 4, some 2⟩, assignTimer := timer }

theorem witness_AssignedMemberFails :
    ∀ x ∈ [(CallTarget.hunt 2, true), (.hunt 2, false), (.direct 1 4, true), (.direct 1 4, false)],
      let o := assignedTo x.1 x.2
      let s := runOffer o
      Sending 1 s ∧ ShelfRoom 1 s ∧ Known 1 s ∧ OfferAt o [] [] s ∧ o.assigned = some ⟨1, 4, some 2⟩ ∧ o.state = .assigned
        ∧ o.target = x.1 ∧ o.assignTimer = x.2 ∧ s.he.groups.get 2 = some params ∧ o.ringing = []
        ∧ exhausted (addTried (some 2) [] o.tried) params.span = false
        ∧ codeCall ⟨3, 5⟩ = some ⟨own s, o.seq⟩ ∧ codeBelow 16 4 = some 4 := by
  decide

theorem witness_RingStartedFromTheAssignedMember :
    ∀ x ∈ [(CallTarget.hunt 2, (2 : Byte), some (2 : OrderIndex)), (.direct 1 4, 255, none), (.hunt 2, 31, some 31)],
      let o := assignedTo x.1 true
      let s := runOffer o
      Sending 1 s ∧ Known 1 s ∧ OfferAt o [] [] s ∧ codeCall ⟨3, 5⟩ = some ⟨own s, o.seq⟩ ∧ codeBelow 16 4 = some 4
        ∧ codeOrNone 32 x.2.1 = some x.2.2 ∧ codeOrNone 16 255 = some none ∧ o.state = .assigned
        ∧ o.assigned = some ⟨1, 4, some 2⟩ ∧ o.ringing = []
        ∧ (∀ e ∈ s.ppu.view, ¬ (e.call = ⟨own s, o.seq⟩ ∧ e.cab = 1 ∧ e.line = 4)) ∧ s.ppu.view.length < viewCapacity := by
  decide

/-- A RINGING record with members. -/
def ringingWith (t : CallTarget) (m : List Member) : Offer := { offerIn .ringing with target := t, ringing := m }

theorem witness_RingingMemberIsLost :
    ∀ x ∈ [(CallTarget.direct 1 4, [⟨1, 4, none⟩]), (.hunt 2, [⟨1, 4, some 2⟩, ⟨2, 0, some 0⟩])],
      ∀ r ∈ [((2 : Byte), RingEndReason.noAnswer, true), (3, .ownerSilent, true), (5, .cleared, true), (0, .connected, false)],
      let o := ringingWith x.1 x.2
      let s := runOffer o
      Sending 1 s ∧ ShelfRoom 1 s ∧ Known 1 s ∧ OfferAt o [] [] s ∧ codeCall ⟨3, 5⟩ = some ⟨own s, o.seq⟩
        ∧ codeBelow 16 4 = some 4 ∧ codeRingEnd r.1 = some r.2.1 ∧ lossReason r.2.1 = r.2.2 ∧ o.state = .ringing
        ∧ o.assigned = none ∧ o.target = x.1 ∧ o.ringing = x.2 := by
  decide

theorem witness_RingingMemberIsLost_assigned :
    ∀ x ∈ [(CallTarget.hunt 2, (⟨1, 4, some 2⟩ : Member), ([] : List Member)), (.direct 1 4, ⟨1, 4, none⟩, []),
        (.hunt 2, ⟨2, 0, some 0⟩, [⟨1, 4, some 2⟩]), (.direct 2 0, ⟨2, 0, none⟩, [⟨1, 4, none⟩])],
      let o := { offerIn .assigned with target := x.1, assigned := some x.2.1, ringing := x.2.2 }
      let s := runOffer o
      Sending 1 s ∧ ShelfRoom 1 s ∧ Known 1 s ∧ OfferAt o [] [] s ∧ codeCall ⟨3, 5⟩ = some ⟨own s, o.seq⟩
        ∧ codeBelow 16 4 = some (4 : Line) ∧ o.state = .assigned ∧ o.assigned = some x.2.1 ∧ o.target = x.1 ∧ o.ringing = x.2.2
        ∧ (x.2.2 ≠ [] ∨ (x.2.1.cab = 1 ∧ x.2.1.line = 4)) ∧ (x.2.2 = [] ∨ ¬ (x.2.1.cab = 1 ∧ x.2.1.line = 4))
        ∧ s.he.groups.get 2 = some params ∧ exhausted (addTried x.2.1.index [] o.tried) params.span = false := by
  decide

theorem witness_AnswerConnectsTheCall :
    ∀ x ∈ [OfferState.assigned, .ringing, .offering, .waiting .queued],
      let o := offerIn x
      let s := runOffer o
      Sending 1 s ∧ ShelfRoom 1 s ∧ Known 1 s ∧ codeBelow 16 4 = some 4 ∧ codeOrNone 32 31 = some (some 31)
        ∧ OfferAt o [] [] s ∧ codeCall ⟨3, 5⟩ = some ⟨own s, o.seq⟩ ∧ (∀ n, o.state ≠ .parked n)
        ∧ codeCall ⟨3, 6⟩ = some ⟨own s, 6⟩ ∧ ∀ o ∈ s.ofm.offers, o.seq ≠ 6 := by
  decide

/-- A CLAIM for call 3-5, and one for orbit 13, by line 7 of cabinet 1. -/
def claimCall : RawClaim := ⟨0, ⟨3, 5⟩, 255, 1, 7⟩

def claimOrbit : RawClaim := ⟨1, ⟨0, 0⟩, 13, 1, 7⟩

theorem witness_ClaimsAreDecidedByTheOwner :
    (∀ x ∈ [OfferState.assigned, .ringing, .offering, .waiting .queued, .parked 13],
      let s := runOffer (offerIn x)
      Sending 1 s ∧ ShelfRoom 1 s ∧ Known 1 s ∧ codeBelow 16 claimCall.cab = some 1 ∧ codeBelow 16 claimCall.line = some 7
        ∧ codeClaim claimCall = some (.call ⟨own s, 5⟩) ∧ OfferAt (offerIn x) [] [] s ∧ (offerIn x).seq = 5
        ∧ (offerIn x).state = x)
    ∧ (∀ o ∈ run.ofm.offers, o.seq ≠ 5) ∧ run.ofm.wrapped = false ∧ ¬ (5 : Seq) < run.ofm.counter
    ∧ (5 : Seq) < ({ run with ofm := { run.ofm with counter := 6 } } : State).ofm.counter
    ∧ (codeClaim claimOrbit = some (.orbit 13) ∧ (13 : OrbitNumber).val / 4 = (own run).val
        ∧ slotOf run (orbitSlot 13) = none) := by
  decide

/-- The code page of orbit 13, on the air. -/
def codePage13 : PageRec := { newPage 8 .code (.group 1) (.orbit 13) false with state := .onAir, timer := some .life }

theorem witness_ClaimsAreDecidedByTheOwner_orbit :
    ∀ x ∈ [orbitWith none 2, orbitWith (some ⟨3, 8⟩) 2],
      let o := offerIn (.parked 13)
      let s := withPages [codePage13] (parkedState x)
      Sending 2 s ∧ ShelfRoom 1 s ∧ Known 1 s ∧ codeBelow 16 claimOrbit.cab = some (1 : Cabinet)
        ∧ codeBelow 16 claimOrbit.line = some (7 : Line) ∧ codeClaim claimOrbit = some (.orbit (orbitNumber (own s) 1))
        ∧ slotOf s 1 = some x ∧ OfferAt o [] [] s ∧ x.call = o.seq ∧ o.state = .parked (orbitNumber (own s) 1)
        ∧ (x.page = none ∨ x.page = some ⟨own s, codePage13.seq⟩) ∧ PageAt codePage13 [] [] s ∧ codePage13.state = .onAir
        ∧ codePage13.cls = .code ∧ codePage13.origin = .orbit (orbitNumber (own s) 1) := by
  decide

theorem witness_VerdictsReachTheLine :
    let s := runLine (pendingLine (.call call1))
    Sending 1 s ∧ Known 1 s ∧ codeCall ⟨1, 9⟩ = some call1
      ∧ (codeBelow 16 3 = some (own s) ∧ codeBelow 16 7 = some (7 : Line) ∧ codeBelow 16 2 = some (2 : Cabinet)
          ∧ (2 : Cabinet) ≠ own s)
      ∧ codeOrNone 16 2 = some (some (2 : HuntGroup)) ∧ codeOrNone 32 31 = some (some (31 : OrderIndex))
      ∧ (lineOf s 7).verdict = some ⟨.call call1, .answer⟩
      ∧ codeClaim ⟨0, ⟨1, 9⟩, 255, 3, 7⟩ = some (.call call1)
      ∧ (let t := runLine (ringingLine call1);
        Sending 2 t ∧ Known 1 t ∧ (lineOf t 7).state = .ringing
          ∧ (lineOf t 7).call = some ⟨call1, some .hunt, some 2, some 4⟩ ∧ (lineOf t 7).verdict = none) := by
  decide

theorem witness_VerdictsReachTheLine_party :
    OnlyParty 7 call1 (runLine (pendingLine (.call call1))) ∧ OnlyParty 7 call1 (runLine (ringingLine call1)) :=
  ⟨onlyParty_of (by decide), onlyParty_of (by decide)⟩

theorem witness_VerdictsReachTheLine_others :
    (let s := runLine (pendingLine (.orbit 13));
      Sending 1 s ∧ Known 1 s ∧ codeCall ⟨1, 9⟩ = some call1 ∧ codeBelow 16 3 = some (own s) ∧ codeBelow 16 7 = some (7 : Line)
        ∧ (codeOrNone 16 255 : Option (Option HuntGroup)) = some none ∧ codeOrNone 32 4 = some (some (4 : OrderIndex))
        ∧ (lineOf s 7).verdict = some ⟨.orbit 13, .answer⟩)
    ∧ (let s := runLine (ringingLine call1);
      Sending 2 s ∧ Known 1 s ∧ codeBelow 16 2 = some (2 : Cabinet) ∧ (2 : Cabinet) ≠ own s
        ∧ (lineOf s 7).state = .ringing ∧ (lineOf s 7).verdict = none)
    ∧ (∀ r ∈ [talkingLine none, pendingLine (.call ⟨1, 10⟩)],
      let s := runLine r
      Sending 1 s ∧ ShelfRoom 1 s ∧ Known 1 s
        ∧ ((lineOf s 7).verdict = none ∨ (lineOf s 7).verdict = some ⟨.call ⟨1, 10⟩, .answer⟩) ∧ (⟨1, 10⟩ : CallId) ≠ call1) := by
  decide

theorem witness_VerdictsReachTheLine_others_party :
    OnlyParty 7 call1 (runLine (pendingLine (.orbit 13))) ∧ OnlyParty 7 call1 (runLine (talkingLine none))
      ∧ OnlyParty 7 call1 (runLine (pendingLine (.call ⟨1, 10⟩))) :=
  ⟨onlyParty_of (by decide), onlyParty_of (by decide), onlyParty_of (by decide)⟩

/-! ### Hypotheses met: hunt groups -/

/-- The part with two candidates of group 2: line 7 with index 4, line 8 with index 5. -/
def twoCandidates : State := withLine 8 { idleLine with memberships := [⟨2, 5, true⟩] } (runLine idleLine)

theorem witness_OfferIsBidForOrRung :
    (Sending 1 twoCandidates ∧ Known 1 twoCandidates ∧ codeCall ⟨1, 9⟩ = some call1 ∧ codeBelow 16 2 = some (2 : HuntGroup)
      ∧ twoCandidates.he.heard.length < heardCapacity ∧ (∀ e ∈ twoCandidates.he.heard, e.call ≠ call1)
      ∧ disciplineOf twoCandidates 2 ≠ .simultaneous)
    ∧ (∀ l i, ¬ Candidacy run 2 0 l i)
    ∧ (∀ l i, ¬ Candidacy (runLine idleLine) 2 0x10 l i)
    ∧ Candidacy twoCandidates 2 0 7 4 ∧ KeyOf twoCandidates 2 7 4 4
    ∧ (let s := { twoCandidates with he := { run.he with
          groups := run.he.groups.set 2 (some { params with discipline := .simultaneous }) } }
      Sending 16 s ∧ Known 1 s ∧ disciplineOf s 2 = .simultaneous ∧ Candidacy s 2 0 7 4) := by
  decide

theorem witness_OfferIsBidForOrRung_reserved :
    ∀ l v, (lineOf twoCandidates l).reserved = some v → v.call ≠ call1 :=
  all_of_none (by decide)

theorem witness_OfferIsBidForOrRung_best :
    ∀ m j k, Candidacy twoCandidates 2 0 m j → m ≠ 7 → KeyOf twoCandidates 2 m j k → Before 4 4 7 k j m := by
  intro m j k hc hm hk
  have only : ∀ m j, Candidacy twoCandidates 2 0 m j → m ≠ 7 → m = 8 ∧ j = 5 := by decide
  obtain ⟨rfl, rfl⟩ := only m j hc hm
  have five : k.val = 5 := hk.1 (by decide)
  exact Or.inl (by rw [Fin.lt_def, five]; decide)

/-- The part with line 7 reserved and a bid for a call of cabinet 1. -/
def bidding (standing : BidStanding) (limit : Bool) : State := biddingFor call1 standing limit run

theorem witness_QueuedBidsAreWithdrawn :
    (∀ x ∈ [(BidStanding.queued, true), (.queued, false), (.sent, false)],
      let s := bidding x.1 x.2
      let b : BidEntry := ⟨call1, 7, 4, 4, x.1, x.2, false⟩
      Sending 1 s ∧ (∀ p ∈ [(1 : Cabinet), 5], Known p s) ∧ codeCall ⟨1, 9⟩ = some call1 ∧ codeBelow 16 0 = some (0 : Line)
        ∧ codeOrNone 32 0 = some (some (0 : OrderIndex)) ∧ call1.cab ≠ own s ∧ bidOf s call1 = some b
        ∧ (lineOf s 7).reserved = some ⟨call1, 2⟩ ∧ (∀ x ∈ s.clc.queue, x.inAttempt = false)
        ∧ (4 * 16 + 1 < b.key.val * 16 + (own s).val) ∧ (b.key.val * 16 + (own s).val ≤ 4 * 16 + 5))
    ∧ (∀ m, m ≠ 7 → (lineOf (bidding .queued true) m).reserved = none) := by
  decide

theorem witness_QueuedBidsAreWithdrawn_reserved :
    ∀ m v, m ≠ 7 → (lineOf (bidding .queued true) m).reserved = some v → v.call ≠ call1 :=
  others_of_none (by decide)

theorem witness_RingAssignRingsOrIsDeclined :
    (∀ x ∈ [(reservedLine call1, (0 : Byte), Cadence.hunt), (reservedLine call1, 2, .recall), (idleLine, 1, .direct),
        ({ idleLine with dnd := true }, 1, .direct), (diallingLine [], 0, .hunt)],
      let s := runLine x.1
      Sending 1 s ∧ Known 1 s ∧ codeCall ⟨1, 9⟩ = some call1 ∧ codeBelow 16 3 = some (own s) ∧ codeBelow 16 7 = some (7 : Line)
        ∧ codeCadence x.2.1 = some x.2.2 ∧ ringsFor (lineOf s 7) call1 = false ∧ s.ppu.view.length < viewCapacity
        ∧ (∀ e ∈ s.ppu.view, ¬ (e.call = call1 ∧ e.cab = own s ∧ e.line = 7))
        ∧ ∀ m, m ≠ 7 → (lineOf s m).reserved = none)
    ∧ ((lineOf (runLine (reservedLine call1)) 7).reserved = some ⟨call1, 2⟩)
    ∧ (let r := lineOf (runLine idleLine) 7;
      r.inService = true ∧ r.state = .idle ∧ r.dnd = false ∧ r.reserved = none)
    ∧ (let s := withHeard call1 2 (runLine idleLine);
      Sending 1 s ∧ Known 1 s ∧ heardGroup s call1 = some 2 ∧ isAvailable (lineOf s 7) 2 = true ∧ (lineOf s 7).reserved = none
        ∧ ringsFor (lineOf s 7) call1 = false ∧ s.ppu.view = [])
    ∧ (let r := lineOf (runLine { idleLine with dnd := true }) 7;
      r.reserved = none ∧ r.dnd = true)
    ∧ (let r := lineOf (runLine (diallingLine [])) 7;
      r.reserved = none ∧ r.state ≠ .idle) := by
  decide

theorem witness_BidWindowAssignsTheLowestBid :
    (∀ w ∈ [[], [bidOfCabinet 2 9], [bidOfCabinet 2 9, bidOfCabinet 1 8]],
      let o := openWindow w
      let s := runOffer o
      Sending 1 s ∧ Known 1 s ∧ OfferAt o [] [] s ∧ codeCall ⟨3, 5⟩ = some ⟨own s, o.seq⟩ ∧ codeBelow 16 4 = some (4 : Line)
        ∧ codeOrNone 32 2 = some (some (2 : OrderIndex)) ∧ bidOf s ⟨own s, o.seq⟩ = none ∧ o.window = some w
        ∧ hasIndex o.tried 2 = false ∧ o.ringing = [])
    ∧ (∀ x ∈ [bidOfCabinet 2 9], x.cab ≠ 1)
    ∧ ([bidOfCabinet 2 9, bidOfCabinet 1 8] = [bidOfCabinet 2 9] ++ bidOfCabinet 1 8 :: []
        ∧ (bidOfCabinet 1 8).cab = 1 ∧ (∀ y ∈ [bidOfCabinet 2 9] ++ [], y.cab ≠ 1)
        ∧ (∀ x ∈ [bidOfCabinet 2 9], (bidOfCabinet 1 8).field < x.field)
        ∧ ∀ x ∈ [bidOfCabinet 1 8], (bidOfCabinet 1 8).field ≤ x.field)
    ∧ ((offerIn .ringing).window = none ∧ hasIndex (openWindow []).tried 0 = true)
    ∧ (let o := { openWindow [] with ringing := [⟨1, 4, some 2⟩] };
      Sending 1 (runOffer o) ∧ OfferAt o [] [] (runOffer o) ∧ o.window = some [] ∧ o.ringing ≠ []) := by
  decide

/-- The part whose group 2 has these parameters, with one record. -/
def runGroup (p : GroupParams) (o : Offer) : State :=
  let s := runOffer o
  { s with he := { s.he with groups := s.he.groups.set 2 (some p) } }

theorem witness_OverflowFollowsTheGroupsAction :
    ∀ x ∈ [(OverflowAction.recycle, 0, false), (.queue, 0, false), (.queue, 0, true), (.forward, 1, true),
        (.forward, 2, true), (.park, 0, true)],
      let p := { params with overflow := x.1, queueFlag := x.2.2 }
      let o := { openWindow [] with depth := x.2.1 }
      let s := runGroup p o
      Sending 1 s ∧ ShelfRoom 1 s ∧ OfferAt o [] [] s ∧ o.window = some [] ∧ o.state = .offering ∧ o.ringing = []
        ∧ o.target = .hunt 2 ∧ s.he.groups.get 2 = some p ∧ (∀ y ∈ s.he.queue, y.call ≠ o.seq) ∧ p.overflow = x.1
        ∧ p.queueFlag = x.2.2 ∧ o.depth = x.2.1 ∧ (s.he.groups.get p.forward).isSome = true ∧ o.parkDone = false
        ∧ (let t := withSlot 0 (some (orbitWith none 0)) s;
          slotOf t 1 = none ∧ (∀ j, j < 1 → (slotOf t j).isSome = true) ∧ sharedCount t < 6
            ∧ ∀ r ∈ t.pgo.pages, r.seq ≠ nextPageSeq t) := by
  decide

theorem witness_WaitingCallsGoOn :
    (∀ x ∈ [OfferState.waiting .recyclePause, .waiting .queued, .offering, .assigned],
      ∀ a ∈ [QueueExpiryAction.endCall, .recycle],
      let p := { params with queueExpiry := a }
      let o := offerIn x
      let queue : List Standing := [⟨9, 6, false⟩] ++ ⟨5, 2, false⟩ :: [⟨8, 2, false⟩]
      let s := { runGroup p o with he := { (runGroup p o).he with queue := queue } }
      Sending 1 s ∧ ShelfRoom 1 s ∧ OfferAt o [] [] s ∧ o.target = .hunt 2 ∧ o.state = x ∧ Known 1 s
        ∧ s.he.queue = [⟨9, 6, false⟩] ++ ⟨o.seq, 2, false⟩ :: [⟨8, 2, false⟩]
        ∧ (∀ y ∈ [(⟨9, 6, false⟩ : Standing)], y.group ≠ 2)
        ∧ (∀ y ∈ [(⟨9, 6, false⟩ : Standing)] ++ [⟨8, 2, false⟩], y.call ≠ o.seq)
        ∧ s.he.groups.get 2 = some p ∧ p.queueExpiry = a ∧ o.ringing = [] ∧ o.assigned = none) := by
  decide

/-! ### Hypotheses met: orbits and pickup -/

theorem witness_OrbitTimersRecallAndRepeat :
    (∀ x ∈ [orbitWith none 2, orbitWith none 3, orbitWith (some ⟨3, 8⟩) 2, { orbitWith none 0 with repeating := false }],
      let o := offerIn (.parked 13)
      let s := parkedState x
      Sending 2 s ∧ OfferAt o [] [] s ∧ x.call = o.seq ∧ o.target = .hunt 2 ∧ slotOf s 1 = some x ∧ sharedCount s < 6
        ∧ (∀ r ∈ s.pgo.pages, r.seq ≠ nextPageSeq s) ∧ slotOf s 0 = none ∧ s.pgo.pages = [])
    ∧ ((orbitWith none 2).repeating = true ∧ (orbitWith none 2).repeats < (orbitWith none 2).limit
        ∧ (orbitWith none 3).limit ≤ (orbitWith none 3).repeats)
    ∧ (let x := orbitWith (some ⟨3, 8⟩) 2;
      let s := withPages [codePage13] (parkedState x)
      x.page = some ⟨own s, codePage13.seq⟩ ∧ PageAt codePage13 [] [] s ∧ codePage13.state = .onAir
        ∧ codePage13.cls = .code ∧ codePage13.origin = .orbit (orbitNumber (own s) 1)) := by
  decide

/-- A ring view entry of line 2 of cabinet 2, for a call of cabinet 1. -/
def viewEntry : ViewEntry := ⟨call1, 2, 2, some 5, false⟩

theorem witness_PickupCodesClaimACall :
    let part := fun buffer => { runLine (diallingLine buffer) with ppu := { resetPpu with view := [viewEntry] } }
    (let s := part [.star];
      Sending 1 s ∧ LastDigit 7 (.num 3) .groupPickup 0 s ∧ claimOf (groupSelection s 7) = some (.call call1)
        ∧ call1.cab ≠ own s)
    ∧ (let s := part [.star, .num 4, .num 1, .num 3]
      Sending 1 s ∧ LastDigit 7 (.num 4) .directedPickup 134 s ∧ claimOf (directedSelection s 7 134) = some (.call call1))
    ∧ (let s := part [.star, .num 5, .num 6]
      Sending 1 s ∧ LastDigit 7 (.num 3) .retrieve 63 s ∧ retrieveSelection s 63 = some (.orbit 63)
        ∧ orbitCabinet 63 ≠ own s)
    ∧ (let s := runLine (diallingLine [.star])
      Sending 1 s ∧ LastDigit 7 (.num 3) .groupPickup 0 s ∧ claimOf (groupSelection s 7) = none) := by
  decide

theorem witness_PickupCodesClaimACall_selection :
    let s := { runLine idleLine with ppu := { resetPpu with view := [{ viewEntry with marked := true }, viewEntry] } }
    (lineOf s 6).pickup = none ∧ (lineOf s 7).pickup = some 5
      ∧ s.ppu.view = [{ viewEntry with marked := true }] ++ viewEntry :: []
      ∧ (viewEntry.pickup = some 5 ∧ viewEntry.marked = false ∧ viewEntry.cab ≠ own s
        ∧ reachable s viewEntry.call.cab = true)
      ∧ (∀ x ∈ [{ viewEntry with marked := true }], x.marked ≠ false)
      ∧ (134 = 100 + 16 * (2 : Cabinet).val + (2 : Line).val ∧ viewEntry.cab = 2 ∧ viewEntry.line = 2) := by
  decide

/-! ### Hypotheses met: pages -/

/-- The view of every channel holds a page of another cabinet of a class, but for those of a list. -/
def heldChannels (x : PageClass) (free : List Channel) : Table 4 (Option ChannelHold) :=
  Table.build 4 fun c => if c ∈ free then none else some ⟨⟨1, 20⟩, x⟩

/-- Six line pages, each with its own sequence value. -/
def sixPages : List PageRec :=
  (List.range 6).map fun n => newPage (Fin.ofNat 256 (100 + n)) .routine .all (.line (Fin.ofNat 16 n)) false

theorem witness_PageCodesClaimAChannel :
    (∀ x ∈ [([Digit.star, .num 6, .num 3], Digit.num 1, Code.routinePage, 31, PageClass.routine, PageTarget.group 31),
        ([.hash, .star, .num 6, .num 9], .num 9, .overrideRoutine, 99, .routine, .all),
        ([.star, .num 7, .num 0], .num 0, .alarmPage, 0, .alarm, .group 0),
        ([.hash, .star, .num 7, .num 9], .num 9, .overrideAlarm, 99, .alarm, .all)],
      let s := runLine (diallingLine x.1)
      Sending 1 s ∧ LastDigit 7 x.2.1 x.2.2.1 x.2.2.2.1 s ∧ pageTargetOf x.2.2.2.1 = some x.2.2.2.2.2
        ∧ sharedCount s < 6 ∧ (∀ r ∈ s.pgo.pages, r.seq ≠ nextPageSeq s) ∧ s.pgo.view.get 0 = none
        ∧ 6 ≤ sharedCount (withPages sixPages s)
        ∧ sharedCount (withPages (sixPages.take 5) s) < 6
        ∧ (∀ r ∈ (withPages (sixPages.take 5) s).pgo.pages, r.seq ≠ nextPageSeq (withPages (sixPages.take 5) s)))
    ∧ (∀ e, e < 3 → ((heldChannels .alarm [3]).get e).isSome = true) ∧ (heldChannels .alarm [3]).get 3 = none
    ∧ (∀ c, ((heldChannels .alarm []).get c).isSome = true)
    ∧ (∀ c, (heldChannels .alarm []).get c = some ⟨⟨1, 20⟩, .alarm⟩)
    ∧ (∀ c, (heldChannels .routine []).get c = some ⟨⟨1, 20⟩, .routine⟩) ∧ (1 : Cabinet) ≠ own run := by
  decide

theorem witness_PageCodesClaimAChannel_none_to_seize :
    ∀ c h, (heldChannels .alarm []).get c = some h → h.cls ≠ .routine := by
  have every : ∀ c, (heldChannels .alarm []).get c = some ⟨⟨1, 20⟩, .alarm⟩ := by decide
  intro c h e
  rw [every c] at e
  cases e
  decide

/-- A page of an input, on the air. -/
def inputPageRec (i : ContactInput) (timer : Option PageTimer) (released : Bool) : PageRec :=
  { newPage 8 .alarm .all (.input i) false with state := .onAir, timer := timer, released := released }

theorem witness_InputPagesFollowTheirInput :
    (∀ i ∈ [ContactInput.alarm, .evac],
      Sending 1 run ∧ run.phase = .running ∧ inputActive run i = false ∧ inputPage run i = none
        ∧ (∀ r ∈ run.pgo.pages, r.seq ≠ nextPageSeq run))
    ∧ (phaseAt .loading run).phase = .loading ∧ (phaseAt .halted run).phase = .halted := by
  decide

theorem witness_InputPagesFollowTheirInput_standing :
    ∀ i ∈ [ContactInput.alarm, .evac],
      ∀ x ∈ [(none, false), (some PageTimer.minimum, true), (some .minimum, false)], ∀ on ∈ [true, false],
      let r := inputPageRec i x.1 x.2
      let s := withInput i on (withPages [r] run)
      Sending 1 s ∧ s.phase = .running ∧ inputActive s i = on ∧ PageAt r [] [] s ∧ inputPage s i = some r ∧ r.state = .onAir
        ∧ r.timer = x.1 ∧ r.released = x.2 := by
  decide

/-- A line's page with reports and a timer. -/
def reportedPage (x : PageState) (reports : List (ZoneNumber × ZoneOutcome)) : PageRec :=
  { linePageIn x with reports := reports, timer := if x = .reporting then some .reportWindow else none,
                      connectSent := decide (x = .onAir) }

/-- Fifteen reports of zones 0 to 14 that are all LOST. -/
def fifteenReports : List (ZoneNumber × ZoneOutcome) :=
  (List.range 15).map fun n => (Fin.ofNat 64 n, .lost)

theorem witness_ReportsAndTimersDecideThePage :
    (∀ x ∈ [[((9 : ZoneNumber), ZoneOutcome.held)], [(9, .busy)], []],
      let r := reportedPage .reporting x
      let s := runPage r
      Sending 1 s ∧ ShelfRoom 1 s ∧ PageAt r [] [] s ∧ r.origin = .line 7 ∧ r.channel = some 2 ∧ r.state = .reporting
        ∧ r.timer = some .reportWindow ∧ r.connectSent = false)
    ∧ (∃ e ∈ [((9 : ZoneNumber), ZoneOutcome.held)], e.2 = .playing ∨ e.2 = .pending ∨ e.2 = .held)
    ∧ (∀ e ∈ [((9 : ZoneNumber), ZoneOutcome.busy)], e.2 ≠ .playing ∧ e.2 ≠ .pending ∧ e.2 ≠ .held)
    ∧ (let s := withPages [codePage13] run
      Sending 1 s ∧ ShelfRoom 1 s ∧ PageAt codePage13 [] [] s ∧ codePage13.origin = .orbit 13 ∧ codePage13.state = .onAir
        ∧ codePage13.timer = some .life)
    ∧ (reportedPage .onAir []).timer = none := by
  decide

theorem witness_ReportsAndTimersDecideThePage_reports :
    (∀ y ∈ [PageState.reporting, .onAir], ∀ x ∈ [[((9 : ZoneNumber), ZoneOutcome.playing)], fifteenReports],
      let r := reportedPage y x
      let s := runPage r
      Sending 1 s ∧ ShelfRoom 1 s ∧ Known 1 s ∧ PageAt r [] [] s ∧ codePage ⟨3, 8⟩ = some ⟨own s, r.seq⟩
        ∧ codeBelow 64 63 = some (63 : ZoneNumber) ∧ codeOutcome 0 = some .playing ∧ codeOutcome 10 = some .ended
        ∧ r.origin = .line 7 ∧ r.state = y ∧ r.channel = some 2 ∧ (y = .onAir → r.connectSent = true))
    ∧ (∀ l, codePage13.origin ≠ .line l) := by
  decide

/-- The command that names channel 2 as held by page 1-4 of a class: a PAGE-START, or a STATUS. -/
def naming (x : PageClass) (started : Bool) : Instr :=
  if started then .pageStart 1 (startOf x 2 0)
  else .status 1 ⟨0, 0, ⟨0, 0⟩, ⟨255, ⟨0, 0⟩⟩, ⟨255, ⟨0, 0⟩⟩, ⟨classByte x, ⟨1, 4⟩⟩, ⟨255, ⟨0, 0⟩⟩, 0⟩

/-- It does so in a part whose view has none of cabinet 1's pages on another channel, and no zone of whose is in service. -/
theorem namesChannel_of {x : PageClass} {started : Bool} {s : State} (known : Known 1 s)
    (h : codeClass (classByte x) = some x)
    (o : (codeOrNone 64 (if x = .code then 6 else 255 : Byte)) = some (if x = .code then some (6 : OrbitNumber) else none))
    (zones : ∀ z, inTarget (zoneOf s z) (.group 0) = false ∧ (zoneOf s z).evac = [])
    (view : ∀ m y, m ≠ 2 → s.pgo.view.get m = some y → y.page.cab ≠ 1)
    (channels : codeChannels ⟨0, 0, ⟨0, 0⟩, ⟨255, ⟨0, 0⟩⟩, ⟨255, ⟨0, 0⟩⟩, ⟨classByte x, ⟨1, 4⟩⟩, ⟨255, ⟨0, 0⟩⟩, 0⟩
      = some ((Table.fill 4 none).set 2 (some ⟨⟨1, 4⟩, x⟩))) :
    ∃ u, NamesChannel (naming x started) 1 2 ⟨⟨1, 4⟩, x⟩ s u := by
  cases started with
  | true => exact ⟨heardFrom 1 s, known, Or.inl ⟨startOf x 2 0, .group 0, _, rfl, rfl, h, rfl, rfl, o, fun z => (zones z).1,
      show (0 : Byte).getLsbD 0 = false by decide, rfl⟩⟩
  | false =>
    refine ⟨_, known, Or.inr ⟨_, rfl, rfl, rfl, channels, fun z p m => ?_, view, rfl⟩⟩
    rw [(zones z).2] at m
    exact nomatch m

theorem witness_PagesThatMeetOnAChannel :
    (∀ x ∈ [(PageClass.alarm, true), (.routine, true), (.code, false)], ∀ y ∈ [PageState.reporting, .onAir],
      let r := linePageIn y
      let s := runPage r
      Sending 1 s ∧ ShelfRoom 1 s ∧ PageAt r [] [] s ∧ channelRecord s 2 = some r ∧ r.origin = .line 7 ∧ r.state = y
        ∧ (∀ e ∈ s.clc.queue, isStatus e.notice = false)
        ∧ (decide (classRank r.cls < classRank x.1 ∨ (x.1 = r.cls ∧ (1 : Cabinet) < own s)) = x.2))
    ∧ channelRecord run 2 = none := by
  decide

theorem witness_PagesThatMeetOnAChannel_named :
    (∃ u, NamesChannel (naming .alarm true) 1 2 ⟨⟨1, 4⟩, .alarm⟩ (runPage (linePageIn .onAir)) u)
    ∧ (∃ u, NamesChannel (naming .routine false) 1 2 ⟨⟨1, 4⟩, .routine⟩ (runPage (linePageIn .reporting)) u)
    ∧ (∃ u, NamesChannel (naming .code false) 1 2 ⟨⟨1, 4⟩, .code⟩ (runPage (linePageIn .onAir)) u)
    ∧ ∃ u, NamesChannel (naming .routine true) 1 2 ⟨⟨1, 4⟩, .routine⟩ run u :=
  ⟨namesChannel_of (by decide) (by decide) (by decide) (by decide) (others_of_none (by decide)) (by decide),
    namesChannel_of (by decide) (by decide) (by decide) (by decide) (others_of_none (by decide)) (by decide),
    namesChannel_of (by decide) (by decide) (by decide) (by decide) (others_of_none (by decide)) (by decide),
    namesChannel_of (by decide) (by decide) (by decide) (by decide) (others_of_none (by decide)) (by decide)⟩

/-- A page of line 7 of a class that waits for its PAGE-START on channel 2. -/
def claimingPage (x : PageClass) : PageRec := { newPage 8 x .all (.line 7) false with channel := some 2 }

/-- A page of line 9 on the air on channel 1. -/
def airedPage : PageRec :=
  { newPage 9 .routine .all (.line 9) false with channel := some 1, state := .onAir, connectSent := true }

/-- The part with that CLAIMING page and, on the other channels, a channel view; its PAGE-START is queued. -/
def claiming (x : PageClass) (others : List PageRec) (view : Table 4 (Option ChannelHold)) : State :=
  let s := withPages (claimingPage x :: others) run
  { s with
      clc := { s.clc with queue := [newEntry 3 (.pageStart (startBody s (claimingPage x)))] }
      pgo := { s.pgo with view := view.set 2 (some ⟨⟨3, 8⟩, x⟩) } }

/-- Every channel held by a page of cabinet 2 of a class. -/
def heldByTwo (x : PageClass) : Table 4 (Option ChannelHold) := Table.fill 4 (some ⟨⟨2, 20⟩, x⟩)

/-- Channel 1 held by the part's own page, the others by ALARM pages of cabinet 2. -/
def ownOnOne : Table 4 (Option ChannelHold) := (heldByTwo .alarm).set 1 (some ⟨⟨3, 9⟩, .routine⟩)

theorem witness_PagesThatMeetOnAChannel_claiming :
    ∀ x ∈ [PageClass.routine, .alarm],
      ∀ v ∈ [Table.fill 4 none, heldByTwo .alarm, heldByTwo .routine],
      let s := claiming x [] v
      Sending 1 s ∧ ShelfRoom 1 s ∧ PageAt (claimingPage x) [] [] s ∧ channelRecord s 2 = some (claimingPage x)
        ∧ (claimingPage x).origin = .line 7 ∧ (claimingPage x).state = .claiming ∧ (claimingPage x).connectSent = false
        ∧ (∀ e ∈ s.clc.queue, isStartOf ⟨own s, 8⟩ e.notice = true → e.inAttempt = false) := by
  decide

theorem witness_PagesThatMeetOnAChannel_seizing :
    let s := claiming .alarm [airedPage] ownOnOne
    Sending 1 s ∧ ShelfRoom 1 s ∧ PageAt (claimingPage .alarm) [] [airedPage] s ∧ channelRecord s 2 = some (claimingPage .alarm)
      ∧ PageAt airedPage [claimingPage .alarm] [] s ∧ airedPage.seq ≠ (claimingPage .alarm).seq ∧ airedPage.origin = .line 9
      ∧ airedPage.state ≠ .claiming ∧ airedPage.channel = some 1 := by
  decide

/-- What the view holds once channel 2 is held by page 1-4, ALARM, in these four parts: a free channel, a ROUTINE page to seize of
another cabinet and of the part, none to seize. -/
theorem witness_PagesThatMeetOnAChannel_views :
    let seen := fun (v : Table 4 (Option ChannelHold)) => v.set 2 (some ⟨⟨1, 4⟩, .alarm⟩)
    ((seen (Table.fill 4 none)).get 0 = none)
    ∧ (∀ d, (seen (heldByTwo .routine)).get d ≠ none) ∧ (seen (heldByTwo .routine)).get 0 = some ⟨⟨2, 20⟩, .routine⟩
    ∧ (∀ d, (seen ownOnOne).get d ≠ none) ∧ (seen ownOnOne).get 1 = some ⟨⟨3, 9⟩, .routine⟩
    ∧ (seen ownOnOne).get 0 = some ⟨⟨2, 20⟩, .alarm⟩
    ∧ (∀ d, (seen (heldByTwo .alarm)).get d ≠ none)
    ∧ (∀ d, ((seen (heldByTwo .alarm)).get d).map (·.cls) = some .alarm) := by
  decide

theorem witness_PagesThatMeetOnAChannel_claimed :
    (∃ u, NamesChannel (naming .alarm true) 1 2 ⟨⟨1, 4⟩, .alarm⟩ (claiming .routine [] (Table.fill 4 none)) u)
    ∧ (∃ u, NamesChannel (naming .alarm false) 1 2 ⟨⟨1, 4⟩, .alarm⟩ (claiming .alarm [] (Table.fill 4 none)) u) :=
  ⟨namesChannel_of (by decide) (by decide) (by decide) (by decide) (others_of_none (by decide)) (by decide),
    namesChannel_of (by decide) (by decide) (by decide) (by decide) (others_of_none (by decide)) (by decide)⟩

/-- The same where the other channels are held by pages of the part and of cabinet 2. -/
theorem witness_PagesThatMeetOnAChannel_claimed_full :
    ∀ v ∈ [heldByTwo .alarm, heldByTwo .routine, ownOnOne],
      ∃ u, NamesChannel (naming .alarm true) 1 2 ⟨⟨1, 4⟩, .alarm⟩ (claiming .alarm [airedPage] v) u := by
  intro v h
  have held : ∀ m, m ≠ 2 → ((claiming .alarm [airedPage] v).pgo.view.get m).map (fun y => decide (y.page.cab = 1)) = some false := by
    revert v h
    decide
  refine namesChannel_of ?_ (by decide) (by decide) ?_ ?_ (by decide)
  · revert v h; decide
  · revert v h; decide
  · intro m y n e
    have := held m n
    rw [e] at this
    intro c
    rw [Option.map_some, c] at this
    exact absurd this (by decide)

theorem witness_PageEndsReachPagesAndZones :
    (let s := runPage (linePageIn .onAir);
      Sending 1 s ∧ ShelfRoom 1 s ∧ Known 1 s ∧ codePage ⟨1, 4⟩ = some ⟨1, 4⟩
        ∧ NoPlacedPage (fun e => decide (e.page = ⟨1, 4⟩)) s ∧ (∀ z, (⟨1, 4⟩ : PageId) ∉ (zoneOf s z).evac)
        ∧ NoPlacedPage (fun e => decide (e.cls = .routine ∨ e.cls = .code)) s ∧ PageAt (linePageIn .onAir) [] [] s
        ∧ (linePageIn .onAir).cls = .routine ∧ (linePageIn .onAir).origin = .line 7
        ∧ (linePageIn .onAir).channel = some 2 ∧ (linePageIn .onAir).state ≠ .claiming)
    ∧ (let e := entryOfClass .routine (.channel 2)
      let s := runZone { zone0 with state := .live, active := some (.page e 3) }
      Sending 0 s ∧ Known 1 s ∧ codePage ⟨1, 4⟩ = some e.page ∧ (zoneOf s 2).active = some (.page e 3)
        ∧ (zoneOf s 2).held = none ∧ (zoneOf s 2).pending = [] ∧ (zoneOf s 2).evac = []
        ∧ (∀ y, y ≠ 2 → holdsPage (zoneOf s y) e.page = false) ∧ (∀ i, slotOf s i = none)) := by
  decide

/-- A page of cabinet 2 on channel 1, and one of its orbit 8. -/
def otherPage (x : PageClass) : PageEntry :=
  { page := ⟨2, 6⟩, cls := x, source := if x = .code then .tone else .channel 1, orbit := if x = .code then some 8 else none }

/-- Zone 2 with page 1-4 active on channel 2, and a held place and a pending list. -/
def placed (x : PageClass) (held : Option Held) (pending : List PageEntry) : ZoneRec :=
  { zone0 with state := .live, active := some (.page (entryOfClass x (.channel 2)) 3), held := held, pending := pending }

theorem witness_PageEndsReachPagesAndZones_resume :
    ∀ x ∈ [(some (⟨otherPage .alarm, .live, 7⟩ : Held), ([] : List PageEntry)), (some ⟨otherPage .alarm, .chime, 7⟩, []),
        (some ⟨otherPage .code, .code, 7⟩, []), (none, [otherPage .alarm]),
        (some ⟨otherPage .code, .code, 7⟩, [{ otherPage .alarm with page := ⟨2, 7⟩ }]),
        (some ⟨{ otherPage .alarm with source := .tone }, .tone, 7⟩, [{ otherPage .alarm with page := ⟨2, 7⟩ }])],
      let s := runZone (placed .alarm x.1 x.2)
      Sending 1 s ∧ s.phase = .running ∧ Known 1 s ∧ s.ts.notes = some (Table.fill 8 100)
        ∧ (zoneOf s 2).active = some (.page (entryOfClass .alarm (.channel 2)) 3) ∧ zoneActive (zoneOf s 2).state = true
        ∧ (zoneOf s 2).evac = [] ∧ (zoneOf s 2).held = x.1 ∧ (zoneOf s 2).pending = x.2
        ∧ (x.1.map (·.entry.page)).all (fun p => decide (p ≠ ⟨1, 4⟩)) = true ∧ (∀ y ∈ x.2, y.page ≠ ⟨1, 4⟩)
        ∧ (∀ y, y ≠ 2 → holdsPage (zoneOf s y) ⟨1, 4⟩ = false) ∧ (∀ i, slotOf s i = none) ∧ (zoneOf s 2).state ≠ .waking := by
  decide

/-- Which of the two choices each of these makes. -/
theorem witness_PageEndsReachPagesAndZones_choice :
    classRank (otherPage .alarm).cls ≤ classRank (otherPage .alarm).cls
      ∧ classRank (otherPage .code).cls < classRank (otherPage .alarm).cls ∧ (otherPage .code).cls ≠ .alarm
      ∧ (otherPage .alarm).source = .channel 1 ∧ ZoneState.chime ≠ .live ∧ ZoneState.chime ≠ .tone := by
  decide

/-! ### Hypotheses met: zones -/

/-- StartFor of a page of cabinet 1, from the equations it is made of. -/
theorem startFor_of {x : PageClass} {c : Byte} {src : PageSource} {flags : Byte} {override : Bool} {s : State}
    (h : Known 1 s ∧ codePage (startOf x c flags).page = some ⟨1, 4⟩
      ∧ codeClass (startOf x c flags).cls = some x ∧ codeTarget (startOf x c flags).target = some (.group 0)
      ∧ codeOrNone 64 (startOf x c flags).orbit = some (entryOfClass x src).orbit)
    (named : ∀ n, src = .channel n → codeOrNone 4 c = some (some n) ∧ channelRecord s n = none)
    (unnamed : src = .tone → codeOrNone 4 c = some (none : Option Channel))
    (rest : (x = .routine → src ≠ .tone) ∧ (x = .code → (entryOfClass x src).orbit ≠ none) ∧ flags.getLsbD 0 = false
      ∧ flags.getLsbD 1 = override ∧ (∀ y, inTarget (zoneOf s y) (.group 0) = decide (y = 2))
      ∧ holdsPage (zoneOf s 2) ⟨1, 4⟩ = false) :
    StartFor (startOf x c flags) 1 (entryOfClass x src) (.group 0) 2 override s := by
  obtain ⟨h3, h4, h5, h6, h7⟩ := h
  refine ⟨h3, h4, h5, h6, h7, ?_, rest⟩
  cases src with
  | channel n => exact named n rfl
  | tone => exact unnamed rfl

/-- OneZoneStart of a page of cabinet 1, from the equations it is made of. -/
theorem oneZoneStart_of {x : PageClass} {c : Byte} {src : PageSource} {flags : Byte} {override : Bool} {s : State}
    (h : Sending 1 s ∧ s.phase = .running ∧ Known 1 s ∧ codePage (startOf x c flags).page = some ⟨1, 4⟩
      ∧ codeClass (startOf x c flags).cls = some x ∧ codeTarget (startOf x c flags).target = some (.group 0)
      ∧ codeOrNone 64 (startOf x c flags).orbit = some (entryOfClass x src).orbit)
    (named : ∀ n, src = .channel n → codeOrNone 4 c = some (some n) ∧ channelRecord s n = none)
    (unnamed : src = .tone → codeOrNone 4 c = some (none : Option Channel))
    (rest : (x = .routine → src ≠ .tone) ∧ (x = .code → (entryOfClass x src).orbit ≠ none) ∧ flags.getLsbD 0 = false
      ∧ flags.getLsbD 1 = override ∧ (∀ y, inTarget (zoneOf s y) (.group 0) = decide (y = 2))
      ∧ holdsPage (zoneOf s 2) ⟨1, 4⟩ = false) :
    OneZoneStart (startOf x c flags) 1 (entryOfClass x src) (.group 0) 2 override s :=
  ⟨h.1, h.2.1, startFor_of h.2.2 named unnamed rest⟩

/-- A zone 2 that plays a page of cabinet 2. -/
def playing (x : PageClass) (phase : ZoneState) : ZoneRec :=
  { zone0 with
      state := phase
      active := some (.page { page := ⟨2, 6⟩, cls := x, source := .channel 1,
                              orbit := if x = .code then some 8 else none } 3) }

theorem witness_PageStartMeetsAZone_released :
    OneZoneStart (startOf .routine 2 0) 1 (entryOfClass .routine (.channel 2)) (.group 0) 2 false (runZone zone0)
    ∧ OneZoneStart (startOf .code 255 0) 1 (entryOfClass .code .tone) (.group 0) 2 false (runZone zone0)
    ∧ OneZoneStart (startOf .alarm 255 2) 1 (entryOfClass .alarm .tone) (.group 0) 2 true (runZone zone0) :=
  ⟨oneZoneStart_of (by decide) (by decide) (by decide) (by decide), oneZoneStart_of (by decide) (by decide) (by decide) (by decide),
    oneZoneStart_of (by decide) (by decide) (by decide) (by decide)⟩

theorem witness_PageStartMeetsAZone_released_rest :
    ∀ w ∈ [0, 500],
      let r := { zone0 with cfg := { zone0.cfg with wake := w } }
      let s := runZone r
      s.ts.notes = some (Table.fill 8 100) ∧ (zoneOf s 2).state = .released ∧ (zoneOf s 2).active = none
        ∧ (zoneOf s 2).evac = [] ∧ (zoneOf s 2).cfg.quiet = false ∧ (zoneOf s 2).cfg.wake = w := by
  decide

/-- The PAGE-START of page 1-9, ALARM, on channel 2 for paging group 1, its seize flag set. -/
def seizing : RawPageStart := { page := ⟨1, 9⟩, cls := 2, target := 1, channel := 2, flags := 1, orbit := 255 }

/-- Zone places with pages of channel 2 that go, and of channel 1 that stay. -/
def seized : List ZoneRec :=
  [placed .alarm none [], placed .alarm none [otherPage .alarm, { otherPage .alarm with page := ⟨2, 7⟩, source := .channel 2 }],
    placed .alarm (some ⟨otherPage .code, .code, 7⟩) [{ otherPage .alarm with source := .channel 2 }],
    placed .alarm (some ⟨{ otherPage .code with source := .channel 2 }, .code, 7⟩) [otherPage .alarm]]

theorem witness_PageStartMeetsAZone_seizing :
    ∀ r ∈ { playing .alarm .live with pending := [entryOfClass .alarm (.channel 2)] } :: seized,
      let s := runZone r
      let gone := fun e : PageEntry => decide (e.source = .channel 2 ∧ e.page ≠ ⟨1, 9⟩)
      (Ready s ∧ s.clc.link = .running ∧ s.phase = .running ∧ Known 1 s ∧ codePage seizing.page = some ⟨1, 9⟩
        ∧ codeClass seizing.cls = some .alarm ∧ codeOrNone 4 seizing.channel = some (some (2 : Channel))
        ∧ seizing.flags.getLsbD 0 = true ∧ channelRecord s 2 = none)
      ∧ (codeTarget seizing.target = some (.group 1) ∧ (codeOrNone 64 seizing.orbit : Option (Option OrbitNumber)) = some none
        ∧ ∀ y, inTarget (zoneOf s y) (.group 1) = false)
      ∧ s.ts.notes = some (Table.fill 8 100)
      ∧ (∀ y, y ≠ 2 → pickActive gone (zoneOf s y) = none ∧ pickHeld gone (zoneOf s y) = none
          ∧ (zoneOf s y).pending.all (fun e => !gone e) = true)
      ∧ (pickActive gone (zoneOf s 2)).isSome = decide (r ∈ seized) ∧ zoneActive (zoneOf s 2).state = true
      ∧ (zoneOf s 2).evac = [] ∧ s.clc.queue.length + 7 ≤ txCapacity := by
  decide

/-- What stays of the held place and the pending list in the four zones that the active page leaves. -/
theorem witness_PageStartMeetsAZone_seized :
    let gone := fun e : PageEntry => decide (e.source = .channel 2 ∧ e.page ≠ ⟨1, 9⟩)
    (seized.map fun r => (r.held.filter fun h => !gone h.entry, r.pending.filter fun e => !gone e))
      = [(none, []), (none, [otherPage .alarm]), (some ⟨otherPage .code, .code, 7⟩, []), (none, [otherPage .alarm])] := by
  decide

theorem witness_PageStartMeetsAZone_turned_away :
    OneZoneStart (startOf .routine 2 0) 1 (entryOfClass .routine (.channel 2)) (.group 0) 2 false
      (runZone { zone0 with state := .fault })
    ∧ OneZoneStart (startOf .routine 2 0) 1 (entryOfClass .routine (.channel 2)) (.group 0) 2 false
      (runZone { zone0 with cfg := { zone0.cfg with quiet := true } })
    ∧ OneZoneStart (startOf .routine 2 0) 1 (entryOfClass .routine (.channel 2)) (.group 0) 2 false
      (runZone (playing .routine .live))
    ∧ OneZoneStart (startOf .alarm 2 0) 1 (entryOfClass .alarm (.channel 2)) (.group 0) 2 false
      (runZone (playing .alarm .live)) :=
  ⟨oneZoneStart_of (by decide) (by decide) (by decide) (by decide), oneZoneStart_of (by decide) (by decide) (by decide) (by decide),
    oneZoneStart_of (by decide) (by decide) (by decide) (by decide), oneZoneStart_of (by decide) (by decide) (by decide) (by decide)⟩

theorem witness_PageStartMeetsAZone_turned_away_rest :
    (zoneOf (runZone { zone0 with state := .fault }) 2).state = .fault
    ∧ (let r := zoneOf (runZone { zone0 with cfg := { zone0.cfg with quiet := true } }) 2
      r.state ≠ .outOfService ∧ r.state ≠ .fault ∧ r.cfg.quiet = true)
    ∧ (∀ x ∈ [PageClass.routine, .alarm],
      let r := zoneOf (runZone (playing x .live)) 2
      r.state ≠ .outOfService ∧ r.state ≠ .fault ∧ r.cfg.quiet = false ∧ r.active = some (.page ⟨⟨2, 6⟩, x, .channel 1, none⟩ 3)
        ∧ classRank x ≤ classRank x ∧ r.pending = []) := by
  decide

theorem witness_AlarmsAndEvacuationsTakeAZone :
    OneZoneStart (startOf .alarm 2 0) 1 (entryOfClass .alarm (.channel 2)) (.group 0) 2 false
      (runZone (playing .routine .live))
    ∧ OneZoneStart (startOf .alarm 2 0) 1 (entryOfClass .alarm (.channel 2)) (.group 0) 2 false
      (runZone (playing .code .code))
    ∧ OneZoneStart (startOf .evac 255 0) 1 (entryOfClass .evac .tone) (.group 0) 2 false (runZone zone0)
    ∧ OneZoneStart (startOf .evac 255 0) 1 (entryOfClass .evac .tone) (.group 0) 2 false
      (runZone { zone0 with state := .tone, active := some .evacuation, evac := [⟨1, 3⟩] }) :=
  ⟨oneZoneStart_of (by decide) (by decide) (by decide) (by decide), oneZoneStart_of (by decide) (by decide) (by decide) (by decide),
    oneZoneStart_of (by decide) (by decide) (by decide) (by decide), oneZoneStart_of (by decide) (by decide) (by decide) (by decide)⟩

theorem witness_AlarmsAndEvacuationsTakeAZone_rest :
    (∀ x ∈ [(PageClass.routine, ZoneState.live, none), (.code, .code, some 8)],
      let s := runZone (playing x.1 x.2.1)
      Sending 2 s ∧ s.ts.notes = some (Table.fill 8 100) ∧ (entryOfClass .alarm (.channel 2)).cls = .alarm
        ∧ (entryOfClass .alarm (.channel 2)).source = .channel 2 ∧ (zoneOf s 2).evac = []
        ∧ (zoneOf s 2).active = some (.page ⟨⟨2, 6⟩, x.1, .channel 1, x.2.2⟩ 3) ∧ (zoneOf s 2).held = none
        ∧ (zoneOf s 2).state = x.2.1)
    ∧ (let r := zoneOf (runZone zone0) 2
      r.state = .released ∧ r.active = none ∧ r.evac = [] ∧ 0 < r.cfg.wake)
    ∧ (let r := zoneOf (runZone { zone0 with state := .tone, active := some .evacuation, evac := [⟨1, 3⟩] }) 2
      r.state ≠ .outOfService ∧ r.state ≠ .fault ∧ r.evac ≠ []) := by
  decide

/-- Zone 2 with a page of cabinet 1, and with a completion report waiting. -/
def reporting (x : PageClass) (phase : ZoneState) (kept : Seq) : State :=
  withSequencer 2 { resetSequencer with number := 4, reports := [⟨.routinePrelude, 4⟩] }
    (runZone { zone0 with state := phase, keptRun := kept, active := some (.page (entryOfClass x (.channel 2)) 3) })

theorem witness_ZonePhasesAdvance :
    (let e := entryOfClass .routine (.channel 2);
      let s := runZone { zone0 with state := .waking, active := some (.page e 0) };
      Ready s ∧ s.ts.notes = some (Table.fill 8 100) ∧ (zoneOf s 2).state = .waking
        ∧ (zoneOf s 2).active = some (.page e 0) ∧ (zoneOf s 2).state ≠ .hang)
    ∧ (let s := runZone { zone0 with state := .waking, active := some .evacuation, evac := [⟨1, 3⟩] }
      Ready s ∧ (zoneOf s 2).state = .waking ∧ (zoneOf s 2).active = some .evacuation)
    ∧ (let s := runZone { zone0 with state := .hang }
      Ready s ∧ (zoneOf s 2).state = .hang ∧ (zoneOf s 2).state ≠ .waking)
    ∧ (∀ x ∈ [(PageClass.routine, ZoneState.chime, 4), (.code, .code, 4), (.routine, .chime, 3), (.routine, .live, 4)],
      let s := reporting x.1 x.2.1 x.2.2
      Sending 1 s ∧ s.phase = .running ∧ (seqOf s 2).reports = [⟨.routinePrelude, 4⟩]
        ∧ (zoneOf s 2).active = some (.page (entryOfClass x.1 (.channel 2)) 3) ∧ (zoneOf s 2).keptRun = x.2.2
        ∧ (zoneOf s 2).state = x.2.1 ∧ (seqOf s 2).run = none ∧ (zoneOf s 2).held = none ∧ (zoneOf s 2).pending = []) := by
  decide

theorem witness_ElapsedSecondsReachTheClassMaximum :
    (∀ x ∈ [(PageClass.routine, 58), (.routine, 59), (.alarm, 298), (.alarm, 299), (.code, 3)],
      let e := entryOfClass x.1 (.channel 2)
      let s := runZone { zone0 with state := .live, active := some (.page e x.2) }
      Sending 1 s ∧ s.phase = .running ∧ (zoneOf s 2).active = some (.page e x.2) ∧ e.cls = x.1 ∧ s.zc.routineMax = 60
        ∧ s.zc.alarmMax = 300 ∧ (zoneOf s 2).held = none ∧ (zoneOf s 2).pending = [])
    ∧ (zoneOf run 2).active = none := by
  decide

/-- The part with amplifier-fault input 2 active. -/
def faultPin (s : State) : State := { s with pins := { s.pins with ampFault := s.pins.ampFault.set 2 true } }

/-- Zone 2 with an active page, one held and two pending, evacuating with two pages in its set, RELEASED, and out of service. -/
def faulted : List ZoneRec :=
  [placed .alarm (some ⟨otherPage .code, .code, 7⟩) [otherPage .alarm, { otherPage .code with page := ⟨2, 7⟩ }],
    { placed .alarm (some ⟨otherPage .code, .code, 7⟩) [] with
        state := .tone, active := some .evacuation, evac := [⟨1, 3⟩, ⟨2, 9⟩] },
    zone0, { zone0 with state := .outOfService }]

theorem witness_AmplifierFaultTakesTheZone :
    ∀ r ∈ faulted,
      let s := runZone r
      Ready s ∧ s.clc.link = .running ∧ s.phase = .running ∧ s.pins.ampFault.get 2 = false ∧ zoneOf s 2 = r
        ∧ s.clc.queue.length + 4 ≤ txCapacity := by
  decide

theorem witness_AmplifierFaultTakesTheZone_ends :
    ∀ r ∈ [{ zone0 with state := .fault, ampFault := true },
        { zone0 with state := .fault, ampFault := true, evac := [⟨1, 3⟩] },
        { zone0 with state := .fault, ampFault := true, evac := [⟨1, 3⟩], cfg := { zone0.cfg with wake := 0 } },
        { zone0 with state := .outOfService, ampFault := true }],
      let s := faultPin (runZone r)
      Ready s ∧ s.phase = .running ∧ s.ts.notes = some (Table.fill 8 100) ∧ s.pins.ampFault.get 2 = true ∧ zoneOf s 2 = r := by
  decide

/-! ### Hypotheses met: tones and levels -/

/-- Sequencer 2 at a step of a pattern. -/
def atStep (p : Pattern) (n : Nat) : State := withSequencer 2 { resetSequencer with run := some ⟨p, n⟩, number := 4 } run

theorem witness_StepTimerPlaysThePattern :
    (∀ x ∈ [(Pattern.routinePrelude, 1), (.routinePrelude, 2), (.alarmTone, 2), (.evacTone, 2), (.code 63, 3)],
      let s := atStep x.1 x.2
      Ready s ∧ s.ts.notes = some (Table.fill 8 100) ∧ (seqOf s 2).run = some ⟨x.1, x.2⟩)
    ∧ (patternSteps .routinePrelude)[1]? = some (some 1, 300) ∧ (patternSteps .routinePrelude).length = 2
    ∧ (patternSteps .alarmTone).length = 2 ∧ (patternSteps .alarmTone)[0]? = some (some 4, 250)
    ∧ (patternSteps .evacTone)[0]? = some (some 6, 500) ∧ (seqOf run 2).run = none := by
  decide

theorem witness_SamplesMoveTheLevel :
    (∀ x ∈ [(false, 6, 0), (false, 7, 0), (true, 8, 0), (false, 0, 2), (false, 0, 0)],
      let v := { resetLevel with failed := x.1, faultRun := x.2.1, holdOff := x.2.2 }
      let s := withLevel 2 v (runZone zone0)
      Ready s ∧ s.phase = .running ∧ (zoneOf s 2).cfg.inService = true ∧ levelOf s 2 = v)
    ∧ (254 : Byte) ≠ 255
    ∧ (Ready run ∧ (zoneOf run 2).cfg.inService = false)
    ∧ (phaseAt .loading run).phase = .loading ∧ (phaseAt .halted run).phase = .halted := by
  decide

theorem witness_LevelArithmetic :
    (4064 : Nat) ≤ 4064 ∧ (254 : Nat) ≤ 254 ∧ LevelParamsOk { resetZoneConfig.level with slope := 8, base := 127 }
      ∧ (some PageClass.routine ≠ some .evac ∧ some PageClass.routine ≠ some .alarm) := by
  unfold LevelParamsOk
  decide

/-! ### Hypotheses met: the Shelf Port -/

/-- The part with a condition entry. -/
def withCondition (c : Condition) (e : CondEntry) : State :=
  { run with spu := { run.spu with conditions := run.spu.conditions.set (conditionPlace c) e } }

theorem witness_ConditionsAreRaisedAndRead :
    (∀ n ∈ [254, 255],
      let s := withCondition .peerSilent ⟨true, 1, .clc, n⟩
      Ready s ∧ (conditionEntry s .peerSilent).pending = true ∧ (conditionEntry s .peerSilent).count = n
        ∧ s.spu.output.length < outputCapacity ∧ Condition.isolated ≠ .peerSilent
        ∧ (conditionEntry s .isolated).pending = false
        ∧ ∀ d ∈ [Condition.configFault, .duplicateAddress, .evacActive, .isolated, .ampFault, .sensorFailed],
            conditionPlace d < conditionPlace .peerSilent ∧ (conditionEntry s d).pending = false)
    ∧ (∀ p : Fin 12, (run.spu.conditions.get p).pending = false)
    ∧ (let s := withSent (List.replicate 64 (.lineToShelf 0 0)) run
      Ready s ∧ s.spu.output.length = outputCapacity) := by
  decide

theorem witness_ConditionsAreRaisedAndRead_others :
    (∀ d, conditionPlace d < conditionPlace .peerSilent →
      (conditionEntry (withCondition .peerSilent ⟨true, 1, .clc, 1⟩) d).pending = false)
    ∧ ∀ c, (conditionEntry run c).pending = false := by
  constructor
  · intro d h
    cases d <;> first | decide | exact absurd h (by decide)
  · intro c
    cases c <;> decide

theorem witness_ShelfClearEndsCallsAndTalks :
    (let s := runLine (talkingLine none);
      Sending 1 s ∧ (∀ l, (lineOf s l).state ≠ .ringing) ∧ s.pgo.pages = [] ∧ s.ofm.offers = [])
    ∧ (let s := runOffer (offerIn .offering)
      Sending 1 s ∧ (∀ l, (lineOf s l).state ≠ .ringing) ∧ s.pgo.pages = [] ∧ s.ofm.offers = [offerIn .offering]
        ∧ ∀ n, (offerIn .offering).state ≠ .parked n) := by
  decide

/-- The part with bytes of a record received. -/
def receiving (bytes : List Byte) : State := { run with spu := { run.spu with incoming := bytes } }

theorem witness_ShelfRecordsInAndOut :
    Ready run
    ∧ ([252] : List Byte).length = (0 : Byte).toNat + 1
    ∧ (((0 : Byte) :: 3 :: [252]).map fun b => b.toNat).sum % 256 ≠ 0
    ∧ (((0 : Byte) :: 5 :: [251]).map fun b => b.toNat).sum % 256 = 0
    ∧ (((1 : Byte) :: 2 :: [0, 253]).map fun b => b.toNat).sum % 256 = 0 ∧ (1 : Byte).toNat ≠ 2
    ∧ (∀ bytes ∈ [[5, 1, 17], [(5 : Byte)], []], Ready (receiving bytes) ∧ (receiving bytes).spu.incoming ++ [] = bytes)
    ∧ run.spu.incoming ++ [5, 1, 17] = 5 :: 1 :: [17] ∧ ([17] : List Byte).length ≤ (5 : Byte).toNat
    ∧ run.spu.incoming ++ [0, 3, 253] = 0 :: 3 :: [253] ∧ (0 : Byte).toNat < ([253] : List Byte).length
    ∧ (withSent [.lineToShelf 0 9] run).spu.output = .lineToShelf 0 9 :: [] ∧ Ready (withSent [.lineToShelf 0 9] run)
    ∧ run.spu.output = [] := by
  decide

theorem witness_ShelfRecordsInAndOut_bytes :
    held.pins.reset = true ∧ run.pins.reset = false ∧ run.spu.incoming = []
    ∧ (∀ x ∈ [((5 : Byte), (1 : Byte), ([0x11, 0x3A, 2, 0, 0xBD] : List Byte), (0xF0 : Byte)), (2, 2, [0x12, 0x34], 182),
        (0, 3, [], 253), (0, 4, [], 252)],
      x.2.2.1.length = x.1.toNat ∧ ((x.1 :: x.2.1 :: (x.2.2.1 ++ [x.2.2.2])).map fun b => b.toNat).sum % 256 = 0)
    ∧ (((0 : Byte) :: 3 :: ([] ++ [252])).map fun b => b.toNat).sum % 256 ≠ 0
    ∧ ([0, 3, 253] : List Byte) = [0] ++ [3, 253] := by
  decide

/-! ### Hypotheses met: what every step keeps -/

/-- The part with a full transmit queue, one of its notices in an attempt that has failed three times. -/
def fullQueue : State :=
  { run with
      pending := [.attemptFailed]
      clc := { run.clc with
        queue := trying (.cancel call1) 3 :: List.replicate 23 (newEntry 3 (.cancel call1)), driving := [true], dropRun := 7 } }

/-- The part with every table, list and set at its capacity. -/
def fullTables : State :=
  { fullQueue with
      he := { fullQueue.he with heard := List.replicate 32 ⟨call1, 2⟩ }
      ppu := { fullQueue.ppu with view := List.replicate 24 viewEntry }
      spu := { fullQueue.spu with output := List.replicate 64 (.lineToShelf 0 0) }
      ofm := { fullQueue.ofm with
        offers := List.replicate 8 (ringingWith (.hunt 2) ((List.range 16).map fun n => ⟨1, Fin.ofNat 16 n, none⟩)) }
      pgo := { fullQueue.pgo with pages :=
        (inputPageRec .alarm none false :: inputPageRec .evac none false :: sixPages).map fun r =>
          { r with reports := (63, .playing) :: fifteenReports } }
      zc := { fullQueue.zc with zones := Table.fill 4 { zone0 with
        pending := List.replicate 4 (otherPage .alarm), evac := (List.range 16).map fun n => ⟨Fin.ofNat 16 n, 0⟩ } } }

theorem witness_StepKeepsCapacitiesAndLevels_queues : QueuesFit fullTables ∧ OffersFit fullTables := by
  unfold QueuesFit OffersFit
  decide

theorem witness_StepKeepsCapacitiesAndLevels_pages : PagesFit fullTables :=
  ⟨by decide, by decide, fun i => by cases i <;> decide, by decide⟩

theorem witness_StepKeepsCapacitiesAndLevels_zones : ZonesFit fullTables ∧ LevelsInRange fullTables := by
  unfold ZonesFit LevelsInRange LevelParamsOk LevelOk
  decide

theorem witness_StepKeepsCapacitiesAndLevels : Capacities fullTables ∧ LevelsInRange fullTables :=
  ⟨⟨witness_StepKeepsCapacitiesAndLevels_queues.1, witness_StepKeepsCapacitiesAndLevels_queues.2,
    witness_StepKeepsCapacitiesAndLevels_pages, witness_StepKeepsCapacitiesAndLevels_zones.1⟩,
    witness_StepKeepsCapacitiesAndLevels_zones.2⟩

theorem witness_StepKeepsOneAttempt : OneAttempt fullQueue := by
  unfold OneAttempt
  decide

/-! ### Hypotheses met: what goes on by several steps -/

/-- A chain in which nothing happens to a state. -/
theorem chain_still {α : Type} {happens : α → State → State → Prop} {l : List α} {s : State} (h : ∀ a ∈ l, happens a s s) :
    Chain happens l s s := by
  induction l with
  | nil => rfl
  | cons a rest ih => exact ⟨s, h a (List.mem_cons_self ..), ih fun b m => h b (List.mem_cons_of_mem _ m)⟩

/-- A chain in which one thing alone happens. -/
theorem chain_one {α : Type} {happens : α → State → State → Prop} {pre post l : List α} {x : α} {s t : State}
    (e : l = pre ++ x :: post) (first : ∀ a ∈ pre, happens a s s) (one : happens x s t) (last : ∀ a ∈ post, happens a t t) :
    Chain happens l s t := by
  subst e
  induction pre with
  | nil => exact ⟨t, one, chain_still last⟩
  | cons a rest ih => exact ⟨s, first a (List.mem_cons_self ..), ih fun b m => first b (List.mem_cons_of_mem _ m)⟩

/-- Nothing that is not there has a property. -/
theorem none_and {α : Type} {o : Option α} {p : α → Prop} (h : o = none) : ∀ v, ¬ (o = some v ∧ p v) := by
  rintro v ⟨e, -⟩
  rw [h] at e
  cases e

/-- Lines with nothing of an owner lose nothing. -/
theorem lines_keep {lost : Cabinet → Bool} {reason : RingEndReason} {s : State} {l : List Line}
    (h : ∀ m ∈ l, (lineOf s m).state ≠ .ringing ∧ (lineOf s m).verdict = none ∧ (lineOf s m).reserved = none) :
    ∀ m ∈ l, LineLoses lost reason m s s :=
  fun m hm => Or.inl ⟨fun _ r => (h m hm).1 r.1, none_and (h m hm).2.1, none_and (h m hm).2.2, rfl⟩

theorem allLines_at7 : allLines = allLines.take 7 ++ 7 :: allLines.drop 8 := by decide

/-- The part that peer 1 falls silent to: a record that loses its last ringing member there, a line that rings for a call of it, and a
zone that plays a page of it. -/
def leftAlone (o : Offer) (r : LineRec) : State :=
  withPeer 1 (peerAt 29) (withZone 2 (placed .alarm none []) (withOffers [o] (runLine r)))

/-- An attempt at one notice in a queue of its own: the queue and the entry meet what the statements of its end presume, its last
failed attempt among them. -/
theorem witness_OwnNoticesAreDelivered (n : Notice) (request : Option TxRequest) (s : State) (h : Ready s)
    (link : s.clc.link = .running) :
    let e := { trying n 3 with request := request }
    let t := { s with clc := { s.clc with queue := [e], dropRun := 6 } }
    Ready t ∧ t.clc.queue = [] ++ e :: [] ∧ OnlyAttempt e [] [] ∧ e.failed = 3 ∧ t.clc.link = .running ∧ t.clc.dropRun < 7 :=
  ⟨h, rfl, ⟨rfl, fun _ m => nomatch m⟩, rfl, link, show 6 < 7 by decide⟩

/-- No line holds a reservation, so none ends. -/
theorem noneReserved {c : CallId} {s : State} (h : ∀ l, (lineOf s l).reserved = none) : ReservationEnds c s s :=
  Or.inl ⟨all_of_none h, rfl⟩

/-- An own OFFER that no line of the part bids for, and one that line 7 bids for. -/
theorem witness_OwnNoticesAreDelivered_offer :
    (∃ u, Delivered (attempted (.offer ⟨3, 5⟩ 2 1 1) 0 (runOffer (offerIn .offering))) u)
    ∧ ∃ u, Delivered (attempted (.offer ⟨3, 5⟩ 2 1 1) 0 (withOffers [offerIn .offering] (runLine idleLine))) u :=
  have none_ : ∀ l i, ¬ Candidacy run 2 1 l i := by decide
  have only : ∀ m j, m ≠ 7 → ¬ Candidacy (runLine idleLine) 2 1 m j := by decide
  ⟨delivered_one rfl ⟨_, _, Or.inl ⟨offerIn .offering, [], [], by decide, rfl, rfl, rfl⟩, noneReserved (by decide),
      Or.inl ⟨none_, rfl⟩⟩ rfl,
    delivered_one rfl ⟨_, _, Or.inl ⟨offerIn .offering, [], [], by decide, rfl, rfl, rfl⟩, noneReserved (by decide),
      Or.inr (Or.inr ⟨by decide, by decide, 7, 4, 4, by decide, by decide, fun m j _ c n _ => absurd c (only m j n), rfl⟩)⟩ rfl⟩

/-- A BID for another cabinet's call, and one that enters the open window of the part's own. -/
theorem witness_OwnNoticesAreDelivered_bid :
    (∃ u, Delivered (attempted (.bid call1 7 4 4) 0 (biddingFor call1 .queued true run)) u)
    ∧ ∃ u, Delivered (attempted (.bid ⟨3, 5⟩ 7 4 4) 6 (biddingFor ⟨3, 5⟩ .queued true (runOffer (openWindow [bidOfCabinet 2 9])))) u :=
  ⟨delivered_one rfl (Or.inl ⟨by decide, rfl⟩) rfl,
    delivered_one rfl (Or.inr ⟨openWindow [bidOfCabinet 2 9], [], [], by decide, rfl,
      Or.inr ⟨[bidOfCabinet 2 9], _, rfl, by decide, rfl, Or.inl ⟨by decide, rfl⟩⟩⟩) rfl⟩

/-- A record that waits for its assigned member. -/
def waitsFor (t : CallTarget) (m : Member) : Offer := { offerIn .assigned with target := t, assigned := some m }

/-- A RING-ASSIGN to another cabinet's line, to a line of the part that rings, and to one that declines. -/
theorem witness_OwnNoticesAreDelivered_ringAssign :
    (∃ u, Delivered (attempted (.ringAssign ⟨3, 5⟩ 1 4 .hunt) 6 (runOffer (waitsFor (.hunt 2) ⟨1, 4, some 2⟩))) u)
    ∧ (∃ u, Delivered (attempted (.ringAssign ⟨3, 5⟩ 3 7 .direct) 6
        (withOffers [waitsFor (.direct 3 7) ⟨3, 7, none⟩] (runLine idleLine))) u)
    ∧ ∃ u, Delivered (attempted (.ringAssign ⟨3, 5⟩ 3 7 .direct) 6
        (withOffers [waitsFor (.direct 3 7) ⟨3, 7, none⟩] (runLine { idleLine with state := .busy }))) u :=
  ⟨delivered_one rfl ⟨_, ⟨by decide, Or.inl ⟨all_of_none (by decide), Or.inl ⟨by decide, rfl⟩⟩⟩,
      Or.inl ⟨waitsFor (.hunt 2) ⟨1, 4, some 2⟩, [], [], by decide, rfl, ⟨rfl, _, rfl, rfl, rfl⟩, rfl⟩⟩ rfl,
    delivered_one rfl ⟨_, ⟨by decide, Or.inl ⟨all_of_none (by decide), Or.inr ⟨rfl, by decide,
        Or.inl ⟨none, Or.inl ⟨rfl, rfl, by decide⟩, rfl⟩⟩⟩⟩,
      Or.inl ⟨waitsFor (.direct 3 7) ⟨3, 7, none⟩, [], [], by decide, rfl, ⟨rfl, _, rfl, rfl, rfl⟩, rfl⟩⟩ rfl,
    delivered_one rfl ⟨_, ⟨by decide, Or.inl ⟨all_of_none (by decide), Or.inr ⟨rfl, by decide,
        Or.inr ⟨fun g h => h.elim (fun h => absurd h.2.2.2.1 (by decide)) (fun h => absurd rfl h.1), rfl⟩⟩⟩⟩,
      Or.inl ⟨waitsFor (.direct 3 7) ⟨3, 7, none⟩, [], [], by decide, rfl, ⟨rfl, _, rfl, rfl, rfl⟩, rfl⟩⟩ rfl⟩

/-- The answers of an own line to an own call's assignment: a decline ends a DIRECT call, a ringing start makes it RINGING, and so does
that of one more line of a group; a loss leaves a call that rings on. -/
theorem witness_OwnNoticesAreDelivered_members :
    (∃ u, Delivered (attempted (.decline ⟨3, 5⟩ 7) 0 (runOffer (waitsFor (.direct 3 7) ⟨3, 7, none⟩))) u)
    ∧ (∃ u, Delivered (attempted (.ringStarted ⟨3, 5⟩ 7 none none) 6 (runOffer (waitsFor (.direct 3 7) ⟨3, 7, none⟩))) u)
    ∧ (∃ u, Delivered (attempted (.ringStarted ⟨3, 5⟩ 7 (some 4) (some 5)) 6 run) u)
    ∧ (∃ u, Delivered (attempted (.ringEnded ⟨3, 5⟩ 7 .noAnswer) 0
        (runOffer (ringingWith (.hunt 2) [⟨3, 7, some 4⟩, ⟨2, 1, some 3⟩]))) u)
    ∧ ∃ u, Delivered (attempted (.noAnswer ⟨3, 5⟩ 7) 0 (runOffer (ringingWith (.direct 3 7) [⟨3, 7, none⟩]))) u :=
  ⟨delivered_one rfl (Or.inr ⟨waitsFor (.direct 3 7) ⟨3, 7, none⟩, [], [], by decide, rfl, ⟨rfl, _, rfl, rfl, rfl⟩,
      Or.inl ⟨3, 7, rfl, [], [], by decide, by decide, Or.inl ⟨by decide, by decide, rfl⟩⟩⟩) rfl,
    delivered_one rfl (Or.inr (Or.inr ⟨waitsFor (.direct 3 7) ⟨3, 7, none⟩, [], [], by decide, rfl, by decide,
      Or.inl ⟨⟨Or.inr (by decide), Or.inl ⟨rfl, _, rfl, rfl, rfl⟩⟩, rfl⟩⟩)) rfl,
    delivered_one rfl (Or.inr (Or.inl ⟨rfl, by decide, rfl, Or.inl (by decide)⟩)) rfl,
    delivered_one rfl (Or.inr ⟨rfl, Or.inr ⟨rfl, ringingWith (.hunt 2) [⟨3, 7, some 4⟩, ⟨2, 1, some 3⟩], [], [], by decide, rfl,
      Or.inr ⟨by decide, by decide, Or.inl ⟨by decide, rfl⟩⟩⟩⟩) rfl,
    delivered_one rfl (Or.inr ⟨rfl, ringingWith (.direct 3 7) [⟨3, 7, none⟩], [], [], by decide, rfl,
      Or.inr ⟨by decide, by decide, Or.inr (Or.inr ⟨by decide, rfl, [], [], by decide, by decide,
        Or.inl ⟨by decide, by decide, rfl⟩⟩)⟩⟩) rfl⟩

/-- What is not there is anything. -/
theorem absent {α : Type} {o : Option α} {p : α → Prop} (h : o = none) : ∀ v, o = some v → p v := by
  intro v e
  rw [h] at e
  cases e

/-- Lines that neither await nor ring for a call lose nothing with it. -/
theorem parties_stay {c : CallId} {reason : RingEndReason} {s : State} {l : List Line}
    (h : ∀ m ∈ l, awaits (lineOf s m) (.call c) = false ∧ ringsFor (lineOf s m) c = false) : ∀ m ∈ l, PartyLoses c reason m s s :=
  fun m hm => Or.inr (Or.inr ⟨(h m hm).1, (h m hm).2, rfl⟩)

/-- Lines that a CONNECTED does not name, and that lose nothing with its call. -/
theorem others_stay {c : CallId} {cab : Cabinet} {n : Line} {g : Option HuntGroup} {i : Option OrderIndex} {s : State} {l : List Line}
    (h : ∀ m ∈ l, ¬ (cab = own s ∧ m = n) ∧ awaits (lineOf s m) (.call c) = false ∧ ringsFor (lineOf s m) c = false) :
    ∀ m ∈ l, LineConnects c cab n g i m s s :=
  fun m hm => Or.inr (Or.inr ⟨(h m hm).1, Or.inr (Or.inr ⟨(h m hm).2.1, (h m hm).2.2, rfl⟩)⟩)

/-- The own CONNECTED of a call: its answerer talks, a late verdict tells the shelf, and a line that rings for it stops. -/
theorem witness_OwnNoticesAreDelivered_connected :
    (∃ u, Delivered (attempted (.connected ⟨3, 5⟩ 3 7 (some 2) (some 4)) 0 (runLine (pendingLine (.call ⟨3, 5⟩)))) u)
    ∧ (∃ u, Delivered (attempted (.connected ⟨3, 5⟩ 3 7 (some 2) (some 4)) 6 (runLine idleLine)) u)
    ∧ ∃ u, Delivered (attempted (.connected ⟨3, 5⟩ 1 4 none none) 0 (runLine (ringingLine ⟨3, 5⟩))) u :=
  ⟨delivered_one rfl ⟨_, _, noneReserved (by decide), chain_one allLines_at7 (others_stay (by decide))
      (Or.inl ⟨by decide, ⟨_, rfl, Or.inl rfl⟩, rfl⟩) (others_stay (by decide)), rfl⟩ rfl,
    delivered_one rfl ⟨_, _, noneReserved (by decide), chain_one allLines_at7 (others_stay (by decide))
      (Or.inr (Or.inl ⟨by decide, absent (by decide), by decide, rfl⟩)) (others_stay (by decide)), rfl⟩ rfl,
    delivered_one rfl ⟨_, _, noneReserved (by decide), chain_one allLines_at7 (others_stay (by decide))
      (Or.inr (Or.inr ⟨by decide, Or.inr (Or.inl ⟨by decide, _, rfl, rfl, rfl, by decide, rfl⟩)⟩)) (others_stay (by decide)), rfl⟩ rfl⟩

/-- The own CANCEL of a call that no line has, of one that line 7 rings for, and of one that it awaits; and the own REFUSED, CLAIM and
ANSWERED. -/
theorem witness_OwnNoticesAreDelivered_verdicts :
    (∃ u, Delivered (attempted (.cancel ⟨3, 5⟩) 0 run) u)
    ∧ (∃ u, Delivered (attempted (.cancel ⟨3, 5⟩) 6 (runLine (ringingLine ⟨3, 5⟩))) u)
    ∧ (∃ u, Delivered (attempted (.cancel ⟨3, 5⟩) 0 (runLine (pendingLine (.call ⟨3, 5⟩)))) u)
    ∧ (∃ u, Delivered (attempted (.refused (.orbit 13) 3 7 .unknown) 0 (runLine (pendingLine (.orbit 13)))) u)
    ∧ (∃ u, Delivered (attempted (.refused (.call ⟨3, 5⟩) 1 4 .unknown) 0 run) u)
    ∧ (∃ u, Delivered (attempted (.claim (.call call1) 3 7) 0 run) u)
    ∧ (∃ u, Delivered (attempted (.claim (.orbit 4) 3 7) 6 run) u)
    ∧ ∃ u, Delivered (attempted (.answered call1 7 none) 0 run) u :=
  ⟨delivered_one rfl ⟨_, _, chain_still (parties_stay (by decide)), noneReserved (by decide), rfl⟩ rfl,
    delivered_one rfl ⟨_, _, chain_one allLines_at7 (parties_stay (by decide))
      (Or.inr (Or.inl ⟨by decide, _, rfl, rfl, rfl, by decide, rfl⟩)) (parties_stay (by decide)), noneReserved (by decide), rfl⟩ rfl,
    delivered_one rfl ⟨_, _, chain_one allLines_at7 (parties_stay (by decide)) (Or.inl ⟨by decide, rfl⟩) (parties_stay (by decide)),
      noneReserved (by decide), rfl⟩ rfl,
    delivered_one rfl (Or.inl ⟨rfl, by decide, rfl⟩) rfl,
    delivered_one rfl (Or.inr ⟨fun e => absurd e (by decide), rfl⟩) rfl,
    delivered_one rfl ⟨by decide, rfl⟩ rfl,
    delivered_one rfl ⟨by decide, rfl⟩ rfl,
    delivered_one rfl ⟨by decide, rfl⟩ rfl⟩

/-- The own AVAILABLE offers a queued call again, and passes over a group without one. -/
theorem witness_OwnNoticesAreDelivered_available :
    let o := offerIn (.waiting .queued)
    (∃ u, Delivered (attempted (.available 4) 0 { runOffer o with he := { run.he with queue := [⟨5, 2, false⟩] } }) u)
    ∧ ∃ u, Delivered (attempted (.available 4) 6 run) u :=
  ⟨delivered_one rfl ⟨_, Or.inr ⟨offerIn (.waiting .queued), [], [], 2, [], false, [], by decide, rfl, rfl, rfl, by decide,
      Or.inr ⟨rfl, by decide, rfl⟩⟩, rfl⟩ rfl,
    delivered_one rfl ⟨_, Or.inl ⟨by decide, rfl⟩, rfl⟩ rfl⟩

/-- A claiming ALARM page of the alarm input that seizes channel 2, for paging group 0. -/
def alarmPage2 : PageRec := { newPage 8 .alarm (.group 0) (.input .alarm) false with channel := some 2, seize := true }

/-- The own PAGE-START announces its page, and zone 2, its target, plays it: from RELEASED, and, the channel seized, in place of the page
that it played; with no record a PAGE-END answers it. -/
theorem witness_OwnNoticesAreDelivered_pageStart :
    (∃ u, Delivered (attempted (.pageStart (startBody run (linePageIn .claiming))) 0
        (withPages [linePageIn .claiming] (runZone zone0))) u)
    ∧ (∃ u, Delivered (attempted (.pageStart (startBody run alarmPage2)) 6
        (withPages [alarmPage2] (runZone { zone0 with
          state := .live, active := some (.page ⟨⟨2, 6⟩, .routine, .channel 2, none⟩ 3) }))) u)
    ∧ ∃ u, Delivered (attempted (.pageStart (startBody run (linePageIn .claiming))) 0 run) u :=
  ⟨delivered_one rfl ⟨_, Or.inl ⟨linePageIn .claiming, [], [], by decide, rfl, rfl⟩, Or.inr ⟨rfl, by decide, by decide, _, rfl,
      _, Or.inl ⟨by decide, rfl⟩, _, Or.inl ⟨by decide, rfl⟩, _, Or.inr ⟨by decide, by decide, by decide, rfl,
        Or.inr (Or.inr (Or.inr (Or.inr (Or.inl ⟨by decide, by decide, _, _, rfl, Or.inl ⟨rfl, rfl⟩, rfl⟩))))⟩,
      _, Or.inl ⟨by decide, rfl⟩, rfl⟩⟩ rfl,
    delivered_one rfl ⟨_, Or.inl ⟨alarmPage2, [], [], by decide, rfl, rfl⟩, Or.inr ⟨rfl, by decide, by decide, _,
      ⟨_, ⟨rfl, by decide, Or.inl ⟨by decide, rfl⟩⟩, _, ⟨rfl, by decide, Or.inl ⟨by decide, rfl⟩⟩,
        _, ⟨rfl, by decide, Or.inr ⟨_, 3, rfl, by decide, by decide, by decide, Or.inl ⟨by decide, by decide, rfl⟩⟩⟩,
        _, ⟨rfl, by decide, Or.inl ⟨by decide, rfl⟩⟩, rfl⟩,
      _, Or.inl ⟨by decide, rfl⟩, _, Or.inl ⟨by decide, rfl⟩, _, Or.inr ⟨by decide, by decide, by decide, rfl,
        Or.inr (Or.inr (Or.inr (Or.inr (Or.inl ⟨by decide, by decide, _, _, rfl, Or.inl ⟨by decide, rfl⟩, rfl⟩))))⟩,
      _, Or.inl ⟨by decide, rfl⟩, rfl⟩⟩ rfl,
    delivered_one rfl ⟨_, Or.inr ⟨by decide, by decide, rfl⟩, Or.inl ⟨rfl, by decide, rfl⟩⟩ rfl⟩

/-- A part cut off from the link: its own PAGE-START reaches its zone, whose report is delivered after it. -/
theorem witness_OwnNoticesAreDelivered_cutOff :
    let n : Notice := .pageStart (startBody run alarmPage2)
    ∃ u, Delivered { linkAt .isolated (withPages [alarmPage2] (runZone { zone0 with cfg := { zone0.cfg with wake := 0 } })) with
      deliveries := [n] } u :=
  ⟨_, 2, by decide, Or.inr ⟨_, [], _, rfl, ⟨_, Or.inl ⟨alarmPage2, [], [], by decide, rfl, rfl⟩, Or.inr ⟨rfl, by decide, by decide, _,
      ⟨_, ⟨rfl, by decide, Or.inl ⟨by decide, rfl⟩⟩, _, ⟨rfl, by decide, Or.inl ⟨by decide, rfl⟩⟩,
        _, ⟨rfl, by decide, Or.inl ⟨by decide, rfl⟩⟩, _, ⟨rfl, by decide, Or.inl ⟨by decide, rfl⟩⟩, rfl⟩,
      _, Or.inl ⟨by decide, rfl⟩, _, Or.inl ⟨by decide, rfl⟩, _, Or.inr ⟨by decide, by decide, by decide, rfl,
        Or.inr (Or.inr (Or.inr (Or.inr (Or.inl ⟨by decide, by decide, _, _, rfl, Or.inl ⟨by decide, rfl⟩, rfl⟩))))⟩,
      _, Or.inl ⟨by decide, rfl⟩, rfl⟩⟩,
    Or.inr ⟨.zoneReport ⟨3, 8⟩ (numberOf run 2) .playing, [], _, rfl, Or.inl ⟨by decide, rfl⟩, rfl, rfl⟩⟩⟩

/-- The own PAGE-END of the page that zone 2 plays, a ZONE-REPORT on the page of line 7, and the ALL-STOP that ends it. -/
theorem witness_OwnNoticesAreDelivered_pages :
    (∃ u, Delivered (attempted (.pageEnd ⟨3, 8⟩ .routine .ended) 0
        (runZone { zone0 with state := .live, active := some (.page ⟨⟨3, 8⟩, .routine, .channel 2, none⟩ 3) })) u)
    ∧ (∃ u, Delivered (attempted (.zoneReport ⟨3, 8⟩ 50 .playing) 6 (runPage (linePageIn .reporting))) u)
    ∧ (∃ u, Delivered (attempted (.zoneReport ⟨3, 8⟩ 50 .lost) 0
        (runPage { linePageIn .onAir with connectSent := true, reports := [(50, .playing)] })) u)
    ∧ ∃ u, Delivered (attempted (.allStop 3) 0 (runPage (linePageIn .reporting))) u :=
  ⟨delivered_one rfl ⟨_, ⟨_, ⟨_, Or.inl ⟨by decide, rfl⟩, Or.inl ⟨by decide, rfl⟩⟩,
      _, ⟨_, Or.inl ⟨by decide, rfl⟩, Or.inl ⟨by decide, rfl⟩⟩,
      _, ⟨_, Or.inr ⟨_, 3, rfl, by decide, by decide, by decide, Or.inl ⟨by decide, by decide, rfl⟩⟩, Or.inl ⟨by decide, rfl⟩⟩,
      _, ⟨_, Or.inl ⟨by decide, rfl⟩, Or.inl ⟨by decide, rfl⟩⟩, rfl⟩, rfl⟩ rfl,
    delivered_one rfl (Or.inr ⟨linePageIn .reporting, [], [], by decide, ⟨rfl, ⟨7, rfl⟩, by decide⟩, Or.inl ⟨by decide, rfl⟩⟩) rfl,
    delivered_one rfl (Or.inr ⟨{ linePageIn .onAir with connectSent := true, reports := [(50, .playing)] }, [], [], by decide,
      ⟨rfl, ⟨7, rfl⟩, by decide⟩, Or.inr ⟨by decide, by decide, 7, [], [], rfl, by decide, by decide, by decide, fun _ => ⟨2, rfl⟩,
        Or.inl ⟨by decide, rfl⟩⟩⟩) rfl,
    delivered_one rfl ⟨_, ⟨_, ⟨7, [], [], rfl, by decide, by decide, by decide, fun e => absurd e (by decide), Or.inl ⟨by decide, rfl⟩⟩, rfl⟩,
      _, Or.inl ⟨by decide, rfl⟩, _, Or.inl ⟨by decide, rfl⟩, _, Or.inl ⟨by decide, rfl⟩, _, Or.inl ⟨by decide, rfl⟩, rfl⟩ rfl⟩

/-- A record of hunt group 2 that rings at line 4 of cabinet 1 alone. -/
def lastRinging : Offer := ringingWith (.hunt 2) [⟨1, 4, some 2⟩]

theorem witness_PeerFallsSilentAtThirtySeconds_ends :
    let s := leftAlone lastRinging (ringingLine call1)
    Ready s ∧ FallsSilent 1 s ∧ ∃ a b t v,
      Chain (RecordLoses fun m => decide (m.cab = 1)) (s.ofm.offers.map (·.seq)) (silenceHeard 1 (withOutputs [] s)) a
      ∧ Chain (LineLoses (fun c => decide (c = 1)) .ownerSilent) allLines a b
      ∧ Chain (ZoneFreed fun e => decide (e.page.cab = 1)) allZones (silenceViewed 1 b) t ∧ Delivered t v :=
  ⟨by decide, by decide, _, _, _, _,
    ⟨_, ⟨lastRinging, [], [], by decide, rfl, Or.inr ⟨by decide, nofun, Or.inr (Or.inl ⟨by decide, rfl,
      Or.inr ⟨by decide, 2, rfl, Or.inl ⟨⟨params, rfl, 1, by decide, by decide⟩, Or.inr ⟨rfl, by decide, rfl⟩⟩⟩⟩)⟩⟩, rfl⟩,
    chain_one allLines_at7 (lines_keep (by decide)) (Or.inr (Or.inl ⟨none_and (by decide), none_and (by decide),
      ⟨call1, some .hunt, some 2, some 4⟩, by decide,
      ⟨⟨call1, some .hunt, some 2, some 4⟩, by decide, by decide, rfl, by decide, rfl⟩⟩)) (lines_keep (by decide)),
    ⟨_, Or.inl ⟨by decide, rfl⟩, _, Or.inl ⟨by decide, rfl⟩,
      _, Or.inr ⟨entryOfClass .alarm (.channel 2), 3, by decide, by decide, by decide, by decide, Or.inl ⟨by decide, by decide, rfl⟩⟩,
      _, Or.inl ⟨by decide, rfl⟩, rfl⟩,
    0, by decide, by decide, rfl⟩

/-- The part before its eighth drop: an attempt with a request, and another notice queued; a record OFFERING, and a line that rings for a
call of cabinet 1. -/
def dropsAgain (n : Notice) (request : Option TxRequest) : State :=
  withOffers [offerIn .offering] (withLine 7 (ringingLine call1)
    { run with clc := { run.clc with dropRun := 7, queue := [{ trying n 3 with request := request }, newEntry 3 (.cancel ⟨3, 6⟩)] } })

theorem witness_LeavingAndRejoiningTheLink_eighth :
    ∀ x ∈ [(status1, none, []), (.cancel call1, none, [.cancel call1]), (.cancel call1, some (.replace .probe), []),
        (.cancel call1, some .withdraw, []), (status1, some (.replace (.cancel ⟨3, 7⟩)), [Notice.cancel ⟨3, 7⟩])],
      let s := dropsAgain x.1 x.2.1
      let e := { trying x.1 3 with request := x.2.1 }
      Ready s ∧ s.clc.queue = [] ++ e :: [newEntry 3 (.cancel ⟨3, 6⟩)] ∧ OnlyAttempt e [] [newEntry 3 (.cancel ⟨3, 6⟩)]
        ∧ e.failed = 3 ∧ s.clc.link = .running ∧ s.clc.dropRun = 7
        ∧ x.2.2 = (match e.request with
          | none => if isHousekeeping e.notice then [] else [e.notice]
          | some (.replace n) => if isHousekeeping n then [] else [n]
          | some .withdraw => []) := by
  decide

theorem witness_LeavingAndRejoiningTheLink_eighth_withdrawn :
    ∀ c l i k, (some TxRequest.withdraw = some .withdraw) → (Notice.cancel call1 = .bid c l i k) → bidOf run c = none := by
  intro c l i k _ h
  cases h

theorem witness_LeavingAndRejoiningTheLink_isolated :
    let s := dropsAgain status1 none
    ∃ u v a b t, Delivered { afterAttempt ([] ++ [newEntry 3 (.cancel ⟨3, 6⟩)]) 7 (withOutputs [] s) with deliveries := [] } u
      ∧ Delivered (flushed (raise .isolated (kindCode status1) .clc { u with clc := { u.clc with link := .isolated, dropRun := 8 } })) v
      ∧ Chain RecordIsolated v.ofm.offers v a ∧ Chain (LineLoses (fun c => !decide (c = own a)) .isolated) allLines a b
      ∧ Delivered b t :=
  ⟨_, _, _, _, _, ⟨0, by decide, rfl, rfl⟩,
    ⟨1, by decide, Or.inr ⟨.cancel ⟨3, 6⟩, [], _, rfl,
      ⟨_, _, chain_still (parties_stay (by decide)), noneReserved (by decide), rfl⟩, rfl, rfl⟩⟩,
    ⟨_, Or.inr ⟨Or.inl rfl, [], [], by decide, by decide, Or.inl ⟨by decide, nofun, rfl⟩⟩, rfl⟩,
    chain_one allLines_at7 (lines_keep (by decide)) (Or.inr (Or.inl ⟨none_and (by decide), none_and (by decide),
      ⟨call1, some .hunt, some 2, some 4⟩, by decide,
      ⟨⟨call1, some .hunt, some 2, some 4⟩, by decide, by decide, rfl, by decide, rfl⟩⟩)) (lines_keep (by decide)),
    ⟨3, by decide, Or.inr ⟨.cancel ⟨3, 5⟩, [.ringEnded call1 7 .isolated, .available 4], _, rfl,
      ⟨_, _, chain_still (parties_stay (by decide)), noneReserved (by decide), rfl⟩,
      Or.inr ⟨.ringEnded call1 7 .isolated, [.available 4], _, rfl, Or.inl ⟨rfl, rfl⟩,
        Or.inr ⟨.available 4, [], _, rfl, ⟨_, Or.inl ⟨by decide, rfl⟩, rfl⟩, rfl, rfl⟩⟩⟩⟩⟩

theorem witness_LeavingAndRejoiningTheLink_rejoin :
    let s := linkAt .isolated (withZone 2 (placed .alarm none []) (queued [trying .probe 0]))
    Ready s ∧ s.clc.link = .isolated ∧ s.clc.queue = [trying .probe 0] ∧ (trying .probe 0).inAttempt = true
    ∧ (trying .probe 0).notice = .probe ∧ ∃ t, Chain (ZoneFreed fun x => !decide (x.page.cab = own s)) allZones
      (withOutputs [] (raise .rejoined 0 .clc { s with
          clc := { s.clc with
            link := .running, driving := [], dropRun := 0
            queue := [newEntry (own s) (.status .rejoining (assembleStatus s))]
            peers := Table.build 16 fun p => if p = own s then peerOf s p else resetPeer }
          ppu := { s.ppu with view := [] }
          pgo := { s.pgo with view := s.pgo.view.map fun h => h.filter fun x => decide (x.page.cab = own s) } })) t :=
  ⟨by decide, rfl, rfl, rfl, rfl, _, _, Or.inl ⟨by decide, rfl⟩, _, Or.inl ⟨by decide, rfl⟩,
    _, Or.inr ⟨entryOfClass .alarm (.channel 2), 3, by decide, by decide, by decide, by decide, Or.inl ⟨by decide, by decide, rfl⟩⟩,
    _, Or.inl ⟨by decide, rfl⟩, rfl⟩

theorem witness_OwnAddressHeardGoesToListenOnly_ends :
    let base := withOffers [offerIn .offering] (runLine (ringingLine call1))
    (∀ l ∈ [LinkState.running, .listening, .isolated],
      let s := linkAt l base
      Ready s ∧ heardSource (.probe 3) = some (own s) ∧ readsBus s.clc.link = true ∧ s.clc.link ≠ .listenOnly
        ∧ (∀ x ∈ s.clc.queue, x.inAttempt = true → x.request = none))
    ∧ ∃ v a b t, Delivered (flushed (raise .duplicateAddress (own base).val .clc
        { withOutputs [.acknowledge true] base with clc := { base.clc with link := .listenOnly } })) v
      ∧ Chain RecordIsolated v.ofm.offers v a ∧ Chain (LineLoses (fun c => !decide (c = own a)) .isolated) allLines a b
      ∧ Delivered b t :=
  ⟨by decide, _, _, _, _, ⟨0, by decide, rfl, rfl⟩,
    ⟨_, Or.inr ⟨Or.inl rfl, [], [], by decide, by decide, Or.inl ⟨by decide, nofun, rfl⟩⟩, rfl⟩,
    chain_one allLines_at7 (lines_keep (by decide)) (Or.inr (Or.inl ⟨none_and (by decide), none_and (by decide),
      ⟨call1, some .hunt, some 2, some 4⟩, by decide,
      ⟨⟨call1, some .hunt, some 2, some 4⟩, by decide, by decide, rfl, by decide, rfl⟩⟩)) (lines_keep (by decide)),
    ⟨3, by decide, Or.inr ⟨.cancel ⟨3, 5⟩, [.ringEnded call1 7 .isolated, .available 4], _, rfl,
      ⟨_, _, chain_still (parties_stay (by decide)), noneReserved (by decide), rfl⟩,
      Or.inr ⟨.ringEnded call1 7 .isolated, [.available 4], _, rfl, Or.inl ⟨rfl, rfl⟩,
        Or.inr ⟨.available 4, [], _, rfl, ⟨_, Or.inl ⟨by decide, rfl⟩, rfl⟩, rfl, rfl⟩⟩⟩⟩⟩

/-- Lines that are paging or out of service stay as they are at SHELF-CLEAR. -/
theorem lines_uncleared {s : State} {l : List Line}
    (h : ∀ m ∈ l, (lineOf s m).state = .paging ∨ (lineOf s m).state = .outOfService) : ∀ m ∈ l, LineCleared m s s := by
  intro m hm
  unfold LineCleared
  rcases h m hm with e | e <;> rw [e]

/-- The part before SHELF-CLEAR: a record RINGING, a parked one with its orbit, a line that rings and one that pages. -/
def busyPart : State :=
  withSlot 1 (some { orbitWith none 0 with call := 6 }) (withOffers [lastRinging, { offerIn (.parked 13) with seq := 6 }]
    (withLine 6 (ringingLine call1) (runPage { linePageIn .onAir with connectSent := true })))

theorem witness_ShelfClearEndsCallsAndTalks_all :
    Ready busyPart ∧ ∃ a b t v, Chain (CallEnds none) busyPart.ofm.offers (withOutputs [] busyPart) a ∧ Chain LineCleared allLines a b
      ∧ Chain (LinePageEnds .cleared) (b.pgo.pages.filter fun r => match r.origin with
          | .line _ => true
          | .input _ | .orbit _ => false) b t ∧ Delivered t v :=
  ⟨by decide, _, _, _, _,
    ⟨_, ⟨[], [{ offerIn (.parked 13) with seq := 6 }], by decide, by decide, Or.inl ⟨by decide, nofun, rfl⟩⟩,
      _, ⟨[], [], by decide, by decide, Or.inr ⟨1, _, by decide, by decide, ⟨{ orbitWith none 0 with call := 6 }, by decide,
        Or.inl ⟨nofun, rfl⟩⟩, rfl⟩⟩, rfl⟩,
    chain_one (show allLines = allLines.take 6 ++ 6 :: allLines.drop 7 by decide) (lines_uncleared (by decide))
      ⟨call1, ⟨call1, some .hunt, some 2, some 4⟩, by decide, by decide, rfl, by decide, rfl⟩ (lines_uncleared (by decide)),
    ⟨_, ⟨7, [], [], rfl, by decide, by decide, by decide, fun _ => ⟨2, rfl⟩, Or.inl ⟨by decide, rfl⟩⟩, rfl⟩,
    0, by decide, by decide, rfl⟩

/-! ### Hypotheses met: the next step of a call, and parked calls -/

/-- A record of hunt group 2 ASSIGNED to line 4 of cabinet 1, with these members ringing and this tried set. -/
def assignedWith (ringing : List Member) (tried : IndexSet) : Offer :=
  { assignedTo (.hunt 2) true with ringing := ringing, tried := tried }

/-- What the assign timer and a DECLINE presume of such a record, and what the two end. -/
theorem witness_AssignedMemberFails_next :
    ∀ u ∈ [withOutputs [] (runOffer (assignedWith [⟨2, 0, some 0⟩] 1)),
        withOutputs [.acknowledge true] (heardFrom 1 (runOffer (assignedWith [⟨2, 0, some 0⟩] 1)))],
      let o := assignedWith [⟨2, 0, some 0⟩] 1
      (Ready (runOffer o) ∧ (runOffer o).clc.link = .running ∧ OfferAt o [] [] (runOffer o) ∧ o.target = .hunt 2 ∧ o.state = .assigned
        ∧ o.assigned = some ⟨1, 4, some 2⟩ ∧ o.assignTimer = true ∧ Known 1 (runOffer o)
        ∧ codeCall ⟨3, 5⟩ = some ⟨own (runOffer o), o.seq⟩ ∧ codeBelow 16 4 = some (4 : Line))
      ∧ ∃ t v, NextStep (withoutAssigned (some 2) o) [] [] (withOffers [withoutAssigned (some 2) o] u) t ∧ Delivered t v := by
  intro u h
  simp only [List.mem_cons, List.not_mem_nil, or_false] at h
  rcases h with rfl | rfl <;> exact ⟨by decide, _, _, Or.inl ⟨by decide, rfl⟩, 0, by decide, rfl, rfl⟩

/-- Every order index of the group's span is tried. -/
theorem allTried {s : State} (g : s.he.groups.get 2 = some params) {tried : IndexSet}
    (h : ∀ i : OrderIndex, i.val < 4 → hasIndex tried i = true) :
    ¬ ∃ p, s.he.groups.get 2 = some p ∧ ∃ i : OrderIndex, i.val < p.span ∧ hasIndex tried i = false := by
  rintro ⟨p, hp, i, lt, no⟩
  rw [g] at hp
  cases hp
  rw [h i lt] at no
  cases no

/-- The next step with nobody ringing: a new OFFER while an order index is untried, else the overflow step, here RECYCLE; a part that is
cut off ends the call. -/
theorem witness_AssignedMemberFails_tried :
    (let o := withoutAssigned (some 2) (assignedWith [] 1)
      ∃ t, NextStep o [] [] (withOffers [o] (withOutputs [] run)) t)
    ∧ (let o := withoutAssigned (some 2) (assignedWith [] 11)
      ∃ t, NextStep o [] [] (withOffers [o] (withOutputs [] run)) t)
    ∧ (let o := withoutAssigned (some 2) (assignedWith [] 1)
      ∃ t u, NextStep o [] [] (withOffers [o] (withOutputs [] (linkAt .listenOnly run))) t ∧ Delivered t u) :=
  ⟨⟨_, Or.inr ⟨by decide, 2, rfl, Or.inl ⟨⟨params, rfl, 1, by decide, by decide⟩, Or.inr ⟨rfl, by decide, rfl⟩⟩⟩⟩,
    ⟨_, Or.inr ⟨by decide, 2, rfl, Or.inr ⟨allTried rfl (by decide), 2, rfl, Or.inr ⟨params, rfl,
      Or.inl ⟨rfl, Or.inr (Or.inr (Or.inl ⟨rfl, Or.inl rfl, rfl⟩))⟩⟩⟩⟩⟩,
    ⟨_, _, Or.inr ⟨by decide, 2, rfl, Or.inl ⟨⟨params, rfl, 1, by decide, by decide⟩,
      Or.inl ⟨rfl, [], [], by decide, by decide, Or.inl ⟨by decide, nofun, rfl⟩⟩⟩⟩,
      0, by decide, rfl, rfl⟩⟩

/-- The part with these parameters for hunt group 2 and a record whose window closes with no bid, the record being this one. -/
def closing (p : GroupParams) (o : Offer) : State := runGroup p { o with window := some [] }

/-- What the overflow step of such a record starts from. -/
def closed (p : GroupParams) (o : Offer) : State := withOutputs [] (withOffers [o] (closing p o))

/-- Nothing waits for own delivery. -/
theorem settled {s : State} (h : s.deliveries = []) : Delivered s s := ⟨0, by decide, h, rfl⟩

/-- The overflow steps of a closed window: QUEUE with a new standing, with one that stands and with an expired one; RECYCLE with the queue
flag off; FORWARD to group 6, at depth 2 and to a group without an entry; PARK, PARK with no slot for its page, of a call that has been
parked and with every slot occupied; a group without an entry; and a part cut off, where the CANCEL is delivered to its own blocks. -/
theorem witness_OverflowFollowsTheGroupsAction_steps :
    let o : Offer := { offerIn .offering with tried := 15 }
    let stands := fun (x : State) e => { x with he := { x.he with queue := [⟨5, 2, e⟩] } }
    let p := fun a => { params with overflow := a }
    let goes := fun o s => ∃ t u, Overflowed o [] [] s t ∧ Delivered t u
    (∀ a ∈ [OverflowAction.recycle, .queue, .forward, .park], ∀ x ∈ [o, { o with depth := 2 }, { o with parkDone := true }],
      ∀ l ∈ [LinkState.running, .isolated, .listenOnly],
      let r := { x with window := some [] }
      let s := linkAt l (closing (p a) x)
      Ready s ∧ OfferAt r [] [] s ∧ r.window = some [] ∧ r.ringing = [] ∧ { r with window := none } = x)
    ∧ goes o (closed (p .queue) o) ∧ goes o (stands (closed (p .queue) o) false) ∧ goes o (stands (closed (p .queue) o) true)
    ∧ goes o (closed { p .queue with queueFlag := false } o)
    ∧ goes { o with depth := 1 } (closed (p .forward) { o with depth := 1 })
    ∧ goes { o with depth := 2 } (closed (p .forward) { o with depth := 2 })
    ∧ goes o (closed { p .forward with forward := 9 } o)
    ∧ goes o (closed (p .park) o) ∧ goes o (withPages sixPages (closed (p .park) o))
    ∧ goes { o with parkDone := true } (closed (p .park) { o with parkDone := true })
    ∧ goes o { closed (p .park) o with ppu := { resetPpu with orbits := Table.fill 4 (some (orbitWith none 0)) } }
    ∧ goes o { closed (p .queue) o with he := resetHe }
    ∧ goes o (linkAt .isolated (closed (p .queue) o)) :=
  ⟨by decide,
    ⟨_, _, ⟨2, rfl, Or.inr ⟨_, rfl, Or.inr (Or.inr (Or.inr (Or.inr (Or.inr ⟨rfl, rfl, by decide,
      Or.inr (Or.inr ⟨rfl, by decide, rfl⟩)⟩))))⟩⟩, settled rfl⟩,
    ⟨_, _, ⟨2, rfl, Or.inr ⟨_, rfl, Or.inr (Or.inr (Or.inr (Or.inr (Or.inr ⟨rfl, rfl, by decide,
      Or.inr (Or.inl ⟨rfl, by decide, rfl⟩)⟩))))⟩⟩, settled rfl⟩,
    ⟨_, _, ⟨2, rfl, Or.inr ⟨_, rfl, Or.inr (Or.inr (Or.inr (Or.inr (Or.inl ⟨rfl, rfl, by decide,
      Or.inl ⟨Or.inl rfl, [], [], by decide, by decide, Or.inl ⟨by decide, nofun, rfl⟩⟩⟩))))⟩⟩, settled rfl⟩,
    ⟨_, _, ⟨2, rfl, Or.inr ⟨_, rfl, Or.inr (Or.inr (Or.inr (Or.inl ⟨rfl, rfl, Or.inr (Or.inr (Or.inl ⟨rfl, Or.inl rfl, rfl⟩))⟩)))⟩⟩,
      settled rfl⟩,
    ⟨_, _, ⟨2, rfl, Or.inr ⟨_, rfl, Or.inr (Or.inl ⟨rfl, Or.inr (Or.inr (Or.inr (Or.inl ⟨rfl, by decide, rfl, by decide, rfl⟩)))⟩)⟩⟩,
      settled rfl⟩,
    ⟨_, _, ⟨2, rfl, Or.inr ⟨_, rfl, Or.inr (Or.inl ⟨rfl,
      Or.inl ⟨by decide, [], [], by decide, by decide, Or.inl ⟨by decide, nofun, rfl⟩⟩⟩)⟩⟩, settled rfl⟩,
    ⟨_, _, ⟨2, rfl, Or.inr ⟨_, rfl, Or.inr (Or.inl ⟨rfl,
      Or.inl ⟨by decide, [], [], by decide, by decide, Or.inl ⟨by decide, nofun, rfl⟩⟩⟩)⟩⟩, settled rfl⟩,
    ⟨_, _, ⟨2, rfl, Or.inr ⟨_, rfl, Or.inr (Or.inr (Or.inl ⟨rfl, Or.inr (Or.inr (Or.inr (Or.inr ⟨rfl, by decide, rfl, 0, rfl, by decide,
      Or.inl ⟨by decide, rfl, by decide, by decide, rfl⟩⟩)))⟩))⟩⟩, settled rfl⟩,
    ⟨_, _, ⟨2, rfl, Or.inr ⟨_, rfl, Or.inr (Or.inr (Or.inl ⟨rfl, Or.inr (Or.inr (Or.inr (Or.inr ⟨rfl, by decide, rfl, 0, rfl, by decide,
      Or.inr ⟨by decide, rfl⟩⟩)))⟩))⟩⟩, settled rfl⟩,
    ⟨_, _, ⟨2, rfl, Or.inr ⟨_, rfl, Or.inr (Or.inr (Or.inl ⟨rfl, Or.inr (Or.inr (Or.inl ⟨rfl, Or.inr ⟨rfl, Or.inl rfl⟩, rfl⟩))⟩))⟩⟩,
      settled rfl⟩,
    ⟨_, _, ⟨2, rfl, Or.inr ⟨_, rfl, Or.inr (Or.inr (Or.inl ⟨rfl,
      Or.inr (Or.inr (Or.inl ⟨rfl, Or.inr ⟨rfl, Or.inr (by decide)⟩, rfl⟩))⟩))⟩⟩, settled rfl⟩,
    ⟨_, _, ⟨2, rfl, Or.inl ⟨rfl, [], [], by decide, by decide, Or.inl ⟨by decide, nofun, rfl⟩⟩⟩, settled rfl⟩,
    ⟨_, _, ⟨2, rfl, Or.inr ⟨_, rfl, Or.inr (Or.inr (Or.inr (Or.inr (Or.inr ⟨rfl, rfl, by decide,
      Or.inl ⟨rfl, [], [], by decide, by decide, Or.inl ⟨by decide, nofun, rfl⟩⟩⟩))))⟩⟩,
      1, by decide, Or.inr ⟨.cancel ⟨3, 5⟩, [], _, rfl, ⟨_, _, chain_still (parties_stay (by decide)), noneReserved (by decide), rfl⟩, rfl, rfl⟩⟩⟩

/-- The queue wait of a QUEUED call has expired: RECYCLE, FORWARD, PARK and END, and a part cut off. -/
theorem witness_WaitingCallsGoOn_expiry :
    let o := offerIn (.waiting .queued)
    let p := fun a => { params with queueExpiry := a }
    let s := fun a => { runGroup (p a) o with he := { (runGroup (p a) o).he with queue := [⟨9, 6, false⟩, ⟨5, 2, false⟩] } }
    let goes := fun a s => ∃ t u, ActionTaken a o 2 (p a) [] [] (withOutputs [] (withoutStanding 5 s)) t ∧ Delivered t u
    (∀ a ∈ [QueueExpiryAction.recycle, .forward, .park, .endCall], ∀ l ∈ [LinkState.running, .isolated, .listenOnly],
      let s := linkAt l (s a)
      Ready s ∧ OfferAt o [] [] s ∧ o.target = .hunt 2 ∧ s.he.groups.get 2 = some (p a) ∧ o.state = .waiting .queued
        ∧ (∃ x ∈ s.he.queue, x.call = o.seq) ∧ ∀ x ∈ s.he.queue, x.call = o.seq → x.expired = false)
    ∧ goes .recycle (s .recycle) ∧ goes .forward (s .forward) ∧ goes .park (s .park) ∧ goes .endCall (s .endCall)
    ∧ goes .park (linkAt .isolated (s .park)) :=
  ⟨by decide,
    ⟨_, _, Or.inr (Or.inr (Or.inl ⟨rfl, Or.inl rfl, rfl⟩)), settled rfl⟩,
    ⟨_, _, Or.inr (Or.inr (Or.inr (Or.inl ⟨rfl, by decide, rfl, by decide, rfl⟩))), settled rfl⟩,
    ⟨_, _, Or.inr (Or.inr (Or.inr (Or.inr ⟨rfl, by decide, rfl, 0, rfl, by decide,
      Or.inl ⟨by decide, rfl, by decide, by decide, rfl⟩⟩))), settled rfl⟩,
    ⟨_, _, Or.inl ⟨Or.inl rfl, [], [], by decide, by decide, Or.inl ⟨by decide, nofun, rfl⟩⟩, settled rfl⟩,
    ⟨_, _, Or.inr (Or.inl ⟨by decide, rfl, [], [], by decide, by decide, Or.inl ⟨by decide, nofun, rfl⟩⟩),
      settled rfl⟩⟩

/-- An AVAILABLE for three groups, two of them with a queued call. -/
theorem witness_WaitingCallsGoOn_available :
    let five := offerIn (.waiting .queued)
    let six : Offer := { five with seq := 6, target := .hunt 6 }
    let s := { withOffers [five, six] run with he := { run.he with queue := [⟨6, 6, false⟩, ⟨5, 2, false⟩] } }
    Ready s ∧ s.clc.link = .running ∧ Known 1 s
    ∧ ∃ t u, Chain GroupServed ((List.finRange 16).filter fun g => (0x004C#16).getLsbD g.val)
      (withOutputs [.acknowledge true] (heardFrom 1 s)) t ∧ Delivered t u :=
  ⟨by decide, by decide, by decide, _, _,
    ⟨_, Or.inr ⟨offerIn (.waiting .queued), [], [{ offerIn (.waiting .queued) with seq := 6, target := .hunt 6 }], 2,
        [⟨6, 6, false⟩], false, [], by decide, rfl, rfl, rfl, by decide, Or.inr ⟨rfl, by decide, rfl⟩⟩,
      _, Or.inl ⟨by decide, rfl⟩,
      _, Or.inr ⟨{ offerIn (.waiting .queued) with seq := 6, target := .hunt 6 }, [reoffered { offerIn (.waiting .queued) with tried := 0 }],
        [], 6, [], false, [⟨5, 2, false⟩], by decide, rfl, rfl, rfl, by decide, Or.inr ⟨rfl, by decide, rfl⟩⟩, rfl⟩, settled rfl⟩

/-- A part cut off whose line 7 alone rings for a call of its own: an order index is untried, or all are and the group recycles or parks. -/
theorem witness_WaitingCallsGoOn_isolated :
    ∀ l ∈ [LinkState.isolated, .listenOnly], ∀ x ∈ [((1 : IndexSet), OverflowAction.forward), (15, .recycle), (15, .park)],
      let p := { params with overflow := x.2 }
      let o := { ringingWith (.hunt 2) [⟨3, 7, some 4⟩] with tried := x.1 }
      let s := linkAt l (withLine 7 (ringingLine ⟨3, 5⟩) (runGroup p o))
      Ready s ∧ cutOff s = true ∧ ShelfRoom 1 s ∧ OfferAt o [] [] s ∧ (lineOf s 7).state = .ringing
        ∧ (lineOf s 7).call = some ⟨⟨3, 5⟩, some .hunt, some 2, some 4⟩ ∧ (⟨3, 5⟩ : CallId) = ⟨own s, o.seq⟩
        ∧ (lineOf s 7).noAnswer ≠ none ∧ o.state = .ringing ∧ o.ringing = [⟨own s, 7, some 4⟩] ∧ o.assigned = none
        ∧ o.target = .hunt 2 ∧ s.he.groups.get 2 = some p
        ∧ ((∃ j : OrderIndex, j.val < p.span ∧ hasIndex (addTried (some 4) [] o.tried) j = false)
          ∨ p.overflow = .recycle ∨ p.overflow = .park) := by
  decide

/-- A line whose call nobody answers, on the link and cut off from it, where its notices reach the part's own blocks. -/
theorem witness_RingingFollowsItsCadence_told :
    (∀ l ∈ [LinkState.running, .isolated, .listenOnly],
      let s := linkAt l (runLine (ringingLine call1))
      Ready s ∧ Room 3 s ∧ (lineOf s 7).state = .ringing ∧ (lineOf s 7).call = some ⟨call1, some .hunt, some 2, some 4⟩
        ∧ (lineOf s 7).noAnswer ≠ none)
    ∧ ∀ l ∈ [LinkState.running, .isolated],
      let s := linkAt l (runLine (ringingLine call1))
      let r := { lineOf s 7 with
        state := .idle, call := none, cadenceAt := none, noAnswer := none, ring := false, tone := .none }
      ∃ u, Delivered (withOutputs [.ring 7 false, .tone 7 .none]
        (noticed (.noAnswer call1 7 :: .ringEnded call1 7 .noAnswer :: newlyAvailable (lineOf s 7) r)
          (withLine 7 (refreshed r)
            { s with ppu := { s.ppu with
                view := s.ppu.view.filter fun e => !decide (e.call = call1 ∧ e.cab = own s ∧ e.line = 7) } }))) u := by
  refine ⟨by decide, fun l h => ?_⟩
  simp only [List.mem_cons, List.not_mem_nil, or_false] at h
  rcases h with rfl | rfl
  · exact ⟨_, settled rfl⟩
  · exact ⟨_, 3, by decide, Or.inr ⟨.noAnswer call1 7, [.ringEnded call1 7 .noAnswer, .available 4], _, rfl,
      Or.inl ⟨fun e => absurd e (by decide), rfl⟩,
      Or.inr ⟨.ringEnded call1 7 .noAnswer, [.available 4], _, rfl, Or.inr ⟨rfl, Or.inl ⟨fun e => absurd e (by decide), rfl⟩⟩,
        Or.inr ⟨.available 4, [], _, rfl, ⟨_, Or.inl ⟨by decide, rfl⟩, rfl⟩, rfl, rfl⟩⟩⟩⟩

theorem witness_RingingMemberIsLost_next :
    let seen := withOutputs [.acknowledge true] (heardFrom 1 (runOffer lastRinging))
    let direct := ringingWith (.direct 1 4) [⟨1, 4, none⟩]
    let more := ringingWith (.hunt 2) [⟨1, 4, some 2⟩, ⟨2, 0, some 0⟩]
    (Ready (runOffer lastRinging) ∧ (runOffer lastRinging).clc.link = .running ∧ Known 1 (runOffer lastRinging)
      ∧ codeCall ⟨3, 5⟩ = some ⟨own (runOffer lastRinging), 5⟩ ∧ codeBelow 16 4 = some (4 : Line)
      ∧ codeRingEnd 2 = some .noAnswer ∧ lossReason .noAnswer = true)
    ∧ (∃ t, RecordLoses (atLine 1 4) 5 seen t)
    ∧ (∃ t, RecordLoses (atLine 1 4) 5 (withOutputs [.acknowledge true] (heardFrom 1 (runOffer direct))) t)
    ∧ (∃ t, RecordLoses (atLine 1 4) 5 (withOutputs [.acknowledge true] (heardFrom 1 (runOffer more))) t)
    ∧ ∃ t, RecordLoses (atLine 1 5) 5 seen t :=
  ⟨by decide,
    ⟨_, lastRinging, [], [], by decide, rfl, Or.inr ⟨by decide, nofun, Or.inr (Or.inl ⟨by decide, rfl,
      Or.inr ⟨by decide, 2, rfl, Or.inl ⟨⟨params, rfl, 1, by decide, by decide⟩, Or.inr ⟨rfl, by decide, rfl⟩⟩⟩⟩)⟩⟩,
    ⟨_, ringingWith (.direct 1 4) [⟨1, 4, none⟩], [], [], by decide, rfl, Or.inr ⟨by decide, nofun, Or.inr (Or.inr ⟨by decide, rfl,
      [], [], by decide, by decide, Or.inl ⟨by decide, nofun, rfl⟩⟩)⟩⟩,
    ⟨_, ringingWith (.hunt 2) [⟨1, 4, some 2⟩, ⟨2, 0, some 0⟩], [], [], by decide, rfl,
      Or.inr ⟨by decide, nofun, Or.inl ⟨by decide, rfl⟩⟩⟩,
    ⟨_, lastRinging, [], [], by decide, rfl, Or.inl ⟨by decide, rfl⟩⟩⟩

/-- The record parked in orbit 13 with its code page in a state. -/
def parkedPaged (x : PageState) : State := withPages [{ codePage13 with state := x }] (parkedState (orbitWith (some ⟨3, 8⟩) 2))

/-- Orbit 13 freed: without a code page, with one on the air, and with one that waits for its PAGE-START. -/
theorem witness_CallGoneEndsTheCall_parked :
    let o := offerIn (.parked 13)
    (∀ s ∈ [parkedState (orbitWith none 2), parkedPaged .onAir, parkedPaged .claiming],
      Sending 1 s ∧ OfferAt o [] [] s ∧ o.state = .parked (orbitNumber (own s) 1) ∧ o.assigned = none ∧ o.ringing = [])
    ∧ (∃ t, OrbitFreed 1 (parkedState (orbitWith none 2)) t) ∧ (∃ t, OrbitFreed 1 (parkedPaged .onAir) t)
    ∧ ∃ t, OrbitFreed 1 (parkedPaged .claiming) t :=
  ⟨by decide, ⟨_, orbitWith none 2, by decide, Or.inl ⟨nofun, rfl⟩⟩,
    ⟨_, orbitWith (some ⟨3, 8⟩) 2, by decide, Or.inr ⟨codePage13, [], [], by decide, by decide, by decide, Or.inl ⟨by decide, rfl⟩⟩⟩,
    ⟨_, orbitWith (some ⟨3, 8⟩) 2, by decide, Or.inr ⟨{ codePage13 with state := .claiming }, [], [], by decide, by decide, by decide,
      Or.inr ⟨by decide, others_of_none (by decide), all_of_none (by decide), rfl⟩⟩⟩⟩

theorem witness_AnswerConnectsTheCall_parked :
    let o := offerIn (.parked 13)
    let told := fun s => withQueued [.connected ⟨own s, o.seq⟩ 1 4 (targetGroup o.target) (some 31)] (heardFrom 1 s)
    (∀ s ∈ [parkedState (orbitWith none 2), parkedPaged .onAir],
      Sending 2 s ∧ ShelfRoom 1 s ∧ Known 1 s ∧ codeBelow 16 4 = some (4 : Line) ∧ codeOrNone 32 31 = some (some (31 : OrderIndex))
        ∧ OfferAt o [] [] s ∧ codeCall ⟨3, 5⟩ = some ⟨own s, o.seq⟩ ∧ o.state = .parked (orbitNumber (own s) 1))
    ∧ (∃ t, OrbitFreed 1 (told (parkedState (orbitWith none 2))) t) ∧ ∃ t, OrbitFreed 1 (told (parkedPaged .onAir)) t :=
  ⟨by decide, ⟨_, orbitWith none 2, by decide, Or.inl ⟨nofun, rfl⟩⟩,
    ⟨_, orbitWith (some ⟨3, 8⟩) 2, by decide, Or.inr ⟨codePage13, [], [], by decide, by decide, by decide, Or.inl ⟨by decide, rfl⟩⟩⟩⟩

/-- A member of cabinet 1 with its number, and sixteen of cabinet 2. -/
def sixteen : List Member := (List.range 16).map fun n => ⟨2, Fin.ofNat 16 n, none⟩

theorem witness_RingStartedFromTheAssignedMember_others :
    ∀ x ∈ [(OfferState.offering, none, []), (.ringing, none, [⟨2, 0, some 0⟩]), (.assigned, some (⟨1, 5, some 2⟩ : Member), []),
        (.waiting .queued, none, []), (.waiting .recyclePause, none, []), (.ringing, none, sixteen), (.ringing, none, sixteen.take 15)],
      let o := { offerIn x.1 with assigned := x.2.1, ringing := x.2.2 }
      let s := runOffer o
      Sending 1 s ∧ Known 1 s ∧ OfferAt o [] [] s ∧ codeCall ⟨3, 5⟩ = some ⟨own s, o.seq⟩ ∧ codeBelow 16 4 = some (4 : Line)
        ∧ codeOrNone 32 31 = some (some (31 : OrderIndex)) ∧ codeOrNone 16 15 = some (some (15 : PickupGroup))
        ∧ (∀ e ∈ s.ppu.view, ¬ (e.call = ⟨own s, o.seq⟩ ∧ e.cab = 1 ∧ e.line = 4)) ∧ s.ppu.view.length < viewCapacity
        ∧ (∀ y ∈ o.ringing, ¬ (y.cab = 1 ∧ y.line = 4)) ∧ o.state = x.1 ∧ (o.state = .assigned → o.assigned = some ⟨1, 5, some 2⟩)
        ∧ (o.ringing.length < 16 ∨ 16 ≤ o.ringing.length) := by
  decide

/-- A full ring view, without an entry of line 4 of cabinet 1. -/
def fullView : List ViewEntry := List.replicate 24 viewEntry

theorem witness_RingStartedFromTheAssignedMember_norecord :
    let standing : ViewEntry := ⟨call1, 1, 4, none, false⟩
    (∀ v ∈ [[], [standing], fullView, fullView.take 23],
      let s := { run with ppu := { run.ppu with view := v } }
      Sending 1 s ∧ Known 1 s ∧ codeCall ⟨1, 9⟩ = some call1 ∧ codeCall ⟨3, 5⟩ = some ⟨own s, 5⟩ ∧ codeBelow 16 4 = some (4 : Line)
        ∧ codeOrNone 32 255 = some (none : Option OrderIndex) ∧ codeOrNone 16 15 = some (some (15 : PickupGroup)) ∧ call1.cab ≠ own s
        ∧ (∀ o ∈ s.ofm.offers, o.seq ≠ 5)
        ∧ (decide (∃ e ∈ s.ppu.view, e.call = call1 ∧ e.cab = 1 ∧ e.line = 4) = decide (v = [standing])))
    ∧ (fullView.take 23).length < viewCapacity ∧ viewCapacity ≤ fullView.length
    ∧ OfferAt (offerIn (.parked 13)) [] [] (parkedState (orbitWith none 2)) := by
  decide

/-- The part with a line that has dialled a code but for its last digit, a ring view and a record. -/
def claimant (buffer : List Digit) (view : List ViewEntry) (s : State) : State :=
  withLine 7 (diallingLine buffer) { s with ppu := { s.ppu with view := view } }

theorem witness_PickupCodesClaimACall_own :
    (∀ o ∈ [offerIn .assigned, offerIn .ringing, offerIn .offering],
      let s := claimant [.star] [{ viewEntry with call := ⟨3, 5⟩ }] (runOffer o)
      Sending 2 s ∧ ShelfRoom 1 s ∧ LastDigit 7 (.num 3) .groupPickup 0 s
        ∧ claimOf (groupSelection s 7) = some (.call ⟨own s, 5⟩) ∧ OfferAt o [] [] s ∧ o.seq = 5)
    ∧ (let s := claimant [.star, .num 4, .num 1, .num 3] [{ viewEntry with call := ⟨3, 5⟩ }] run
      Sending 2 s ∧ ShelfRoom 1 s ∧ LastDigit 7 (.num 4) .directedPickup 134 s
        ∧ claimOf (directedSelection s 7 134) = some (.call ⟨own s, 5⟩) ∧ ∀ o ∈ s.ofm.offers, o.seq ≠ 5)
    ∧ (let s := claimant [.star, .num 5, .num 1] [] run
      Sending 2 s ∧ ShelfRoom 1 s ∧ LastDigit 7 (.num 3) .retrieve 13 s
        ∧ retrieveSelection s 13 = some (.orbit (orbitNumber (own s) 1)) ∧ slotOf s 1 = none) := by
  decide

theorem witness_PickupCodesClaimACall_parked :
    ∀ x ∈ [none, some (⟨3, 8⟩ : PageId)],
      let o := offerIn (.parked 13)
      let s := withLine 7 (diallingLine [.star, .num 5, .num 1]) (withPages [codePage13] (parkedState (orbitWith x 2)))
      let pending := withLine 7 { withDigit (.num 3) (lineOf s 7) with
        state := .pickupPending, buffer := [], verdict := some ⟨.orbit (orbitNumber (own s) 1), .pickup⟩ } s
      (Sending 2 s ∧ ShelfRoom 1 s ∧ LastDigit 7 (.num 3) .retrieve 13 s
        ∧ retrieveSelection s 13 = some (.orbit (orbitNumber (own s) 1)) ∧ OfferAt o [] [] s ∧ slotOf s 1 = some (orbitWith x 2)
        ∧ (orbitWith x 2).call = o.seq ∧ o.state = .parked (orbitNumber (own s) 1))
      ∧ ∃ t, OrbitFreed 1 (withQueued [.connected ⟨own s, o.seq⟩ (own s) 7 (targetGroup o.target) none] pending) t := by
  intro x h
  simp only [List.mem_cons, List.not_mem_nil, or_false] at h
  rcases h with rfl | rfl
  · exact ⟨by decide, _, orbitWith none 2, by decide, Or.inl ⟨nofun, rfl⟩⟩
  · exact ⟨by decide, _, orbitWith (some ⟨3, 8⟩) 2, by decide,
      Or.inr ⟨codePage13, [], [], by decide, by decide, by decide, Or.inl ⟨by decide, rfl⟩⟩⟩

theorem witness_PickupCodesClaimACall_none :
    let s := { runLine idleLine with ppu := { resetPpu with view := [{ viewEntry with marked := true }] } }
    (∀ x ∈ s.ppu.view, ¬ (x.pickup = some 5 ∧ x.marked = false ∧ ¬ (x.cab = own s ∧ x.line = 7) ∧ reachable s x.call.cab = true))
      ∧ ∀ x ∈ s.ppu.view, ¬ (x.cab = 2 ∧ x.line = 3 ∧ reachable s x.call.cab = true) := by
  decide

theorem witness_PageCodesClaimAChannel_ids :
    (32 ≤ 98 ∧ 98 ≠ 99) ∧ (32 ≤ 100 ∧ 100 ≠ 99)
      ∧ let s := withPages (List.replicate 8 (newPage 255 .routine .all (.line 3) false)) run
        s.pgo.pages.length ≤ 8 := by
  decide

/-! ### Hypotheses met: zones that pages take, wait for and leave -/

/-- What hearing a PAGE-START of cabinet 1 on channel 2 leaves. -/
def seenStart (x : PageClass) (src : PageSource) (s : State) : State :=
  withOutputs [.acknowledge true] (startSeen 1 (entryOfClass x src) s)

/-- Zone 2 in HANG, in WAKING with no page, and RELEASED without a wake time. -/
def freeZones : List ZoneRec :=
  [zone0, { zone0 with state := .hang }, { zone0 with cfg := { zone0.cfg with wake := 0 } }]

theorem witness_AlarmsAndEvacuationsTakeAZone_takes :
    (∀ r ∈ freeZones, OneZoneStart (startOf .code 255 0) 1 (entryOfClass .code .tone) (.group 0) 2 false (runZone r))
    ∧ (∀ r ∈ freeZones, OneZoneStart (startOf .evac 255 0) 1 (entryOfClass .evac .tone) (.group 0) 2 false (runZone r))
    ∧ (∀ r ∈ freeZones, r.state ≠ .fault ∧ r.state ≠ .outOfService ∧ r.evac = [] ∧ r.cfg.quiet = false ∧ r.active = none)
    ∧ ∀ r ∈ freeZones, Sending 4 (runZone r) ∧ (runZone r).ts.notes = some (Table.fill 8 100) ∧ zoneOf (runZone r) 2 = r := by
  refine ⟨fun r h => oneZoneStart_of ?_ nofun (by decide) ?_, fun r h => oneZoneStart_of ?_ nofun (by decide) ?_,
    by decide, by decide⟩ <;> revert r h <;> decide

/-- A code page of cabinet 4 that waits. -/
def waiting (n : Seq) : PageEntry := { otherPage .code with page := ⟨4, n⟩ }

/-- An ALARM page of cabinet 4 that waits. -/
def waitingAlarm (n : Seq) : PageEntry := { otherPage .alarm with page := ⟨4, n⟩ }

/-- Zone 2 with a page of cabinet 2 of a class active. -/
def busyZone (x : PageClass) (held : Option Held) (pending : List PageEntry) : ZoneRec :=
  { playing x (if x = .code then .code else .live) with held := held, pending := pending }

/-- A ROUTINE page gives way, a CODE page is held over an empty place and over a held page that moves to a list with room, to a full list
that drops another page, and to a full list that drops it. -/
theorem witness_AlarmsAndEvacuationsTakeAZone_displaces :
    (∃ u, Displaced 2 (seenStart .alarm .tone (runZone (busyZone .routine none []))) u)
    ∧ (∃ u, Displaced 2 (seenStart .alarm .tone (runZone (busyZone .code none []))) u)
    ∧ (∃ u, Displaced 2 (seenStart .evac .tone (runZone (busyZone .alarm (some ⟨waiting 1, .code, 2⟩) [waitingAlarm 2]))) u)
    ∧ (∃ u, Displaced 2 (seenStart .evac .tone (runZone (busyZone .alarm (some ⟨waitingAlarm 1, .live, 2⟩)
        [waiting 2, waiting 3, waiting 4, waiting 5]))) u)
    ∧ ∃ u, Displaced 2 (seenStart .evac .tone (runZone (busyZone .alarm (some ⟨waiting 1, .code, 2⟩)
        [waitingAlarm 2, waitingAlarm 3, waitingAlarm 4, waitingAlarm 5]))) u :=
  ⟨⟨_, ⟨⟨2, 6⟩, .routine, .channel 1, none⟩, 3, by decide, Or.inl ⟨rfl, rfl⟩⟩,
    ⟨_, ⟨⟨2, 6⟩, .code, .channel 1, some 8⟩, 3, by decide, Or.inr (Or.inl ⟨by decide, by decide, rfl⟩)⟩,
    ⟨_, ⟨⟨2, 6⟩, .alarm, .channel 1, none⟩, 3, by decide, Or.inr (Or.inr ⟨⟨waiting 1, .code, 2⟩, [waitingAlarm 2, waiting 1],
      by decide, by decide, ⟨[waitingAlarm 2], [], by decide, rfl, by decide, by decide⟩, Or.inl ⟨by decide, rfl⟩⟩)⟩,
    ⟨_, ⟨⟨2, 6⟩, .alarm, .channel 1, none⟩, 3, by decide, Or.inr (Or.inr ⟨⟨waitingAlarm 1, .live, 2⟩,
      [waitingAlarm 1, waiting 2, waiting 3, waiting 4, waiting 5], by decide, by decide,
      ⟨[], [waiting 2, waiting 3, waiting 4, waiting 5], by decide, rfl, by decide, by decide⟩,
      Or.inr ⟨waiting 5, by decide, by decide, Or.inr ⟨by decide, rfl⟩⟩⟩)⟩,
    ⟨_, ⟨⟨2, 6⟩, .alarm, .channel 1, none⟩, 3, by decide, Or.inr (Or.inr ⟨⟨waiting 1, .code, 2⟩,
      [waitingAlarm 2, waitingAlarm 3, waitingAlarm 4, waitingAlarm 5, waiting 1], by decide, by decide,
      ⟨[waitingAlarm 2, waitingAlarm 3, waitingAlarm 4, waitingAlarm 5], [], by decide, rfl, by decide, by decide⟩,
      Or.inr ⟨waiting 1, by decide, by decide, Or.inl ⟨rfl, rfl⟩⟩⟩)⟩⟩

/-- The zones that a page finds so: the other hypotheses of its start. -/
def busyZones : List ZoneRec :=
  [busyZone .alarm (some ⟨waiting 1, .code, 2⟩) [waitingAlarm 2],
    busyZone .alarm (some ⟨waitingAlarm 1, .live, 2⟩) [waiting 2, waiting 3, waiting 4, waiting 5]]

theorem witness_AlarmsAndEvacuationsTakeAZone_preempts :
    (∀ r ∈ busyZones, OneZoneStart (startOf .evac 255 0) 1 (entryOfClass .evac .tone) (.group 0) 2 false (runZone r))
    ∧ (∀ r ∈ busyZones, r.state ≠ .fault ∧ r.state ≠ .outOfService ∧ r.evac = []
        ∧ r.active = some (.page ⟨⟨2, 6⟩, .alarm, .channel 1, none⟩ 3) ∧ classRank .alarm < classRank (entryOfClass .evac .tone).cls)
    ∧ ∀ r ∈ busyZones, Sending 4 (runZone r) ∧ zoneOf (runZone r) 2 = r := by
  refine ⟨fun r h => oneZoneStart_of ?_ nofun (by decide) ?_, by decide, by decide⟩ <;> revert r h <;> decide

/-- Zones that an ALARM page waits for: with an empty list, with codes behind it, with a full list of codes and of alarms, and
evacuating. -/
def waitedZones : List (ZoneRec × List PageEntry × List PageEntry) :=
  [(busyZone .alarm none [], [], []), (busyZone .alarm none [waitingAlarm 2, waiting 3], [waitingAlarm 2], [waiting 3]),
    (busyZone .alarm none [waiting 2, waiting 3, waiting 4, waiting 5], [], [waiting 2, waiting 3, waiting 4, waiting 5]),
    (busyZone .alarm none [waitingAlarm 2, waitingAlarm 3, waitingAlarm 4, waitingAlarm 5],
      [waitingAlarm 2, waitingAlarm 3, waitingAlarm 4, waitingAlarm 5], []),
    (evacuatingWith [⟨2, 9⟩], [], [])]

theorem witness_PageStartMeetsAZone_waits :
    let e := entryOfClass .alarm .tone
    (∀ x ∈ waitedZones, OneZoneStart (startOf .alarm 255 0) 1 e (.group 0) 2 false (runZone x.1))
    ∧ (∀ x ∈ waitedZones, Sending 2 (runZone x.1) ∧ x.1.state ≠ .fault ∧ x.1.state ≠ .outOfService ∧ x.1.pending = x.2.1 ++ x.2.2
        ∧ (x.1.active = some .evacuation ∨ (x.1.active = some (.page ⟨⟨2, 6⟩, .alarm, .channel 1, none⟩ 3)
            ∧ classRank e.cls ≤ classRank .alarm))
        ∧ (∀ y ∈ x.2.1, classRank e.cls < classRank y.cls ∨ (y.cls = e.cls ∧ false = false))
        ∧ (∀ y ∈ x.2.2, classRank y.cls < classRank e.cls ∨ (y.cls = e.cls ∧ false = true)))
    ∧ (waitedZones.map fun x => ((x.2.1 ++ e :: x.2.2).length, decide ((x.2.1 ++ e :: x.2.2).getLast? = some e)))
      = [(1, true), (3, false), (5, false), (5, true), (1, true)] := by
  refine ⟨fun r h => oneZoneStart_of ?_ nofun (by decide) ?_, by decide, by decide⟩ <;> revert r h <;> decide

/-- Zone 2 in FAULT with these pages in its evacuation set. -/
def faultyZone (l : List PageId) : ZoneRec := { zone0 with state := .fault, ampFault := true, evac := l }

theorem witness_AlarmsAndEvacuationsTakeAZone_fault :
    ∀ l ∈ [[], [⟨2, 9⟩], [(⟨1, 3⟩ : PageId)]],
      OneZoneStart (startOf .evac 255 0) 1 (entryOfClass .evac .tone) (.group 0) 2 false (runZone (faultyZone l))
        ∧ (entryOfClass .evac .tone).cls = .evac ∧ (zoneOf (runZone (faultyZone l)) 2).state = .fault
        ∧ (zoneOf (runZone (faultyZone l)) 2).evac = l := by
  intro l h
  refine ⟨oneZoneStart_of ?_ nofun (by decide) ?_, rfl, rfl, ?_⟩ <;> revert l h <;> decide

/-- A part in the start-up phase LISTENING. -/
def listening (s : State) : State := phaseAt .listening (linkAt .listening s)

theorem witness_AlarmsAndEvacuationsTakeAZone_listening :
    (∀ r ∈ [zone0, evacuatingWith [⟨2, 9⟩], evacuatingWith [⟨1, 3⟩]],
      let s := listening (runZone r)
      Ready s ∧ s.clc.link = .listening ∧ s.phase = .listening ∧ s.ts.notes = some (Table.fill 8 100)
        ∧ StartFor (startOf .evac 255 0) 1 (entryOfClass .evac .tone) (.group 0) 2 false s
        ∧ StartFor (startOf .alarm 255 0) 1 (entryOfClass .alarm .tone) (.group 0) 2 false s
        ∧ (zoneOf s 2).state ≠ .fault ∧ (zoneOf s 2).state ≠ .outOfService ∧ ((zoneOf s 2).evac = [] → (zoneOf s 2).active = none))
    ∧ (let s := listening (evacuatingBut zone0)
      Known 1 s ∧ codeLinkField (statusBody 1 1 false).link = some .joining ∧ codeEvacuation (statusBody 1 1 false) = some (some ⟨1, 4⟩)
        ∧ codeChannels (statusBody 1 1 false) = some (statusList false)
        ∧ (∀ c, ((statusList false).get c).isSome = true → channelRecord s c = none) ∧ (zoneOf s 2).state ≠ .fault
        ∧ (zoneOf s 2).state ≠ .outOfService ∧ (zoneOf s 2).evac = [] ∧ (zoneOf s 2).active = none
        ∧ holdsPage (zoneOf s 2) ⟨1, 4⟩ = false
        ∧ ∀ y, y ≠ 2 → (zoneOf s y).evac.any (fun x => decide (x.cab = 1)) = true) := by
  refine ⟨fun r h => ⟨?_, rfl, rfl, rfl, startFor_of ?_ nofun (by decide) ?_, startFor_of ?_ nofun (by decide) ?_, ?_, ?_, ?_⟩,
    by decide⟩ <;> revert r h <;> decide

/-- A state with the pages that go taken from the held places and pending lists of zones 0 and 1. -/
def besides (gone : PageEntry → Bool) (s : State) : State :=
  let u := withZone 0 (withoutPages gone (zoneOf s 0)) s
  withZone 1 (withoutPages gone (zoneOf u 1)) u

/-- The pages that go leave every zone, where zone 2 alone plays one of them. -/
theorem freed_at2 {gone : PageEntry → Bool} {s t : State} (h0 : pickActive gone (zoneOf s 0) = none)
    (h1 : pickActive gone (zoneOf (withZone 0 (withoutPages gone (zoneOf s 0)) s) 1) = none)
    (at2 : ZoneFreed gone 2 (besides gone s) t) (h3 : pickActive gone (zoneOf t 3) = none) :
    ∃ v, Chain (ZoneFreed gone) allZones s v :=
  ⟨_, _, Or.inl ⟨h0, rfl⟩, _, Or.inl ⟨h1, rfl⟩, _, at2, _, Or.inl ⟨h3, rfl⟩, rfl⟩

/-- The pages that an ALL-STOP removes. -/
def stopped (e : PageEntry) : Bool := decide (e.cls = .routine ∨ e.cls = .code)

/-- Zone 2 as an ALL-STOP finds it: the last page leaves, a pending ALARM page begins, one that was held in its prelude begins again, one
held in LIVE resumes so, and one in WAKING begins under the running timer. -/
theorem witness_PageEndsReachPagesAndZones_allStop :
    let seen := fun r => withOutputs [.acknowledge true] { heardFrom 1 (runZone r) with ppu := { run.ppu with
      orbits := run.ppu.orbits.map fun o => o.map fun x => { x with repeating := false } } }
    let live : Held := ⟨waitingAlarm 1, .live, 2⟩
    (Ready run ∧ run.clc.link = .running ∧ Known 1 run ∧ ∀ r ∈ run.pgo.pages, r.cls ≠ .routine)
    ∧ (∃ t, Chain (ZoneFreed stopped) allZones (seen (busyZone .routine none [waiting 2])) t)
    ∧ (∃ t, Chain (ZoneFreed stopped) allZones (seen (busyZone .routine none [waitingAlarm 2, waiting 2])) t)
    ∧ (∃ t, Chain (ZoneFreed stopped) allZones (seen (busyZone .routine (some ⟨waitingAlarm 1, .chime, 2⟩) [])) t)
    ∧ (∃ t, Chain (ZoneFreed stopped) allZones (seen (busyZone .routine (some live) [waitingAlarm 2])) t)
    ∧ ∃ t, Chain (ZoneFreed stopped) allZones (seen { busyZone .routine (some live) [] with state := .waking }) t :=
  ⟨by decide,
    freed_at2 (by decide) (by decide) (Or.inr ⟨⟨⟨2, 6⟩, .routine, .channel 1, none⟩, 3, by decide, by decide, by decide, by decide,
      Or.inl ⟨by decide, by decide, rfl⟩⟩) (by decide),
    freed_at2 (by decide) (by decide) (Or.inr ⟨⟨⟨2, 6⟩, .routine, .channel 1, none⟩, 3, by decide, by decide, by decide, by decide,
      Or.inr (Or.inl ⟨waitingAlarm 2, [], by decide, by decide, _, by decide, by decide, rfl, rfl⟩)⟩) (by decide),
    freed_at2 (by decide) (by decide) (Or.inr ⟨⟨⟨2, 6⟩, .routine, .channel 1, none⟩, 3, by decide, by decide, by decide, by decide,
      Or.inr (Or.inr ⟨⟨waitingAlarm 1, .chime, 2⟩, by decide, by decide, Or.inl ⟨by decide, _, by decide, by decide, rfl, rfl⟩⟩)⟩)
      (by decide),
    freed_at2 (by decide) (by decide) (Or.inr ⟨⟨⟨2, 6⟩, .routine, .channel 1, none⟩, 3, by decide, by decide, by decide, by decide,
      Or.inr (Or.inr ⟨⟨waitingAlarm 1, .live, 2⟩, by decide, by decide,
        Or.inr ⟨1, by decide, by decide, by decide, by decide, by decide, by decide, rfl⟩⟩)⟩) (by decide),
    freed_at2 (by decide) (by decide) (Or.inr ⟨⟨⟨2, 6⟩, .routine, .channel 1, none⟩, 3, by decide, by decide, by decide, by decide,
      Or.inr (Or.inr ⟨⟨waitingAlarm 1, .live, 2⟩, by decide, by decide, Or.inl ⟨by decide, _, by decide, by decide, rfl, rfl⟩⟩)⟩)
      (by decide)⟩

/-- Three zones hold the page that ends: one plays it, one holds it, one has it pending. -/
def everywhere : State :=
  let e : PageEntry := ⟨⟨2, 6⟩, .alarm, .channel 1, none⟩
  withZone 0 { zone0 with state := .live, active := some (.page (waitingAlarm 1) 2), pending := [e, waiting 2] }
    (withZone 1 { zone0 with state := .tone, active := some .evacuation, evac := [⟨1, 3⟩], held := some ⟨e, .live, 4⟩ }
      (runZone (busyZone .alarm none [waitingAlarm 2])))

theorem witness_PageEndsReachPagesAndZones_everyZone :
    (Ready everywhere ∧ everywhere.clc.link = .running ∧ Known 1 everywhere ∧ codePage ⟨2, 6⟩ = some ⟨2, 6⟩
      ∧ ∀ z, (⟨2, 6⟩ : PageId) ∉ (zoneOf everywhere z).evac)
    ∧ ∃ t, Chain (ZoneFreed fun e => decide (e.page = ⟨2, 6⟩)) allZones (withOutputs [.acknowledge true] { heardFrom 1 everywhere with
      pgo := { everywhere.pgo with view := everywhere.pgo.view.map fun h => h.filter fun x => !decide (x.page = ⟨2, 6⟩) } }) t :=
  ⟨by decide, freed_at2 (by decide) (by decide) (Or.inr ⟨⟨⟨2, 6⟩, .alarm, .channel 1, none⟩, 3, by decide, by decide, by decide,
    by decide, Or.inr (Or.inl ⟨waitingAlarm 2, [], by decide, by decide, _, by decide, by decide, rfl, rfl⟩)⟩) (by decide)⟩

/-- A code chime of zone 2 has ended, with a held ALARM page or none. -/
def endedChime (held : Option Held) : State :=
  withSequencer 2 { resetSequencer with number := 4, reports := [⟨.code 8, 4⟩] }
    (runZone { busyZone .code held [] with keptRun := 4 })

theorem witness_ZonePhasesAdvance_resumes :
    let e : PageEntry := ⟨⟨2, 6⟩, .code, .channel 1, some 8⟩
    let told := fun s : State => zoneReports 2 e.page .ended (withOutputs [] (withSequencer 2 { seqOf s 2 with reports := [] } s))
    (∀ h ∈ [none, some (⟨waitingAlarm 1, .live, 2⟩ : Held)],
      let s := endedChime h
      Sending 1 s ∧ s.phase = .running ∧ (seqOf s 2).reports = ⟨.code 8, 4⟩ :: [] ∧ (zoneOf s 2).active = some (.page e 3)
        ∧ (zoneOf s 2).held = h ∧ h.all (fun x => decide (x.entry.page ≠ e.page)) = true ∧ (∀ y ∈ (zoneOf s 2).pending, y.page ≠ e.page)
        ∧ (4 : Seq) = (zoneOf s 2).keptRun ∧ (zoneOf s 2).state = .code)
    ∧ (∃ t, ZoneFreed (fun y => decide (y.page = e.page)) 2 (told (endedChime none)) t)
    ∧ ∃ t, ZoneFreed (fun y => decide (y.page = e.page)) 2 (told (endedChime (some ⟨waitingAlarm 1, .live, 2⟩))) t :=
  ⟨by decide,
    ⟨_, Or.inr ⟨⟨⟨2, 6⟩, .code, .channel 1, some 8⟩, 3, by decide, by decide, by decide, by decide,
      Or.inl ⟨by decide, by decide, rfl⟩⟩⟩,
    ⟨_, Or.inr ⟨⟨⟨2, 6⟩, .code, .channel 1, some 8⟩, 3, by decide, by decide, by decide, by decide,
      Or.inr (Or.inr ⟨⟨waitingAlarm 1, .live, 2⟩, by decide, by decide,
        Or.inr ⟨1, by decide, by decide, by decide, by decide, by decide, by decide, rfl⟩⟩)⟩⟩⟩

theorem witness_ElapsedSecondsReachTheClassMaximum_resumes :
    ∀ x ∈ [(PageClass.routine, 59), (.alarm, 299)],
      let e : PageEntry := ⟨⟨2, 6⟩, x.1, .channel 1, none⟩
      let r := { busyZone x.1 none [waitingAlarm 2] with active := some (.page e x.2) }
      let s := runZone r
      (Sending 1 s ∧ s.phase = .running ∧ zoneOf s 2 = r ∧ (e.cls = .routine ∨ e.cls = .alarm)
        ∧ x.2 + 1 = (if e.cls = .routine then s.zc.routineMax else s.zc.alarmMax) ∧ (∀ y ∈ r.pending, y.page ≠ e.page))
      ∧ ∃ t, ZoneFreed (fun y => decide (y.page = e.page)) 2 (zoneReports 2 e.page .timedOut
          (withOutputs [] (withZone 2 { r with active := some (.page e (x.2 + 1)) } s))) t := by
  intro x h
  simp only [List.mem_cons, List.not_mem_nil, or_false] at h
  rcases h with rfl | rfl
  · exact ⟨by decide, _, Or.inr ⟨⟨⟨2, 6⟩, .routine, .channel 1, none⟩, 60, by decide, by decide, by decide, by decide,
      Or.inr (Or.inl ⟨waitingAlarm 2, [], by decide, by decide, _, by decide, by decide, rfl, rfl⟩)⟩⟩
  · exact ⟨by decide, _, Or.inr ⟨⟨⟨2, 6⟩, .alarm, .channel 1, none⟩, 300, by decide, by decide, by decide, by decide,
      Or.inr (Or.inl ⟨waitingAlarm 2, [], by decide, by decide, _, by decide, by decide, rfl, rfl⟩)⟩⟩

theorem witness_AmplifierFaultTakesTheZone_listening :
    (∀ r ∈ [zone0, evacuatingWith [⟨1, 3⟩]],
      let s := listening (runZone r)
      Ready s ∧ s.phase = .listening ∧ s.pins.ampFault.get 2 = false ∧ zoneOf s 2 = r ∧ r.state ≠ .outOfService
        ∧ s.clc.queue.length + 0 ≤ txCapacity)
    ∧ ∀ r ∈ [faultyZone [], faultyZone [⟨1, 3⟩]],
      let s := faultPin (listening (runZone r))
      Ready s ∧ s.phase = .listening ∧ s.ts.notes = some (Table.fill 8 100) ∧ s.pins.ampFault.get 2 = true ∧ zoneOf s 2 = r := by
  decide

/-! ### Hypotheses met: what a full queue and a part off the link make of a request -/

/-- On-hook at lines where it is not acted on, an OUT-OF-SERVICE line in HALTED among them. -/
theorem witness_OnHookByLineState_ignored :
    (∀ x ∈ [LineState.idle, .ringing, .wrapUp, .outOfService],
      let s := runLine { idleLine with state := x, armed := true }
      Ready s ∧ (lineOf s 7).state = x ∧ s.phase ≠ .halted)
    ∧ (let s := phaseAt .halted run;
      Ready s ∧ (lineOf s 7).state = .outOfService ∧ s.phase = .halted) := by
  decide

/-- The part with a queue of 24 notices. -/
def crowded (q : List TxEntry) (s : State) : State := { s with clc := { s.clc with queue := q } }

/-- 23 entries, the first in an attempt. -/
def crowd (n : Notice) : List TxEntry := trying (.cancel call1) 0 :: List.replicate 22 (newEntry 3 n)

/-- A STATUS at a full queue in RUNNING, and a PROBE in ISOLATED, have the highest field and join last: they are discarded. -/
theorem witness_LinkTimersQueueAndAge_full :
    (let s := crowded (crowd (.noAnswer call1 7) ++ [newEntry 3 .probe]) run;
      Ready s ∧ s.clc.link = .running ∧ (∀ x ∈ s.clc.queue, isStatus x.notice = false)
      ∧ ∃ t u, QueuedWhenFull (.status .running (assembleStatus s)) s t ∧ Delivered (withOutputs [] t) u)
    ∧ (let s := crowded (crowd (.noAnswer call1 7) ++ [newEntry 3 status1]) (linkAt .isolated run);
      Ready s ∧ s.clc.link = .isolated ∧ (∀ x ∈ s.clc.queue, isProbe x.notice = false)
      ∧ ∃ t u, QueuedWhenFull .probe s t ∧ Delivered (withOutputs [] t) u) :=
  ⟨⟨by decide, rfl, by decide, _, _, ⟨by decide, crowd (.noAnswer call1 7) ++ [newEntry 3 .probe], _, [], rfl, rfl, by decide,
      by decide, rfl⟩, settled rfl⟩,
    ⟨by decide, rfl, by decide, _, _, ⟨by decide, crowd (.noAnswer call1 7) ++ [newEntry 3 status1], _, [], rfl, rfl, by decide,
      by decide, rfl⟩, settled rfl⟩⟩

/-- What an accepted call leaves before its OFFER or RING-ASSIGN is queued. -/
def accepting (t : CallTarget) (s : State) : State :=
  withSent [.accepted 7 ⟨3, nextCallSeq s⟩] { withOutputs [] s with ofm := { s.ofm with
    offers := s.ofm.offers ++ [arrivalRecord (nextCallSeq s) 7 t], counter := nextSeq (nextCallSeq s)
    wrapped := s.ofm.wrapped || decide ((nextCallSeq s).val = 255) } }

/-- An accepted call at a full queue: a PROBE leaves for its OFFER, and for its RING-ASSIGN; and where no field is higher the new notice
leaves itself, and is delivered to the part's own blocks. -/
theorem witness_AcceptedArrivalsGetAFreeCallId_full :
    let probed := crowded (crowd (.cancel call1) ++ [newEntry 3 .probe]) run
    let offered := crowded (crowd (.noAnswer call1 7) ++ [newEntry 3 (.noAnswer call1 7)]) run
    (∀ s ∈ [probed, offered], Ready s ∧ s.clc.link = .running ∧ ShelfRoom 1 s ∧ (∀ o ∈ s.ofm.offers, o.ref ≠ 7)
      ∧ s.ofm.offers.length < 8 ∧ KnownTarget s 1 2 (.hunt 2) ∧ KnownTarget s 2 155 (.direct 3 7))
    ∧ (∃ t u, QueuedWhenFull (.offer ⟨3, nextCallSeq probed⟩ 2 0 0) (accepting (.hunt 2) probed) t ∧ Delivered t u)
    ∧ (∃ t u, QueuedWhenFull (.ringAssign ⟨3, nextCallSeq probed⟩ 3 7 .direct) (accepting (.direct 3 7) probed) t ∧ Delivered t u)
    ∧ ∃ t u, QueuedWhenFull (.offer ⟨3, nextCallSeq offered⟩ 2 0 0) (accepting (.hunt 2) offered) t ∧ Delivered t u :=
  have none_ : ∀ l i, ¬ Candidacy run 2 0 l i := by decide
  ⟨by decide,
    ⟨_, _, ⟨by decide, crowd (.cancel call1), newEntry 3 .probe, [newEntry 3 (.offer ⟨3, 0⟩ 2 0 0)], by decide, rfl, by decide, by decide,
      rfl⟩, settled rfl⟩,
    ⟨_, _, ⟨by decide, crowd (.cancel call1), newEntry 3 .probe, [newEntry 3 (.ringAssign ⟨3, 0⟩ 3 7 .direct)], by decide, rfl, by decide,
      by decide, rfl⟩, settled rfl⟩,
    ⟨_, _, ⟨by decide, crowd (.noAnswer call1 7) ++ [newEntry 3 (.noAnswer call1 7)], newEntry 3 (.offer ⟨3, 0⟩ 2 0 0), [], by decide, rfl,
      by decide, by decide, rfl⟩,
      1, by decide, Or.inr ⟨.offer ⟨3, 0⟩ 2 0 0, [], _, rfl, ⟨_, _,
        Or.inl ⟨arrivalRecord 0 7 (.hunt 2), [], [], by decide, rfl, rfl, rfl⟩, noneReserved (by decide), Or.inl ⟨none_, rfl⟩⟩,
        rfl, rfl⟩⟩⟩

/-- The repeat timer while the former code page still stands, announced or not; its successor gets a page id, or, with six other pages in
the table, is refused. -/
theorem witness_OrbitTimersRecallAndRepeat_page :
    let x := orbitWith (some ⟨3, 8⟩) 2
    let y := { x with page := none, repeats := x.repeats + 1 }
    let s := fun st l => withPages ({ codePage13 with state := st } :: l) (parkedState x)
    let goes := fun s => ∃ t u v, OrbitFreed 1 (withOutputs [] s) t ∧ CodePageAsked 1 y (withSlot 1 (some y) t) u ∧ Delivered u v
    (∀ st ∈ [PageState.claiming, .onAir], ∀ l ∈ [LinkState.running, .isolated],
      let s := linkAt l (s st [])
      Ready s ∧ Room 1 s ∧ slotOf s 1 = some x ∧ x.repeating = true ∧ x.repeats < x.limit)
    ∧ goes (s .onAir []) ∧ goes (s .claiming []) ∧ goes (s .onAir sixPages) :=
  ⟨by decide,
    ⟨_, _, _, ⟨orbitWith (some ⟨3, 8⟩) 2, by decide, Or.inr ⟨{ codePage13 with state := .onAir }, [], [], rfl, by decide, rfl,
      Or.inl ⟨by decide, rfl⟩⟩⟩, Or.inl ⟨by decide, rfl, by decide, by decide, rfl⟩, settled rfl⟩,
    ⟨_, _, _, ⟨orbitWith (some ⟨3, 8⟩) 2, by decide, Or.inr ⟨{ codePage13 with state := .claiming }, [], [], rfl, by decide, rfl,
      Or.inr ⟨rfl, others_of_none (by decide), all_of_none (by decide), rfl⟩⟩⟩, Or.inl ⟨by decide, rfl, by decide, by decide, rfl⟩,
      settled rfl⟩,
    ⟨_, _, _, ⟨orbitWith (some ⟨3, 8⟩) 2, by decide, Or.inr ⟨{ codePage13 with state := .onAir }, [], sixPages, rfl, by decide, rfl,
      Or.inl ⟨by decide, rfl⟩⟩⟩, Or.inr ⟨Or.inl (by decide), rfl⟩, settled rfl⟩⟩

/-- Every channel held: channels 0, 2 and 3 by ALARM pages of cabinet 1, channel 1 by the own ROUTINE page of line 6. -/
def ownOnChannel1 (x : PageState) (dialler : LineRec) : State :=
  let s := withLine 7 dialler (withPages [{ newPage 8 .routine (.group 0) (.line 6) false with channel := some 1, state := x }] run)
  { s with pgo := { s.pgo with view := (heldChannels .alarm []).set 1 (some ⟨⟨3, 8⟩, .routine⟩) } }

/-- The alarm page code that seizes the channel of an own ROUTINE page, announced or not. -/
theorem witness_PageCodesClaimAChannel_own :
    ∀ x ∈ [PageState.claiming, .onAir], ∀ b ∈ [([Digit.star, .num 7, .num 0], Code.alarmPage, false),
        ([.hash, .star, .num 7, .num 0], .overrideAlarm, true)],
      let v : PageRec := { newPage 8 .routine (.group 0) (.line 6) false with channel := some 1, state := x }
      let s := ownOnChannel1 x { diallingLine b.1 with armed := b.2.2 }
      let r := withDigit (.num 5) (lineOf s 7)
      let q := nextPageSeq s
      (Sending 1 s ∧ LastDigit 7 (.num 5) b.2.1 5 s ∧ pageTargetOf 5 = some (.group 5) ∧ sharedCount s < 6
        ∧ (∀ x ∈ s.pgo.pages, x.seq ≠ q) ∧ (∀ e, (s.pgo.view.get e).isSome = true)
        ∧ s.pgo.view.get 1 = some ⟨⟨3, 8⟩, .routine⟩ ∧ s.pgo.view.get 0 = some ⟨⟨1, 20⟩, .alarm⟩
        ∧ (⟨3, 8⟩ : PageId) = ⟨own s, v.seq⟩ ∧ v ∈ s.pgo.pages ∧ v.origin = .line 6)
      ∧ ∃ u, LinePageEnds .channelLost v (withOutputs [.tone 7 .none, .tone 7 .none]
          (withLine 7 { r with state := .paging, buffer := [], armed := false, page := some ⟨own s, q⟩ }
            (withNewPage (newPage q .alarm (.group 5) (.line 7) r.armed) s))) u
        ∧ u.clc.queue.length < txCapacity := by
  intro x hx b hb
  refine ⟨?_, ?_⟩
  · revert x hx b hb
    decide
  · simp only [List.mem_cons, List.not_mem_nil, or_false] at hx hb
    rcases hx with rfl | rfl <;> rcases hb with rfl | rfl
    · exact ⟨_, ⟨6, [], [newPage 0 .alarm (.group 5) (.line 7) false], rfl, by decide, by decide, by decide, fun e => absurd e (by decide),
        Or.inr ⟨rfl, all_of_none (by decide), rfl⟩⟩, by decide⟩
    · exact ⟨_, ⟨6, [], [newPage 0 .alarm (.group 5) (.line 7) true], rfl, by decide, by decide, by decide, fun e => absurd e (by decide),
        Or.inr ⟨rfl, all_of_none (by decide), rfl⟩⟩, by decide⟩
    · exact ⟨_, ⟨6, [], [newPage 0 .alarm (.group 5) (.line 7) false], rfl, by decide, by decide, by decide, fun e => absurd e (by decide), Or.inl ⟨by decide, rfl⟩⟩, by decide⟩
    · exact ⟨_, ⟨6, [], [newPage 0 .alarm (.group 5) (.line 7) true], rfl, by decide, by decide, by decide, fun e => absurd e (by decide), Or.inl ⟨by decide, rfl⟩⟩, by decide⟩

/-- No channel below the one seized is held by a ROUTINE page. -/
theorem witness_PageCodesClaimAChannel_own_lowest (x : PageState) (r : LineRec) :
    ∀ e h, e < (1 : Channel) → (ownOnChannel1 x r).pgo.view.get e = some h → h.cls ≠ .routine := by
  intro e h lt
  obtain rfl : e = 0 := (by decide : ∀ e : Channel, e < 1 → e = 0) e lt
  rintro ⟨⟩
  decide

/-- Page codes at a part that is off the link. -/
theorem witness_PageCodesClaimAChannel_offLink :
    ∀ l ∈ [LinkState.isolated, .listenOnly],
    ∀ x ∈ [([Digit.star, .num 6, .num 3], Digit.num 1, Code.routinePage, 31, PageTarget.group 31),
        ([.hash, .star, .num 6, .num 9], .num 9, .overrideRoutine, 99, .all),
        ([.star, .num 7, .num 0], .num 0, .alarmPage, 0, .group 0), ([.hash, .star, .num 7, .num 9], .num 9, .overrideAlarm, 99, .all)],
      let s := linkAt l (runLine (diallingLine x.1))
      Ready s ∧ s.clc.link ≠ .running ∧ LastDigit 7 x.2.1 x.2.2.1 x.2.2.2.1 s ∧ pageTargetOf x.2.2.2.1 = some x.2.2.2.2 := by
  decide

end Sys2Proof.Tests
end

section
/-! Refused CALL-ARRIVALs (R48): the reason found by the checks in their order, and the refusal that answers it. -/

namespace Sys2Proof.Machine

/-! ### The target that a CALL-ARRIVAL names (check 3 of R48) -/

/-- The directory numbers of the lines are 100 + 16 x cabinet + line, and no two lines share one. -/
theorem directoryLine_eq_some_iff (number : Nat) (cab : Cabinet) (line : Line) :
    directoryLine number = some (cab, line) ↔ number = 100 + 16 * cab.val + line.val := by
  unfold directoryLine
  split
  · simp only [Option.some.injEq, Prod.mk.injEq, Fin.ext_iff]
    omega
  · simp only [reduceCtorEq, false_iff]
    omega

/-- A HUNT target is a group number that has an entry. -/
theorem arrivalTarget_hunt (s : State) (value : Word16) (t : CallTarget) :
    arrivalTarget s 1 value = some t ↔ KnownTarget s 1 value t := by
  simp only [arrivalTarget, BitVec.reduceToNat]
  cases t with
  | direct cab line =>
    simp [KnownTarget]
  | hunt g =>
    simp only [KnownTarget, true_and]
    split
    · next below =>
      constructor
      · intro h
        split at h
        · next entry =>
          cases h
          exact ⟨rfl, entry⟩
        · cases h
      · rintro ⟨same, entry⟩
        obtain rfl : (⟨value.toNat, below⟩ : HuntGroup) = g := Fin.ext same
        rw [if_pos entry]
    · next above =>
      simp only [reduceCtorEq, false_iff]
      exact fun ⟨same, _⟩ => above (same ▸ g.isLt)

/-- A DIRECT target is the directory number of a line. -/
theorem arrivalTarget_direct (s : State) (value : Word16) (t : CallTarget) :
    arrivalTarget s 2 value = some t ↔ KnownTarget s 2 value t := by
  simp only [arrivalTarget, BitVec.reduceToNat]
  cases t with
  | hunt g => simp [KnownTarget]
  | direct cab line =>
    simp only [KnownTarget, true_and, ← directoryLine_eq_some_iff]
    simp

/-- Check 3 of R48 passes the known targets, each as itself, and nothing else. -/
theorem arrivalTarget_eq_some_iff (s : State) (targetType : Byte) (value : Word16) (t : CallTarget) :
    arrivalTarget s targetType value = some t ↔ KnownTarget s targetType value t := by
  by_cases hunt : targetType = 1
  · subst hunt
    exact arrivalTarget_hunt s value t
  by_cases direct : targetType = 2
  · subst direct
    exact arrivalTarget_direct s value t
  have unnamed : arrivalTarget s targetType value = none := by
    unfold arrivalTarget
    split
    · next one => exact absurd (BitVec.eq_of_toNat_eq one) hunt
    · next two => exact absurd (BitVec.eq_of_toNat_eq two) direct
    · rfl
  simp only [unnamed, reduceCtorEq, false_iff]
  cases t with
  | hunt g => exact fun ⟨isHunt, _, _⟩ => hunt isHunt
  | direct cab line => exact fun ⟨isDirect, _⟩ => direct isDirect

/-- Check 3 of R48 fails where the CALL-ARRIVAL names no known target. -/
theorem arrivalTarget_eq_none {s : State} {targetType : Byte} {value : Word16}
    (unknown : ∀ t, ¬ KnownTarget s targetType value t) : arrivalTarget s targetType value = none :=
  Option.eq_none_iff_forall_ne_some.mpr fun t h => unknown t ((arrivalTarget_eq_some_iff ..).mp h)

/-! ### The checks of R48 in their order -/

section Checks

variable {s : State} {ref : Word16} {targetType : Byte} {value : Word16}

theorem checkArrival_notReady (link : s.clc.link ≠ .running) :
    checkArrival s ref targetType value = .inl .notReady := by
  simp [checkArrival, link]

theorem checkArrival_inUse (link : s.clc.link = .running) (used : ∃ o ∈ s.ofm.offers, o.ref = ref) :
    checkArrival s ref targetType value = .inl .inUse := by
  simp [checkArrival, link, used]

theorem checkArrival_unknownTarget (link : s.clc.link = .running) (unused : ¬ ∃ o ∈ s.ofm.offers, o.ref = ref)
    (unknown : ∀ t, ¬ KnownTarget s targetType value t) :
    checkArrival s ref targetType value = .inl .unknownTarget := by
  simp [checkArrival, link, unused, arrivalTarget_eq_none unknown]

theorem checkArrival_full (link : s.clc.link = .running) (unused : ¬ ∃ o ∈ s.ofm.offers, o.ref = ref)
    (known : ∃ t, KnownTarget s targetType value t) (full : offerCapacity ≤ s.ofm.offers.length) :
    checkArrival s ref targetType value = .inl .full := by
  obtain ⟨t, ht⟩ := known
  simp [checkArrival, link, unused, (arrivalTarget_eq_some_iff ..).mpr ht, full]

/-! ### The refusal -/

/-- A refusal with room in the output queue: the REFUSED record, and at FULL the condition (R48). -/
theorem refuseCall_room (reason : ArrivalRefusal) (room : s.spu.output.length < outputCapacity) :
    refuseCall ref reason s =
      if reason = .full then raise .offerTableFull ref.toNat .ofm (withSent [.refused ref .full] s)
      else withSent [.refused ref reason] s := by
  rw [refuseCall, shelfSend_room _ _ room]
  split
  · next full => rw [full]
  · rfl

/-- A CALL-ARRIVAL that fails a check answers the refusal with that check's reason, and no orders (R48). -/
theorem exec_callArrival_refused {reason : ArrivalRefusal} (ready : Ready s) (shelf : ShelfRoom 1 s)
    (failed : checkArrival s ref targetType value = .inl reason) :
    exec (.callArrival ref targetType value) s = .next (withOutputs []
      (if reason = .full then raise .offerTableFull ref.toNat .ofm (withSent [.refused ref .full] s)
       else withSent [.refused ref reason] s)) := by
  obtain ⟨released, idle⟩ := ready
  have room : (fresh s).spu.output.length < outputCapacity := shelf
  have failed' : checkArrival (fresh s) ref targetType value = .inl reason := failed
  refine exec_of_act (f := callArrival ref targetType value) rfl released ?_ ?_
  · rw [callArrival, failed']
    refine (refuseCall_room reason room).trans ?_
    split <;> rfl
  · split <;> exact idle

end Checks

/-- Settles O23: the check that fails first gives the reason, and the refusal follows from the reason alone. -/
theorem refusedArrivals : Obligations.RefusedArrivals := by
  intro ref targetType value s ready shelf
  refine ⟨?notReady, ?inUse, ?unknownTarget, ?full⟩
  case notReady => exact fun link => exec_callArrival_refused ready shelf (checkArrival_notReady link)
  case inUse => exact fun link used => exec_callArrival_refused ready shelf (checkArrival_inUse link used)
  case unknownTarget =>
    exact fun link unused unknown =>
      exec_callArrival_refused ready shelf (checkArrival_unknownTarget link unused unknown)
  case full =>
    exact fun link unused known full => exec_callArrival_refused ready shelf (checkArrival_full link unused known full)

end Sys2Proof.Machine
end

section
/-! The step lists of the chime patterns (R151 to R153): the strikes of a code chime as copies of one strike. -/

namespace Sys2Proof.Machine

/-- The strikes of a group are copies of the two steps of one strike (R153). -/
theorem strikes_eq_flatten_replicate (n : Nat) :
    strikes n = (List.replicate n [((some 3, 150) : StepSound × Nat), (none, 150)]).flatten := by
  induction n with
  | zero => rfl
  | succ n ih => simp only [strikes, ih, List.replicate_succ, List.flatten_cons, List.cons_append, List.nil_append]

/-- Settles O51: the fixed lists are the definition's own, and each digit group of a code chime is its strikes (R153). -/
theorem patternsFollowTheirStepLists : Obligations.PatternsFollowTheirStepLists := by
  refine ⟨rfl, rfl, rfl, rfl, ?code⟩
  case code =>
    intro o
    simp only [patternSteps, strikes_eq_flatten_replicate, strikeCount]

end Sys2Proof.Machine
end

section
/-! The arithmetic of the level (R162 to R164): what the filter can reach, how large the compensation can be, and the clamp of
the target. -/

namespace Sys2Proof.Machine

/-! ### The filter (R162) -/

/-- A quotient truncated toward zero has the dividend's sign and at most its magnitude. -/
theorem tdiv_between_zero_and_dividend (d : Int) {m : Int} (pos : 0 < m) :
    min 0 d ≤ d.tdiv m ∧ d.tdiv m ≤ max 0 d := by
  obtain up | down := Int.le_total 0 d
  · have nonneg : 0 ≤ d.tdiv m := Int.tdiv_nonneg up (Int.le_of_lt pos)
    have small : d.tdiv m ≤ d := Int.tdiv_le_self m up
    omega
  · have nonneg : 0 ≤ (-d).tdiv m := Int.tdiv_nonneg (by omega) (Int.le_of_lt pos)
    have small : (-d).tdiv m ≤ -d := Int.tdiv_le_self m (by omega)
    rw [Int.neg_tdiv] at nonneg small
    omega

/-- The filter's result, as an integer: A plus the quotient is never negative, so nothing is lost as it becomes a number. -/
theorem filterStep_cast (a used shift : Nat) :
    (filterStep a used shift : Int) = a + Int.tdiv (16 * used - a) (2 ^ shift) := by
  have between := tdiv_between_zero_and_dividend (16 * used - a) (m := 2 ^ shift) (Int.pow_pos (by decide))
  simp only [filterStep, Int.natCast_pow, Int.cast_ofNat_Int]
  omega

/-- A never passes beyond 16 times the used value. -/
theorem filterStep_le (a used shift : Nat) : filterStep a used shift ≤ max a (16 * used) := by
  have between := tdiv_between_zero_and_dividend (16 * used - a) (m := 2 ^ shift) (Int.pow_pos (by decide))
  have cast := filterStep_cast a used shift
  omega

/-! ### The compensation (R163) -/

/-- The magnitude of the compensation is at most 8 x 254 / 4. -/
theorem compensation_natAbs_le {p : LevelParams} {level : Nat} (slope : p.slope ≤ 8) (reference : p.refAmb ≤ 254)
    (range : level ≤ 254) : (compensation p level).natAbs ≤ 508 := by
  have distance : ((level : Int) - p.refAmb).natAbs ≤ 254 := by omega
  calc (compensation p level).natAbs
      = p.slope * ((level : Int) - p.refAmb).natAbs / 4 := by
        rw [compensation, Int.natAbs_tdiv, Int.natAbs_mul, Int.natAbs_natCast]; rfl
    _ ≤ 8 * 254 / 4 := Nat.div_le_div_right (Nat.mul_le_mul slope distance)

/-! ### The target (R164) -/

/-- Under an evacuation the target is the floor, whatever the ambient. -/
theorem targetOf_evac (p : LevelParams) (level : Nat) : targetOf p level (some .evac) = p.floor := by
  rw [targetOf, if_pos rfl]

/-- Under every other class the target is the raw target, 12 lower for an alarm, clamped to the zone's range. -/
theorem targetOf_cast_of_ne_evac (p : LevelParams) (level : Nat) {cls : Option PageClass} (other : cls ≠ some .evac) :
    (targetOf p level cls : Int) = max (p.floor : Int)
      (min p.ceiling (p.base - compensation p level - if cls = some .alarm then 12 else 0)) := by
  rw [targetOf, if_neg other, Int.toNat_of_nonneg (Int.le_trans (Int.natCast_nonneg p.floor) (Int.le_max_left _ _))]

/-- Settles O53: the filter stays between A and 16 times the used value, the compensation's magnitude is that of its
factors, and the level class decides the target as R164 gives. -/
theorem levelArithmetic : Obligations.LevelArithmetic := by
  refine ⟨?filter, ?ambient, ?target⟩
  case filter =>
    intro a used shift smoothed valid
    have reach := filterStep_le a used shift
    exact ⟨filterStep_cast a used shift, by omega⟩
  case ambient =>
    intro a smoothed
    refine ⟨rfl, ?_⟩
    rw [ambientLevel]
    omega
  case target =>
    intro p level ok range
    obtain ⟨-, reference, slope, -⟩ := ok
    have magnitude := compensation_natAbs_le slope reference range
    refine ⟨rfl, by omega, by omega, targetOf_evac p level, ?alarm, ?other⟩
    case alarm => exact targetOf_cast_of_ne_evac p level (by decide)
    case other =>
      intro cls notEvac notAlarm
      rw [targetOf_cast_of_ne_evac p level notEvac, if_neg notAlarm, Int.sub_zero]

end Sys2Proof.Machine
end

section
/-! Raises of conditions (R175), and the CONDITION_READ that reports and clears the set flag of highest priority (R176). -/

namespace Sys2Proof.Machine

/-! ### Clearing a flag (R176) -/

/-- A clear changes the flag of its condition alone, and keeps argument, origin and count. -/
theorem conditionEntry_clearCondition (c : Condition) (s : State) :
    conditionEntry (clearCondition c s) c = { conditionEntry s c with pending := false } := by
  simp [conditionEntry]

/-- A clear leaves the entries of the other conditions as they are. -/
theorem conditionEntry_clearCondition_ne {c d : Condition} (s : State) (h : d ≠ c) :
    conditionEntry (clearCondition c s) d = conditionEntry s d := by
  have : conditionPlace d ≠ conditionPlace c := fun e => h (conditionPlace_injective _ _ e)
  simp [conditionEntry, this]

/-- The flags set after a clear of `c` are those of the other conditions. -/
theorem pending_clearCondition (c d : Condition) (s : State) :
    (conditionEntry (clearCondition c s) d).pending = (!decide (d = c) && (conditionEntry s d).pending) := by
  by_cases same : d = c
  · subst same
    simp [conditionEntry_clearCondition]
  · simp [conditionEntry_clearCondition_ne s same, same]

/-- After a clear of `c`, the number of flags still set is the number of other flags that were set. -/
theorem pendingCount_clearCondition (c : Condition) (s : State) :
    pendingCount (clearCondition c s) =
      (conditionsByPriority.filter fun d => !decide (d = c) && (conditionEntry s d).pending).length := by
  simp only [pendingCount_eq, pending_clearCondition]

/-- With no flag set there is no highest one. -/
theorem highestPending_eq_none {s : State} (clear : ∀ c, (conditionEntry s c).pending = false) :
    highestPending s = none :=
  List.find?_eq_none.mpr fun c _ => by simp [clear c]

/-! ### The answer to a CONDITION-READ (R176) -/

/-- With a flag set and room in the output queue, the answer reports the highest one and how many others are set. -/
theorem readCondition_highest {s : State} {c : Condition} (room : s.spu.output.length < outputCapacity)
    (highest : highestPending s = some c) :
    readCondition s = withSent
      [.condition ⟨some c, (conditionEntry s c).argument, (conditionEntry s c).origin, (conditionEntry s c).count,
        (conditionsByPriority.filter fun d => !decide (d = c) && (conditionEntry s d).pending).length⟩]
      (clearCondition c s) := by
  have room' : (clearCondition c s).spu.output.length < outputCapacity := room
  simp only [readCondition, room, if_true, answerRead, highest, shelfSend_room _ _ room', pendingCount_clearCondition]

/-- With no flag set and room in the output queue, the answer is NONE. -/
theorem readCondition_none {s : State} (room : s.spu.output.length < outputCapacity)
    (highest : highestPending s = none) : readCondition s = withSent [.condition noneReport] s := by
  simp only [readCondition, room, if_true, answerRead, highest, shelfSend_room _ _ room]

/-- With a full output queue there is no answer but the fault OUTPUT-OVERFLOW of a CONDITION record (R170, R171). -/
theorem readCondition_full {s : State} (full : s.spu.output.length = outputCapacity) :
    readCondition s = raise .shelfRecordFault (256 * 5 + 0x89) .spu s := by
  rw [readCondition, if_neg (by omega)]
  rfl

/-- CONDITION_READ answers what the read makes of the state with no orders sent, since it queues no notice. -/
theorem exec_conditionRead_eq {s t : State} (ready : Ready s) (key : readCondition (fresh s) = t)
    (quiet : t.deliveries = s.deliveries) : exec .conditionRead s = .next t :=
  exec_of_act (f := readCondition) rfl ready.1 key (quiet.trans ready.2)

/-! ### The obligation -/

/-- A raise gives its entry the argument and origin of the raise and the count of R175, and changes nothing else. -/
theorem raisesAreKeptInTheConditionSet : Clause.RaisesAreKeptInTheConditionSet := by
  intro c argument origin s
  refine ⟨?raised, fun d other => conditionEntry_raise_ne argument origin s other, rfl⟩
  rw [conditionEntry_raise]
  refine ⟨rfl, rfl, rfl, ?clear, ?rises, ?saturates⟩
  case clear =>
    intro clear
    simp only [raiseEntry, clear, Bool.false_eq_true, if_false]
  case rises =>
    intro set below
    simp only [raiseEntry, set, if_true]
    omega
  case saturates =>
    intro set top
    simp only [raiseEntry, set, if_true]
    omega

/-- The three answers of R176: the highest set flag, NONE, and none at all to a full output queue. -/
theorem conditionReadReportsTheHighestFlag : Clause.ConditionReadReportsTheHighestFlag := by
  intro s ready
  refine ⟨fun room => ⟨?highest, ?none⟩, ?full⟩
  case highest =>
    intro c set higher
    exact exec_conditionRead_eq ready
      (readCondition_highest (s := fresh s) room (highestPending_eq (fresh s) c set higher)) rfl
  case none =>
    intro clear
    exact exec_conditionRead_eq ready
      (readCondition_none (s := fresh s) room (highestPending_eq_none (s := fresh s) clear)) rfl
  case full =>
    intro full
    exact exec_conditionRead_eq ready (readCondition_full (s := fresh s) full) rfl

/-- Settles O54: a raise by the entry it writes, a CONDITION_READ by the flag that it finds highest. -/
theorem conditionsAreRaisedAndRead : Obligations.ConditionsAreRaisedAndRead :=
  ⟨raisesAreKeptInTheConditionSet, conditionReadReportsTheHighestFlag⟩

end Sys2Proof.Machine
end

section
/-! What every step keeps, part 1: the relation between a state and a later one that every invariant carries over, and the
updates of one block that keep it. -/

namespace Sys2Proof.Machine

/-! ### The invariants, block by block -/

/-- A zone's pending list and evacuation set are within their sizes (R125, R127, R139). -/
def ZoneFits (r : ZoneRec) : Prop :=
  r.pending.length ≤ pendingCapacity ∧ r.evac.length ≤ 16 ∧ (r.evac.map (·.cab)).Nodup

/-- A record's ringing set is within its size and holds no line twice (R45, R59). -/
def RingingFits (o : Offer) : Prop :=
  o.ringing.length ≤ ringingCapacity ∧ (o.ringing.map fun m => (m.cab, m.line)).Nodup

/-- An offer table is within its size, and so is each of its ringing sets. -/
def OfferTableFits (l : List Offer) : Prop := l.length ≤ offerCapacity ∧ ∀ o ∈ l, RingingFits o

/-- A page's report list is within its size and holds no zone twice (R106, R119). -/
def ReportsFit (r : PageRec) : Prop := r.reports.length ≤ reportCapacity ∧ (r.reports.map (·.1)).Nodup

/-- A page has a line or an orbit as its source (R106). -/
def sharedOrigin : PageOrigin → Bool
  | .line _ | .orbit _ => true
  | .input _ => false

@[simp] theorem sharedOrigin_line (l : Line) : sharedOrigin (.line l) = true := rfl
@[simp] theorem sharedOrigin_orbit (o : OrbitNumber) : sharedOrigin (.orbit o) = true := rfl
@[simp] theorem sharedOrigin_input (i : ContactInput) : sharedOrigin (.input i) = false := rfl

/-- The counts of a page table by source (R106). -/
structure PageCountsFit (l : List PageRec) : Prop where
  shared : (l.filter fun r => sharedOrigin r.origin).length ≤ sharedPlaces
  input : ∀ i, (l.filter fun r => decide (r.origin = .input i)).length ≤ 1

/-- A page table is within its sizes, and so is each of its report lists. -/
def PageTableFits (l : List PageRec) : Prop := PageCountsFit l ∧ ∀ r ∈ l, ReportsFit r

/-- A transmit queue, with what the part drives, holds at most one attempt (R2, R5, R9). -/
def AttemptOf (q : List TxEntry) (driving : List Bool) : Prop :=
  (q.filter (·.inAttempt)).length ≤ 1
    ∧ (∀ e ∈ q, e.failed < failureLimit ∧ (e.inAttempt = false → e.request = none))
    ∧ (driving = [] ↔ q.filter (·.inAttempt) = [])

theorem sharedCount_eq (s : State) :
    sharedCount s = (s.pgo.pages.filter fun r => sharedOrigin r.origin).length := by
  rw [sharedCount]
  congr 2

/-- The length of a page table is the sum of its records by source. -/
theorem pages_length (l : List PageRec) : l.length = (l.filter fun r => sharedOrigin r.origin).length
    + ((l.filter fun r => decide (r.origin = .input .alarm)).length
      + (l.filter fun r => decide (r.origin = .input .evac)).length) := by
  induction l with
  | nil => rfl
  | cons r rest ih =>
    simp only [List.length_cons, List.filter_cons]
    cases h : r.origin with
    | line l => simp; omega
    | orbit o => simp; omega
    | input i => cases i <;> simp <;> omega

theorem offersFit_iff (s : State) : OffersFit s ↔ OfferTableFits s.ofm.offers := Iff.rfl

theorem zonesFit_iff (s : State) : ZonesFit s ↔ ∀ z, ZoneFits (zoneOf s z) := Iff.rfl

theorem oneAttempt_iff (s : State) : OneAttempt s ↔ AttemptOf s.clc.queue s.clc.driving := Iff.rfl

/-- The records by source bound the whole table, so the counts say all that R106 says of it. -/
theorem pagesFit_iff (s : State) : PagesFit s ↔ PageTableFits s.pgo.pages := by
  have total := pages_length s.pgo.pages
  have shared := sharedCount_eq s
  constructor
  · rintro ⟨-, few, input, reports⟩
    exact ⟨⟨shared ▸ few, input⟩, reports⟩
  · rintro ⟨⟨few, input⟩, reports⟩
    have alarm := input .alarm
    have evac := input .evac
    have places : sharedPlaces = 6 := rfl
    exact ⟨by omega, shared.symm ▸ few, input, reports⟩

/-! ### The relation -/

/-- Each invariant that `s` meets, `t` meets too. -/
structure Keeps (s t : State) : Prop where
  queues : QueuesFit s → QueuesFit t
  offers : OffersFit s → OffersFit t
  pages : PagesFit s → PagesFit t
  zones : ZonesFit s → ZonesFit t
  attempt : OneAttempt s → OneAttempt t
  levels : LevelsInRange s → LevelsInRange t

variable {s₀ s t : State}

@[simp] theorem Keeps.refl (s : State) : Keeps s s := ⟨id, id, id, id, id, id⟩

theorem Keeps.trans (h : Keeps s₀ s) (k : Keeps s t) : Keeps s₀ t :=
  ⟨k.queues ∘ h.queues, k.offers ∘ h.offers, k.pages ∘ h.pages, k.zones ∘ h.zones, k.attempt ∘ h.attempt,
    k.levels ∘ h.levels⟩

/-! ### Updates that no invariant reads -/

@[simp] theorem keeps_onPins (h : Keeps s₀ s) (f : Pins → Pins) : Keeps s₀ (onPins f s) :=
  ⟨h.queues, h.offers, h.pages, h.zones, h.attempt, h.levels⟩

@[simp] theorem keeps_setPhase (h : Keeps s₀ s) (p : Phase) : Keeps s₀ (setPhase p s) :=
  ⟨h.queues, h.offers, h.pages, h.zones, h.attempt, h.levels⟩

@[simp] theorem keeps_setDeliveries (h : Keeps s₀ s) (d : List Notice) : Keeps s₀ (setDeliveries d s) :=
  ⟨h.queues, h.offers, h.pages, h.zones, h.attempt, h.levels⟩

@[simp] theorem keeps_emit (h : Keeps s₀ s) (o : Output) : Keeps s₀ (emit o s) :=
  ⟨h.queues, h.offers, h.pages, h.zones, h.attempt, h.levels⟩

@[simp] theorem keeps_raise (h : Keeps s₀ s) (c : Condition) (a : Nat) (o : Block) : Keeps s₀ (raise c a o s) :=
  ⟨h.queues, h.offers, h.pages, h.zones, h.attempt, h.levels⟩

@[simp] theorem keeps_clearCondition (h : Keeps s₀ s) (c : Condition) : Keeps s₀ (clearCondition c s) :=
  ⟨h.queues, h.offers, h.pages, h.zones, h.attempt, h.levels⟩

@[simp] theorem keeps_onLine (h : Keeps s₀ s) (l : Line) (f : LineRec → LineRec) : Keeps s₀ (onLine l f s) :=
  ⟨h.queues, h.offers, h.pages, h.zones, h.attempt, h.levels⟩

@[simp] theorem keeps_onSequencer (h : Keeps s₀ s) (z : LocalZone) (f : Sequencer → Sequencer) : Keeps s₀ (onSequencer z f s) :=
  ⟨h.queues, h.offers, h.pages, h.zones, h.attempt, h.levels⟩

@[simp] theorem keeps_takeChoice (h : Keeps s₀ s) : Keeps s₀ (takeChoice s) :=
  ⟨h.queues, h.offers, h.pages, h.zones, h.attempt, h.levels⟩

@[simp] theorem keeps_fresh (h : Keeps s₀ s) : Keeps s₀ (fresh s) :=
  ⟨h.queues, h.offers, h.pages, h.zones, h.attempt, h.levels⟩

/-! ### Updates of one block -/

/-- The link, the peers, the address: what the CLC holds beside the queue, the frame driven and the drop run. -/
theorem keeps_onClc (h : Keeps s₀ s) {f : Clc → Clc} (queue : (f s.clc).queue = s.clc.queue)
    (driving : (f s.clc).driving = s.clc.driving) (drops : (f s.clc).dropRun = s.clc.dropRun) :
    Keeps s₀ (onClc f s) where
  queues k := by
    obtain ⟨short, few, rest⟩ := h.queues k
    exact ⟨queue ▸ short, drops ▸ few, rest⟩
  offers := h.offers
  pages := h.pages
  zones := h.zones
  attempt k := by
    rw [oneAttempt_iff, onClc_clc, queue, driving]
    exact h.attempt k
  levels := h.levels

/-- The drop run counts as far as its limit (R11). -/
theorem keeps_dropRun (h : Keeps s₀ s) {n : Nat} (few : n ≤ dropLimit) :
    Keeps s₀ (onClc (fun c => { c with dropRun := n }) s) where
  queues k := by
    obtain ⟨short, -, rest⟩ := h.queues k
    exact ⟨short, few, rest⟩
  offers := h.offers
  pages := h.pages
  zones := h.zones
  attempt := h.attempt
  levels := h.levels

/-- A change of the queue and of the frame driven. -/
theorem keeps_queue (h : Keeps s₀ s) {q : List TxEntry} {d : List Bool}
    (short : s.clc.queue.length ≤ txCapacity → q.length ≤ txCapacity)
    (attempt : AttemptOf s.clc.queue s.clc.driving → AttemptOf q d) :
    Keeps s₀ (onClc (fun c => { c with queue := q, driving := d }) s) where
  queues k := by
    obtain ⟨fits, rest⟩ := h.queues k
    exact ⟨short fits, rest⟩
  offers := h.offers
  pages := h.pages
  zones := h.zones
  attempt k := attempt (h.attempt k)
  levels := h.levels

theorem keeps_onHe (h : Keeps s₀ s) {f : He → He}
    (heard : s.he.heard.length ≤ heardCapacity → (f s.he).heard.length ≤ heardCapacity) : Keeps s₀ (onHe f s) where
  queues k := by
    obtain ⟨queue, drops, fits, rest⟩ := h.queues k
    exact ⟨queue, drops, heard fits, rest⟩
  offers := h.offers
  pages := h.pages
  zones := h.zones
  attempt := h.attempt
  levels := h.levels

theorem keeps_onPpu (h : Keeps s₀ s) {f : Ppu → Ppu}
    (view : s.ppu.view.length ≤ viewCapacity → (f s.ppu).view.length ≤ viewCapacity) : Keeps s₀ (onPpu f s) where
  queues k := by
    obtain ⟨queue, drops, heard, fits, output⟩ := h.queues k
    exact ⟨queue, drops, heard, view fits, output⟩
  offers := h.offers
  pages := h.pages
  zones := h.zones
  attempt := h.attempt
  levels := h.levels

theorem keeps_onSpu (h : Keeps s₀ s) {f : Spu → Spu}
    (output : s.spu.output.length ≤ outputCapacity → (f s.spu).output.length ≤ outputCapacity) :
    Keeps s₀ (onSpu f s) where
  queues k := by
    obtain ⟨queue, drops, heard, view, fits⟩ := h.queues k
    exact ⟨queue, drops, heard, view, output fits⟩
  offers := h.offers
  pages := h.pages
  zones := h.zones
  attempt := h.attempt
  levels := h.levels

theorem keeps_onOfm (h : Keeps s₀ s) {f : Ofm → Ofm}
    (offers : OfferTableFits s.ofm.offers → OfferTableFits (f s.ofm).offers) : Keeps s₀ (onOfm f s) where
  queues := h.queues
  offers k := offers (h.offers k)
  pages := h.pages
  zones := h.zones
  attempt := h.attempt
  levels := h.levels

theorem keeps_onPgo (h : Keeps s₀ s) {f : Pgo → Pgo}
    (pages : PageTableFits s.pgo.pages → PageTableFits (f s.pgo).pages) : Keeps s₀ (onPgo f s) where
  queues := h.queues
  offers := h.offers
  pages k := (pagesFit_iff _).mpr (pages ((pagesFit_iff _).mp (h.pages k)))
  zones := h.zones
  attempt := h.attempt
  levels := h.levels

/-- A zone's record changes, but for its level parameters. -/
theorem keeps_onZone (h : Keeps s₀ s) {z : LocalZone} {f : ZoneRec → ZoneRec}
    (params : (f (zoneOf s z)).cfg.level = (zoneOf s z).cfg.level)
    (fits : ZoneFits (zoneOf s z) → ZoneFits (f (zoneOf s z))) : Keeps s₀ (onZone z f s) where
  queues := h.queues
  offers := h.offers
  pages := h.pages
  zones k y := by
    have old := h.zones k
    by_cases same : y = z
    · subst same
      rw [zoneOf_onZone_self]
      exact fits (old y)
    · rw [zoneOf_onZone_ne f s same]
      exact old y
  attempt := h.attempt
  levels k y := by
    have old := h.levels k y
    by_cases same : y = z
    · subst same
      rw [zoneOf_onZone_self, params]
      exact old
    · rw [zoneOf_onZone_ne f s same]
      exact old

/-- A zone's level state changes within the ranges that the zone's parameters give. -/
theorem keeps_onLevel (h : Keeps s₀ s) {z : LocalZone} {f : Level → Level}
    (range : LevelParamsOk (zoneOf s z).cfg.level → LevelOk (zoneOf s z).cfg.level (levelOf s z) →
      LevelOk (zoneOf s z).cfg.level (f (levelOf s z))) : Keeps s₀ (onLevel z f s) where
  queues := h.queues
  offers := h.offers
  pages := h.pages
  zones := h.zones
  attempt := h.attempt
  levels k y := by
    have old := h.levels k y
    refine ⟨old.1, ?_⟩
    simp only [levelOf, onLevel_lvu, zoneOf_onLevel, Table.get_modify]
    split
    · next same =>
      subst same
      exact range old.1 old.2
    · exact old.2

/-! ### Runs -/

/-- What each run of `f` keeps, a run over a list keeps. -/
theorem keeps_forEach {α : Type} {l : List α} {f : α → State → State} (h : Keeps s₀ s)
    (step : ∀ a t, Keeps s₀ t → Keeps s₀ (f a t)) : Keeps s₀ (forEach l f s) :=
  forEach_keeps (Keeps s₀) l f (fun a _ t => step a t) s h

/-- What `f` keeps for every code, it keeps for the code of a field. -/
theorem keeps_withCode {α : Type} {o : Option α} {f : α → State → State} (h : Keeps s₀ s)
    (step : ∀ a, Keeps s₀ (f a s)) : Keeps s₀ (withCode o f s) := by
  cases o with
  | none => exact h
  | some a => exact step a

/-! ### The transmit queue (R7 to R9) -/

/-- As many entries are in an attempt as before, and no entry breaks the rules for one. -/
theorem AttemptOf.of_length {q q' : List TxEntry} {d : List Bool} (h : AttemptOf q d)
    (same : (q'.filter (·.inAttempt)).length = (q.filter (·.inAttempt)).length)
    (entries : ∀ e ∈ q', e.failed < failureLimit ∧ (e.inAttempt = false → e.request = none)) : AttemptOf q' d := by
  obtain ⟨one, -, drives⟩ := h
  refine ⟨same ▸ one, entries, drives.trans ?_⟩
  rw [← List.length_eq_zero_iff, ← same, List.length_eq_zero_iff]

/-- A queue with no entry in an attempt, and the bus left. -/
theorem attemptOf_quiet {q : List TxEntry}
    (entries : ∀ e ∈ q, e.inAttempt = false ∧ e.failed < failureLimit ∧ e.request = none) : AttemptOf q [] := by
  have none : q.filter (·.inAttempt) = [] := by
    rw [List.filter_eq_nil_iff]
    intro e he
    simp [(entries e he).1]
  refine ⟨by simp [none], fun e he => ?_, by simp [none]⟩
  obtain ⟨-, few, request⟩ := entries e he
  exact ⟨few, fun _ => request⟩

theorem attemptOf_newEntry {q : List TxEntry} {d : List Bool} (h : AttemptOf q d) (src : Cabinet) (n : Notice) :
    AttemptOf (q ++ [newEntry src n]) d := by
  refine h.of_length (by simp [newEntry]) fun e he => ?_
  rcases List.mem_append.mp he with he | he
  · exact h.2.1 e he
  · rw [List.mem_singleton.mp he]
    exact ⟨by simp [newEntry, failureLimit], fun _ => rfl⟩

/-- What leaves a full queue for room stands outside the attempt, and the rest keeps its order (R8). -/
theorem takeLast_split {f : Nat} {q : List TxEntry} {v : TxEntry} {kept : List TxEntry}
    (h : takeLast f q = some (v, kept)) :
    ∃ before after, q = before ++ v :: after ∧ kept = before ++ after ∧ v.inAttempt = false := by
  induction q generalizing kept with
  | nil => simp [takeLast] at h
  | cons e rest ih =>
    unfold takeLast at h
    split at h
    · next v' kept' found =>
      simp only [Option.some.injEq, Prod.mk.injEq] at h
      obtain ⟨rfl, rfl⟩ := h
      obtain ⟨before, after, rfl, rfl, out⟩ := ih found
      exact ⟨e :: before, after, rfl, rfl, out⟩
    · split at h
      · next out =>
        simp only [Option.some.injEq, Prod.mk.injEq] at h
        obtain ⟨rfl, rfl⟩ := h
        simp only [Bool.and_eq_true, Bool.not_eq_true'] at out
        exact ⟨[], rest, rfl, rfl, out.1⟩
      · simp at h

theorem mem_around {α : Type} {before after : List α} {x : α} (v : α) (here : x ∈ before ++ after) :
    x ∈ before ++ v :: after := ((List.sublist_cons_self v after).append_left before).subset here

/-- A queue without an entry outside the attempt. -/
theorem AttemptOf.without {before after : List TxEntry} {v : TxEntry} {d : List Bool}
    (h : AttemptOf (before ++ v :: after) d) (out : v.inAttempt = false) : AttemptOf (before ++ after) d := by
  exact h.of_length (by simp [out]) fun e he => h.2.1 e (mem_around v he)

@[simp] theorem keeps_deliverLater (h : Keeps s₀ s) (n : Notice) : Keeps s₀ (deliverLater n s) := by
  unfold deliverLater
  split
  · exact h
  · exact keeps_setDeliveries h _

@[simp] theorem keeps_joinQueue (h : Keeps s₀ s) (n : Notice) : Keeps s₀ (joinQueue n s) := by
  unfold joinQueue
  split
  · exact h
  simp only []
  split
  · next room =>
    exact keeps_queue (d := s.clc.driving) h (fun _ => by simp; omega) (attemptOf_newEntry · _ _)
  · split
    · next v kept taken =>
      obtain ⟨before, after, whole, rfl, out⟩ := takeLast_split taken
      refine keeps_deliverLater (keeps_queue (d := s.clc.driving) h (fun short => ?_) fun ok => ?_) _
      · have := congrArg List.length whole
        simp only [List.length_append, List.length_cons, List.length_nil] at this ⊢
        omega
      · exact (whole ▸ attemptOf_newEntry ok (own s) n).without out
    · exact h

@[simp] theorem keeps_queueNotice (h : Keeps s₀ s) (n : Notice) : Keeps s₀ (queueNotice n s) := by
  unfold queueNotice
  split
  · exact h
  · exact h
  · exact keeps_deliverLater h n
  · split
    · exact keeps_joinQueue h n
    · exact keeps_deliverLater h n
  · exact keeps_joinQueue h n
  · exact keeps_joinQueue h n

theorem withdrawFrom_attempts (p : Notice → Bool) (q : List TxEntry) :
    ((withdrawFrom p q).filter (·.inAttempt)).length = (q.filter (·.inAttempt)).length := by
  induction q with
  | nil => rfl
  | cons e rest ih =>
    unfold withdrawFrom at ih ⊢
    rw [List.filterMap_cons, List.filter_cons]
    cases picked : p e.notice <;> cases inAttempt : e.inAttempt <;> simp [inAttempt, ih]

theorem withdrawFrom_entries {p : Notice → Bool} {q : List TxEntry}
    (h : ∀ e ∈ q, e.failed < failureLimit ∧ (e.inAttempt = false → e.request = none)) :
    ∀ e ∈ withdrawFrom p q, e.failed < failureLimit ∧ (e.inAttempt = false → e.request = none) := by
  intro e he
  obtain ⟨x, hx, found⟩ := List.mem_filterMap.mp he
  split at found
  · split at found
    · next inAttempt =>
      obtain rfl := Option.some.inj found
      exact ⟨(h x hx).1, fun out => by simp [inAttempt] at out⟩
    · cases found
  · obtain rfl := Option.some.inj found
    exact h x hx

@[simp] theorem keeps_withdraw (h : Keeps s₀ s) (p : Notice → Bool) : Keeps s₀ (withdraw p s) :=
  keeps_queue (d := s.clc.driving) h (fun short => Nat.le_trans (withdrawFrom_length ..) short) fun ok =>
    ok.of_length (withdrawFrom_attempts p _) (withdrawFrom_entries ok.2.1)

@[simp] theorem keeps_replaceNotice (h : Keeps s₀ s) (p : Notice → Bool) (n : Notice) :
    Keeps s₀ (replaceNotice p n s) := by
  refine keeps_queue (d := s.clc.driving) h (fun short => by simpa [replaceIn] using short) fun ok => ?_
  refine ok.of_length ?_ fun e he => ?_
  · rw [replaceIn, List.filter_map, List.length_map]
    congr 2
    funext e
    simp only [Function.comp]
    split
    · split <;> rfl
    · rfl
  · obtain ⟨x, hx, rfl⟩ := List.mem_map.mp he
    split
    · split
      · next inAttempt => exact ⟨(ok.2.1 x hx).1, fun out => by simp [inAttempt] at out⟩
      · exact ok.2.1 x hx
    · exact ok.2.1 x hx

/-! ### The ends of an attempt (R3, R5, R9) -/

theorem settleQueue_entries {q : List TxEntry}
    (h : ∀ e ∈ q, e.failed < failureLimit ∧ (e.inAttempt = false → e.request = none)) :
    ∀ e ∈ settleQueue q, e.inAttempt = false ∧ e.failed < failureLimit ∧ e.request = none := by
  intro e he
  obtain ⟨x, hx, found⟩ := List.mem_filterMap.mp he
  obtain ⟨few, request⟩ := h x hx
  split at found
  · unfold settleEntry at found
    split at found
    · cases found
    · obtain rfl := Option.some.inj found
      exact ⟨rfl, few, rfl⟩
    · next none =>
      obtain rfl := Option.some.inj found
      exact ⟨rfl, few, none⟩
  · next out =>
    obtain rfl := Option.some.inj found
    have out := Bool.eq_false_iff.mpr out
    exact ⟨out, few, request out⟩

theorem settleQueue_length (q : List TxEntry) : (settleQueue q).length ≤ q.length := List.length_filterMap_le ..

/-- A lost attempt ends (R3, R9). -/
theorem keeps_settle (h : Keeps s₀ s) : Keeps s₀ (endAttempt settleQueue s) :=
  keeps_queue h (fun short => Nat.le_trans (settleQueue_length _) short) fun ok =>
    attemptOf_quiet (settleQueue_entries ok.2.1)

theorem keeps_dropAttempt (h : Keeps s₀ s) : Keeps s₀ (endAttempt dropAttempt s) := by
  refine keeps_queue h (fun short => Nat.le_trans (List.length_filter_le ..) short) fun ok => ?_
  refine attemptOf_quiet fun e he => ?_
  obtain ⟨member, out⟩ := List.mem_filter.mp he
  obtain ⟨few, request⟩ := ok.2.1 e member
  have out : e.inAttempt = false := by simpa using out
  exact ⟨out, few, request out⟩

/-- With one attempt at a time, the entry in an attempt is the one found. -/
theorem attemptEntry_unique {e x : TxEntry} (one : (attempts s).length ≤ 1) (found : attemptEntry s = some e)
    (hx : x ∈ s.clc.queue) (inAttempt : x.inAttempt = true) : x = e := by
  have he : e ∈ attempts s := List.mem_filter.mpr ⟨List.mem_of_find?_eq_some found, List.find?_some found⟩
  have hx : x ∈ attempts s := List.mem_filter.mpr ⟨hx, inAttempt⟩
  obtain ⟨a, whole⟩ | empty := (Nat.le_one_iff_eq_zero_or_eq_one.mp one).symm.imp List.length_eq_one_iff.mp
    List.length_eq_zero_iff.mp
  · rw [whole, List.mem_singleton] at he hx
    rw [he, hx]
  · rw [empty] at he
    cases he

/-- A failed attempt that is not the fourth ends (R5, R9). -/
theorem keeps_countFailure {e : TxEntry} (h : Keeps s₀ s) (found : attemptEntry s = some e)
    (few : e.failed + 1 < failureLimit) : Keeps s₀ (endAttempt (fun q => settleQueue (countFailure q)) s) := by
  refine keeps_queue h (fun short => Nat.le_trans (settleQueue_length _) ?_) fun ok => ?_
  · rw [countFailure, List.length_map]
    exact short
  · refine attemptOf_quiet (settleQueue_entries fun x hx => ?_)
    obtain ⟨y, hy, rfl⟩ := List.mem_map.mp hx
    split
    · next inAttempt =>
      have same := attemptEntry_unique ok.1 found hy inAttempt
      subst same
      exact ⟨few, fun out => by simp [inAttempt] at out⟩
    · exact ok.2.1 y hy

/-! ### The start of an attempt (R2, R7) -/

theorem markFirst_length (m : Nat) (f : Notice → Notice) (q : List TxEntry) :
    (markFirst m f q).length = q.length := by
  induction q with
  | nil => rfl
  | cons e rest ih =>
    unfold markFirst
    split
    · rfl
    · simp [ih]

/-- Where some entry has the field and none is in an attempt, the first with that field is, and it alone. -/
theorem markFirst_attempts {m : Nat} {q : List TxEntry} (f : Notice → Notice) (quiet : ∀ e ∈ q, e.inAttempt = false)
    (some : ∃ e ∈ q, e.field = m) : ((markFirst m f q).filter (·.inAttempt)).length = 1 := by
  induction q with
  | nil => simp at some
  | cons e rest ih =>
    obtain ⟨out, quiet⟩ := List.forall_mem_cons.mp quiet
    unfold markFirst
    split
    · have none : rest.filter (·.inAttempt) = [] := by
        rw [List.filter_eq_nil_iff]
        intro x hx
        simp [quiet x hx]
      simp [none]
    · next other =>
      obtain ⟨x, hx, field⟩ := some
      have later : ∃ x ∈ rest, x.field = m := by
        rcases List.mem_cons.mp hx with rfl | hx
        · exact absurd field other
        · exact ⟨x, hx, field⟩
      simp [out, ih quiet later]

theorem markFirst_entries {m : Nat} {f : Notice → Notice} {q : List TxEntry}
    (h : ∀ e ∈ q, e.failed < failureLimit ∧ (e.inAttempt = false → e.request = none)) :
    ∀ e ∈ markFirst m f q, e.failed < failureLimit ∧ (e.inAttempt = false → e.request = none) := by
  induction q with
  | nil => exact h
  | cons x rest ih =>
    obtain ⟨first, later⟩ := List.forall_mem_cons.mp h
    unfold markFirst
    split
    · exact List.forall_mem_cons.mpr ⟨⟨first.1, fun out => by simp at out⟩, later⟩
    · exact List.forall_mem_cons.mpr ⟨first, ih later⟩

theorem frameBits_ne_nil (src : Cabinet) (n : Notice) : frameBits src n ≠ [] := by
  simp [frameBits]

@[simp] theorem keeps_startAttempt (h : Keeps s₀ s) : Keeps s₀ (startAttempt s) := by
  unfold startAttempt
  split
  · next starts =>
    simp only [Bool.and_eq_true, Option.isNone_iff_eq_none] at starts
    have quiet : ∀ e ∈ s.clc.queue, e.inAttempt = false := by
      simpa [attemptEntry] using starts.2
    obtain ⟨none, -⟩ | ⟨m, lowest, -, holder⟩ := lowestField_least s.clc.queue
    · simpa [none] using h
    simp only [lowest]
    have one := markFirst_attempts (assembled s) quiet holder
    refine keeps_queue h (fun short => Nat.le_trans (Nat.le_of_eq (markFirst_length ..)) short) fun ok => ?_
    refine ⟨Nat.le_of_eq one, markFirst_entries ok.2.1, iff_of_false ?_ ?_⟩
    · obtain ⟨e, whole⟩ := List.length_eq_one_iff.mp one
      have found : attemptEntry (onClc (fun c => { c with queue := markFirst m (assembled s) c.queue }) s) = some e := by
        rw [attemptEntry, onClc_clc, ← List.head?_filter, whole]
        rfl
      rw [drivenBits, found]
      exact frameBits_ne_nil _ _
    · intro empty
      exact Nat.one_ne_zero (one.symm.trans (congrArg List.length empty))
  · exact h

/-- The queue is flushed, and the bus left (R15). -/
theorem keeps_emptyQueue (h : Keeps s₀ s) : Keeps s₀ (onClc (fun c => { c with queue := [], driving := [] }) s) :=
  keeps_queue h (fun _ => Nat.zero_le _) fun _ => attemptOf_quiet (by simp)

/-! ### The shelf, the ring view and the heard-offer list (R70, R90, R171) -/

@[simp] theorem keeps_shelfSend (h : Keeps s₀ s) (r : OutRecord) : Keeps s₀ (shelfSend r s) := by
  unfold shelfSend
  split
  · next room => exact keeps_onSpu h fun _ => by simp; omega
  · exact keeps_raise h ..

@[simp] theorem keeps_viewEnter (h : Keeps s₀ s) (call : CallId) (cab : Cabinet) (line : Line)
    (pickup : Option PickupGroup) : Keeps s₀ (viewEnter call cab line pickup s) := by
  unfold viewEnter
  split
  · exact h
  split
  · next room => exact keeps_onPpu h fun _ => by simp; omega
  · exact keeps_raise h ..

@[simp] theorem keeps_viewRemove (h : Keeps s₀ s) (p : ViewEntry → Bool) : Keeps s₀ (viewRemove p s) :=
  keeps_onPpu h fun short => Nat.le_trans (List.length_filter_le ..) short

@[simp] theorem keeps_viewRemoveLine (h : Keeps s₀ s) (call : CallId) (cab : Cabinet) (line : Line) :
    Keeps s₀ (viewRemoveLine call cab line s) := keeps_viewRemove h _

@[simp] theorem keeps_viewRemoveCall (h : Keeps s₀ s) (call : CallId) : Keeps s₀ (viewRemoveCall call s) :=
  keeps_viewRemove h _

@[simp] theorem keeps_viewMark (h : Keeps s₀ s) (call : CallId) : Keeps s₀ (viewMark call s) :=
  keeps_onPpu h fun short => Nat.le_trans (Nat.le_of_eq (List.length_map ..)) short

@[simp] theorem keeps_forgetOffer (h : Keeps s₀ s) (c : CallId) : Keeps s₀ (forgetOffer c s) :=
  keeps_onHe h fun short => Nat.le_trans (List.length_filter_le ..) short

@[simp] theorem keeps_hearOffer (h : Keeps s₀ s) (c : CallId) (g : HuntGroup) : Keeps s₀ (hearOffer c g s) := by
  refine keeps_onHe h fun short => ?_
  have others := Nat.le_trans (List.length_filter_le (fun e => !decide (e.call = c)) s.he.heard) short
  simp only []
  split
  · simp only [List.length_append, List.length_singleton]
    omega
  · simp only [List.length_append, List.length_singleton, List.length_drop]
    have positive : 0 < heardCapacity := by decide
    omega

end Sys2Proof.Machine
end

section
/-! What every step keeps, part 2: the operations of lines, pages, calls and the member side. -/

namespace Sys2Proof.Machine

variable {s₀ s t : State}

/-! ### Lines (chapter 2) -/

@[simp] theorem keeps_orderRing (h : Keeps s₀ s) (l : Line) (on : Bool) : Keeps s₀ (orderRing l on s) := by
  simp [orderRing, h]

@[simp] theorem keeps_orderTone (h : Keeps s₀ s) (l : Line) (t : Tone) : Keeps s₀ (orderTone l t s) := by
  simp [orderTone, h]

@[simp] theorem keeps_refresh (h : Keeps s₀ s) (l : Line) : Keeps s₀ (refresh l s) := by
  simp only [refresh]
  split <;> simp [h]

@[simp] theorem keeps_dropBid (h : Keeps s₀ s) (c : CallId) : Keeps s₀ (dropBid c s) :=
  keeps_withdraw (keeps_onHe h id) _

@[simp] theorem keeps_endReservation (h : Keeps s₀ s) (l : Line) : Keeps s₀ (endReservation l s) := by
  unfold endReservation
  split <;> simp [h]

@[simp] theorem keeps_releaseReservation (h : Keeps s₀ s) (l : Line) : Keeps s₀ (releaseReservation l s) := by
  unfold releaseReservation
  split <;> simp [h]

@[simp] theorem keeps_releaseCall (h : Keeps s₀ s) (c : CallId) : Keeps s₀ (releaseCall c s) :=
  keeps_withCode h fun l => keeps_releaseReservation h l

@[simp] theorem keeps_reserve (h : Keeps s₀ s) (l : Line) (c : CallId) (g : HuntGroup) :
    Keeps s₀ (reserve l c g s) := by
  simp [reserve, h]

@[simp] theorem keeps_becomeIdle (h : Keeps s₀ s) (l : Line) : Keeps s₀ (becomeIdle l s) := by
  exact keeps_refresh (keeps_orderTone (keeps_orderRing (keeps_onLine h ..) ..) ..) l

@[simp] theorem keeps_startRinging (h : Keeps s₀ s) (l : Line) (c : CallId) (cad : Cadence) (g : Option HuntGroup) :
    Keeps s₀ (startRinging l c cad g s) := by
  exact keeps_refresh (keeps_viewEnter (keeps_queueNotice (keeps_orderRing
    (keeps_onLine (keeps_endReservation h l) ..) ..) _) ..) l

@[simp] theorem keeps_stopRinging (h : Keeps s₀ s) (l : Line) (reason : RingEndReason) :
    Keeps s₀ (stopRinging l reason s) := by
  unfold stopRinging
  split
  · exact h
  · next c _ =>
    have idle : ∀ f, Keeps s₀ (orderTone l .none (orderRing l false (onLine l f (viewRemoveLine c.call (own s) l s)))) :=
      fun f => keeps_orderTone (keeps_orderRing (keeps_onLine (keeps_viewRemoveLine h ..) l f) ..) ..
    split
    · exact keeps_refresh (keeps_queueNotice (keeps_queueNotice (idle _) _) _) l
    · exact keeps_refresh (keeps_queueNotice (idle _) _) l

@[simp] theorem keeps_resolveTalking (h : Keeps s₀ s) (l : Line) (c : CallId) (g : Option HuntGroup)
    (i : Option OrderIndex) : Keeps s₀ (resolveTalking l c g i s) := by
  simp [resolveTalking, h]

@[simp] theorem keeps_resolveLost (h : Keeps s₀ s) (l : Line) : Keeps s₀ (resolveLost l s) := by
  simp [resolveLost, h]

@[simp] theorem keeps_takeRefusal (h : Keeps s₀ s) (t : ClaimTarget) (l : Line) : Keeps s₀ (takeRefusal t l s) := by
  unfold takeRefusal
  split <;> simp [h]

@[simp] theorem keeps_connectedHere (h : Keeps s₀ s) (l : Line) (c : CallId) (g : Option HuntGroup)
    (i : Option OrderIndex) : Keeps s₀ (connectedHere l c g i s) := by
  unfold connectedHere
  split
  · simp [h]
  · split <;> simp [h]
  · simp [h]

@[simp] theorem keeps_connectedElsewhere (h : Keeps s₀ s) (c : CallId) (l : Line) :
    Keeps s₀ (connectedElsewhere c l s) := by
  unfold connectedElsewhere
  split
  · simp [h]
  · split <;> simp [h]

@[simp] theorem keeps_lineConnected (h : Keeps s₀ s) (c : CallId) (cab : Cabinet) (l : Line) (g : Option HuntGroup)
    (i : Option OrderIndex) : Keeps s₀ (lineConnected c cab l g i s) :=
  keeps_forEach h fun m t k => by split <;> simp [k]

@[simp] theorem keeps_cancelAt (h : Keeps s₀ s) (c : CallId) (l : Line) : Keeps s₀ (cancelAt c l s) := by
  unfold cancelAt
  split
  · simp [h]
  · split <;> simp [h]

@[simp] theorem keeps_lineCancel (h : Keeps s₀ s) (c : CallId) : Keeps s₀ (lineCancel c s) :=
  keeps_releaseCall (keeps_forEach h fun l _ k => keeps_cancelAt k c l) c

@[simp] theorem keeps_ringingLoses (h : Keeps s₀ s) (lost : Cabinet → Bool) (reason : RingEndReason) (l : Line)
    (r : LineRec) : Keeps s₀ (ringingLoses lost reason l r s) := by
  unfold ringingLoses
  split
  · split <;> simp [h]
  · exact h

@[simp] theorem keeps_verdictLoses (h : Keeps s₀ s) (lost : Cabinet → Bool) (l : Line) (r : LineRec) :
    Keeps s₀ (verdictLoses lost l r s) := by
  unfold verdictLoses
  split
  · split <;> simp [h]
  · exact h

@[simp] theorem keeps_reservationLoses (h : Keeps s₀ s) (lost : Cabinet → Bool) (l : Line) (r : LineRec) :
    Keeps s₀ (reservationLoses lost l r s) := by
  unfold reservationLoses
  split
  · split <;> simp [h]
  · exact h

@[simp] theorem keeps_lineLosesOwner (h : Keeps s₀ s) (lost : Cabinet → Bool) (reason : RingEndReason) (l : Line) :
    Keeps s₀ (lineLosesOwner lost reason l s) := by
  exact keeps_reservationLoses (keeps_verdictLoses (keeps_ringingLoses h ..) ..) ..

@[simp] theorem keeps_linePeerSilent (h : Keeps s₀ s) (p : Cabinet) : Keeps s₀ (linePeerSilent p s) :=
  keeps_forEach h fun l _ k => keeps_lineLosesOwner k _ _ l

@[simp] theorem keeps_lineIsolated (h : Keeps s₀ s) : Keeps s₀ (lineIsolated s) :=
  keeps_forEach h fun l _ k => keeps_lineLosesOwner k _ _ l

@[simp] theorem keeps_linePageGiven (h : Keeps s₀ s) (l : Line) (p : PageId) : Keeps s₀ (linePageGiven l p s) := by
  simp [linePageGiven, h]

@[simp] theorem keeps_linePageOnAir (h : Keeps s₀ s) (l : Line) : Keeps s₀ (linePageOnAir l s) := by
  simp [linePageOnAir, h]

@[simp] theorem keeps_linePageEnded (h : Keeps s₀ s) (l : Line) (t : Tone) : Keeps s₀ (linePageEnded l t s) := by
  simp [linePageEnded, h]

/-! ### The page table (R106, R107, R119) -/

/-- A table with fewer records fits where the whole one does. -/
theorem PageTableFits.of_sublist {l m : List PageRec} (h : PageTableFits l) (sub : m.Sublist l) : PageTableFits m :=
  ⟨⟨Nat.le_trans (sub.filter _).length_le h.1.shared, fun i => Nat.le_trans (sub.filter _).length_le (h.1.input i)⟩,
    fun r hr => h.2 r (sub.subset hr)⟩

/-- Records that keep their sources, and their report lists in range, keep a table in its sizes. -/
theorem PageTableFits.map {l : List PageRec} (h : PageTableFits l) {f : PageRec → PageRec}
    (origin : ∀ r, (f r).origin = r.origin) (reports : ∀ r ∈ l, ReportsFit r → ReportsFit (f r)) :
    PageTableFits (l.map f) := by
  refine ⟨⟨?_, fun i => ?_⟩, fun r hr => ?_⟩
  · rw [List.filter_map, List.length_map]
    simpa [Function.comp_def, origin] using h.1.shared
  · rw [List.filter_map, List.length_map]
    simpa [Function.comp_def, origin] using h.1.input i
  · obtain ⟨x, hx, rfl⟩ := List.mem_map.mp hr
    exact reports x hx (h.2 x hx)

/-- A record of a source with a free place, and with nothing reported, joins the table. -/
theorem PageTableFits.append {l : List PageRec} (h : PageTableFits l) {r : PageRec} (empty : r.reports = [])
    (place : match r.origin with
      | .line _ | .orbit _ => (l.filter fun r => sharedOrigin r.origin).length < sharedPlaces
      | .input i => ∀ x ∈ l, x.origin ≠ .input i) : PageTableFits (l ++ [r]) := by
  refine ⟨⟨?_, fun i => ?_⟩, fun x hx => ?_⟩
  · have few := h.1.shared
    cases origin : r.origin <;> simp [origin] at place ⊢ <;> omega
  · have few := h.1.input i
    cases origin : r.origin with
    | line l => simpa [origin] using few
    | orbit o => simpa [origin] using few
    | input j =>
      by_cases same : j = i
      · subst same
        have none : l.filter (fun r => decide (r.origin = .input j)) = [] := by
          rw [List.filter_eq_nil_iff]
          simpa [origin] using place
        simp [none, origin]
      · simpa [origin, same] using few
  · rcases List.mem_append.mp hx with hx | hx
    · exact h.2 x hx
    · rw [List.mem_singleton.mp hx]
      simp [ReportsFit, empty]

theorem keeps_modPage (h : Keeps s₀ s) {q : Seq} {f : PageRec → PageRec} (origin : ∀ r, (f r).origin = r.origin)
    (reports : PageTableFits s.pgo.pages → ∀ r ∈ s.pgo.pages, ReportsFit r → ReportsFit (f r)) :
    Keeps s₀ (modPage q f s) := by
  refine keeps_onPgo h fun fits => fits.map (fun r => ?_) fun r hr ok => ?_
  · split
    · exact origin r
    · rfl
  · split
    · exact reports fits r hr ok
    · exact ok

@[simp] theorem keeps_freePage (h : Keeps s₀ s) (q : Seq) : Keeps s₀ (freePage q s) :=
  keeps_onPgo h fun fits => fits.of_sublist List.filter_sublist

@[simp] theorem keeps_queueStart (h : Keeps s₀ s) (q : Seq) : Keeps s₀ (queueStart q s) := by
  unfold queueStart
  split <;> simp [h]

@[simp] theorem keeps_setView (h : Keeps s₀ s) (c : Channel) (x : Option ChannelHold) : Keeps s₀ (setView c x s) :=
  keeps_onPgo h id

@[simp] theorem keeps_freeView (h : Keeps s₀ s) (p : ChannelHold → Bool) : Keeps s₀ (freeView p s) :=
  keeps_onPgo h id

@[simp] theorem keeps_freeViewPage (h : Keeps s₀ s) (p : PageId) : Keeps s₀ (freeViewPage p s) := keeps_freeView h _

@[simp] theorem keeps_clearCodePage (h : Keeps s₀ s) (p : PageId) : Keeps s₀ (clearCodePage p s) := keeps_onPpu h id

@[simp] theorem keeps_endClaiming (h : Keeps s₀ s) (r : PageRec) : Keeps s₀ (endClaiming r s) := by
  exact keeps_clearCodePage (keeps_freeViewPage (keeps_freePage (keeps_withdraw h _) _) _) _

@[simp] theorem keeps_endAnnounced (h : Keeps s₀ s) (r : PageRec) (reason : PageEndReason) :
    Keeps s₀ (endAnnounced r reason s) := by
  simp [endAnnounced, h]

@[simp] theorem keeps_endAtLine (h : Keeps s₀ s) (r : PageRec) (tone : Option Tone) : Keeps s₀ (endAtLine r tone s) := by
  unfold endAtLine
  split
  · next l _ =>
    split
    · split <;> simp [h]
    · split <;> simp [h]
  · exact h
  · exact h

@[simp] theorem keeps_endPage (h : Keeps s₀ s) (r : PageRec) (reason : PageEndReason) (tone : Option Tone) :
    Keeps s₀ (endPage r reason tone s) := by
  unfold endPage
  split <;> simp [h]

@[simp] theorem keeps_endPageSeq (h : Keeps s₀ s) (q : Seq) (reason : PageEndReason) (tone : Option Tone) :
    Keeps s₀ (endPageSeq q reason tone s) := by
  unfold endPageSeq
  split <;> simp [h]

@[simp] theorem keeps_endCodePage (h : Keeps s₀ s) (p : PageId) : Keeps s₀ (endCodePage p s) := keeps_endPageSeq h ..

@[simp] theorem keeps_pageOnHook (h : Keeps s₀ s) (l : Line) : Keeps s₀ (pageOnHook l s) := by
  unfold pageOnHook
  split <;> simp [h]

@[simp] theorem keeps_endSeized (h : Keeps s₀ s) (c : Channel) : Keeps s₀ (endSeized c s) := by
  unfold endSeized
  split
  · split <;> simp [h]
  · exact h

@[simp] theorem keeps_takeChannel (h : Keeps s₀ s) (q : Seq) (cls : PageClass) (c : Channel) (seize : Bool) :
    Keeps s₀ (takeChannel q cls c seize s) := by
  unfold takeChannel
  refine keeps_setView (keeps_modPage ?_ (fun _ => by rfl) fun _ _ _ => by exact id) c _
  split <;> simp [h]

/-- A record of a source with a free place is written (R106, R107). -/
theorem keeps_writePage (h : Keeps s₀ s) {r : PageRec} (empty : r.reports = [])
    (place : match r.origin with
      | .line _ | .orbit _ => sharedCount s < sharedPlaces
      | .input i => inputPage s i = none) : Keeps s₀ (writePage r s) := by
  refine keeps_onPgo h fun fits => fits.append empty ?_
  cases origin : r.origin with
  | line l => simpa [origin, sharedCount_eq] using place
  | orbit o => simpa [origin, sharedCount_eq] using place
  | input i => simpa [origin, inputPage] using place

@[simp] theorem keeps_pageRequest (h : Keeps s₀ s) (l : Line) (cls : PageClass) (target : PageTarget)
    (override : Bool) : Keeps s₀ (pageRequest l cls target override s) := by
  unfold pageRequest
  split
  · simp [h]
  split
  · simp [h]
  next room =>
    have written := keeps_writePage (r := newPage (nextPageSeq s) cls target (.line l) override) h rfl
      (Nat.lt_of_not_le room)
    dsimp only
    split
    · exact keeps_linePageEnded (keeps_freePage (keeps_linePageGiven written ..) _) ..
    · exact keeps_queueStart (keeps_takeChannel (keeps_linePageGiven written ..) ..) _

/-- A code page is written where a sequence value has been given, in a state with the page table of the request (R113). -/
theorem keeps_originateCode {q : Seq} (h : Keeps s₀ s) (given : codeRequestSeq t = some q) (same : s.pgo = t.pgo)
    (o : OrbitNumber) (g : PagingGroup) : Keeps s₀ (originateCode q o g s) := by
  unfold codeRequestSeq at given
  split at given
  · cases given
  · next room =>
    refine keeps_queueStart (keeps_writePage h rfl ?_) q
    have few : sharedCount s = sharedCount t := by rw [sharedCount_eq, sharedCount_eq, same]
    simp only [newPage]
    omega

@[simp] theorem keeps_setInput (h : Keeps s₀ s) (i : ContactInput) (on : Bool) : Keeps s₀ (setInput i on s) :=
  keeps_onPgo h fun fits => by cases i <;> exact fits

theorem inputPage_setInput (i j : ContactInput) (on : Bool) (s : State) : inputPage (setInput i on s) j = inputPage s j := by
  cases i <;> rfl

theorem keeps_originateInput (h : Keeps s₀ s) {i : ContactInput} (free : inputPage s i = none) :
    Keeps s₀ (originateInput i s) := by
  unfold originateInput
  cases i with
  | alarm => exact keeps_queueStart (keeps_writePage h rfl free) _
  | evac => exact keeps_raise (keeps_queueStart (keeps_writePage h rfl free) _) ..

@[simp] theorem keeps_inputBecomesActive (h : Keeps s₀ s) (i : ContactInput) : Keeps s₀ (inputBecomesActive i s) := by
  unfold inputBecomesActive
  split
  · have set := keeps_setInput h i true
    simp only []
    split
    · exact keeps_modPage set (fun _ => by rfl) fun _ _ _ => by exact id
    · next free => exact keeps_originateInput set free
  · exact h

@[simp] theorem keeps_inputBecomesInactive (h : Keeps s₀ s) (i : ContactInput) :
    Keeps s₀ (inputBecomesInactive i s) := by
  unfold inputBecomesInactive
  split
  · have set := keeps_setInput h i false
    simp only []
    split
    · next r _ =>
      have released : Keeps s₀ (modPage r.seq (fun r => { r with released := true }) (setInput i false s)) :=
        keeps_modPage set (fun _ => by rfl) fun _ _ _ => by exact id
      split <;> simp [released]
    · exact set
  · exact h

@[simp] theorem keeps_minimumExpiry (h : Keeps s₀ s) (i : ContactInput) : Keeps s₀ (minimumExpiry i s) := by
  unfold minimumExpiry
  split
  · split
    · split
      · simp [h]
      · exact keeps_modPage h (fun _ => by rfl) fun _ _ _ => by exact id
    · exact h
  · exact h

theorem announced_origin (r : PageRec) : (announced r).origin = r.origin := by
  unfold announced
  split <;> simp

theorem announced_reports {r : PageRec} (h : ReportsFit r) : ReportsFit (announced r) := by
  unfold announced
  split
  · simp [ReportsFit]
  · exact h
  · exact h

@[simp] theorem keeps_ownPageStart (h : Keeps s₀ s) (b : PageStartBody) : Keeps s₀ (ownPageStart b s) := by
  unfold ownPageStart
  split
  · split
    · exact keeps_modPage h announced_origin fun _ _ _ => announced_reports
    · exact h
  · simp [h]

@[simp] theorem keeps_pgoPageEnd (h : Keeps s₀ s) (p : PageId) : Keeps s₀ (pgoPageEnd p s) := keeps_freeViewPage h p

/-- A report takes its zone's place in the list, or a free one (R119). -/
theorem takeReport_fits (z : ZoneNumber) (o : ZoneOutcome) {l : List (ZoneNumber × ZoneOutcome)}
    (h : l.length ≤ reportCapacity ∧ (l.map (·.1)).Nodup) :
    (takeReport z o l).length ≤ reportCapacity ∧ ((takeReport z o l).map (·.1)).Nodup := by
  unfold takeReport
  split
  · have zones : (l.map fun e => if e.1 = z then (z, o) else e).map (·.1) = l.map (·.1) := by
      rw [List.map_map]
      refine List.map_congr_left fun e _ => ?_
      by_cases same : e.1 = z <;> simp [same]
    exact ⟨by simpa using h.1, zones ▸ h.2⟩
  · next new =>
    split
    · next room =>
      refine ⟨by simp; omega, ?_⟩
      have absent : ∀ e ∈ l, e.1 ≠ z := by
        intro e he same
        exact new (List.any_eq_true.mpr ⟨e, he, by simpa using same⟩)
      rw [List.map_append, List.nodup_append]
      refine ⟨h.2, by simp, fun a ha b hb => ?_⟩
      obtain ⟨e, he, rfl⟩ := List.mem_map.mp ha
      obtain rfl : b = z := by simpa using hb
      exact absent e he
    · exact h

@[simp] theorem keeps_pgoReport (h : Keeps s₀ s) (p : PageId) (z : ZoneNumber) (o : ZoneOutcome) :
    Keeps s₀ (pgoReport p z o s) := by
  unfold pgoReport
  split
  · split
    · next r found =>
      split
      · have member : r ∈ s.pgo.pages := List.mem_of_find?_eq_some found
        have taken : Keeps s₀ (modPage r.seq (fun x => { x with reports := takeReport z o r.reports }) s) :=
          keeps_modPage h (fun _ => rfl) fun fits _ _ _ => takeReport_fits z o (fits.2 r member)
        simp only []
        split <;> simp [taken]
      · exact h
    · exact h
  · exact h

@[simp] theorem keeps_reportWindowExpiry (h : Keeps s₀ s) (q : Seq) : Keeps s₀ (reportWindowExpiry q s) := by
  unfold reportWindowExpiry
  split
  · split
    · split
      · exact keeps_linePageOnAir (keeps_shelfSend (keeps_modPage h (fun _ => by rfl) fun _ _ _ => by exact id) _) _
      · simp [h]
    · exact h
  · exact h

@[simp] theorem keeps_codeLifeExpiry (h : Keeps s₀ s) (q : Seq) : Keeps s₀ (codeLifeExpiry q s) := by
  unfold codeLifeExpiry
  split
  · split <;> simp [h]
  · exact h

@[simp] theorem keeps_queueStatus (h : Keeps s₀ s) (f : LinkField) : Keeps s₀ (queueStatus f s) :=
  keeps_queueNotice h _

@[simp] theorem keeps_repick (h : Keeps s₀ s) (r : PageRec) : Keeps s₀ (repick r s) := by
  unfold repick
  split
  · have taken := keeps_takeChannel h r.seq r.cls
    dsimp only
    split <;> simp [taken]
  · exact keeps_endAtLine (keeps_freePage (keeps_withdraw h _) _) ..

@[simp] theorem keeps_channelSeen (h : Keeps s₀ s) (c : Channel) (x : ChannelHold) : Keeps s₀ (channelSeen c x s) := by
  unfold channelSeen
  split
  · simp [h]
  · split
    · simp [h]
    · split <;> simp [h]

@[simp] theorem keeps_heardPageStart (h : Keeps s₀ s) (p : PageId) (cls : PageClass) (c : Option Channel) :
    Keeps s₀ (heardPageStart p cls c s) := by
  unfold heardPageStart
  split <;> simp [h]

@[simp] theorem keeps_pgoStatus (h : Keeps s₀ s) (p : Cabinet) : Keeps s₀ (pgoStatus p s) := by
  unfold pgoStatus
  refine keeps_onPgo (keeps_forEach h fun c t k => ?_) id
  split <;> simp [k]

@[simp] theorem keeps_pgoPeerSilent (h : Keeps s₀ s) (p : Cabinet) : Keeps s₀ (pgoPeerSilent p s) := keeps_freeView h _

@[simp] theorem keeps_pgoRejoin (h : Keeps s₀ s) : Keeps s₀ (pgoRejoin s) := keeps_freeView h _

@[simp] theorem keeps_allStopRequest (h : Keeps s₀ s) : Keeps s₀ (allStopRequest s) := keeps_queueNotice h _

@[simp] theorem keeps_pgoAllStop (h : Keeps s₀ s) : Keeps s₀ (pgoAllStop s) :=
  keeps_forEach h fun _ _ k => keeps_endPageSeq k ..

@[simp] theorem keeps_pgoShelfClear (h : Keeps s₀ s) : Keeps s₀ (pgoShelfClear s) :=
  keeps_forEach h fun _ _ k => keeps_endPageSeq k ..

/-! ### The offer table (R45, R59) -/

theorem OfferTableFits.of_sublist {l m : List Offer} (h : OfferTableFits l) (sub : m.Sublist l) : OfferTableFits m :=
  ⟨Nat.le_trans sub.length_le h.1, fun o ho => h.2 o (sub.subset ho)⟩

theorem OfferTableFits.map {l : List Offer} (h : OfferTableFits l) {f : Offer → Offer}
    (ringing : ∀ o ∈ l, RingingFits o → RingingFits (f o)) : OfferTableFits (l.map f) := by
  refine ⟨Nat.le_trans (Nat.le_of_eq (List.length_map ..)) h.1, fun o ho => ?_⟩
  obtain ⟨x, hx, rfl⟩ := List.mem_map.mp ho
  exact ringing x hx (h.2 x hx)

theorem keeps_modOffer (h : Keeps s₀ s) {q : Seq} {f : Offer → Offer}
    (ringing : OfferTableFits s.ofm.offers → ∀ o ∈ s.ofm.offers, RingingFits o → RingingFits (f o)) :
    Keeps s₀ (modOffer q f s) := by
  refine keeps_onOfm h fun fits => fits.map fun o ho ok => ?_
  split
  · exact ringing fits o ho ok
  · exact ok

/-- A change of a record that leaves its ringing set. -/
theorem keeps_modOffer_same (h : Keeps s₀ s) {q : Seq} {f : Offer → Offer}
    (same : ∀ o, (f o).ringing = o.ringing) :
    Keeps s₀ (modOffer q f s) :=
  keeps_modOffer h fun _ o _ ok => by
    unfold RingingFits
    rw [same o]
    exact ok

@[simp] theorem keeps_dropStanding (h : Keeps s₀ s) (q : Seq) : Keeps s₀ (dropStanding q s) := keeps_onHe h id

@[simp] theorem keeps_setSlot (h : Keeps s₀ s) (i : OrbitSlot) (o : Option Orbit) : Keeps s₀ (setSlot i o s) :=
  keeps_onPpu h id

@[simp] theorem keeps_freeSlot (h : Keeps s₀ s) (i : OrbitSlot) : Keeps s₀ (freeSlot i s) := by
  unfold freeSlot
  split
  · simp only []
    split <;> simp [h]
  · exact h

@[simp] theorem keeps_freeOrbitOf (h : Keeps s₀ s) (o : Offer) : Keeps s₀ (freeOrbitOf o s) := by
  unfold freeOrbitOf
  split <;> simp [h]

@[simp] theorem keeps_freeOffer (h : Keeps s₀ s) (q : Seq) : Keeps s₀ (freeOffer q s) :=
  keeps_dropStanding (keeps_withdraw (keeps_onOfm h fun fits => fits.of_sublist List.filter_sublist) _) q

@[simp] theorem keeps_connectCall (h : Keeps s₀ s) (o : Offer) (cab : Cabinet) (l : Line) (i : Option OrderIndex) :
    Keeps s₀ (connectCall o cab l i s) := by
  exact keeps_freeOffer (keeps_freeOrbitOf (keeps_shelfSend (keeps_queueNotice h _) _) o) _

@[simp] theorem keeps_endCall (h : Keeps s₀ s) (o : Offer) (outcome : Option EndReason) :
    Keeps s₀ (endCall o outcome s) := by
  simp only [endCall]
  refine keeps_freeOffer (keeps_freeOrbitOf ?_ o) _
  have told : Keeps s₀ (if partiesOut o then queueNotice (.cancel (callIdOf s o.seq)) s else s) := by
    split <;> simp [h]
  split
  · exact keeps_shelfSend told _
  · exact told

@[simp] theorem keeps_endCallSeq (h : Keeps s₀ s) (q : Seq) (outcome : Option EndReason) :
    Keeps s₀ (endCallSeq q outcome s) :=
  keeps_withCode h fun o => keeps_endCall h o outcome

@[simp] theorem keeps_offerCall (h : Keeps s₀ s) (q : Seq) : Keeps s₀ (offerCall q s) := by
  have offering : Keeps s₀ (modOffer q (fun o => { o with state := .offering, window := none }) s) :=
    keeps_modOffer_same h fun _ => by rfl
  simp only [offerCall]
  split
  · split <;> simp [offering]
  · exact offering

@[simp] theorem keeps_reoffer (h : Keeps s₀ s) (q : Seq) : Keeps s₀ (reoffer q s) := by
  unfold reoffer
  split
  · simp [h]
  · exact keeps_offerCall (keeps_modOffer_same h fun _ => by rfl) q

@[simp] theorem keeps_reofferAfresh (h : Keeps s₀ s) (q : Seq) : Keeps s₀ (reofferAfresh q s) := by
  unfold reofferAfresh
  exact keeps_reoffer (keeps_modOffer_same h fun _ => by rfl) q

@[simp] theorem keeps_recycleCall (h : Keeps s₀ s) (q : Seq) : Keeps s₀ (recycleCall q s) :=
  keeps_modOffer_same (keeps_dropStanding h q) fun _ => by rfl

@[simp] theorem keeps_queueCall (h : Keeps s₀ s) (q : Seq) (g : HuntGroup) : Keeps s₀ (queueCall q g s) := by
  refine keeps_modOffer_same ?_ fun _ => by rfl
  split
  · exact h
  · exact keeps_onHe h id

@[simp] theorem keeps_forwardCall (h : Keeps s₀ s) (q : Seq) (p : GroupParams) : Keeps s₀ (forwardCall q p s) := by
  unfold forwardCall
  exact keeps_reofferAfresh (keeps_modOffer_same (keeps_dropStanding h q) fun _ => by rfl) q

@[simp] theorem keeps_requestCodePage (h : Keeps s₀ s) (i : OrbitSlot) (g : PagingGroup) :
    Keeps s₀ (requestCodePage i g s) := by
  unfold requestCodePage
  split
  · next q given =>
    have kept : ∀ f : Ppu → Ppu, (∀ u, (f u).view = u.view) → Keeps s₀ (originateCode q (orbitNumber (own s) i) g (onPpu f s)) :=
      fun f same => keeps_originateCode (keeps_onPpu h (same s.ppu ▸ id)) given rfl _ g
    exact kept _ fun _ => rfl
  · exact h

@[simp] theorem keeps_parkCall (h : Keeps s₀ s) (q : Seq) (g : HuntGroup) (p : GroupParams) :
    Keeps s₀ (parkCall q g p s) := by
  unfold parkCall
  split
  · next i _ =>
    have set := fun o => keeps_dropStanding (keeps_setSlot h i o) q
    exact keeps_requestCodePage (keeps_modOffer_same (set _) fun _ => by rfl) ..
  · exact h

@[simp] theorem keeps_applyStep (h : Keeps s₀ s) (o : Offer) (g : HuntGroup) (p : GroupParams) (step : OverflowStep) :
    Keeps s₀ (applyStep o g p step s) := by
  unfold applyStep
  split
  · simp [h]
  split
  · simp [h]
  split <;> simp [h]

@[simp] theorem keeps_overflow (h : Keeps s₀ s) (q : Seq) : Keeps s₀ (overflow q s) := by
  unfold overflow
  split
  · split <;> simp [h]
  · exact h

@[simp] theorem keeps_becomeRinging (h : Keeps s₀ s) (q : Seq) : Keeps s₀ (becomeRinging q s) :=
  keeps_modOffer_same (keeps_dropStanding h q) fun _ => by rfl

@[simp] theorem keeps_nextStep (h : Keeps s₀ s) (q : Seq) : Keeps s₀ (nextStep q s) := by
  unfold nextStep
  split
  · split
    · simp [h]
    · split
      · split <;> simp [h]
      · simp [h]
  · exact h

theorem enterBid_ringing (b : WindowBid) (o : Offer) : (enterBid b o).ringing = o.ringing := by
  unfold enterBid
  split
  · rfl
  · split
    · split
      · rfl
      · split <;> rfl
    · split
      · rfl
      · split <;> rfl

@[simp] theorem keeps_ownerBid (h : Keeps s₀ s) (c : CallId) (b : WindowBid) : Keeps s₀ (ownerBid c b s) := by
  unfold ownerBid
  split
  · exact keeps_modOffer_same h (enterBid_ringing b)
  · exact h

@[simp] theorem keeps_assignWinner (h : Keeps s₀ s) (o : Offer) (b : WindowBid) : Keeps s₀ (assignWinner o b s) := by
  unfold assignWinner
  exact keeps_queueNotice (keeps_modOffer_same h fun _ => by rfl) _

@[simp] theorem keeps_closeWindow (h : Keeps s₀ s) (q : Seq) : Keeps s₀ (closeWindow q s) := by
  unfold closeWindow
  split
  · split
    · exact h
    · split
      · simp [h]
      · split
        · simp [h]
        · exact keeps_overflow (keeps_modOffer_same h fun _ => by rfl) q
  · exact h

@[simp] theorem keeps_openWindow (h : Keeps s₀ s) (c : CallId) : Keeps s₀ (openWindow c s) := by
  unfold openWindow
  split
  · exact keeps_modOffer_same h fun o => by split <;> rfl
  · exact h

@[simp] theorem keeps_startAssignTimer (h : Keeps s₀ s) (c : CallId) (cab : Cabinet) (l : Line) :
    Keeps s₀ (startAssignTimer c cab l s) := by
  unfold startAssignTimer
  split
  · exact keeps_modOffer_same h fun o => by split <;> rfl
  · exact h

theorem countTried_ringing (i : Option OrderIndex) (o : Offer) : (countTried i o).ringing = o.ringing := by
  unfold countTried
  split <;> rfl

theorem loseAssigned_ringing (o : Offer) : (loseAssigned o).ringing = o.ringing := by
  unfold loseAssigned
  split
  · rw [countTried_ringing]
  · rfl

@[simp] theorem keeps_failAssign (h : Keeps s₀ s) (q : Seq) : Keeps s₀ (failAssign q s) :=
  keeps_nextStep (keeps_modOffer_same h loseAssigned_ringing) q

@[simp] theorem keeps_assignExpiry (h : Keeps s₀ s) (q : Seq) : Keeps s₀ (assignExpiry q s) := by
  unfold assignExpiry
  split
  · split
    · split <;> simp [h]
    · exact h
  · exact h

theorem keeps_enterCall (h : Keeps s₀ s) (q : Seq) (ref : Word16) (t : CallTarget)
    (room : s.ofm.offers.length < offerCapacity) : Keeps s₀ (enterCall q ref t s) := by
  refine keeps_onOfm h fun fits => ⟨?_, fun o ho => ?_⟩
  · rw [List.length_append, List.length_singleton]
    omega
  · rcases List.mem_append.mp ho with ho | ho
    · exact fits.2 o ho
    · rw [List.mem_singleton.mp ho]
      simp [RingingFits, arrivalRecord]

theorem keeps_acceptCall (h : Keeps s₀ s) (ref : Word16) (t : CallTarget)
    (room : s.ofm.offers.length < offerCapacity) : Keeps s₀ (acceptCall ref t s) := by
  have entered := keeps_enterCall h (nextCallSeq s) ref t room
  unfold acceptCall
  cases t <;> simp [entered]

@[simp] theorem keeps_refuseCall (h : Keeps s₀ s) (ref : Word16) (reason : ArrivalRefusal) :
    Keeps s₀ (refuseCall ref reason s) := by
  simp only [refuseCall]
  split <;> simp [h]

/-- A CALL-ARRIVAL that is accepted found a free place in the table (R48). -/
theorem checkArrival_room {ref : Word16} {targetType : Byte} {value : Word16} {t : CallTarget}
    (passed : checkArrival s ref targetType value = .inr t) : s.ofm.offers.length < offerCapacity := by
  unfold checkArrival at passed
  split at passed
  · cases passed
  split at passed
  · cases passed
  split at passed
  · cases passed
  split at passed
  · cases passed
  · omega

@[simp] theorem keeps_callArrival (h : Keeps s₀ s) (ref : Word16) (targetType : Byte) (value : Word16) :
    Keeps s₀ (callArrival ref targetType value s) := by
  unfold callArrival
  split
  · simp [h]
  · next t passed => exact keeps_acceptCall h ref t (checkArrival_room passed)

@[simp] theorem keeps_callGone (h : Keeps s₀ s) (ref : Word16) : Keeps s₀ (callGone ref s) :=
  keeps_withCode h fun o => keeps_endCall h o none

@[simp] theorem keeps_takeAnswer (h : Keeps s₀ s) (c : CallId) (cab : Cabinet) (l : Line) (i : Option OrderIndex) :
    Keeps s₀ (takeAnswer c cab l i s) := by
  unfold takeAnswer
  split
  · split <;> simp [h]
  · exact h

@[simp] theorem keeps_refuseClaim (h : Keeps s₀ s) (t : ClaimTarget) (cab : Cabinet) (l : Line) (here : Bool)
    (reason : ClaimRefusal) : Keeps s₀ (refuseClaim t cab l here reason s) := by
  unfold refuseClaim
  split <;> simp [h]

@[simp] theorem keeps_claimCall (h : Keeps s₀ s) (c : CallId) (cab : Cabinet) (l : Line) (here : Bool) :
    Keeps s₀ (claimCall c cab l here s) := by
  unfold claimCall
  split
  · split <;> simp [h]
  · simp [h]

@[simp] theorem keeps_claimOrbit (h : Keeps s₀ s) (n : OrbitNumber) (cab : Cabinet) (l : Line) (here : Bool) :
    Keeps s₀ (claimOrbit n cab l here s) := by
  unfold claimOrbit
  split <;> simp [h]

@[simp] theorem keeps_takeClaim (h : Keeps s₀ s) (t : ClaimTarget) (cab : Cabinet) (l : Line) (here : Bool) :
    Keeps s₀ (takeClaim t cab l here s) := by
  unfold takeClaim
  split
  · split <;> simp [h]
  · exact h

/-- A member joins a ringing set that does not hold its line and has room (R59). -/
theorem recordMember_fits (m : Member) {o : Offer} (h : RingingFits o) : RingingFits (recordMember m o) := by
  have shape : ∀ x : Offer, x.ringing = o.ringing → RingingFits
      (if x.ringing.any (atLine m.cab m.line) ∨ x.ringing.length ≥ ringingCapacity then x
        else { x with ringing := x.ringing ++ [m] }) := by
    intro x same
    unfold RingingFits at h ⊢
    rw [← same] at h
    split
    · exact h
    · next free =>
      obtain ⟨new, room⟩ := not_or.mp free
      refine ⟨by simp; omega, ?_⟩
      have absent : ∀ y ∈ x.ringing, ¬ (y.cab = m.cab ∧ y.line = m.line) := by simpa [atLine] using new
      rw [List.map_append, List.nodup_append]
      refine ⟨h.2, by simp, fun a ha b hb => ?_⟩
      obtain ⟨y, hy, rfl⟩ := List.mem_map.mp ha
      obtain rfl : b = (m.cab, m.line) := by simpa using hb
      simpa using absent y hy
  unfold recordMember
  cases m.index with
  | none => exact shape o rfl
  | some i => exact shape { o with tried := eraseIndex i o.tried } rfl

@[simp] theorem keeps_takeRingStarted (h : Keeps s₀ s) (c : CallId) (m : Member) :
    Keeps s₀ (takeRingStarted c m s) := by
  unfold takeRingStarted
  split
  · split
    · simp [h]
    · next o found =>
      have member : o ∈ s.ofm.offers := List.mem_of_find?_eq_some found
      have recorded : ∀ x : Member, Keeps s₀ (modOffer c.seq (fun _ => recordMember x o) s) := fun x =>
        keeps_modOffer h fun fits _ _ _ => recordMember_fits x (fits.2 o member)
      dsimp only
      generalize (if isDirect o = true then ({ m with index := none } : Member) else m) = x
      split
      · simp [h]
      all_goals
        split
        · split
          · split
            · exact keeps_becomeRinging (keeps_modOffer_same (recorded _) fun _ => by rfl) _
            · exact recorded _
          · exact keeps_becomeRinging (recorded _) _
          · exact recorded _
          · exact recorded _
          · exact recorded _
        · exact recorded _
  · exact h

theorem countTried_foldl_ringing (l : List Member) (o : Offer) :
    (l.foldl (fun o m => countTried m.index o) o).ringing = o.ringing := by
  induction l generalizing o with
  | nil => rfl
  | cons m rest ih => rw [List.foldl_cons, ih, countTried_ringing]

theorem loseMembers_ringing (p : Member → Bool) (o : Offer) :
    (loseMembers p o).ringing = o.ringing.filter fun m => !p m := by
  simp only [loseMembers]
  split
  · rw [loseAssigned_ringing, countTried_foldl_ringing]
  · rw [countTried_foldl_ringing]

theorem loseMembers_fits (p : Member → Bool) {o : Offer} (h : RingingFits o) : RingingFits (loseMembers p o) := by
  unfold RingingFits at h ⊢
  rw [loseMembers_ringing]
  exact ⟨Nat.le_trans (List.length_filter_le ..) h.1, (List.filter_sublist.map _).nodup h.2⟩

@[simp] theorem keeps_afterLoss (h : Keeps s₀ s) (before after : Offer) : Keeps s₀ (afterLoss before after s) := by
  unfold afterLoss
  split
  · split <;> simp [h]
  · exact h

@[simp] theorem keeps_loseAt (h : Keeps s₀ s) (p : Member → Bool) (q : Seq) : Keeps s₀ (loseAt p q s) := by
  unfold loseAt
  split
  · next o found =>
    split
    · have member : o ∈ s.ofm.offers := List.mem_of_find?_eq_some found
      exact keeps_afterLoss (keeps_modOffer h fun fits _ _ _ => loseMembers_fits p (fits.2 o member)) ..
    · exact h
  · exact h

@[simp] theorem keeps_takeNoAnswer (h : Keeps s₀ s) (c : CallId) (cab : Cabinet) (l : Line) :
    Keeps s₀ (takeNoAnswer c cab l s) := by
  unfold takeNoAnswer
  split <;> simp [h]

@[simp] theorem keeps_takeDecline (h : Keeps s₀ s) (c : CallId) (cab : Cabinet) (l : Line) :
    Keeps s₀ (takeDecline c cab l s) := by
  unfold takeDecline
  split
  · split
    · split <;> simp [h]
    · exact h
  · exact h

@[simp] theorem keeps_recycleExpiry (h : Keeps s₀ s) (q : Seq) : Keeps s₀ (recycleExpiry q s) := by
  unfold recycleExpiry
  split
  · split <;> simp [h]
  · exact h

@[simp] theorem keeps_takeAvailable (h : Keeps s₀ s) (groups : GroupSet) : Keeps s₀ (takeAvailable groups s) :=
  keeps_forEach h fun _ _ k => keeps_withCode k fun q => keeps_reofferAfresh k q

@[simp] theorem keeps_queueWaitExpiry (h : Keeps s₀ s) (q : Seq) : Keeps s₀ (queueWaitExpiry q s) := by
  unfold queueWaitExpiry
  split
  · split
    · exact h
    · split
      · split <;> simp [h]
      · exact keeps_onHe h id
      · exact keeps_onHe h id
      · exact h
      · exact h
      · exact h
  · exact h

@[simp] theorem keeps_repeatExpiry (h : Keeps s₀ s) (i : OrbitSlot) : Keeps s₀ (repeatExpiry i s) := by
  unfold repeatExpiry
  split
  · split
    · split
      · have set := keeps_setSlot h i
        exact keeps_requestCodePage (keeps_withCode (set _) fun p => keeps_endCodePage (set _) p) ..
      · simp [h]
    · exact h
  · exact h

@[simp] theorem keeps_recallExpiry (h : Keeps s₀ s) (i : OrbitSlot) : Keeps s₀ (recallExpiry i s) := by
  unfold recallExpiry
  split
  · exact keeps_reofferAfresh (keeps_modOffer_same (keeps_freeSlot h i) fun _ => by rfl) _
  · exact h

@[simp] theorem keeps_ppuAllStop (h : Keeps s₀ s) : Keeps s₀ (ppuAllStop s) := keeps_onPpu h id

@[simp] theorem keeps_ofmPeerSilent (h : Keeps s₀ s) (p : Cabinet) : Keeps s₀ (ofmPeerSilent p s) := by
  have told : Keeps s₀ (ownerPeerSilent p s) := by
    unfold ownerPeerSilent
    exact keeps_withdraw (keeps_onOfm h (by exact fun fits => fits.map fun _ _ ok => ok)) _
  exact keeps_forEach told fun q _ k => keeps_loseAt k _ q

@[simp] theorem keeps_ofmIsolated (h : Keeps s₀ s) : Keeps s₀ (ofmIsolated s) :=
  keeps_forEach h fun _ _ k => keeps_endCallSeq k ..

@[simp] theorem keeps_ofmShelfClear (h : Keeps s₀ s) : Keeps s₀ (ofmShelfClear s) :=
  keeps_forEach h fun _ _ k => keeps_endCallSeq k ..

/-! ### The member side (sections 4.2 and 4.3) -/

@[simp] theorem keeps_formBid (h : Keeps s₀ s) (c : CallId) (x : Candidate) : Keeps s₀ (formBid c x s) :=
  keeps_queueNotice (keeps_onHe h id) _

@[simp] theorem keeps_bidFor (h : Keeps s₀ s) (c : CallId) (g : HuntGroup) (tried : IndexSet) :
    Keeps s₀ (bidFor c g tried s) := by
  unfold bidFor
  split <;> simp [h]

@[simp] theorem keeps_ringAll (h : Keeps s₀ s) (c : CallId) (g : HuntGroup) (tried : IndexSet) :
    Keeps s₀ (ringAll c g tried s) := by
  refine keeps_forEach h fun x t k => ?_
  unfold simultaneousRequest
  split <;> simp [k]

@[simp] theorem keeps_memberOffer (h : Keeps s₀ s) (c : CallId) (g : HuntGroup) (tried : IndexSet) :
    Keeps s₀ (memberOffer c g tried s) := by
  have told := keeps_releaseCall (keeps_hearOffer h c g) c
  unfold memberOffer
  dsimp only
  split <;> simp [told]

@[simp] theorem keeps_modBid (h : Keeps s₀ s) (c : CallId) (f : BidEntry → BidEntry) : Keeps s₀ (modBid c f s) :=
  keeps_onHe h id

@[simp] theorem keeps_withdrawBid (h : Keeps s₀ s) (c : CallId) : Keeps s₀ (withdrawBid c s) := by
  unfold withdrawBid
  split <;> simp [h]

@[simp] theorem keeps_bidWithdrawn (h : Keeps s₀ s) (c : CallId) : Keeps s₀ (bidWithdrawn c s) := by
  unfold bidWithdrawn
  split
  · split <;> simp [h]
  · exact h

@[simp] theorem keeps_memberBid (h : Keeps s₀ s) (c : CallId) (field : Nat) : Keeps s₀ (memberBid c field s) := by
  unfold memberBid
  split
  · split <;> simp [h]
  · exact h

@[simp] theorem keeps_bidSent (h : Keeps s₀ s) (c : CallId) : Keeps s₀ (bidSent c s) := keeps_modBid h ..

@[simp] theorem keeps_sendLimitExpiry (h : Keeps s₀ s) (c : CallId) : Keeps s₀ (sendLimitExpiry c s) := by
  unfold sendLimitExpiry
  split
  · split <;> simp [h]
  · exact h

@[simp] theorem keeps_decideAssign (h : Keeps s₀ s) (c : CallId) (l : Line) (cad : Cadence) (accepted : Bool)
    (g : Option HuntGroup) : Keeps s₀ (decideAssign c l cad accepted g s) := by
  unfold decideAssign
  split
  · exact h
  · split <;> simp [h]

@[simp] theorem keeps_lineAssign (h : Keeps s₀ s) (c : CallId) (cab : Cabinet) (l : Line) (cad : Cadence) :
    Keeps s₀ (lineAssign c cab l cad s) := by
  simp only [lineAssign]
  have ended : Keeps s₀ (withCode (reservedLine s c) endReservation s) :=
    keeps_withCode h fun l => keeps_endReservation h l
  have decided : ∀ b g, Keeps s₀ (if cab = own (withCode (reservedLine s c) endReservation s) then
      decideAssign c l cad b g (withCode (reservedLine s c) endReservation s)
    else withCode (reservedLine s c) endReservation s) := by
    intro b g
    split <;> simp [ended]
  exact keeps_withCode (decided _ _) fun l => keeps_refresh (decided _ _) l

@[simp] theorem keeps_huntConnected (h : Keeps s₀ s) (c : CallId) (g : Option HuntGroup) (i : Option OrderIndex) :
    Keeps s₀ (huntConnected c g i s) := by
  refine keeps_releaseCall (keeps_forgetOffer ?_ c) c
  unfold rotate
  split
  · exact keeps_onHe h id
  · exact h

@[simp] theorem keeps_huntCancel (h : Keeps s₀ s) (c : CallId) : Keeps s₀ (huntCancel c s) := keeps_forgetOffer h c

end Sys2Proof.Machine
end

section
/-! What every step keeps, part 3: line events, levels, tones and zones, the link, a load, and every command. -/

namespace Sys2Proof.Machine

variable {s₀ s t : State}

/-! ### Line Port events and line timers (chapter 2) -/

@[simp] theorem keeps_openDialling (h : Keeps s₀ s) (l : Line) : Keeps s₀ (openDialling l s) := by
  unfold openDialling
  exact keeps_refresh (keeps_orderTone (keeps_endReservation (keeps_onLine h ..) l) ..) l

@[simp] theorem keeps_passAnswer (h : Keeps s₀ s) (l : Line) (c : CallId) (i : Option OrderIndex) :
    Keeps s₀ (passAnswer l c i s) := by
  unfold passAnswer
  split <;> simp [h]

@[simp] theorem keeps_answerLine (h : Keeps s₀ s) (l : Line) : Keeps s₀ (answerLine l s) := by
  unfold answerLine
  split
  · exact keeps_passAnswer (keeps_orderTone (keeps_orderRing (keeps_onLine h ..) ..) ..) ..
  · exact h

@[simp] theorem keeps_takeOffHook (h : Keeps s₀ s) (l : Line) : Keeps s₀ (takeOffHook l s) := by
  unfold takeOffHook
  split
  case h_4 => split <;> simp [h]
  all_goals simp [h]

@[simp] theorem keeps_enterWrapUp (h : Keeps s₀ s) (l : Line) (n : Nat) : Keeps s₀ (enterWrapUp l n s) := by
  unfold enterWrapUp
  exact keeps_refresh (keeps_orderTone (keeps_orderRing (keeps_onLine h ..) ..) ..) l

@[simp] theorem keeps_endTalking (h : Keeps s₀ s) (l : Line) : Keeps s₀ (endTalking l s) := by
  unfold endTalking
  have sent := fun f r => keeps_shelfSend (keeps_onLine h l f) r
  dsimp only
  split <;> simp [sent]

@[simp] theorem keeps_hangUp (h : Keeps s₀ s) (l : Line) : Keeps s₀ (hangUp l s) := by
  unfold hangUp
  split
  case h_5 => exact keeps_becomeIdle (keeps_onLine (keeps_pageOnHook h l) ..) l
  case h_7 => split <;> simp [h]
  all_goals simp [h]

@[simp] theorem keeps_takeOnHook (h : Keeps s₀ s) (l : Line) : Keeps s₀ (takeOnHook l s) :=
  keeps_hangUp (keeps_onLine h ..) l

@[simp] theorem keeps_refuseCode (h : Keeps s₀ s) (l : Line) : Keeps s₀ (refuseCode l s) := by
  simp [refuseCode, h]

@[simp] theorem keeps_confirmCode (h : Keeps s₀ s) (l : Line) : Keeps s₀ (confirmCode l s) := by
  simp [confirmCode, h]

@[simp] theorem keeps_groupCode (h : Keeps s₀ s) (l : Line) (n : Nat) (on : Bool) : Keeps s₀ (groupCode l n on s) := by
  unfold groupCode
  split
  · unfold logInOut
    split <;> simp [h]
  · simp [h]

@[simp] theorem keeps_pageCode (h : Keeps s₀ s) (l : Line) (cls : PageClass) (n : Nat) :
    Keeps s₀ (pageCode l cls n s) := by
  unfold pageCode
  split
  · exact keeps_pageRequest (keeps_orderTone (keeps_onLine h ..) ..) ..
  · simp [h]

@[simp] theorem keeps_markClaim (h : Keeps s₀ s) (t : ClaimTarget) : Keeps s₀ (markClaim t s) := by
  unfold markClaim
  split <;> simp [h]

@[simp] theorem keeps_dispatchClaim (h : Keeps s₀ s) (l : Line) (t : ClaimTarget) : Keeps s₀ (dispatchClaim l t s) := by
  unfold dispatchClaim
  split <;> simp [h]

@[simp] theorem keeps_claimRequest (h : Keeps s₀ s) (l : Line) (t : Option ClaimTarget) :
    Keeps s₀ (claimRequest l t s) := by
  unfold claimRequest
  split
  · exact keeps_dispatchClaim (keeps_markClaim (keeps_orderTone (keeps_onLine h ..) ..) _) ..
  · simp [h]

@[simp] theorem keeps_actOnCode (h : Keeps s₀ s) (l : Line) (c : Code) (n : Nat) : Keeps s₀ (actOnCode l c n s) := by
  cases c with
  | dnd => exact keeps_confirmCode (keeps_onLine h ..) l
  | allStop => exact keeps_confirmCode (keeps_allStopRequest h) l
  | login | logout | groupPickup | directedPickup | retrieve | routinePage | alarmPage | overrideRoutine
    | overrideAlarm => simp [actOnCode, h]

@[simp] theorem keeps_judgeBuffer (h : Keeps s₀ s) (l : Line) : Keeps s₀ (judgeBuffer l s) := by
  unfold judgeBuffer
  split
  · split <;> simp [h]
  · simp [h]
  · simp [h]

@[simp] theorem keeps_joinBuffer (h : Keeps s₀ s) (l : Line) (d : Digit) : Keeps s₀ (joinBuffer l d s) :=
  keeps_judgeBuffer (keeps_onLine h ..) l

@[simp] theorem keeps_handToShelf (h : Keeps s₀ s) (l : Line) (n : Fin 10) : Keeps s₀ (handToShelf l n s) :=
  keeps_shelfSend (keeps_onLine h ..) _

@[simp] theorem keeps_placeDigit (h : Keeps s₀ s) (l : Line) (d : Digit) : Keeps s₀ (placeDigit l d s) := by
  unfold placeDigit
  split
  · split
    · simp [h]
    · split <;> simp [h]
    · split <;> simp [h]
  · simp [h]

@[simp] theorem keeps_takeDigit (h : Keeps s₀ s) (l : Line) (d : Digit) : Keeps s₀ (takeDigit l d s) := by
  unfold takeDigit
  split
  · exact keeps_placeDigit (keeps_orderTone (keeps_onLine h ..) ..) ..
  · exact h

@[simp] theorem keeps_digitExpiry (h : Keeps s₀ s) (l : Line) : Keeps s₀ (digitExpiry l s) := by
  unfold digitExpiry
  split <;> simp [h]

@[simp] theorem keeps_cadenceExpiry (h : Keeps s₀ s) (l : Line) : Keeps s₀ (cadenceExpiry l s) := by
  unfold cadenceExpiry
  dsimp only
  split
  · split <;> simp [h]
  · exact h

@[simp] theorem keeps_noAnswerExpiry (h : Keeps s₀ s) (l : Line) : Keeps s₀ (noAnswerExpiry l s) := by
  unfold noAnswerExpiry
  split <;> simp [h]

@[simp] theorem keeps_verdictExpiry (h : Keeps s₀ s) (l : Line) : Keeps s₀ (verdictExpiry l s) := by
  unfold verdictExpiry
  split <;> simp [h]

@[simp] theorem keeps_wrapUpSecond (h : Keeps s₀ s) (l : Line) : Keeps s₀ (wrapUpSecond l s) := by
  unfold wrapUpSecond
  split
  · split <;> simp [h]
  · exact h

@[simp] theorem keeps_idleSecond (h : Keeps s₀ s) (l : Line) : Keeps s₀ (idleSecond l s) := by
  unfold idleSecond
  split <;> simp [h]

@[simp] theorem keeps_lineShelfClear (h : Keeps s₀ s) : Keeps s₀ (lineShelfClear s) := by
  refine keeps_forEach h fun l t k => ?_
  unfold clearLine
  split
  case h_4 => exact keeps_orderTone (keeps_onLine k ..) ..
  all_goals simp [k]

@[simp] theorem keeps_announceAvailable (h : Keeps s₀ s) : Keeps s₀ (announceAvailable s) := by
  unfold announceAvailable
  split <;> simp [h]

/-! ### Levels (chapter 9) -/

/-- The target lies in the zone's range, whatever the ambient (R164). -/
theorem targetOf_range {p : LevelParams} (ok : LevelParamsOk p) (level : Nat) (cls : Option PageClass) :
    p.floor ≤ targetOf p level cls ∧ targetOf p level cls ≤ p.ceiling := by
  obtain ⟨-, -, -, range, -⟩ := ok
  unfold targetOf
  dsimp only
  split <;> omega

/-- A ramp step stays between C and T (R167). -/
theorem rampStep_range {lo hi c t : Nat} (step : Nat) (hc : lo ≤ c ∧ c ≤ hi) (ht : lo ≤ t ∧ t ≤ hi) :
    lo ≤ rampStep c t step ∧ rampStep c t step ≤ hi := by
  unfold rampStep
  split <;> split <;> omega

theorem keeps_setCurrent (h : Keeps s₀ s) (z : LocalZone) {c : Nat}
    (range : LevelParamsOk (zoneOf s z).cfg.level → LevelOk (zoneOf s z).cfg.level (levelOf s z) →
      (zoneOf s z).cfg.level.floor ≤ c ∧ c ≤ (zoneOf s z).cfg.level.ceiling) : Keeps s₀ (setCurrent z c s) := by
  unfold setCurrent
  split
  · exact h
  · refine keeps_emit (keeps_onLevel h fun params ok => ?_) _
    obtain ⟨fault, hold, smoothed, level, low, high, -⟩ := id ok
    exact ⟨fault, hold, smoothed, level, low, high, range params ok⟩

@[simp] theorem keeps_retarget (h : Keeps s₀ s) (z : LocalZone) : Keeps s₀ (retarget z s) := by
  refine keeps_onLevel h fun params ok => ?_
  obtain ⟨fault, hold, smoothed, level, -, -, current⟩ := ok
  obtain ⟨low, high⟩ := targetOf_range params (levelOf s z).level (levelClass (zoneOf s z))
  exact ⟨fault, hold, smoothed, level, low, high, current⟩

@[simp] theorem keeps_jumpLevel (h : Keeps s₀ s) (z : LocalZone) : Keeps s₀ (jumpLevel z s) :=
  keeps_setCurrent (keeps_retarget h z) z fun _ ok => by
    obtain ⟨-, -, -, -, low, high, -⟩ := ok
    exact ⟨low, high⟩

@[simp] theorem keeps_lastPageLevel (h : Keeps s₀ s) (z : LocalZone) : Keeps s₀ (lastPageLevel z s) := by
  refine keeps_jumpLevel (keeps_onLevel h fun _ ok => ?_) z
  obtain ⟨fault, -, rest⟩ := ok
  exact ⟨fault, Nat.le_refl 2, rest⟩

@[simp] theorem keeps_followTarget (h : Keeps s₀ s) (z : LocalZone) : Keeps s₀ (followTarget z s) := by
  refine keeps_setCurrent h z fun _ ok => ?_
  obtain ⟨-, -, -, -, tlo, thi, clo, chi⟩ := ok
  split
  · exact rampStep_range _ ⟨clo, chi⟩ ⟨tlo, thi⟩
  · exact ⟨tlo, thi⟩

/-- A becomes a value in its range, and with it the ambient level (R163). -/
theorem keeps_setSmoothed (h : Keeps s₀ s) (z : LocalZone) {a : Nat}
    (range : LevelParamsOk (zoneOf s z).cfg.level → LevelOk (zoneOf s z).cfg.level (levelOf s z) → a ≤ 4064) :
    Keeps s₀ (setSmoothed z a s) := by
  refine keeps_retarget (keeps_onLevel h fun params ok => ?_) z
  have := range params ok
  unfold LevelOk ambientLevel at *
  dsimp only
  omega

@[simp] theorem keeps_faultSample (h : Keeps s₀ s) (z : LocalZone) : Keeps s₀ (faultSample z s) := by
  unfold faultSample
  dsimp only
  split
  · simp [h]
  split
  · refine keeps_followTarget (keeps_onLevel h fun _ ok => ?_) z
    unfold LevelOk at ok ⊢
    dsimp only
    omega
  · have failed : Keeps s₀ (onLevel z (fun v => { v with faultRun := 8, failed := true }) s) := by
      refine keeps_onLevel h fun _ ok => ?_
      unfold LevelOk at ok ⊢
      dsimp only
      omega
    refine keeps_followTarget (keeps_raise (keeps_setSmoothed failed z fun params _ => ?_) ..) z
    unfold LevelParamsOk at params
    omega

/-- The filter keeps A in its range for a used value in its own (R157, R162). -/
theorem filterStep_range {a used : Nat} (shift : Nat) (ha : a ≤ 4064) (hu : used ≤ 254) :
    filterStep a used shift ≤ 4064 := by
  have := filterStep_le a used shift
  omega

theorem keeps_validSample (h : Keeps s₀ s) (z : LocalZone) {a : Nat} (valid : a ≤ 254) :
    Keeps s₀ (validSample z a s) := by
  unfold validSample
  dsimp only
  split
  · have reseeded : Keeps s₀ (onLevel z (fun v => { v with faultRun := 0, failed := false }) s) := by
      refine keeps_onLevel h fun _ ok => ?_
      unfold LevelOk at ok ⊢
      dsimp only
      omega
    exact keeps_followTarget (keeps_setSmoothed reseeded z fun _ _ => by omega) z
  · have counted : Keeps s₀ (onLevel z (fun v => { v with faultRun := 0 }) s) := by
      refine keeps_onLevel h fun _ ok => ?_
      unfold LevelOk at ok ⊢
      dsimp only
      omega
    split
    · refine keeps_followTarget (keeps_onLevel counted fun _ ok => ?_) z
      unfold LevelOk at ok ⊢
      dsimp only
      omega
    · refine keeps_followTarget (keeps_setSmoothed counted z fun _ ok => ?_) z
      have smoothed : (levelOf s z).smoothed ≤ 4064 := by
        obtain ⟨-, -, smoothed, -⟩ := ok
        simpa [levelOf] using smoothed
      refine filterStep_range _ smoothed ?_
      unfold usedAndShift
      dsimp only
      split
      · exact Nat.le_trans (Nat.min_le_left ..) valid
      · exact valid

@[simp] theorem keeps_takeSample (h : Keeps s₀ s) (z : LocalZone) (code : Byte) : Keeps s₀ (takeSample z code s) := by
  unfold takeSample
  split
  · simp [h]
  · next other =>
    refine keeps_validSample h z ?_
    bv_omega

/-! ### Tones (chapter 8) -/

@[simp] theorem keeps_orderSound (h : Keeps s₀ s) (z : LocalZone) (x : Option Nat) : Keeps s₀ (orderSound z x s) := by
  simp [orderSound, h]

@[simp] theorem keeps_changeSound (h : Keeps s₀ s) (z : LocalZone) (x : Option Nat) : Keeps s₀ (changeSound z x s) := by
  unfold changeSound
  split <;> simp [h]

@[simp] theorem keeps_startPattern (h : Keeps s₀ s) (z : LocalZone) (p : Pattern) : Keeps s₀ (startPattern z p s) := by
  unfold startPattern
  split <;> simp [h]

@[simp] theorem keeps_stopPattern (h : Keeps s₀ s) (z : LocalZone) : Keeps s₀ (stopPattern z s) := by
  unfold stopPattern
  split <;> simp [h]

@[simp] theorem keeps_enterStep (h : Keeps s₀ s) (z : LocalZone) (p : Pattern) (n : Nat) (x : StepSound) :
    Keeps s₀ (enterStep z p n x s) := by
  unfold enterStep
  split <;> simp [h]

@[simp] theorem keeps_stepExpiry (h : Keeps s₀ s) (z : LocalZone) : Keeps s₀ (stepExpiry z s) := by
  unfold stepExpiry
  split
  · exact h
  · split
    · simp [h]
    · split
      · split <;> simp [h]
      · simp [finishPattern, h]

/-! ### Zones (chapter 7) -/

@[simp] theorem keeps_selectOutputs (h : Keeps s₀ s) (z : LocalZone) : Keeps s₀ (selectOutputs z s) := by
  simp [selectOutputs, h]

@[simp] theorem keeps_enterState (h : Keeps s₀ s) (z : LocalZone) (st : ZoneState) : Keeps s₀ (enterState z st s) := by
  unfold enterState
  dsimp only
  split
  · exact keeps_selectOutputs (keeps_onZone (keeps_stopPattern h z) rfl id) z
  · exact keeps_selectOutputs (keeps_onZone h rfl id) z

@[simp] theorem keeps_enterPhase (h : Keeps s₀ s) (z : LocalZone) (phase : ZoneState) (a : Active) :
    Keeps s₀ (enterPhase z phase a s) := by
  unfold enterPhase
  dsimp only
  split
  · exact keeps_onZone (keeps_startPattern (keeps_enterState h ..) ..) rfl id
  · simp [h]

@[simp] theorem keeps_activate (h : Keeps s₀ s) (z : LocalZone) (a : Active) (phase : ZoneState) :
    Keeps s₀ (activate z a phase s) := by
  have placed : Keeps s₀ (onZone z (fun r => { r with active := some a }) s) := keeps_onZone h rfl id
  unfold activate
  refine keeps_jumpLevel ?_ z
  split
  case h_1 => split <;> simp [placed]
  all_goals simp [placed]

@[simp] theorem keeps_report (h : Keeps s₀ s) (z : LocalZone) (p : PageId) (o : ZoneOutcome) :
    Keeps s₀ (report z p o s) := by
  unfold report
  split <;> simp [h]

@[simp] theorem keeps_reportAll (h : Keeps s₀ s) (z : LocalZone) (ps : List PageId) (o : ZoneOutcome) :
    Keeps s₀ (reportAll z ps o s) :=
  keeps_forEach h fun p _ k => keeps_report k z p o

/-- The insertion of R127 leaves at most four entries. -/
theorem insertPending_length (front : Bool) (e : PageEntry) (l : List PageEntry) :
    (insertPending front e l).1.length ≤ pendingCapacity := by
  unfold insertPending
  dsimp only
  split
  · exact List.length_take_le ..
  · next fits => exact Nat.le_of_not_gt fits

/-- A zone's pending list changes, within its size. -/
theorem keeps_pending (h : Keeps s₀ s) (z : LocalZone) {l : List PageEntry}
    (short : (zoneOf s z).pending.length ≤ pendingCapacity → l.length ≤ pendingCapacity) :
    Keeps s₀ (onZone z (fun r => { r with pending := l }) s) := by
  refine keeps_onZone h rfl fun fits => ?_
  obtain ⟨pending, rest⟩ := fits
  exact ⟨short pending, rest⟩

@[simp] theorem keeps_holdToPending (h : Keeps s₀ s) (z : LocalZone) (e : PageEntry) : Keeps s₀ (holdToPending z e s) := by
  have placed := keeps_pending h z fun _ => insertPending_length true e (zoneOf s z).pending
  unfold holdToPending
  dsimp only
  split
  · simp [placed]
  · split <;> simp [placed]

@[simp] theorem keeps_arriveToPending (h : Keeps s₀ s) (z : LocalZone) (e : PageEntry) :
    Keeps s₀ (arriveToPending z e s) := by
  have placed := keeps_pending h z fun _ => insertPending_length false e (zoneOf s z).pending
  unfold arriveToPending
  dsimp only
  split
  · simp [placed]
  · split <;> simp [placed]

@[simp] theorem keeps_resumeHeld (h : Keeps s₀ s) (z : LocalZone) (x : Held) : Keeps s₀ (resumeHeld z x s) :=
  keeps_report (keeps_activate (keeps_onZone h rfl id) ..) ..

@[simp] theorem keeps_lastPageGone (h : Keeps s₀ s) (z : LocalZone) : Keeps s₀ (lastPageGone z s) :=
  keeps_lastPageLevel (keeps_enterState h ..) z

@[simp] theorem keeps_resumeChoice (h : Keeps s₀ s) (z : LocalZone) : Keeps s₀ (resumeChoice z s) := by
  have starts : ∀ p rest, (zoneOf s z).pending = p :: rest → Keeps s₀ (startPending z p rest s) := by
    intro p rest pending
    refine keeps_report (keeps_activate (keeps_pending h z fun short => ?_) ..) ..
    rw [pending, List.length_cons] at short
    omega
  unfold resumeChoice
  dsimp only
  split
  · split
    · simp [h]
    · split
      · next pending => exact starts _ _ pending
      · exact h
  · next pending => exact starts _ _ pending
  · simp [h]

@[simp] theorem keeps_leaveActive (h : Keeps s₀ s) (z : LocalZone) : Keeps s₀ (leaveActive z s) :=
  keeps_resumeChoice (keeps_onZone h rfl id) z

@[simp] theorem keeps_removePages (h : Keeps s₀ s) (z : LocalZone) (p : PageEntry → Bool) (o : Option ZoneOutcome) :
    Keeps s₀ (removePages z p o s) := by
  have removed : Keeps s₀ (onZone z (fun r => { r with
      held := if (pickHeld p r).isSome then none else r.held
      pending := r.pending.filter fun e => !p e }) s) := by
    refine keeps_onZone h rfl fun fits => ?_
    obtain ⟨pending, rest⟩ := fits
    exact ⟨Nat.le_trans (List.length_filter_le ..) pending, rest⟩
  unfold removePages
  dsimp only
  cases o <;> split <;> simp [removed]

/-- A zone's evacuation set changes, within its size and with no originator twice. -/
theorem keeps_evac (h : Keeps s₀ s) (z : LocalZone) {l : List PageId}
    (fits : (zoneOf s z).evac.length ≤ 16 ∧ ((zoneOf s z).evac.map (·.cab)).Nodup → l.length ≤ 16 ∧ (l.map (·.cab)).Nodup) :
    Keeps s₀ (onZone z (fun r => { r with evac := l }) s) := by
  refine keeps_onZone h rfl fun old => ?_
  obtain ⟨pending, evac⟩ := old
  exact ⟨pending, fits evac⟩

@[simp] theorem keeps_removeEvac (h : Keeps s₀ s) (z : LocalZone) (p : PageId → Bool) : Keeps s₀ (removeEvac z p s) := by
  have removed : Keeps s₀ (onZone z (fun r => { r with evac := (zoneOf s z).evac.filter fun e => !p e }) s) :=
    keeps_evac h z fun fits => ⟨Nat.le_trans (List.length_filter_le ..) fits.1, (List.filter_sublist.map _).nodup fits.2⟩
  unfold removeEvac
  dsimp only
  split
  · split <;> simp [removed]
  · exact removed

/-- A page joins an evacuation set that holds none of its originator, so the set never outgrows the cabinets (R139). -/
theorem joinEvac_fits (p : PageId) {l : List PageId} (h : l.length ≤ 16 ∧ (l.map (·.cab)).Nodup) :
    (joinEvac p l).length ≤ 16 ∧ ((joinEvac p l).map (·.cab)).Nodup := by
  have distinct : ((joinEvac p l).map (·.cab)).Nodup := by
    unfold joinEvac
    split
    · exact h.2
    · next new =>
      rw [List.map_append, List.nodup_append]
      refine ⟨h.2, by simp, fun a ha b hb => ?_⟩
      obtain ⟨e, he, rfl⟩ := List.mem_map.mp ha
      obtain rfl : b = p.cab := by simpa using hb
      exact fun same => new (List.any_eq_true.mpr ⟨e, he, by simpa using same⟩)
  have few := List.Nodup.length_le_of_subset (l₂ := allCabinets) distinct fun c _ => List.mem_finRange c
  rw [List.length_map] at few
  exact ⟨few, distinct⟩

@[simp] theorem keeps_evacInFault (h : Keeps s₀ s) (z : LocalZone) (p : PageId) : Keeps s₀ (evacInFault z p s) := by
  have joined : Keeps s₀ (onZone z (fun r => { r with evac := joinEvac p r.evac }) s) := by
    refine keeps_onZone h rfl fun old => ?_
    exact ⟨old.1, joinEvac_fits p old.2⟩
  unfold evacInFault
  dsimp only
  split
  · exact keeps_report (keeps_jumpLevel (keeps_raise joined ..) z) ..
  · exact keeps_report joined ..

@[simp] theorem keeps_displaceActive (h : Keeps s₀ s) (z : LocalZone) : Keeps s₀ (displaceActive z s) := by
  unfold displaceActive
  dsimp only
  split
  · split
    · simp [h]
    · have held : ∀ x, Keeps s₀ (onZone z (fun r => { r with held := some x }) s) := fun x => keeps_onZone h rfl id
      split
      · exact keeps_holdToPending (keeps_report (held _) ..) ..
      · exact keeps_report (held _) ..
  · exact h

@[simp] theorem keeps_evacAccept (h : Keeps s₀ s) (z : LocalZone) (p : PageId) : Keeps s₀ (evacAccept z p s) := by
  have joined : ∀ u, Keeps s₀ u → Keeps s₀ (onZone z (fun r => { r with evac := joinEvac p r.evac }) u) := by
    intro u k
    refine keeps_onZone k rfl fun old => ?_
    exact ⟨old.1, joinEvac_fits p old.2⟩
  unfold evacAccept
  split
  · exact keeps_report (keeps_raise (keeps_activate (joined _ (keeps_displaceActive h z)) ..) ..) ..
  · exact keeps_report (joined s h) ..

@[simp] theorem keeps_acceptPlaying (h : Keeps s₀ s) (z : LocalZone) (e : PageEntry) : Keeps s₀ (acceptPlaying z e s) :=
  keeps_report (keeps_activate h ..) ..

@[simp] theorem keeps_accept (h : Keeps s₀ s) (z : LocalZone) (e : PageEntry) (override : Bool) :
    Keeps s₀ (accept z e override s) := by
  unfold accept
  dsimp only
  split
  · simp [h]
  split
  · split <;> simp [h]
  split
  · simp [h]
  split
  · simp [h]
  split
  · simp [h]
  · unfold acceptAgainst
    split
    · simp [h]
    · split <;> simp [h]

@[simp] theorem keeps_acceptAt (h : Keeps s₀ s) (b : PageStartBody) (z : LocalZone) : Keeps s₀ (acceptAt b z s) := by
  unfold acceptAt
  dsimp only
  split <;> simp [h]

@[simp] theorem keeps_zonePageStart (h : Keeps s₀ s) (b : PageStartBody) : Keeps s₀ (zonePageStart b s) := by
  unfold zonePageStart
  split
  · dsimp only
    refine keeps_forEach ?_ fun z _ k => keeps_acceptAt k b z
    split
    · exact keeps_forEach h fun z _ k => keeps_removePages k z ..
    · exact h
  · exact h

@[simp] theorem keeps_zonePageEnd (h : Keeps s₀ s) (p : PageId) : Keeps s₀ (zonePageEnd p s) :=
  keeps_forEach h fun z _ k => keeps_removeEvac (keeps_removePages k z ..) z _

@[simp] theorem keeps_zoneAllStop (h : Keeps s₀ s) : Keeps s₀ (zoneAllStop s) :=
  keeps_forEach h fun z _ k => keeps_removePages k z ..

@[simp] theorem keeps_zoneStatus (h : Keeps s₀ s) (p : Cabinet) : Keeps s₀ (zoneStatus p s) := by
  unfold zoneStatus
  split
  · refine keeps_forEach h fun z t k => ?_
    split <;> simp [k]
  · exact keeps_forEach h fun z _ k => keeps_removeEvac k z _

@[simp] theorem keeps_zonePeerSilent (h : Keeps s₀ s) (p : Cabinet) : Keeps s₀ (zonePeerSilent p s) :=
  keeps_forEach h fun z _ k => keeps_removePages k z ..

@[simp] theorem keeps_zoneRejoin (h : Keeps s₀ s) : Keeps s₀ (zoneRejoin s) :=
  keeps_forEach h fun z _ k => keeps_removePages k z ..

@[simp] theorem keeps_wakeExpiry (h : Keeps s₀ s) (z : LocalZone) : Keeps s₀ (wakeExpiry z s) := by
  unfold wakeExpiry
  split <;> simp [h]

@[simp] theorem keeps_hangExpiry (h : Keeps s₀ s) (z : LocalZone) : Keeps s₀ (hangExpiry z s) := by
  unfold hangExpiry
  split <;> simp [h]

@[simp] theorem keeps_leaveWith (h : Keeps s₀ s) (z : LocalZone) (p : PageId) (o : ZoneOutcome) :
    Keeps s₀ (leaveWith z p o s) := keeps_leaveActive (keeps_report h ..) z

@[simp] theorem keeps_elapsedTick (h : Keeps s₀ s) (z : LocalZone) : Keeps s₀ (elapsedTick z s) := by
  unfold elapsedTick
  split
  · split
    · exact h
    · have counted : ∀ a, Keeps s₀ (onZone z (fun r => { r with active := a }) s) := fun a => keeps_onZone h rfl id
      dsimp only
      split <;> simp [counted]
  · exact h

@[simp] theorem keeps_takeCompletion (h : Keeps s₀ s) (z : LocalZone) : Keeps s₀ (takeCompletion z s) := by
  unfold takeCompletion completed
  split
  · exact h
  · dsimp only
    split
    · split <;> simp [h]
    · simp [h]

@[simp] theorem keeps_enterFault (h : Keeps s₀ s) (z : LocalZone) : Keeps s₀ (enterFault z s) := by
  have left : ∀ ps, Keeps s₀ (onZone z (fun r => { r with active := none, held := none, pending := [] })
      (reportAll z ps .fault s)) := fun ps =>
    keeps_onZone (keeps_reportAll h z ps _) rfl fun fits => ⟨Nat.zero_le _, fits.2⟩
  have entered := fun ps => keeps_enterState (left ps) z .fault
  unfold enterFault
  dsimp only
  split
  · exact keeps_jumpLevel (keeps_raise (entered _) ..) z
  · exact keeps_raise (entered _) ..

@[simp] theorem keeps_faultActive (h : Keeps s₀ s) (z : LocalZone) : Keeps s₀ (faultActive z s) := by
  have flagged : Keeps s₀ (onZone z (fun r => { r with ampFault := true }) s) := keeps_onZone h rfl id
  unfold faultActive
  dsimp only
  split <;> simp [flagged]

@[simp] theorem keeps_faultInactive (h : Keeps s₀ s) (z : LocalZone) : Keeps s₀ (faultInactive z s) := by
  have cleared : Keeps s₀ (onZone z (fun r => { r with ampFault := false }) s) := keeps_onZone h rfl id
  unfold faultInactive
  dsimp only
  split
  · split <;> simp [cleared]
  · exact cleared

end Sys2Proof.Machine
end

section
/-! What every step keeps, part 4: the link, a load, and every command; the invariants of the part. -/

namespace Sys2Proof.Machine

variable {s₀ s t : State}

/-! ### Own delivery (R10, R12) -/

@[simp] theorem keeps_takeAssign (h : Keeps s₀ s) (c : CallId) (cab : Cabinet) (l : Line) (cad : Cadence) :
    Keeps s₀ (takeAssign c cab l cad s) := keeps_lineAssign (keeps_dropBid h c) ..

@[simp] theorem keeps_takeConnected (h : Keeps s₀ s) (c : CallId) (cab : Cabinet) (l : Line) (g : Option HuntGroup)
    (i : Option OrderIndex) : Keeps s₀ (takeConnected c cab l g i s) :=
  keeps_viewRemoveCall (keeps_lineConnected (keeps_huntConnected h ..) ..) c

@[simp] theorem keeps_takeCancel (h : Keeps s₀ s) (c : CallId) : Keeps s₀ (takeCancel c s) :=
  keeps_viewRemoveCall (keeps_lineCancel (keeps_huntCancel h c) c) c

@[simp] theorem keeps_takePageEnd (h : Keeps s₀ s) (p : PageId) : Keeps s₀ (takePageEnd p s) :=
  keeps_clearCodePage (keeps_zonePageEnd (keeps_pgoPageEnd h p) p) p

@[simp] theorem keeps_takeAllStop (h : Keeps s₀ s) : Keeps s₀ (takeAllStop s) :=
  keeps_zoneAllStop (keeps_ppuAllStop (keeps_pgoAllStop h))

@[simp] theorem keeps_takeRingEnded (h : Keeps s₀ s) (c : CallId) (cab : Cabinet) (l : Line) (r : RingEndReason) :
    Keeps s₀ (takeRingEnded c cab l r s) := by
  unfold takeRingEnded
  split <;> simp [h]

@[simp] theorem keeps_takeRefused (h : Keeps s₀ s) (t : ClaimTarget) (cab : Cabinet) (l : Line) :
    Keeps s₀ (takeRefused t cab l s) := by
  unfold takeRefused
  split <;> simp [h]

@[simp] theorem keeps_deliverOwn (h : Keeps s₀ s) (n : Notice) : Keeps s₀ (deliverOwn n s) := by
  cases n <;> simp [deliverOwn, h]

@[simp] theorem keeps_drain (h : Keeps s₀ s) (fuel : Nat) : Keeps s₀ (drain fuel s) := by
  induction fuel generalizing s with
  | zero => exact h
  | succ fuel ih =>
    unfold drain
    split
    · exact h
    · exact ih (keeps_deliverOwn (keeps_setDeliveries h _) _)

@[simp] theorem keeps_deliverAll (h : Keeps s₀ s) : Keeps s₀ (deliverAll s) := keeps_drain h _

/-! ### The peer table (R19, R20) -/

@[simp] theorem keeps_modPeer (h : Keeps s₀ s) (p : Cabinet) (f : Peer → Peer) : Keeps s₀ (modPeer p f s) :=
  keeps_onClc h rfl rfl rfl

@[simp] theorem keeps_touchPeer (h : Keeps s₀ s) (p : Cabinet) : Keeps s₀ (touchPeer p s) := by
  unfold touchPeer
  dsimp only
  split <;> simp [h]

@[simp] theorem keeps_recordEvacuation (h : Keeps s₀ s) (p : Cabinet) (b : RawStatus) :
    Keeps s₀ (recordEvacuation p b s) := keeps_withCode h fun _ => keeps_modPeer h ..

@[simp] theorem keeps_recordChannels (h : Keeps s₀ s) (p : Cabinet) (b : RawStatus) : Keeps s₀ (recordChannels p b s) :=
  keeps_withCode h fun _ => keeps_modPeer h ..

@[simp] theorem keeps_agePeers (h : Keeps s₀ s) : Keeps s₀ (agePeers s) := by
  refine keeps_forEach h fun p t k => ?_
  split <;> simp [k]

@[simp] theorem keeps_peerSilent (h : Keeps s₀ s) (p : Cabinet) : Keeps s₀ (peerSilent p s) := by
  have told := fun f => keeps_ofmPeerSilent (keeps_raise (keeps_modPeer h p f) .peerSilent p.val .clc) p
  exact keeps_zonePeerSilent (keeps_pgoPeerSilent (keeps_viewRemove (keeps_linePeerSilent (told _) p) _) p) p

@[simp] theorem keeps_agingTick (h : Keeps s₀ s) : Keeps s₀ (agingTick s) := by
  unfold agingTick
  split
  · exact h
  · exact h
  all_goals exact keeps_forEach (keeps_takeChoice (keeps_agePeers h)) fun p _ k => keeps_peerSilent k p

/-! ### Leaving the link, attempts (R2 to R17) -/

@[simp] theorem keeps_setLink (h : Keeps s₀ s) (l : LinkState) : Keeps s₀ (setLink l s) := keeps_onClc h rfl rfl rfl

@[simp] theorem keeps_flushQueue (h : Keeps s₀ s) : Keeps s₀ (flushQueue s) :=
  keeps_deliverAll (keeps_forEach (keeps_emptyQueue h) fun n _ k => keeps_deliverLater k n)

@[simp] theorem keeps_tellIsolated (h : Keeps s₀ s) : Keeps s₀ (tellIsolated s) :=
  keeps_lineIsolated (keeps_ofmIsolated h)

@[simp] theorem keeps_enterIsolated (h : Keeps s₀ s) : Keeps s₀ (enterIsolated s) :=
  keeps_tellIsolated (keeps_flushQueue (keeps_setLink h _))

@[simp] theorem keeps_tellWithdrawn (h : Keeps s₀ s) (e : TxEntry) : Keeps s₀ (tellWithdrawn e s) := by
  unfold tellWithdrawn
  split <;> simp [h]

@[simp] theorem keeps_loseArbitration (h : Keeps s₀ s) : Keeps s₀ (loseArbitration s) := by
  unfold loseArbitration
  split
  · exact keeps_tellWithdrawn (keeps_settle h) _
  · exact h

@[simp] theorem keeps_dropDelivery (h : Keeps s₀ s) (e : TxEntry) : Keeps s₀ (dropDelivery e s) := by
  unfold dropDelivery
  split <;> simp [h]

@[simp] theorem keeps_countDrop (h : Keeps s₀ s) (kind : Nat) : Keeps s₀ (countDrop kind s) := by
  have counted : Keeps s₀ (onClc (fun c => { c with dropRun := min dropLimit (c.dropRun + 1) }) s) :=
    keeps_dropRun h (Nat.min_le_left ..)
  unfold countDrop
  dsimp only
  split
  · split <;> simp [counted]
  · exact h

@[simp] theorem keeps_failAttempt (h : Keeps s₀ s) : Keeps s₀ (failAttempt s) := by
  unfold failAttempt
  split
  · next e found =>
    split
    · next few => exact keeps_tellWithdrawn (keeps_countFailure h found few) e
    · exact keeps_countDrop (keeps_deliverAll (keeps_dropDelivery (keeps_dropAttempt h) e)) _
  · exact h

@[simp] theorem keeps_rejoin (h : Keeps s₀ s) : Keeps s₀ (rejoin s) := by
  have forgotten : Keeps s₀ (forgetPeers s) := keeps_onClc h rfl rfl rfl
  exact keeps_zoneRejoin (keeps_pgoRejoin (keeps_viewRemove (keeps_raise
    (keeps_queueStatus (keeps_setLink forgotten _) _) ..) _))

@[simp] theorem keeps_acknowledge (h : Keeps s₀ s) : Keeps s₀ (acknowledge s) := by
  have cleared : Keeps s₀ (clearDrops (endAttempt dropAttempt s)) := keeps_dropRun (keeps_dropAttempt h) (Nat.zero_le _)
  unfold acknowledge
  split
  · dsimp only
    split <;> simp [cleared]
  · exact h

@[simp] theorem keeps_joinLink (h : Keeps s₀ s) : Keeps s₀ (joinLink s) := by
  unfold joinLink
  split
  · exact keeps_announceAvailable (keeps_queueStatus (keeps_setLink (keeps_setPhase h _) _) _)
  · exact h

@[simp] theorem keeps_statusPeriod (h : Keeps s₀ s) : Keeps s₀ (statusPeriod s) := by
  unfold statusPeriod
  split <;> simp [h]

@[simp] theorem keeps_probePeriod (h : Keeps s₀ s) : Keeps s₀ (probePeriod s) := by
  unfold probePeriod
  split <;> simp [h]

/-! ### Heard frames (R4, R12, R17, R19) -/

@[simp] theorem keeps_duplicateAddress (h : Keeps s₀ s) : Keeps s₀ (duplicateAddress s) := by
  unfold duplicateAddress
  split
  · exact h
  · have flushed := fun a => keeps_flushQueue (keeps_setLink (keeps_raise (keeps_loseArbitration h) .duplicateAddress a .clc)
      .listenOnly)
    dsimp only
    split <;> simp [flushed]

/-- What the handing over keeps, hearing the frame keeps. -/
theorem keeps_hear (h : Keeps s₀ s) (src : Cabinet) (everywhere : Bool) {take : State → State}
    (step : ∀ t, Keeps s₀ t → Keeps s₀ (take t)) : Keeps s₀ (hear src everywhere take s) := by
  unfold hear
  split
  · dsimp only
    split
    · simp [h]
    · have touched := fun o => keeps_touchPeer (keeps_emit h o) src
      split
      · exact step _ (touched _)
      · exact touched _
  · exact h

@[simp] theorem keeps_ignoreFrame (h : Keeps s₀ s) : Keeps s₀ (ignoreFrame s) := by
  unfold ignoreFrame
  split <;> simp [h]

@[simp] theorem keeps_heardStatus (h : Keeps s₀ s) (src : Cabinet) (b : RawStatus) : Keeps s₀ (heardStatus src b s) := by
  have recorded := keeps_recordChannels (keeps_recordEvacuation h src b) src b
  have answered : Keeps s₀ (answerStatus b (recordChannels src b (recordEvacuation src b s))) :=
    keeps_withCode recorded fun f => by split <;> simp [recorded]
  have viewed := keeps_withCode (o := codeChannels b) (f := fun _ => pgoStatus src) answered fun _ =>
    keeps_pgoStatus answered src
  exact keeps_withCode viewed fun _ => keeps_zoneStatus viewed src

@[simp] theorem keeps_heardOffer (h : Keeps s₀ s) (call : RawId) (group : Byte) (tried : IndexSet) :
    Keeps s₀ (heardOffer call group tried s) :=
  keeps_withCode h fun c => keeps_withCode h fun g => keeps_memberOffer h c g tried

@[simp] theorem keeps_heardBid (h : Keeps s₀ s) (src : Cabinet) (key : BidKey) (call : RawId) (line index : Byte) :
    Keeps s₀ (heardBid src key call line index s) :=
  keeps_withCode h fun c => keeps_withCode h fun _ => keeps_withCode h fun _ =>
    keeps_ownerBid (keeps_memberBid h c _) c _

@[simp] theorem keeps_heardRingAssign (h : Keeps s₀ s) (call : RawId) (cab line cadence : Byte) :
    Keeps s₀ (heardRingAssign call cab line cadence s) :=
  keeps_withCode h fun c => keeps_withCode (keeps_dropBid h c) fun _ => keeps_withCode (keeps_dropBid h c) fun _ =>
    keeps_withCode (keeps_dropBid h c) fun _ => keeps_lineAssign (keeps_dropBid h c) ..

@[simp] theorem keeps_heardDecline (h : Keeps s₀ s) (src : Cabinet) (call : RawId) (line : Byte) :
    Keeps s₀ (heardDecline src call line s) :=
  keeps_withCode h fun _ => keeps_withCode h fun _ => keeps_takeDecline h ..

@[simp] theorem keeps_heardRingStarted (h : Keeps s₀ s) (src : Cabinet) (call : RawId) (line index pickup : Byte) :
    Keeps s₀ (heardRingStarted src call line index pickup s) :=
  keeps_withCode h fun c => keeps_withCode h fun l => by
    have taken := keeps_withCode (o := codeOrNone 32 index) (f := fun i => takeRingStarted c ⟨src, l, i⟩) h fun _ =>
      keeps_takeRingStarted h ..
    exact keeps_withCode taken fun _ => keeps_viewEnter taken ..

@[simp] theorem keeps_heardRingEnded (h : Keeps s₀ s) (src : Cabinet) (call : RawId) (line reason : Byte) :
    Keeps s₀ (heardRingEnded src call line reason s) :=
  keeps_withCode h fun _ => keeps_withCode h fun _ =>
    keeps_viewRemoveLine (keeps_withCode h fun _ => keeps_takeRingEnded h ..) ..

@[simp] theorem keeps_heardNoAnswer (h : Keeps s₀ s) (src : Cabinet) (call : RawId) (line : Byte) :
    Keeps s₀ (heardNoAnswer src call line s) :=
  keeps_withCode h fun _ => keeps_withCode h fun _ => keeps_takeNoAnswer h ..

@[simp] theorem keeps_heardAnswered (h : Keeps s₀ s) (src : Cabinet) (call : RawId) (line index : Byte) :
    Keeps s₀ (heardAnswered src call line index s) :=
  keeps_withCode h fun _ => keeps_withCode h fun _ => keeps_withCode h fun _ => keeps_takeAnswer h ..

@[simp] theorem keeps_heardClaim (h : Keeps s₀ s) (b : RawClaim) : Keeps s₀ (heardClaim b s) :=
  keeps_withCode h fun t => keeps_markClaim
    (keeps_withCode h fun _ => keeps_withCode h fun _ => keeps_takeClaim h ..) t

@[simp] theorem keeps_heardConnected (h : Keeps s₀ s) (call : RawId) (cab line group index : Byte) :
    Keeps s₀ (heardConnected call cab line group index s) :=
  keeps_withCode h fun c => by
    have hunted := keeps_withCode (o := codeOrNone 16 group)
      (f := fun g => withCode (codeOrNone 32 index) fun i => huntConnected c g i) h fun _ =>
        keeps_withCode h fun _ => keeps_huntConnected h ..
    exact keeps_viewRemoveCall (keeps_withCode hunted fun _ => keeps_withCode hunted fun _ => keeps_withCode hunted fun _ =>
      keeps_withCode hunted fun _ => keeps_lineConnected hunted ..) c

@[simp] theorem keeps_heardRefused (h : Keeps s₀ s) (b : RawClaim) : Keeps s₀ (heardRefused b s) :=
  keeps_withCode h fun _ => keeps_withCode h fun _ => keeps_withCode h fun _ => keeps_takeRefused h ..

@[simp] theorem keeps_heardCancel (h : Keeps s₀ s) (call : RawId) : Keeps s₀ (heardCancel call s) :=
  keeps_withCode h fun _ => keeps_takeCancel h _

@[simp] theorem keeps_heardStart (h : Keeps s₀ s) (b : RawPageStart) : Keeps s₀ (heardStart b s) := by
  have seen : Keeps s₀ (pgoHeardStart b s) :=
    keeps_withCode h fun _ => keeps_withCode h fun _ => keeps_withCode h fun _ => keeps_heardPageStart h ..
  exact keeps_withCode seen fun _ => keeps_withCode seen fun _ => keeps_withCode seen fun _ =>
    keeps_withCode seen fun _ => keeps_withCode seen fun _ => keeps_zonePageStart seen _

@[simp] theorem keeps_heardPageEnd (h : Keeps s₀ s) (page : RawId) : Keeps s₀ (heardPageEnd page s) :=
  keeps_withCode h fun _ => keeps_takePageEnd h _

@[simp] theorem keeps_heardZoneReport (h : Keeps s₀ s) (page : RawId) (zone outcome : Byte) :
    Keeps s₀ (heardZoneReport page zone outcome s) :=
  keeps_withCode h fun _ => keeps_withCode h fun _ => keeps_withCode h fun _ => keeps_pgoReport h ..

/-! ### The Shelf Port (chapter 10) -/

@[simp] theorem keeps_readCondition (h : Keeps s₀ s) : Keeps s₀ (readCondition s) := by
  unfold readCondition
  split
  · unfold answerRead
    split <;> simp [h]
  · exact keeps_raise h ..

@[simp] theorem keeps_badRecord (h : Keeps s₀ s) (bytes : List Byte) : Keeps s₀ (badRecord bytes s) := by
  unfold badRecord
  split
  · split
    · exact keeps_raise h ..
    · exact h
  · exact h

@[simp] theorem keeps_abandonRecord (h : Keeps s₀ s) (bytes : List Byte) : Keeps s₀ (abandonRecord bytes s) := by
  unfold abandonRecord
  split
  · exact h
  · split
    · exact keeps_raise (keeps_onSpu h id) ..
    · exact h

@[simp] theorem keeps_recordSent (h : Keeps s₀ s) : Keeps s₀ (recordSent s) := by
  unfold recordSent
  split
  · exact h
  · next output =>
    refine keeps_emit (keeps_onSpu h fun short => ?_) _
    rw [output, List.length_cons] at short
    exact Nat.le_of_succ_le short

/-! ### A load, and the reset (chapter 11) -/

theorem clamp_range {lo hi : Nat} (h : lo ≤ hi) (n : Nat) : lo ≤ clamp lo hi n ∧ clamp lo hi n ≤ hi := by
  unfold clamp
  omega

/-- The level parameters of a zone entry are in their ranges, whatever its words hold (R157, R181). -/
theorem levelParamsOk_zoneConfig (memory : List Byte) (z : LocalZone) :
    LevelParamsOk (zoneConfig memory z).level := by
  unfold LevelParamsOk zoneConfig clamp
  dsimp only
  omega

/-- The level state of a good load is in the ranges of its parameters (R158). -/
theorem levelOk_loaded {p : LevelParams} (ok : LevelParamsOk p) :
    LevelOk p { faultRun := 0, failed := false, holdOff := 0, smoothed := 16 * p.fallback
                level := ambientLevel (16 * p.fallback), target := targetOf p (ambientLevel (16 * p.fallback)) none
                current := targetOf p (ambientLevel (16 * p.fallback)) none } := by
  have range := targetOf_range ok (ambientLevel (16 * p.fallback)) none
  unfold LevelParamsOk at ok
  unfold LevelOk ambientLevel at *
  dsimp only
  omega

theorem faultedRecord_level (active : Bool) (r : ZoneRec) : (faultedRecord active r).cfg = r.cfg := by
  unfold faultedRecord
  split <;> rfl

theorem zoneFits_loaded (active : Bool) (c : ZoneConfig) : ZoneFits (faultedRecord active (loadedZone c)) := by
  cases active <;> simp [ZoneFits, faultedRecord, loadedZone, resetZone]

theorem foldl_raise_output {α : Type} (l : List α) (c : Condition) (n : α → Nat) (o : Block) (s : State) :
    (l.foldl (fun u z => raise c (n z) o u) s).spu.output = s.spu.output := by
  induction l generalizing s with
  | nil => rfl
  | cons a rest ih => exact ih (raise c (n a) o s)

@[simp] theorem keeps_goodLoad (h : Keeps s₀ s) {img : Image} (ok : ∀ z, LevelParamsOk (img.zones.get z).level) :
    Keeps s₀ (goodLoad img s) := by
  obtain ⟨os, zones, levels, loaded, records, states⟩ := goodLoad_fields img s
  rw [loaded]
  exact {
    queues := fun k => by
      obtain ⟨queue, drops, heard, view, output⟩ := h.queues k
      exact ⟨queue, drops, heard, view, Nat.le_trans (Nat.le_of_eq (congrArg List.length (foldl_raise_output ..))) output⟩
    offers := h.offers
    pages := h.pages
    zones := fun _ z => by
      show ZoneFits (zones.get z)
      rw [records]
      exact zoneFits_loaded ..
    attempt := h.attempt
    levels := fun _ z => by
      have params : (zones.get z).cfg.level = (img.zones.get z).level := by
        rw [records, faultedRecord_level]
        rfl
      show LevelParamsOk (zones.get z).cfg.level ∧ LevelOk (zones.get z).cfg.level (levels.get z)
      rw [params, states]
      exact ⟨ok z, levelOk_loaded (ok z)⟩ }

@[simp] theorem keeps_completeLoad (h : Keeps s₀ s) (memory : List Byte) : Keeps s₀ (completeLoad memory s) := by
  unfold completeLoad
  split
  · split
    · exact keeps_raise (keeps_onSpu (keeps_setLink (keeps_setPhase h _) _) id) ..
    · refine keeps_goodLoad h fun z => ?_
      simpa [readImage] using levelParamsOk_zoneConfig memory z
  · exact h

/-- The reset state is in every invariant. -/
theorem capacities_reset : Capacities State.reset := by
  refine ⟨?_, ?_, (pagesFit_iff _).mpr ?_, fun z => ?_⟩
  · simp [QueuesFit, State.reset, resetClc, resetHe, resetPpu, resetSpu]
  · simp [OffersFit, State.reset, resetOfm]
  · exact ⟨⟨by simp [State.reset, resetPgo], by simp [State.reset, resetPgo]⟩, by simp [State.reset, resetPgo]⟩
  · simp [zoneOf, State.reset, resetZc, resetZone]

theorem oneAttempt_reset : OneAttempt State.reset := attemptOf_quiet (by simp [State.reset, resetClc])

theorem levelsInRange_reset : LevelsInRange State.reset := by
  intro z
  simp [zoneOf, levelOf, State.reset, resetZc, resetZone, resetZoneConfig, resetLevel, LevelParamsOk, LevelOk]

/-- A full reset reaches a state of every invariant, whatever the state before it (R185). -/
theorem keeps_fullReset (s₀ s : State) : Keeps s₀ (fullReset s) where
  queues _ := capacities_reset.1
  offers _ := capacities_reset.2.1
  pages _ := capacities_reset.2.2.1
  zones _ := capacities_reset.2.2.2
  attempt _ := oneAttempt_reset
  levels _ := levelsInRange_reset

/-! ### Every command -/

/-- What an effect keeps, its command keeps. -/
theorem keeps_act {f : State → State} (step : ∀ u, Keeps s u → Keeps s (f u)) (k : act f s = .next t) : Keeps s t := by
  unfold act at k
  split at k
  · obtain rfl := Host.Outcome.next.inj k
    simp
  · obtain rfl := Host.Outcome.next.inj k
    exact keeps_deliverAll (step _ (keeps_fresh (Keeps.refl s)))

@[simp] theorem keeps_clearShelf (h : Keeps s₀ s) : Keeps s₀ (clearShelf s) :=
  keeps_pgoShelfClear (keeps_lineShelfClear (keeps_ofmShelfClear h))

@[simp] theorem keeps_sampleArrives (h : Keeps s₀ s) (z : LocalZone) (code : Byte) :
    Keeps s₀ (sampleArrives z code s) := by
  unfold sampleArrives
  split <;> simp [h]

theorem keeps_resetRelease (k : execResetRelease s = .next t) : Keeps s t := by
  unfold execResetRelease at k
  split at k
  · obtain rfl := Host.Outcome.next.inj k
    obtain ⟨queues, offers, pages, zones, attempt, levels⟩ := Keeps.refl s
    exact ⟨queues, offers, pages, zones, attempt, levels⟩
  · obtain rfl := Host.Outcome.next.inj k
    exact keeps_fresh (Keeps.refl s)

theorem keeps_ampFaultActive {z : LocalZone} (k : execAmpFaultActive z s = .next t) : Keeps s t := by
  refine Keeps.trans (keeps_onPins (Keeps.refl s) _) (keeps_act (fun u h => ?_) k)
  unfold faultBecomesActive
  split
  · exact keeps_faultActive h z
  · exact h

theorem keeps_ampFaultInactive {z : LocalZone} (k : execAmpFaultInactive z s = .next t) : Keeps s t := by
  refine Keeps.trans (keeps_onPins (Keeps.refl s) _) (keeps_act (fun u h => ?_) k)
  unfold faultBecomesInactive
  split
  · exact keeps_faultInactive h z
  · exact h

/-- Every command keeps every invariant: by its effect. -/
theorem keeps_exec {c : Instr} (k : exec c s = .next t) : Keeps s t := by
  cases c with
  | powerOn => cases k; exact keeps_fullReset s s
  | resetAssert => cases k; exact keeps_onPins (keeps_fullReset s s) _
  | resetRelease => exact keeps_resetRelease k
  | loadComplete => exact keeps_act (fun _ h => keeps_completeLoad h ..) k
  | join => exact keeps_act (fun _ h => keeps_joinLink h) k
  | attemptStart => exact keeps_act (fun _ h => keeps_startAttempt h) k
  | arbitrationLost => exact keeps_act (fun _ h => keeps_loseArbitration h) k
  | attemptAcknowledged => exact keeps_act (fun _ h => keeps_acknowledge h) k
  | attemptFailed => exact keeps_act (fun _ h => keeps_failAttempt h) k
  | frameAbandoned => exact keeps_act (f := id) (fun _ h => h) k
  | frameCrcMismatch => exact keeps_act (fun _ h => keeps_ignoreFrame h) k
  | frameUnknownKind src => exact keeps_act (fun _ h => keeps_hear h src _ fun _ h => h) k
  | status src => exact keeps_act (fun _ h => keeps_hear h src _ fun _ h => keeps_heardStatus h ..) k
  | probe src => exact keeps_act (fun _ h => keeps_hear h src _ fun _ h => h) k
  | statusPeriod => exact keeps_act (fun _ h => keeps_statusPeriod h) k
  | probePeriod => exact keeps_act (fun _ h => keeps_probePeriod h) k
  | peerAgingTick => exact keeps_act (fun _ h => keeps_agingTick h) k
  | offHook => exact keeps_act (fun _ h => keeps_takeOffHook h ..) k
  | onHook => exact keeps_act (fun _ h => keeps_takeOnHook h ..) k
  | digit => exact keeps_act (fun _ h => keeps_takeDigit h ..) k
  | digitTimerExpiry => exact keeps_act (fun _ h => keeps_digitExpiry h ..) k
  | reservationTimerExpiry => exact keeps_act (fun _ h => keeps_releaseReservation h ..) k
  | cadenceIntervalExpiry => exact keeps_act (fun _ h => keeps_cadenceExpiry h ..) k
  | noAnswerTimerExpiry => exact keeps_act (fun _ h => keeps_noAnswerExpiry h ..) k
  | verdictTimerExpiry => exact keeps_act (fun _ h => keeps_verdictExpiry h ..) k
  | wrapUpTick => exact keeps_act (fun _ h => keeps_wrapUpSecond h ..) k
  | idleSecondTick => exact keeps_act (fun _ h => keeps_idleSecond h ..) k
  | callArrival => exact keeps_act (fun _ h => keeps_callArrival h ..) k
  | callGone => exact keeps_act (fun _ h => keeps_callGone h ..) k
  | assignTimerExpiry => exact keeps_act (fun _ h => keeps_assignExpiry h ..) k
  | offer src => exact keeps_act (fun _ h => keeps_hear h src _ fun _ h => keeps_heardOffer h ..) k
  | bid src => exact keeps_act (fun _ h => keeps_hear h src _ fun _ h => keeps_heardBid h ..) k
  | sendLimitExpiry => exact keeps_act (fun _ h => keeps_sendLimitExpiry h ..) k
  | bidWindowClose => exact keeps_act (fun _ h => keeps_closeWindow h ..) k
  | recyclePauseExpiry => exact keeps_act (fun _ h => keeps_recycleExpiry h ..) k
  | queueWaitExpiry => exact keeps_act (fun _ h => keeps_queueWaitExpiry h ..) k
  | ringAssign src => exact keeps_act (fun _ h => keeps_hear h src _ fun _ h => keeps_heardRingAssign h ..) k
  | decline src => exact keeps_act (fun _ h => keeps_hear h src _ fun _ h => keeps_heardDecline h ..) k
  | ringStarted src => exact keeps_act (fun _ h => keeps_hear h src _ fun _ h => keeps_heardRingStarted h ..) k
  | ringEnded src => exact keeps_act (fun _ h => keeps_hear h src _ fun _ h => keeps_heardRingEnded h ..) k
  | noAnswer src => exact keeps_act (fun _ h => keeps_hear h src _ fun _ h => keeps_heardNoAnswer h ..) k
  | answered src => exact keeps_act (fun _ h => keeps_hear h src _ fun _ h => keeps_heardAnswered h ..) k
  | claim src => exact keeps_act (fun _ h => keeps_hear h src _ fun _ h => keeps_heardClaim h ..) k
  | connected src => exact keeps_act (fun _ h => keeps_hear h src _ fun _ h => keeps_heardConnected h ..) k
  | refused src => exact keeps_act (fun _ h => keeps_hear h src _ fun _ h => keeps_heardRefused h ..) k
  | cancel src => exact keeps_act (fun _ h => keeps_hear h src _ fun _ h => keeps_heardCancel h ..) k
  | available src => exact keeps_act (fun _ h => keeps_hear h src _ fun _ h => keeps_takeAvailable h ..) k
  | recallTimerExpiry => exact keeps_act (fun _ h => keeps_recallExpiry h ..) k
  | repeatTimerExpiry => exact keeps_act (fun _ h => keeps_repeatExpiry h ..) k
  | contactInputActive => exact keeps_act (fun _ h => keeps_inputBecomesActive h ..) k
  | contactInputInactive => exact keeps_act (fun _ h => keeps_inputBecomesInactive h ..) k
  | minimumTimerExpiry => exact keeps_act (fun _ h => keeps_minimumExpiry h ..) k
  | pageStart src => exact keeps_act (fun _ h => keeps_hear h src _ fun _ h => keeps_heardStart h ..) k
  | pageEnd src => exact keeps_act (fun _ h => keeps_hear h src _ fun _ h => keeps_heardPageEnd h ..) k
  | reportWindowExpiry => exact keeps_act (fun _ h => keeps_reportWindowExpiry h ..) k
  | codeLifeExpiry => exact keeps_act (fun _ h => keeps_codeLifeExpiry h ..) k
  | zoneReport src => exact keeps_act (fun _ h => keeps_hear h src _ fun _ h => keeps_heardZoneReport h ..) k
  | allStop src => exact keeps_act (fun _ h => keeps_hear h src _ fun _ h => keeps_takeAllStop h) k
  | wakeTimerExpiry => exact keeps_act (fun _ h => keeps_wakeExpiry h ..) k
  | stepTimerExpiry => exact keeps_act (fun _ h => keeps_stepExpiry h ..) k
  | patternCompletion => exact keeps_act (fun _ h => keeps_takeCompletion h ..) k
  | elapsedSecondTick => exact keeps_act (fun _ h => keeps_elapsedTick h ..) k
  | hangTimerExpiry => exact keeps_act (fun _ h => keeps_hangExpiry h ..) k
  | ampFaultActive zone => exact keeps_ampFaultActive k
  | ampFaultInactive zone => exact keeps_ampFaultInactive k
  | ambientSample zone code => exact keeps_act (fun _ h => keeps_sampleArrives h ..) k
  | conditionRead => exact keeps_act (fun _ h => keeps_readCondition h) k
  | shelfClear => exact keeps_act (fun _ h => keeps_clearShelf h) k
  | shelfRecordBad => exact keeps_act (fun _ h => keeps_badRecord h ..) k
  | recordGapTimeout => exact keeps_act (fun _ h => keeps_abandonRecord h ..) k
  | outputRecordSent => exact keeps_act (fun _ h => keeps_recordSent h) k

/-- Every step keeps every invariant: the front command's, on a state that differs in the commands waiting alone. -/
theorem keeps_step (k : step s = .next t) : Keeps s t := by
  unfold step at k
  split at k
  · cases k
    exact Keeps.refl s
  · have taken : ∀ rest, Keeps s { s with pending := rest } := fun _ => ⟨id, id, id, id, id, id⟩
    exact (taken _).trans (keeps_exec k)

/-! ### The obligations -/

theorem stepKeepsTheCapacities : Clause.StepKeepsTheCapacities := by
  rintro s t ⟨queues, offers, pages, zones⟩ k
  have kept := keeps_step k
  exact ⟨kept.queues queues, kept.offers offers, kept.pages pages, kept.zones zones⟩

theorem stepKeepsLevelsInTheirRanges : Clause.StepKeepsLevelsInTheirRanges :=
  fun _ _ inRange k => (keeps_step k).levels inRange

/-- Settles O58: every operation that a step is made of keeps each of the invariants. -/
theorem stepKeepsCapacitiesAndLevels : Obligations.StepKeepsCapacitiesAndLevels :=
  ⟨stepKeepsTheCapacities, stepKeepsLevelsInTheirRanges⟩

/-- Settles O59: of the operations on the transmit queue, one starts an attempt, where there is none, and each end of one leaves
none. -/
theorem stepKeepsOneAttempt : Obligations.StepKeepsOneAttempt :=
  fun _ _ one k => (keeps_step k).attempt one

/-- Settles O60: the tables at reset are empty, and the levels are the model's own choice. -/
theorem resetMeetsTheInvariants : Obligations.ResetMeetsTheInvariants :=
  ⟨capacities_reset, oneAttempt_reset, levelsInRange_reset⟩

end Sys2Proof.Machine
end

section
/-! The queue, and the start of the part: reset, load and JOIN (chapters 0 and 11). -/

namespace Sys2Proof.Machine

/-! ### Every command answers (R185) -/

theorem act_answers (f : State → State) (s : State) : ∃ t, act f s = .next t := by
  unfold act
  split
  · exact ⟨_, rfl⟩
  · exact ⟨_, rfl⟩

/-- Settles O1: by the definition of a step, on either queue. -/
theorem stepRunsTheFrontCommand : Obligations.StepRunsTheFrontCommand := by
  refine ⟨fun c rest s waiting => ?_, fun s empty => ?_⟩
  · rw [step, waiting]
  · rw [step, empty]

/-- Settles O2: every command but the two resets and the release is an effect that act runs. -/
theorem everyCommandAnswersANextState : Obligations.EveryCommandAnswersANextState := by
  intro c s
  cases c with
  | powerOn => exact ⟨_, rfl⟩
  | resetAssert => exact ⟨_, rfl⟩
  | resetRelease =>
    simp only [exec, execResetRelease]
    split
    · exact ⟨_, rfl⟩
    · exact ⟨_, rfl⟩
  | _ => exact act_answers _ _

/-! ### The full reset, and the part held in RESET (R185) -/

theorem allAtReset_fullReset (s : State) : AllAtReset (fullReset s) := by
  have clear : ∀ c, (conditionEntry (fullReset s) c).pending = false := by
    intro c
    simp [conditionEntry, fullReset, State.reset, resetSpu, resetCondition]
  have attention : attention (fullReset s) = false := by
    simp [attention, clear]
  refine ⟨rfl, rfl, rfl, rfl, rfl, ?peers, rfl, rfl, clear, attention, rfl, rfl, rfl, rfl, rfl, ?slots, rfl, ?view, ?places,
    ?lines, rfl, rfl, rfl, ?rotation, ?orders, ?zones, rfl, rfl⟩
  case peers => intro p; simp [peerOf, fullReset, State.reset, resetClc, resetPeer]
  case slots => intro i; simp [slotOf, fullReset, State.reset, resetPpu]
  case view => intro c; simp [fullReset, State.reset, resetPgo]
  case places => intro z; simp [zoneOf, fullReset, State.reset, resetZc, resetZone]
  case lines => intro l; simp [lineOf, fullReset, State.reset, resetLine]
  case rotation => intro g; simp [fullReset, State.reset, resetHe]
  case orders => intro l; simp [lineOf, fullReset, State.reset, resetLine]
  case zones =>
    intro z
    simp [zoneOf, seqOf, levelOf, fullReset, State.reset, resetZc, resetZone, resetTs, resetSequencer, resetLevel,
      amplifierOrder, zoneActive, sourceOrder]

theorem heldPartActsOnNoPortAndNoTimer : Clause.HeldPartActsOnNoPortAndNoTimer := by
  intro c s held untaken
  cases c with
  | powerOn | resetAssert | resetRelease | ampFaultActive | ampFaultInactive => simp [takenInReset] at untaken
  | _ => exact act_held _ s held

/-- Settles O3: the reset state has the values of R185, a held part passes over every effect, and the release gives its orders. -/
theorem resetHoldsThePartUntilItsRelease : Obligations.ResetHoldsThePartUntilItsRelease := by
  refine ⟨fun s => ⟨?powerOn, ?assert⟩, heldPartActsOnNoPortAndNoTimer, ?release⟩
  case powerOn => exact ⟨fullReset s, rfl, allAtReset_fullReset s, rfl, rfl, rfl⟩
  case assert => exact ⟨_, rfl, allAtReset_fullReset s, rfl, rfl, rfl⟩
  case release =>
    intro s held
    simp only [exec, execResetRelease, held, if_true]
    rfl

/-! ### A load (R180) -/

/-- What a judgement makes of a load, in LOADING. -/
theorem exec_loadComplete_bad {memory : List Byte} {argument : Nat} {s : State} (ready : Ready s)
    (loading : s.phase = .loading) (bad : judgeImage memory = some argument) :
    exec (.loadComplete memory) s = .next (afterBadLoad argument s) := by
  refine exec_of_act (f := completeLoad memory) rfl ready.1 ?_ ready.2
  have loading' : (fresh s).phase = .loading := loading
  rw [completeLoad, if_pos loading', bad]
  rfl

/-- Settles O4: the judgement's checks in their order, each failing after those before it passed. -/
theorem badLoadHaltsThePart : Obligations.BadLoadHaltsThePart := by
  intro memory s ready loading
  have halts := fun argument => exec_loadComplete_bad (argument := argument) (memory := memory) ready loading
  have passes : wordAt memory 0 = 244 → wordAt memory 1 = 1 →
      judgeImage memory = if wordSum memory 244 ≠ 0 then some 3 else none := by
    intro length version
    simp only [judgeImage, length, version, imageLength]
    rfl
  have sum : (wordSum memory 244).toNat = ((List.range 244).map fun i => (wordAt memory i).toNat).sum % 65536 :=
    wordSum_toNat memory 244 (Nat.le_refl _)
  refine ⟨fun noLength => halts 1 ?_, fun some notErased wrong => halts 2 ?_, fun length version bad => halts 3 ?_,
    fun length version good => ?_⟩
  · simp only [judgeImage, noLength, if_true]
  · simp only [judgeImage, some, notErased, or_self, if_false]
    rcases wrong with version | length
    · rw [if_pos version]
    · rw [if_pos (show (wordAt memory 0).toNat ≠ imageLength from length), ite_self]
  · rw [passes length version, if_pos]
    intro zero
    rw [zero] at sum
    exact bad sum.symm
  · rw [passes length version, if_neg]
    exact Classical.not_not.mpr (BitVec.eq_of_toNat_eq (sum.trans good))

/-- The ambient level of a fallback code is that code (R158, R163). -/
theorem ambientLevel_fallback (n : Nat) : ambientLevel (16 * n) = n := by
  unfold ambientLevel
  omega

/-- The conditions raised over a list depend on the Shelf Port Unit alone. -/
theorem foldl_raise_spu {α : Type} (l : List α) (c : Condition) (n : α → Nat) (o : Block) {u v : State}
    (same : u.spu = v.spu) :
    (l.foldl (fun u z => raise c (n z) o u) u).spu = (l.foldl (fun u z => raise c (n z) o u) v).spu := by
  induction l generalizing u v with
  | nil => exact same
  | cons a rest ih => exact ih (by simp only [raise, same])

/-- Settles O5: each part of the state after a good load, as goodLoad_fields gives it. -/
theorem goodLoadEntersListening : Obligations.GoodLoadEntersListening := by
  intro memory s ready loading good image fault faulty
  obtain ⟨os, zones, levels, loaded, records, states⟩ := goodLoad_fields image (fresh s)
  have answers : exec (.loadComplete memory) s = .next (goodLoad image (fresh s)) := by
    refine exec_of_act (f := completeLoad memory) rfl ready.1 ?_ ?_
    · have loading' : (fresh s).phase = .loading := loading
      rw [completeLoad, if_pos loading', good]
    · rw [loaded]
      exact ready.2
  have line : ∀ l, lineOf (goodLoad image (fresh s)) l = loadedLine (image.lines.get l) := by
    intro l
    rw [loaded]
    exact Table.get_map ..
  have zone : ∀ z, zoneOf (goodLoad image (fresh s)) z = faultedRecord (fault z) (loadedZone (image.zones.get z)) := by
    intro z
    rw [loaded]
    exact records z
  have level : ∀ z, levelOf (goodLoad image (fresh s)) z = levels.get z := by
    intro z
    rw [loaded]
    rfl
  refine ⟨_, answers, ?_⟩
  simp only [line, zone, level, states, ambientLevel_fallback]
  rw [loaded]
  refine ⟨rfl, rfl, rfl, ?present, rfl, ?lines, fun g => rfl, ?zones, rfl, rfl, rfl, ?conditions, rfl⟩
  case present =>
    show ((s.clc.peers.modify image.address fun e => { e with state := .present }).get image.address).state = .present
    rw [Table.get_modify_self]
  case lines =>
    intro l
    exact ⟨rfl, rfl, rfl, rfl, rfl, rfl, rfl, rfl, rfl, rfl, rfl, rfl, rfl, rfl, rfl⟩
  case zones =>
    intro z
    cases fault z <;> cases inService : (image.zones.get z).inService <;>
      simp [faultedRecord, loadedZone, resetZone, inService]
  case conditions =>
    have raised := foldl_raise_spu faulty .ampFault (fun z => 4 * image.address.val + z.val) .zc (u := fresh s) (v := s) rfl
    rw [← raised]
    rfl

/-! ### JOIN (R14, R36) -/

/-- Settles O7: the STATUS and the AVAILABLE each find their place in the queue. -/
theorem joinAnnouncesThePart : Obligations.JoinAnnouncesThePart := by
  intro s ready link noStatus room
  refine exec_of_act (f := joinLink) rfl ready.1 ?_ ready.2
  have unqueued : sameHousekeepingQueued (.status .joining (assembleStatus s)) s.clc.queue = false := by
    simpa [sameHousekeepingQueued, isStatus, isProbe] using noStatus
  have status : queueStatus .joining (setLink .running (setPhase .running (fresh s)))
      = withQueued [.status .joining (assembleStatus s)]
          (setLink .running (setPhase .running (fresh s))) :=
    queueNotice_room _ _ (.inl rfl) unqueued (show s.clc.queue.length < txCapacity by omega)
  have link' : (fresh s).clc.link = .listening := link
  rw [joinLink, if_pos link', status, announceAvailable]
  by_cases none : allAvailable s = 0
  · have none' : allAvailable (withQueued [.status .joining (assembleStatus s)]
        (setLink .running (setPhase .running (fresh s)))) = 0 := none
    rw [if_pos none', newGroups, if_pos none]
    rfl
  · have some' : ¬ allAvailable (withQueued [.status .joining (assembleStatus s)]
        (setLink .running (setPhase .running (fresh s)))) = 0 := none
    rw [if_neg some', newGroups, if_neg none, queueNotice_running _ _ rfl rfl]
    · rw [withQueued_twice]
      rfl
    · show (s.clc.queue ++ _).length < txCapacity
      simp only [List.length_append, List.length_map, List.length_singleton]
      omega

end Sys2Proof.Machine
end

section
/-!
### Reading an image (chapter 11, R181, R182, R188)

How words, bytes and codes of the memory become numbers, and what `keepSlots` leaves of the membership slots; settles O6.
-/
namespace Sys2Proof.Machine

/-! ### Words, bytes and codes as numbers -/

theorem toNat_wordOf (high low : Byte) : (wordOf high low).toNat = 256 * high.toNat + low.toNat := by
  have bound := low.isLt
  rw [wordOf, BitVec.toNat_append, Nat.shiftLeft_eq, Nat.mul_comm, ← Nat.two_pow_add_eq_or_of_lt bound]

theorem highOf_eq (w : Word16) : highOf w = w.toNat / 256 := by
  have bound := w.isLt
  rw [highOf, highByte, BitVec.extractLsb'_toNat, Nat.shiftRight_eq_div_pow]
  omega

theorem lowOf_eq (w : Word16) : lowOf w = w.toNat % 256 := by
  rw [lowOf, lowByte, BitVec.extractLsb'_toNat]
  rfl

/-- A code of three bits stands `shift` bits up in its word. -/
theorem toNat_code (w : Word16) (shift : Nat) : (w.extractLsb' shift 3).toNat = w.toNat / 2 ^ shift % 8 := by
  rw [BitVec.extractLsb'_toNat, Nat.shiftRight_eq_div_pow]

/-- The group of a membership slot is the six bits above its low byte. -/
theorem toNat_slotGroup (w : Word16) : (w.extractLsb' 8 6).toNat = w.toNat / 256 % 64 := by
  rw [BitVec.extractLsb'_toNat, Nat.shiftRight_eq_div_pow]

theorem clamp_zero (hi n : Nat) : clamp 0 hi n = min hi n := by
  simp [clamp]

/-- A byte is at most 255, so a clamp to the range of a byte leaves it. -/
theorem clamp_highByte (w : Word16) : clamp 0 255 (w.toNat / 256) = w.toNat / 256 := by
  have bound := w.isLt
  rw [clamp_zero]
  omega

theorem byteAt_append_length (before after : List Byte) (b : Byte) {i : Nat} (h : before.length = i) :
    byteAt (before ++ b :: after) i = b := by
  subst h
  simp [byteAt]

theorem wordsAreReadHighByteFirst : Clause.WordsAreReadHighByteFirst := by
  intro before after high low i even
  have first : byteAt (before ++ high :: low :: after) (2 * i) = high := byteAt_append_length _ _ _ even
  have second : byteAt (before ++ high :: low :: after) (2 * i + 1) = low := by
    rw [List.append_cons]
    exact byteAt_append_length _ _ _ (by simp [even])
  rw [wordAt, first, second, toNat_wordOf]

theorem imageValuesStandAtTheirPlaces : Clause.ImageValuesStandAtTheirPlaces := by
  intro memory
  refine ⟨⟨rfl, rfl, rfl, rfl, ?mask⟩, ?line, ?group, ?zone, ?note⟩
  case mask =>
    intro i small
    simp [readImage, small]
  case line =>
    intro l
    simp only [readImage, Table.get_build, lineConfig, pickupCode, lowOf_eq, true_and]
    split <;> rfl
  case group =>
    intro g
    simp only [readImage, Table.get_build, groupConfig, Nat.add_zero]
    refine ⟨fun absent => if_neg (by rw [absent]; exact Bool.false_ne_true), fun present => ?_⟩
    rw [if_pos present]
    refine ⟨_, rfl, rfl, ?_⟩
    simp only [toNat_code, highOf_eq, lowOf_eq, clampFin, clamp_highByte, true_and]
    exact ⟨rfl, rfl, rfl, rfl, rfl, rfl, rfl, rfl, rfl⟩
  case zone =>
    intro z
    simp only [readImage, Table.get_build, zoneConfig, Nat.add_zero, wakeTime, clamp_zero, highOf_eq, lowOf_eq]
    simp only [clamp, true_and, and_true]
    refine ⟨?paging, Nat.mul_comm ..⟩
    intro n
    rw [BitVec.getLsbD_append]
    by_cases upper : 16 ≤ n.val
    · simp [upper, show ¬ n.val < 16 by omega]
    · simp [upper, show n.val < 16 by omega]
  case note =>
    intro n
    simp only [readImage, Table.get_build, clamp]

theorem imageValuesLieInTheirRanges : Clause.ImageValuesLieInTheirRanges := by
  intro memory
  refine ⟨clamp_range (by omega) _, clamp_range (by omega) _, ?group, ?zone, ?note⟩
  case group =>
    intro g p present
    simp only [readImage, Table.get_build, groupConfig] at present
    split at present
    · obtain rfl := Option.some.inj present
      obtain ⟨span, span'⟩ := clamp_range (lo := 1) (hi := 32) (by omega) (highOf (wordAt memory (87 + 7 * g.val + 1)))
      simp only [clamp]
      omega
    · contradiction
  case zone =>
    intro z
    simp only [readImage, Table.get_build]
    refine ⟨?_, ?_, ?_, levelParamsOk_zoneConfig memory z⟩ <;> simp only [zoneConfig, wakeTime, clamp] <;> omega
  case note =>
    intro n
    simp only [readImage, Table.get_build]
    exact clamp_range (by omega) _

/-! ### Memberships -/

/-- The two reasons for which a slot is not kept (R182): an earlier line holds its group and index, or its own line its group. -/
theorem keeps_append (earlier mine : List Membership) (m : Membership) :
    keeps (earlier ++ mine) mine m
      = !(earlier.any (fun x => decide (x.group = m.group ∧ x.index = m.index))
          || mine.any fun x => decide (x.group = m.group)) := by
  have weaker : mine.any (fun x => decide (x.group = m.group ∧ x.index = m.index)) = true →
      mine.any (fun x => decide (x.group = m.group)) = true := by
    simp only [List.any_eq_true, decide_eq_true_eq]
    rintro ⟨x, at_, same, _⟩
    exact ⟨x, at_, same⟩
  rw [keeps, List.any_append]
  revert weaker
  cases earlier.any (fun x => decide (x.group = m.group ∧ x.index = m.index)) <;>
    cases mine.any (fun x => decide (x.group = m.group ∧ x.index = m.index)) <;>
    cases mine.any (fun x => decide (x.group = m.group)) <;> simp

theorem keepSlots_eq_foldl (earlier mine slots : List Membership) :
    keepSlots earlier mine slots = slots.foldl (fun mine m =>
      if earlier.any (fun x => decide (x.group = m.group ∧ x.index = m.index))
          || mine.any fun x => decide (x.group = m.group) then mine else mine ++ [m]) mine := by
  induction slots generalizing mine with
  | nil => rfl
  | cons m rest ih =>
    rw [keepSlots, ih, List.foldl_cons, keeps_append]
    congr 1
    cases earlier.any (fun x => decide (x.group = m.group ∧ x.index = m.index))
        || mine.any (fun x => decide (x.group = m.group)) <;> simp

/-- Each line keeps its slots after what the lines before it have kept. -/
theorem buildMemberships_getD (earlier : List Membership) (slots : List (List Membership)) (k : Nat) :
    (buildMemberships earlier slots).getD k []
      = keepSlots (earlier ++ ((buildMemberships earlier slots).take k).flatten) [] (slots.getD k []) := by
  induction slots generalizing earlier k with
  | nil => simp [buildMemberships, keepSlots]
  | cons mine rest ih =>
    cases k with
    | zero => simp [buildMemberships]
    | succ k => simpa [buildMemberships] using ih (earlier ++ keepSlots earlier [] mine) k

theorem mem_flatten_take {α : Type} {lists : List (List α)} {k : Nat} {a : α} :
    a ∈ (lists.take k).flatten ↔ ∃ i < k, a ∈ lists.getD i [] := by
  induction lists generalizing k with
  | nil => simp
  | cons l rest ih =>
    cases k with
    | zero => simp
    | succ k =>
      rw [List.take_succ_cons, List.flatten_cons, List.mem_append, ih]
      constructor
      · rintro (now | ⟨i, before, later⟩)
        · exact ⟨0, by omega, now⟩
        · exact ⟨i + 1, by omega, later⟩
      · rintro ⟨i, before, there⟩
        cases i with
        | zero => exact .inl there
        | succ i => exact .inr ⟨i, by omega, there⟩

/-- The memberships that the lines of the image before line `l` have kept. -/
def keptBefore (memory : List Byte) (l : Line) : List Membership := ((membershipLists memory).take l.val).flatten

theorem mem_keptBefore {memory : List Byte} {l : Line} {m : Membership} :
    m ∈ keptBefore memory l ↔ ∃ n < l, m ∈ ((readImage memory).lines.get n).memberships := by
  simp only [keptBefore, mem_flatten_take, readImage, Table.get_build, lineConfig]
  constructor
  · rintro ⟨i, before, there⟩
    exact ⟨⟨i, by omega⟩, before, there⟩
  · rintro ⟨n, before, there⟩
    exact ⟨n.val, before, there⟩

theorem memberships_eq_keepSlots (memory : List Byte) (l : Line) :
    ((readImage memory).lines.get l).memberships = keepSlots (keptBefore memory l) [] (lineSlots memory l) := by
  have slots : (allLines.map (lineSlots memory)).getD l.val [] = lineSlots memory l := by
    simp [allLines]
  simp only [readImage, Table.get_build, lineConfig, membershipLists, keptBefore]
  rw [buildMemberships_getD, slots, List.nil_append]

theorem membershipSlot_eq (w : Word16) :
    membershipSlot w = if w.getLsbD 15 then
      some (⟨⟨min 15 (w.toNat / 256 % 64), by omega⟩, ⟨min 31 (w.toNat % 256), by omega⟩, w.getLsbD 14⟩ : Membership)
      else none := by
  simp only [membershipSlot, clampFin, lowOf_eq, toNat_slotGroup]

theorem membershipsAreKeptInTheirOrder : Clause.MembershipsAreKeptInTheirOrder := by
  intro memory l
  have earlier : ∀ m : Membership, (allLines.any fun n => decide (n < l) && (((readImage memory).lines.get n).memberships).any
      fun x => decide (x.group = m.group ∧ x.index = m.index))
      = (keptBefore memory l).any fun x => decide (x.group = m.group ∧ x.index = m.index) := by
    intro m
    rw [Bool.eq_iff_iff]
    simp only [List.any_eq_true, Bool.and_eq_true, decide_eq_true_eq, mem_keptBefore]
    constructor
    · rintro ⟨n, _, before, x, there, same⟩
      exact ⟨x, ⟨n, before, there⟩, same⟩
    · rintro ⟨x, ⟨n, before, there⟩, same⟩
      exact ⟨n, List.mem_finRange n, before, x, there, same⟩
  dsimp only
  simp only [earlier]
  rw [memberships_eq_keepSlots, keepSlots_eq_foldl, lineSlots]
  simp only [membershipSlot_eq]

/-- What the slots already kept for a line have, those kept after them have too: no group twice. -/
theorem keepSlots_pairwise (earlier slots : List Membership) {mine : List Membership}
    (h : mine.Pairwise fun x y => x.group ≠ y.group) :
    (keepSlots earlier mine slots).Pairwise fun x y => x.group ≠ y.group := by
  induction slots generalizing mine with
  | nil => exact h
  | cons m rest ih =>
    rw [keepSlots]
    apply ih
    split
    · next kept =>
      rw [keeps_append] at kept
      simp only [Bool.not_eq_true', Bool.or_eq_false_iff, List.any_eq_false, decide_eq_true_eq] at kept
      refine List.pairwise_append.2 ⟨h, List.pairwise_singleton .., ?_⟩
      intro x there y new
      rw [List.mem_singleton] at new
      exact new ▸ kept.2 x there
    · exact h

/-- A membership kept for a line is none that an earlier line holds. -/
theorem keepSlots_fresh (earlier slots : List Membership) {mine : List Membership}
    (h : ∀ a ∈ mine, ∀ x ∈ earlier, ¬ (x.group = a.group ∧ x.index = a.index)) :
    ∀ a ∈ keepSlots earlier mine slots, ∀ x ∈ earlier, ¬ (x.group = a.group ∧ x.index = a.index) := by
  induction slots generalizing mine with
  | nil => exact h
  | cons m rest ih =>
    rw [keepSlots]
    apply ih
    split
    · next kept =>
      rw [keeps_append] at kept
      simp only [Bool.not_eq_true', Bool.or_eq_false_iff, List.any_eq_false, decide_eq_true_eq] at kept
      intro a there x before
      rcases List.mem_append.1 there with old | new
      · exact h a old x before
      · rw [List.mem_singleton] at new
        exact new ▸ kept.1 x before
    · exact h

theorem keepSlots_length (earlier mine slots : List Membership) :
    (keepSlots earlier mine slots).length ≤ mine.length + slots.length := by
  induction slots generalizing mine with
  | nil => exact Nat.le_refl _
  | cons m rest ih =>
    rw [keepSlots]
    refine Nat.le_trans (ih _) ?_
    split <;> simp only [List.length_append, List.length_cons, List.length_nil] <;> omega

theorem lineSlots_length (memory : List Byte) (l : Line) : (lineSlots memory l).length ≤ 4 :=
  List.length_filterMap_le ..

/-- Two of a list in which no group stands twice are one when their groups are. -/
theorem eq_of_pairwise_group {l : List Membership} (h : l.Pairwise fun x y => x.group ≠ y.group) {a b : Membership}
    (ha : a ∈ l) (hb : b ∈ l) (same : a.group = b.group) : a = b := by
  induction h with
  | nil => cases ha
  | cons apart _ ih =>
    rcases List.mem_cons.1 ha with rfl | later
    · rcases List.mem_cons.1 hb with rfl | other
      · rfl
      · exact absurd same (apart b other)
    · rcases List.mem_cons.1 hb with rfl | other
      · exact absurd same.symm (apart a later)
      · exact ih later other

theorem keptMembershipsAreDistinct : Clause.KeptMembershipsAreDistinct := by
  intro memory l m a b ha hb
  have distinct : ∀ l, ((readImage memory).lines.get l).memberships.Pairwise fun x y => x.group ≠ y.group := by
    intro l
    rw [memberships_eq_keepSlots]
    exact keepSlots_pairwise _ _ .nil
  have later : ∀ {l m : Line} {a b : Membership}, l < m → a ∈ ((readImage memory).lines.get l).memberships →
      b ∈ ((readImage memory).lines.get m).memberships → ¬ (a.group = b.group ∧ a.index = b.index) := by
    intro l m a b before ha hb
    rw [memberships_eq_keepSlots] at hb
    exact keepSlots_fresh _ _ (fun _ none => absurd none List.not_mem_nil) b hb a (mem_keptBefore.2 ⟨l, before, ha⟩)
  refine ⟨?apart, ?same, ?length, distinct l⟩
  case apart =>
    intro ne both
    rcases Nat.lt_or_gt_of_ne (fun even => ne (Fin.ext even)) with before | after
    · exact later before ha hb both
    · exact later after hb ha ⟨both.1.symm, both.2.symm⟩
  case same =>
    rintro rfl
    exact eq_of_pairwise_group (distinct l) ha hb
  case length =>
    rw [memberships_eq_keepSlots]
    have bound := keepSlots_length (keptBefore memory l) [] (lineSlots memory l)
    have slots := lineSlots_length memory l
    simp only [List.length_nil] at bound
    omega

/-- Settles O6: each part by the lemma about it above. -/
theorem imageReadsIntoItsRanges : Obligations.ImageReadsIntoItsRanges :=
  ⟨wordsAreReadHighByteFirst, imageValuesStandAtTheirPlaces, membershipsAreKeptInTheirOrder, imageValuesLieInTheirRanges,
    keptMembershipsAreDistinct⟩

end Sys2Proof.Machine
end

section
/-!
### Attempts on the cabinet link (chapter 1, R2 to R16)

What an attempt takes from the queue, what its end leaves, and what the eighth drop and an acknowledged PROBE make of the part;
settles O8, O9 and O10.
-/
namespace Sys2Proof.Machine

/-! ### The start of an attempt (R2, R6, R7) -/

theorem noticesHaveTheirFields : Clause.NoticesHaveTheirFields := by
  intro src n
  have entry : ∀ k, noticeField src n = k → newEntry src n = ⟨n, k, 0, false, none⟩ := by
    rintro _ rfl
    rfl
  refine entry _ (congrArg (· + src.val) ?_)
  cases n with
  | pageStart b => cases cls : b.cls <;> simp [arbClass, arbKey, pageArbClass, cls]
  | pageEnd p cls r => cases cls <;> simp only [arbClass, arbKey, pageArbClass] <;> simp
  | bid c l i key =>
    show 2 * 4096 + key.val * 16 = 8192 + 16 * key.val
    omega
  | _ => simp only [arbClass, arbKey]

theorem transmits_iff (k : LinkState) : transmits k = true ↔ k = .running ∨ k = .isolated := by
  cases k <;> simp [transmits]

theorem attemptTakesTheLowestFieldFirstJoined : Clause.AttemptTakesTheLowestFieldFirstJoined := by
  intro s before after e ready link queue idle lower least
  refine exec_of_act (f := startAttempt) rfl ready.1 ?_ ready.2
  have sends : transmits (fresh s).clc.link = true := (transmits_iff _).2 link
  have free : attemptEntry (fresh s) = none := attemptEntry_none _ idle
  have lowest : lowestField (fresh s).clc.queue = some e.field := by
    rw [show (fresh s).clc.queue = before ++ e :: after from queue]
    exact lowestField_split before after e lower least
  have marked : markFirst e.field (assembled (fresh s)) (fresh s).clc.queue
      = before ++ { e with inAttempt := true, notice := assembled s e.notice } :: after := by
    rw [show (fresh s).clc.queue = before ++ e :: after from queue]
    exact markFirst_split (assembled s) before after e lower
  have driven : ∀ t : State, t.clc.queue = before ++ { e with inAttempt := true, notice := assembled s e.notice } :: after →
      drivenBits t = frameBits (own t) (assembled s e.notice) := by
    intro t there
    rw [drivenBits, attemptEntry_only t before after _ there rfl fun x hx =>
      idle x (by rw [queue]; exact List.mem_append_left _ hx)]
  simp only [startAttempt, sends, free, lowest, marked, onClc, Option.isNone_none, Bool.and_self, if_true]
  rw [driven _ rfl]
  rfl

theorem noAttemptWithoutNoticeOrOffTheLink : Clause.NoAttemptWithoutNoticeOrOffTheLink := by
  intro s ready none_
  refine exec_of_act (f := startAttempt) rfl ready.1 ?_ ready.2
  rw [startAttempt]
  rcases none_ with empty | ⟨notRunning, notIsolated⟩
  · have empty' : (fresh s).clc.queue = [] := empty
    rw [empty', lowestField]
    exact ite_self _
  · have quiet : transmits (fresh s).clc.link = false := by
      rw [Bool.eq_false_iff, Ne, transmits_iff]
      exact fun sends => sends.elim notRunning notIsolated
    rw [quiet]
    rfl

/-- Settles O8: the field of each kind, and the queue split at its lowest entry. -/
theorem attemptTakesTheLowestField : Obligations.AttemptTakesTheLowestField :=
  ⟨noticesHaveTheirFields, attemptTakesTheLowestFieldFirstJoined, noAttemptWithoutNoticeOrOffTheLink⟩

/-! ### The end of an attempt (R3, R5, R9 to R11) -/

/-- What the own blocks are told of a notice that is dropped (R9, R10). -/
def toldWhenDropped (e : TxEntry) : List Notice :=
  match e.request with
  | none => if isHousekeeping e.notice then [] else [e.notice]
  | some (.replace n) => if isHousekeeping n then [] else [n]
  | some .withdraw => []

/-- A withdrawal that waited ends no bid entry: the entry is no BID of a call the part still bids for. -/
abbrev EndsNoBid (e : TxEntry) (s : State) : Prop :=
  e.request = some .withdraw → ∀ c l i k, e.notice = .bid c l i k → bidOf s c = none

theorem tellWithdrawn_of_endsNoBid {e : TxEntry} {s : State} (h : EndsNoBid e s) : tellWithdrawn e s = s := by
  unfold tellWithdrawn
  split
  · next c l i k asked notice => rw [bidWithdrawn, h asked c l i k notice]
  · rfl

theorem deliverLater_quiet (n : Notice) {s : State} (quiet : s.deliveries = []) :
    deliverLater n s = { s with deliveries := if isHousekeeping n then [] else [n] } := by
  cases hk : isHousekeeping n
  · exact deliverLater_one n s hk quiet
  · rw [deliverLater_housekeeping n s hk, if_pos rfl, ← quiet]

theorem dropDelivery_eq {e : TxEntry} {s : State} (quiet : s.deliveries = []) (ends : EndsNoBid e s) :
    dropDelivery e s = { s with deliveries := toldWhenDropped e } := by
  unfold dropDelivery toldWhenDropped
  cases asked : e.request with
  | none => exact deliverLater_quiet e.notice quiet
  | some r =>
    cases r with
    | withdraw =>
      show tellWithdrawn e s = _
      rw [tellWithdrawn_of_endsNoBid ends, ← quiet]
    | replace n => exact deliverLater_quiet n quiet

section
variable {s : State} {before after : List TxEntry} {e : TxEntry}

theorem attemptEntry_of_only (queue : s.clc.queue = before ++ e :: after) (only : OnlyAttempt e before after) :
    attemptEntry s = some e :=
  attemptEntry_only s before after e queue only.1 fun x hx => only.2 x (List.mem_append_left _ hx)

theorem endAttempt_settle (queue : s.clc.queue = before ++ e :: after) (only : OnlyAttempt e before after) :
    endAttempt settleQueue s = withQueue (before ++ (settleEntry e).toList ++ after) s := by
  rw [endAttempt, onClc, queue, settleQueue_split before after e only, withQueue]

theorem endAttempt_drop (queue : s.clc.queue = before ++ e :: after) (only : OnlyAttempt e before after) :
    endAttempt dropAttempt s = withQueue (before ++ after) s := by
  rw [endAttempt, onClc, queue, dropAttempt_split before after e only, withQueue]

theorem endAttempt_count (queue : s.clc.queue = before ++ e :: after) (only : OnlyAttempt e before after) :
    endAttempt (fun q => settleQueue (countFailure q)) s
      = withQueue (before ++ (settleEntry { e with failed := e.failed + 1 }).toList ++ after) s := by
  have counted : OnlyAttempt { e with failed := e.failed + 1 } before after := only
  rw [endAttempt, onClc, queue]
  simp only [countFailure_split before after e only, settleQueue_split before after _ counted, withQueue]

theorem loseArbitration_split (queue : s.clc.queue = before ++ e :: after) (only : OnlyAttempt e before after)
    (ends : EndsNoBid e s) : loseArbitration s = withQueue (before ++ (settleEntry e).toList ++ after) s := by
  have ends' : EndsNoBid e (withQueue (before ++ (settleEntry e).toList ++ after) s) := ends
  rw [loseArbitration, attemptEntry_of_only queue only]
  simp only [endAttempt_settle queue only, tellWithdrawn_of_endsNoBid ends']

theorem failAttempt_counted (queue : s.clc.queue = before ++ e :: after) (only : OnlyAttempt e before after)
    (fewer : e.failed < 3) (asked : e.request = none) :
    failAttempt s = withQueue (before ++ { e with inAttempt := false, failed := e.failed + 1 } :: after) s := by
  have ends : ∀ t, EndsNoBid e t := fun t withdraws => absurd withdraws (by simp [asked])
  have settled : settleEntry { e with failed := e.failed + 1 }
      = some { e with inAttempt := false, failed := e.failed + 1 } := by
    simp only [settleEntry, asked]
  have below : e.failed + 1 < failureLimit := Nat.succ_lt_succ fewer
  rw [failAttempt, attemptEntry_of_only queue only]
  simp only [if_pos below, endAttempt_count queue only, tellWithdrawn_of_endsNoBid (ends _), settled, Option.toList_some,
    List.append_assoc, List.singleton_append]

/-- The fourth failed attempt: the notice leaves, its own delivery runs, and the drop is counted. -/
theorem failAttempt_dropped (queue : s.clc.queue = before ++ e :: after) (only : OnlyAttempt e before after)
    (third : e.failed = 3) (quiet : s.deliveries = []) (ends : EndsNoBid e s) :
    failAttempt s = countDrop (kindCode e.notice)
      (deliverAll { withQueue (before ++ after) s with deliveries := toldWhenDropped e }) := by
  have limit : ¬ e.failed + 1 < failureLimit := by rw [third]; decide
  have ends' : EndsNoBid e (withQueue (before ++ after) s) := ends
  rw [failAttempt, attemptEntry_of_only queue only]
  simp only [if_neg limit, endAttempt_drop queue only]
  rw [dropDelivery_eq (by exact quiet) ends']

theorem acknowledge_split (queue : s.clc.queue = before ++ e :: after) (only : OnlyAttempt e before after) :
    acknowledge s = if isProbe e.notice && decide (s.clc.link = .isolated) then rejoin (afterAttempt (before ++ after) 0 s)
      else deliverLater e.notice (afterAttempt (before ++ after) 0 s) := by
  have ended : clearDrops (endAttempt dropAttempt s) = afterAttempt (before ++ after) 0 s := by
    rw [endAttempt_drop queue only, clearDrops, onClc, withQueue, afterAttempt]
  rw [acknowledge, attemptEntry_of_only queue only]
  simp only [ended]
  rfl

end

theorem countDrop_below {kind : Nat} {s : State} (link : s.clc.link = .running) (below : s.clc.dropRun < 7) :
    countDrop kind s = { s with clc := { s.clc with dropRun := s.clc.dropRun + 1 } } := by
  have count : min dropLimit (s.clc.dropRun + 1) = s.clc.dropRun + 1 := by unfold dropLimit; omega
  have notLimit : s.clc.dropRun + 1 ≠ dropLimit := by unfold dropLimit; omega
  simp only [countDrop, if_pos link, onClc, count, if_neg notLimit]

theorem countDrop_isolated {kind : Nat} {s : State} (link : s.clc.link = .isolated) : countDrop kind s = s := by
  rw [countDrop, link, if_neg (by decide)]

/-- The eighth drop in succession: the part enters ISOLATED. -/
theorem countDrop_eighth {kind : Nat} {s : State} (link : s.clc.link = .running) (seven : s.clc.dropRun = 7) :
    countDrop kind s = tellIsolated (flushQueue (raise .isolated kind .clc
      { s with clc := { s.clc with link := .isolated, dropRun := 8 } })) := by
  simp only [countDrop, if_pos link, onClc, seven]
  rfl

theorem lostArbitrationIsNoFailedAttempt : Clause.LostArbitrationIsNoFailedAttempt := by
  intro s before after e ready queue only
  have queue' : (fresh s).clc.queue = before ++ e :: after := queue
  have lost : ∀ {after' : List TxEntry}, EndsNoBid e s → (settleEntry e).toList ++ after = after' →
      exec .arbitrationLost s = .next (withOutputs [] (withQueue (before ++ after') s)) := by
    rintro _ ends rfl
    refine exec_of_act (f := loseArbitration) rfl ready.1 ?_ ready.2
    rw [loseArbitration_split queue' only ends, List.append_assoc]
    rfl
  refine ⟨fun asked => ?plain, fun n asked => ?replaced, fun asked ends => ?withdrawn⟩
  case plain => exact lost (fun withdraws => absurd withdraws (by simp [asked])) (by simp only [settleEntry, asked]; rfl)
  case replaced => exact lost (fun withdraws => absurd withdraws (by simp [asked])) (by simp only [settleEntry, asked]; rfl)
  case withdrawn => exact lost (fun _ => ends) (by simp only [settleEntry, asked]; rfl)

theorem failedAttemptIsCounted : Clause.FailedAttemptIsCounted := by
  intro s before after e ready queue only fewer asked
  refine exec_of_act (f := failAttempt) rfl ready.1 ?_ ready.2
  exact failAttempt_counted queue only fewer asked

theorem acknowledgementClearsTheDropRun : Clause.AcknowledgementClearsTheDropRun := by
  intro s before after e ready queue only housekeeping noProbe
  refine exec_of_act (f := acknowledge) rfl ready.1 ?_ ready.2
  have stays : ¬ (isProbe e.notice && decide ((fresh s).clc.link = .isolated)) = true := by
    intro rejoins
    obtain ⟨probe, isolated⟩ := Bool.and_eq_true_iff.1 rejoins
    exact absurd probe (by rw [noProbe (of_decide_eq_true isolated)]; decide)
  rw [acknowledge_split (s := fresh s) queue only, if_neg stays, deliverLater_housekeeping _ _ housekeeping]
  rfl

theorem acknowledgedNoticeReachesItsOwnBlocks : Clause.AcknowledgedNoticeReachesItsOwnBlocks := by
  intro s u before after e ready queue only delivered
  obtain ⟨block, noProbe⟩ := delivered_notice delivered
  refine exec_delivered (f := acknowledge) rfl ready.1 ?_ delivered
  rw [acknowledge_split (s := fresh s) queue only, noProbe, Bool.false_and, if_neg Bool.false_ne_true,
    deliverLater_one e.notice _ block (by exact ready.2)]
  rfl

/-- Settles O9: the queue split at the entry in the attempt, and the own delivery of what leaves it. -/
theorem attemptsEndSentLostOrFailed : Obligations.AttemptsEndSentLostOrFailed :=
  ⟨lostArbitrationIsNoFailedAttempt, failedAttemptIsCounted, acknowledgementClearsTheDropRun,
    acknowledgedNoticeReachesItsOwnBlocks⟩

/-! ### Leaving the link and coming back (R10, R11, R15, R16) -/

theorem fourthFailureDropsTheNotice : Clause.FourthFailureDropsTheNotice := by
  intro s before after e ready queue only third asked housekeeping
  have ends : EndsNoBid e (fresh s) := fun withdraws => absurd withdraws (by simp [asked])
  have silent : toldWhenDropped e = [] := by simp only [toldWhenDropped, asked, housekeeping, if_true]
  have dropped : failAttempt (fresh s) = countDrop (kindCode e.notice) (withOutputs [] (withQueue (before ++ after) s)) := by
    rw [failAttempt_dropped (s := fresh s) queue only third ready.2 ends, silent, deliverAll_nil _ rfl, ← ready.2]
    rfl
  refine ⟨fun link below => ?running, fun link => ?isolated, fun link seven rest lines offers => ?enters⟩
  case running =>
    refine exec_of_act (f := failAttempt) rfl ready.1 ?_ ready.2
    rw [dropped, countDrop_below (by exact link) (by exact below)]
    rfl
  case isolated =>
    refine exec_of_act (f := failAttempt) rfl ready.1 ?_ ready.2
    rw [dropped, countDrop_isolated (by exact link)]
  case enters =>
    refine exec_of_act (f := failAttempt) rfl ready.1 ?_ ready.2
    rw [dropped, countDrop_eighth (by exact link) (by exact seven), flushQueue_housekeeping _ (by exact ready.2) (by exact rest),
      tellIsolated_quiet _ (by exact lines) (by exact offers)]
    rfl

theorem droppedNoticeReachesItsOwnBlocks : Clause.DroppedNoticeReachesItsOwnBlocks := by
  intro s u before after e ready queue only third link below
  refine ⟨fun n told delivered => ?delivered, fun asked ends => ?withdrawn⟩
  case delivered =>
    obtain ⟨block, -⟩ := delivered_notice delivered
    have ends : EndsNoBid e (fresh s) := by
      intro withdraws
      rcases told with ⟨asked, -⟩ | asked <;> exact absurd withdraws (by simp [asked])
    have notice : toldWhenDropped e = [n] := by
      rcases told with ⟨asked, rfl⟩ | asked <;> simp only [toldWhenDropped, asked, block] <;> rfl
    obtain ⟨all, quiet, linkKept, dropKept⟩ := deliverAll_of delivered
    refine exec_of_act (f := failAttempt) rfl ready.1 ?_ (by exact quiet)
    rw [failAttempt_dropped (s := fresh s) queue only third ready.2 ends, notice]
    refine Eq.trans (congrArg _ all) ?_
    rw [countDrop_below (linkKept.trans link) (by rw [dropKept]; exact below), dropKept]
    rfl
  case withdrawn =>
    have silent : toldWhenDropped e = [] := by simp only [toldWhenDropped, asked]
    refine exec_of_act (f := failAttempt) rfl ready.1 ?_ ready.2
    rw [failAttempt_dropped (s := fresh s) queue only third ready.2 (fun _ => ends), silent, deliverAll_nil _ rfl,
      countDrop_below (by exact link) (by exact below), ← ready.2]
    rfl

/-- REJOIN with nothing queued, before the zones are freed (R16). -/
theorem rejoin_eq {s : State} (empty : s.clc.queue = []) : rejoin s = zoneRejoin (raise .rejoined 0 .clc
    { s with
        clc := { s.clc with
          link := .running
          queue := [newEntry (own s) (.status .rejoining (assembleStatus s))]
          peers := Table.build 16 fun p => if p = own s then peerOf s p else resetPeer }
        ppu := { s.ppu with view := [] }
        pgo := { s.pgo with view := s.pgo.view.map fun h => h.filter fun x => decide (x.page.cab = own s) } }) := by
  have status : queueStatus .rejoining (setLink .running (forgetPeers s))
      = withQueued [.status .rejoining (assembleStatus s)] (setLink .running (forgetPeers s)) := by
    refine queueNotice_room _ _ (.inl rfl) ?_ ?_
    · rw [show (setLink .running (forgetPeers s)).clc.queue = [] from empty]
      simp [sameHousekeepingQueued]
    · rw [show (setLink .running (forgetPeers s)).clc.queue = [] from empty]
      decide
  have gone : ∀ t : State, viewRemove (fun _ => true) t = { t with ppu := { t.ppu with view := [] } } := by
    intro t
    simp [viewRemove, onPpu]
  rw [rejoin]
  dsimp only
  rw [status, gone, pgoRejoin, freeView_filter]
  simp only [Bool.not_not, forgetPeers, withQueued, setLink, onClc, empty, List.nil_append]
  rfl

/-- What each step of a chain passes on, the chain does. -/
theorem Chain.holds {α : Type} {happens : α → State → State → Prop} {P : State → Prop} {l : List α} {s t : State}
    (step : ∀ a u v, happens a u v → P u → P v) (h : Chain happens l s t) (first : P s) : P t := by
  induction l generalizing s with
  | nil => exact (show t = s from h) ▸ first
  | cons a rest ih =>
    obtain ⟨u, now, later⟩ := h
    exact ih later (step a s u now first)

/-- Pages that leave the zones of a part that is on the link leave nothing for own delivery. -/
theorem zonesFreed_quiet {gone : PageEntry → Bool} {s t : State} (h : Chain (ZoneFreed gone) allZones s t)
    (onLink : cutOff s = false) : t.deliveries = s.deliveries :=
  (Chain.holds (P := fun v => cutOff v = false ∧ v.deliveries = s.deliveries) (fun z u v freed kept => by
    obtain ⟨-, -, -, quiet, link, -⟩ := zoneFreed_frame freed
    refine ⟨?_, (quiet kept.1).trans kept.2⟩
    rw [cutOff, link]
    exact kept.1) h ⟨onLink, rfl⟩).2

theorem acknowledgedProbeRejoins : Clause.AcknowledgedProbeRejoins := by
  intro s t e ready link queue inAttempt probe freed
  have only : OnlyAttempt e [] [] := ⟨inAttempt, fun x none_ => absurd none_ List.not_mem_nil⟩
  have rejoins : (isProbe e.notice && decide ((fresh s).clc.link = .isolated)) = true := by
    rw [probe, show (fresh s).clc.link = .isolated from link]
    rfl
  have quiet : t.deliveries = [] := (zonesFreed_quiet freed rfl).trans ready.2
  refine exec_of_act (f := acknowledge) rfl ready.1 ?_ quiet
  rw [acknowledge_split (s := fresh s) (before := []) (after := []) queue only, if_pos rejoins, rejoin_eq rfl]
  exact zonesFreed_of freed

theorem eighthDropEntersIsolated : Clause.EighthDropEntersIsolated := by
  intro s u v a b t before after e told ready queue only third link seven ends told_eq first flush offers lines last
  have told' : toldWhenDropped e = told := by
    subst told_eq
    unfold toldWhenDropped
    cases asked : e.request with
    | none => rfl
    | some r => cases r <;> rfl
  obtain ⟨all, quiet, linkKept, dropKept⟩ := deliverAll_of first
  refine exec_delivered (f := failAttempt) rfl ready.1 ?_ last
  rw [failAttempt_dropped (s := fresh s) queue only third ready.2 (fun asked c l i k notice => ends c l i k asked notice), told']
  have all' : deliverAll { withQueue (before ++ after) (fresh s) with deliveries := told } = u := by
    rw [← all, ← seven]
    rfl
  rw [all', countDrop_eighth (linkKept.trans link) dropKept, flushQueue_of (by exact quiet) flush, tellIsolated_of offers lines]

/-- Settles O10: the eighth drop, the drops before it, and REJOIN. -/
theorem leavingAndRejoiningTheLink : Obligations.LeavingAndRejoiningTheLink :=
  ⟨fourthFailureDropsTheNotice, droppedNoticeReachesItsOwnBlocks, acknowledgedProbeRejoins, eighthDropEntersIsolated⟩

end Sys2Proof.Machine
end

section
/-!
### Frames heard, and the own address (chapter 1, R4, R12, R17, R19)

Settles O11 and O12.
-/
namespace Sys2Proof.Machine

/-- A heard frame acts as `hear` with its source, handed over in every reading link state or in RUNNING alone. -/
theorem exec_heard {c : Instr} {src : Cabinet} (h : heardSource c = some src) :
    ∃ take, ∀ s, exec c s = act (hear src (handedEverywhere c) take) s := by
  cases c <;> cases h
  all_goals exact ⟨_, fun _ => rfl⟩

theorem hear_deaf {src : Cabinet} {everywhere : Bool} {take : State → State} {s : State}
    (deaf : readsBus s.clc.link = false) : hear src everywhere take s = s := by
  rw [hear, deaf]
  rfl

theorem touchPeer_link (src : Cabinet) (s : State) : (touchPeer src s).clc.link = s.clc.link := by
  unfold touchPeer
  dsimp only
  split <;> rfl

/-- Outside RUNNING a frame of another kind than the four leaves what a PROBE leaves (R12). -/
theorem hear_elsewhere {src : Cabinet} {take : State → State} {s : State} (link : s.clc.link ≠ .running) :
    hear src false take s = hear src false id s := by
  have same : ∀ u : State, u.clc.link = s.clc.link →
      (if handsOver false u.clc.link = true then take u else u) = if handsOver false u.clc.link = true then id u else u := by
    intro u kept
    rw [kept, handsOver, decide_eq_false link]
    rfl
  unfold hear
  dsimp only
  rw [same (touchPeer src (emit _ s)) (touchPeer_link ..)]

theorem hear_probe {src : Cabinet} {s : State} (reads : readsBus s.clc.link = true) (other : src ≠ own s) :
    hear src false id s = touchPeer src (emit (.acknowledge (decide (s.clc.link ≠ .listenOnly))) s) := by
  have other' : src ≠ own (emit (.acknowledge (decide (s.clc.link ≠ .listenOnly))) s) := other
  rw [hear, if_pos reads]
  dsimp only
  rw [if_neg other', id, ite_self]

theorem badFramesAreNotHeard : Clause.BadFramesAreNotHeard := by
  intro s ready
  refine ⟨exec_of_act (f := id) rfl ready.1 rfl ready.2, fun reads => ?_, fun deaf => ?_⟩
  · refine exec_of_act (f := ignoreFrame) rfl ready.1 ?_ ready.2
    have reads' : readsBus (fresh s).clc.link = true := reads
    rw [ignoreFrame, if_pos reads']
    rfl
  · refine exec_of_act (f := ignoreFrame) rfl ready.1 ?_ ready.2
    have deaf' : readsBus (fresh s).clc.link = false := deaf
    rw [ignoreFrame, deaf']
    rfl

theorem heardFrameUpdatesThePeerTable : Clause.HeardFrameUpdatesThePeerTable := by
  intro s src kind length ready reads other
  have heard : hear src false id (fresh s) = touchPeer src (withOutputs [.acknowledge (decide (s.clc.link ≠ .listenOnly))] s) :=
    hear_probe (s := fresh s) reads other
  refine ⟨rfl, fun present => ?_, fun absent => ?_⟩
  · refine exec_of_act (f := hear src false id) rfl ready.1 (heard.trans ?_) ready.2
    rw [touchPeer_present src _ (by exact present)]
    rfl
  · refine exec_of_act (f := hear src false id) rfl ready.1 (heard.trans ?_) ready.2
    rw [touchPeer_returned src _ (by exact absent)]
    rfl

theorem outsideRunningFourKindsAreHandedOver : Clause.OutsideRunningFourKindsAreHandedOver := by
  intro s c src ready source
  obtain ⟨take, acts⟩ := exec_heard source
  refine ⟨fun link alone => ?_, fun deaf => ?_⟩
  · have same : hear src false take (fresh s) = hear src false id (fresh s) := hear_elsewhere link
    rw [acts, alone, show exec (.probe src) s = act (hear src false id) s from rfl, act, act, same]
  · exact exec_of_act (acts s) ready.1 (hear_deaf deaf) ready.2

/-- Settles O11: the frame as the peer table and the link state take it. -/
theorem framesHeardReachThePeerTable : Obligations.FramesHeardReachThePeerTable :=
  ⟨badFramesAreNotHeard, heardFrameUpdatesThePeerTable, outsideRunningFourKindsAreHandedOver⟩

/-! ### The own address (R17) -/

theorem hear_own {everywhere : Bool} {take : State → State} {s : State} (reads : readsBus s.clc.link = true) :
    hear (own s) everywhere take (fresh s)
      = duplicateAddress (withOutputs [.acknowledge (decide (s.clc.link ≠ .listenOnly))] s) := by
  have reads' : readsBus (fresh s).clc.link = true := reads
  rw [hear, if_pos reads']
  exact if_pos rfl

theorem readsBus_tells {k : LinkState} (reads : readsBus k = true) (on : k ≠ .listenOnly) :
    tellsIsolation k = !decide (k = .isolated) := by
  cases k with
  | loading | halted => cases reads
  | listenOnly => exact absurd rfl on
  | listening | running | isolated => rfl

theorem ownAddressHeardGoesToListenOnly_quiet : Clause.OwnAddressHeardGoesToListenOnly := by
  intro s c ready source
  obtain ⟨take, acts⟩ := exec_heard source
  refine ⟨fun reads on housekeeping idle lines offers => ?enters, fun link => ?ignored⟩
  case enters =>
    refine exec_of_act (acts s) ready.1 ((hear_own reads).trans ?_) ready.2
    have idle' : loseArbitration (withOutputs [.acknowledge (decide (s.clc.link ≠ .listenOnly))] s)
        = withOutputs [.acknowledge (decide (s.clc.link ≠ .listenOnly))] s := by
      rw [loseArbitration, attemptEntry_none _ (by exact idle)]
    have on' : (withOutputs [.acknowledge (decide (s.clc.link ≠ .listenOnly))] s).clc.link ≠ .listenOnly := on
    rw [duplicateAddress, if_neg on', idle']
    dsimp only
    rw [flushQueue_housekeeping _ (by exact ready.2) (by exact housekeeping), tellIsolated_quiet _ (by exact lines)
      (by exact offers), ite_self, decide_eq_true on]
    rfl
  case ignored =>
    have reads : readsBus s.clc.link = true := by rw [link]; rfl
    refine exec_of_act (acts s) ready.1 ((hear_own reads).trans ?_) ready.2
    have off : (withOutputs [.acknowledge (decide (s.clc.link ≠ .listenOnly))] s).clc.link = .listenOnly := link
    rw [duplicateAddress, if_pos off, link]
    rfl

theorem duplicateAddressEndsWhatTheLinkCarried : Clause.DuplicateAddressEndsWhatTheLinkCarried := by
  intro s v c ready source reads on noRequest flush
  obtain ⟨take, acts⟩ := exec_heard source
  have acknowledged : decide (s.clc.link ≠ .listenOnly) = true := decide_eq_true on
  obtain ⟨lost, kept⟩ := loseArbitration_flushed (withOutputs [.acknowledge true] s) noRequest
  have flushedAs : flushQueue (setLink .listenOnly (raise .duplicateAddress (own s).val .clc
      (loseArbitration (withOutputs [.acknowledge true] s)))) = v := by
    refine flushQueue_of (kept.trans ready.2) ?_
    rw [show ∀ u, flushed (setLink .listenOnly (raise .duplicateAddress (own s).val .clc u))
      = setLink .listenOnly (raise .duplicateAddress (own s).val .clc (flushed u)) from fun _ => rfl, lost]
    exact flush
  have entered : hear (own s) (handedEverywhere c) take (fresh s)
      = if tellsIsolation s.clc.link then tellIsolated v else v := by
    have on' : (withOutputs [.acknowledge true] s).clc.link ≠ .listenOnly := on
    rw [hear_own reads, acknowledged, duplicateAddress, if_neg on']
    dsimp only
    rw [show own (withOutputs [.acknowledge true] s) = own s from rfl, flushedAs]
    rfl
  rw [readsBus_tells reads on] at entered
  refine ⟨fun isolated => ?_, fun notIsolated a b t offers lines last => ?_⟩
  · refine exec_of_act (acts s) ready.1 (entered.trans ?_) (deliverAll_of flush).2.1
    rw [isolated]
    rfl
  · refine exec_delivered (acts s) ready.1 (entered.trans ?_) last
    rw [decide_eq_false notIsolated, Bool.not_false, if_pos rfl, tellIsolated_of offers lines]

/-- Settles O12: the entry to LISTEN-ONLY with nothing to end, and with what the link carried. -/
theorem ownAddressHeardGoesToListenOnly : Obligations.OwnAddressHeardGoesToListenOnly :=
  ⟨ownAddressHeardGoesToListenOnly_quiet, duplicateAddressEndsWhatTheLinkCarried⟩

end Sys2Proof.Machine
end

section
/-!
### STATUS heard, the link's timers, and a peer's silence (chapter 1, R7, R8, R16, R19 to R21, R140)

Settles O13, O14 and O15.
-/
namespace Sys2Proof.Machine

/-! ### The zones at a STATUS (R140) -/

/-- An EVAC page that no place of a zone holds reaches a zone in service and without a fault. -/
theorem acceptAt_evac {p : PageId} {z : LocalZone} {s : State} (free : holdsPage (zoneOf s z) p = false)
    (inService : (zoneOf s z).state ≠ .outOfService) (sound : (zoneOf s z).state ≠ .fault) :
    acceptAt ⟨p, .evac, .all, none, false, false, none⟩ z s = evacAccept z p s := by
  simp [acceptAt, accept, entryOf, inTarget, free, inService, sound]

/-- The only page of the evacuation set leaves an evacuating zone with nothing held or pending. -/
theorem leaveActive_last {z : LocalZone} {s : State} (held : (zoneOf s z).held = none) (pending : (zoneOf s z).pending = []) :
    leaveActive z s = lastLeaves z s := by
  rw [leaveActive, ← lastPageGone_eq]
  simp only [resumeChoice, onZone_eq, zoneOf_withZone_self, held, pending]

theorem lastLeaves_others {y z : LocalZone} (s : State) (other : y ≠ z) : zoneOf (lastLeaves z s) y = zoneOf s y := by
  simp only [lastLeaves, levelSet, zoneEnters, patternStops]
  split <;> simp [zoneOf_withZone_ne _ _ other]

theorem joinEvac_new {p : PageId} {set : List PageId} (new : ∀ x ∈ set, x.cab ≠ p.cab) : joinEvac p set = set ++ [p] := by
  have absent : ¬ set.any (fun e => decide (e.cab = p.cab)) = true := by simpa using new
  rw [joinEvac, if_neg absent]

/-- A page id joins the set of a zone that is evacuating already (R139). -/
theorem evacAccept_joins {z : LocalZone} {p : PageId} {s : State} (had : (zoneOf s z).evac ≠ [])
    (new : ∀ x ∈ (zoneOf s z).evac, x.cab ≠ p.cab) (phase : s.phase = .running) (room : Room 1 s) :
    evacAccept z p s = zoneReports z p .playing (withZone z { zoneOf s z with evac := (zoneOf s z).evac ++ [p] } s) := by
  rw [evacAccept, if_neg had, onZone_eq, joinEvac_new new]
  exact report_room _ _ _ _ (by exact phase) (room.of_clc rfl)

/-- The evacuation starts in a RELEASED zone with a wake time (R133, R139). -/
theorem evacAccept_wakes {z : LocalZone} {p : PageId} {s : State} (empty : (zoneOf s z).evac = [])
    (idle : (zoneOf s z).active = none) (released : (zoneOf s z).state = .released) (wake : 0 < (zoneOf s z).cfg.wake)
    (phase : s.phase = .running) (room : Room 1 s) :
    evacAccept z p s = zoneReports z p .playing (raise .evacActive (numberOf s z).val .zc
      (levelSet z (zoneOf s z).cfg.level.floor
        (zoneEnters z { zoneOf s z with evac := [p], active := some .evacuation, state := .waking } true .none s))) := by
  have joined : joinEvac p (zoneOf s z).evac = [p] := by rw [empty, joinEvac_new (by simp), List.nil_append]
  have starts : activate z .evacuation .tone (withZone z { zoneOf s z with evac := [p] } s)
      = levelSet z (zoneOf s z).cfg.level.floor
          (zoneEnters z { zoneOf s z with evac := [p], active := some .evacuation, state := .waking } true .none s) := by
    rw [activate_waits z .evacuation .tone _ (by rw [zoneOf_withZone_self]; exact released)
      (by rw [zoneOf_withZone_self]; exact Nat.ne_of_gt wake)]
    simp only [zoneOf_withZone_self, zoneEnters, withZone_twice, levelClass, levelOf_withZone, targetOf]
    rfl
  rw [evacAccept, if_pos empty]
  dsimp only
  rw [displaceActive_none z s idle, onZone_eq, joined, starts]
  exact report_room _ _ _ _ (by exact phase) (room.of_clc rfl)

theorem removeEvac_kept {z : LocalZone} {gone : PageId → Bool} {s : State} {rest : List PageId}
    (left : (zoneOf s z).evac.filter (fun e => !gone e) = rest) (some_ : rest ≠ []) :
    removeEvac z gone s = withZone z { zoneOf s z with evac := rest } s := by
  have stays : ¬ ((zoneOf s z).evac ≠ [] ∧ rest = []) := fun both => some_ both.2
  simp only [removeEvac, left, onZone_eq, if_neg stays]

theorem removeEvac_last {z : LocalZone} {gone : PageId → Bool} {s : State} {p : PageId} (only : (zoneOf s z).evac = [p])
    (picked : gone p = true) (active : (zoneOf s z).active = some .evacuation) (held : (zoneOf s z).held = none)
    (pending : (zoneOf s z).pending = []) :
    removeEvac z gone s = lastLeaves z (withZone z { zoneOf s z with evac := [] } s) := by
  have left : (zoneOf s z).evac.filter (fun e => !gone e) = [] := by simp [only, picked]
  have had : (zoneOf s z).evac ≠ [] := by simp [only]
  have evacuates : evacuating { zoneOf s z with evac := [] } = true := by simp [evacuating, active]
  simp only [removeEvac, left, onZone_eq, zoneOf_withZone_self]
  rw [if_pos ⟨had, trivial⟩, if_pos evacuates, leaveActive_last (by rw [zoneOf_withZone_self]; exact held)
    (by rw [zoneOf_withZone_self]; exact pending)]

/-! ### A STATUS heard (R19, R21, R108, R140) -/

section
variable {s : State} {src : Cabinet} {b : RawStatus} {f : LinkField} {e : Option PageId} {t : Table 4 (Option ChannelHold)}

@[simp] theorem zoneOf_statusTaken (z : LocalZone) : zoneOf (statusTaken src f e t s) z = zoneOf s z := rfl

theorem evac_statusTaken : ((statusTaken src f e t s).clc.peers.get src).evac = e := by
  simp [statusTaken, withQueued, withPeer]

theorem room_statusTaken (heard : StatusHeard src b f e t s) : Room 1 (statusTaken src f e t s) := by
  obtain ⟨⟨-, link, room⟩, -⟩ := heard
  refine .inr ⟨link, ?_⟩
  cases f <;> simp [statusTaken, withQueued, withPeer] <;> omega

/-- A STATUS leaves what the zones make of it. -/
theorem exec_status {u : State} (heard : StatusHeard src b f e t s)
    (zones : zoneStatus src (withOutputs [.acknowledge true] (statusTaken src f e t s)) = u) (quiet : u.deliveries = []) :
    exec (.status src b) s = .next u :=
  exec_of_act (f := hear src true (heardStatus src b)) rfl heard.1.1.1 ((heardStatus_taken heard).trans zones) quiet

end

theorem heardStatusIsRecordedAndAnswered_alone : Clause.HeardStatusIsRecordedAndAnswered := by
  intro s src b f e t heard same
  refine exec_status heard ?_ heard.1.1.2
  unfold zoneStatus
  rw [show ((withOutputs [.acknowledge true] (statusTaken src f e t s)).clc.peers.get src).evac = e from evac_statusTaken]
  cases e with
  | some p => exact forEach_same _ _ _ fun z _ => if_pos (same z)
  | none =>
    refine forEach_same _ _ _ fun z _ => removeEvac_none _ _ _ fun x member => ?_
    have clear := same z
    rw [Option.isSome_none, List.any_eq_false] at clear
    exact Bool.eq_false_iff.2 (clear x member)

theorem quiet_zoneReports {z : LocalZone} {p : PageId} {o : ZoneOutcome} {s : State} (link : s.clc.link = .running)
    (quiet : s.deliveries = []) : (zoneReports z p o s).deliveries = [] := by
  rw [zoneReports, noticed_deliveries _ _ (by simp [cutOff, link]), quiet]

theorem statusMovesTheEvacuationSets : Clause.StatusMovesTheEvacuationSets := by
  intro s src b f e t z p heard phase cab others
  have link : s.clc.link = .running := heard.1.2.1
  have room : Room 1 (withOutputs [.acknowledge true] (statusTaken src f e t s)) := (room_statusTaken heard).of_clc rfl
  have recorded : ((withOutputs [.acknowledge true] (statusTaken src f e t s)).clc.peers.get src).evac = e := evac_statusTaken
  refine ⟨fun flag new free => ⟨fun inService sound had => ?joins, fun released idle empty wake => ?starts⟩,
    fun flag => ⟨fun l m split_ apart some_ => ?leaves, fun only active held pending => ?ends⟩⟩
  case joins =>
    refine exec_status heard (zoneStatus_at (z := z) e recorded others ?_ ?_ ?_)
      (quiet_zoneReports (by exact link) (by exact heard.1.1.2))
    · intro y other
      rw [zoneReports, zoneOf_noticed]
      exact zoneOf_withZone_ne _ _ other
    · intro q given
      obtain rfl := Option.some.inj (flag.symm.trans given)
      refine ⟨by simpa using new, ?_⟩
      rw [acceptAt_evac (by exact free) (by exact inService) (by exact sound),
        evacAccept_joins (by exact had) (by rw [cab]; exact new) (by exact phase) room]
      rfl
    · intro none_
      rw [flag] at none_
      cases none_
  case starts =>
    refine exec_status heard (zoneStatus_at (z := z) e recorded others ?_ ?_ ?_)
      (quiet_zoneReports (by exact link) (by exact heard.1.1.2))
    · intro y other
      rw [zoneReports, zoneOf_noticed]
      exact zoneOf_withZone_ne _ _ other
    · intro q given
      obtain rfl := Option.some.inj (flag.symm.trans given)
      refine ⟨by simpa using new, ?_⟩
      rw [acceptAt_evac (by exact free) (by simp [released]) (by simp [released]),
        evacAccept_wakes (by exact empty) (by exact idle) (by exact released) (by exact wake) (by exact phase) room]
      rfl
    · intro none_
      rw [flag] at none_
      cases none_
  case leaves =>
    refine exec_status heard (zoneStatus_at (z := z) e recorded others ?_ ?_ ?_) (by exact heard.1.1.2)
    · intro y other
      exact zoneOf_withZone_ne _ _ other
    · intro q given
      rw [flag] at given
      cases given
    · intro _
      refine (removeEvac_kept (rest := l ++ m) ?_ some_).trans rfl
      rw [zoneOf_withOutputs, zoneOf_statusTaken, split_]
      have kept : ∀ k : List PageId, (∀ x ∈ k, x ∈ l ++ m) → k.filter (fun e => !decide (e.cab = src)) = k := by
        intro k sub
        exact List.filter_eq_self.2 fun x member => by simpa using apart x (sub x member)
      rw [List.filter_append, List.filter_cons, kept l fun x => List.mem_append_left _, kept m fun x => List.mem_append_right _]
      simp [cab]
  case ends =>
    refine exec_status heard (zoneStatus_at (z := z) e recorded others ?_ ?_ ?_)
      (by rw [lastLeaves_deliveries]; exact heard.1.1.2)
    · intro y other
      exact (lastLeaves_others _ other).trans (zoneOf_withZone_ne _ _ other)
    · intro q given
      rw [flag] at given
      cases given
    · intro _
      exact removeEvac_last (by exact only) (by simpa using cab) (by exact active) (by exact held) (by exact pending)

/-- Settles O13: the STATUS at the CLC and the PGO, then at the one zone whose set it changes. -/
theorem heardStatusIsRecordedAndAnswered : Obligations.HeardStatusIsRecordedAndAnswered :=
  ⟨heardStatusIsRecordedAndAnswered_alone, statusMovesTheEvacuationSets⟩

end Sys2Proof.Machine
end

section
/-!
### The link's timers and a peer's silence (chapter 1, R7, R8, R16, R20, R43, R63)

Settles O14 and O15.
-/
namespace Sys2Proof.Machine

/-! ### The STATUS and PROBE periods (R7, R8, R16, R21) -/

theorem statusPeriod_running {s : State} (link : s.clc.link = .running) :
    statusPeriod s = joinQueue (.status .running (assembleStatus s)) s := by
  rw [statusPeriod, if_pos link, queueStatus, queueNotice, link]

theorem probePeriod_isolated {s : State} (link : s.clc.link = .isolated) : probePeriod s = joinQueue .probe s := by
  rw [probePeriod, if_pos link, queueNotice, link]
  rfl

theorem statusUnqueued {s : State} (f : LinkField) (b : StatusBody) (none_ : ∀ x ∈ s.clc.queue, isStatus x.notice = false) :
    sameHousekeepingQueued (.status f b) s.clc.queue = false := by
  simpa [sameHousekeepingQueued, isStatus, isProbe] using none_

theorem probeUnqueued {s : State} (none_ : ∀ x ∈ s.clc.queue, isProbe x.notice = false) :
    sameHousekeepingQueued .probe s.clc.queue = false := by
  simpa [sameHousekeepingQueued, isStatus, isProbe] using none_

theorem statusQueued {q : List TxEntry} (f : LinkField) (b : StatusBody) (found : ∃ x ∈ q, isStatus x.notice = true) :
    sameHousekeepingQueued (.status f b) q = true := by
  rw [sameHousekeepingQueued, List.any_eq_true.2 found]
  rfl

theorem probeQueued {q : List TxEntry} (found : ∃ x ∈ q, isProbe x.notice = true) :
    sameHousekeepingQueued .probe q = true := by
  rw [sameHousekeepingQueued, List.any_eq_true.2 found]
  exact Bool.or_true _

theorem periodsQueueStatusAndProbe : Clause.PeriodsQueueStatusAndProbe := by
  intro s ready
  refine ⟨fun link room none_ => ?status, fun link room none_ => ?probe, fun idle => ?noStatus, fun idle => ?noProbe⟩
  case status =>
    refine exec_of_act (f := statusPeriod) rfl ready.1 ?_ ready.2
    rw [statusPeriod_running (by exact link), joinQueue_room _ _ (statusUnqueued _ _ (by exact none_)) (by exact room)]
    rfl
  case probe =>
    refine exec_of_act (f := probePeriod) rfl ready.1 ?_ ready.2
    rw [probePeriod_isolated (by exact link), joinQueue_room _ _ (probeUnqueued (by exact none_)) (by exact room)]
    rfl
  case noStatus =>
    refine exec_of_act (f := statusPeriod) rfl ready.1 ?_ ready.2
    rcases idle with found | off
    · rw [statusPeriod, queueStatus]
      split
      · next link => exact queueNotice_already _ _ (statusQueued _ _ found) (.inl link)
      · rfl
    · exact if_neg off
  case noProbe =>
    refine exec_of_act (f := probePeriod) rfl ready.1 ?_ ready.2
    rcases idle with found | off
    · rw [probePeriod]
      split
      · next link => exact queueNotice_already _ _ (probeQueued found) (.inr ⟨link, rfl⟩)
      · rfl
    · exact if_neg off

/-- What a full queue loses does not depend on the orders sent before. -/
theorem QueuedWhenFull.fresh {n : Notice} {s t : State} (full : QueuedWhenFull n s t) :
    QueuedWhenFull n (fresh s) (withOutputs [] t) := by
  obtain ⟨length, before, x, after, split_, out, earlier, later, rfl⟩ := full
  exact ⟨length, before, x, after, split_, out, earlier, later, rfl⟩

theorem fullQueueLosesItsHighestField : Clause.FullQueueLosesItsHighestField := by
  intro s t u ready delivered
  refine ⟨fun link none_ full => ?_, fun link none_ full => ?_⟩
  · refine exec_delivered (f := statusPeriod) rfl ready.1 ?_ delivered
    rw [statusPeriod_running (by exact link)]
    exact joinQueue_full (statusUnqueued _ _ none_) full.fresh
  · refine exec_delivered (f := probePeriod) rfl ready.1 ?_ delivered
    rw [probePeriod_isolated (by exact link)]
    exact joinQueue_full (probeUnqueued none_) full.fresh

/-! ### The aging timer (R20) -/

theorem secondOlder_young {e : Peer} (young : e.state = .present → e.age < 29) (present : (secondOlder e).state = .present) :
    (secondOlder e).age < silentAge := by
  unfold secondOlder at present ⊢
  split at present
  · next absent =>
    rw [absent] at present
    cases present
  · next there =>
    have := young present
    rw [if_neg there, silentAge]
    dsimp only
    omega

/-- A tick at which no peer reaches 30 s. -/
theorem agingTick_young {s : State} (reads : readsBus s.clc.link = true)
    (young : ∀ p, p ≠ own s → (peerOf s p).state = .present → (peerOf s p).age < 29) :
    agingTick s = takeChoice (agePeers s) := by
  have none_ : allCabinets.filter (fallsSilent (agePeers s)) = [] := by
    rw [List.filter_eq_nil_iff]
    intro p _ falls
    rw [fallsSilent, decide_eq_true_eq, agePeers_eq] at falls
    obtain ⟨other, present, old⟩ := falls
    have other' : p ≠ own s := other
    simp only [peerOf, Table.get_build, if_neg other'] at present old
    exact absurd old (Nat.not_le.2 (secondOlder_young (young p other') present))
  cases link : s.clc.link with
  | loading | halted =>
    rw [link] at reads
    cases reads
  | listening | running | isolated | listenOnly =>
    simp only [agingTick, link, none_, orderBy, forEach]

theorem peersAgeEachSecond : Clause.PeersAgeEachSecond := by
  intro s ready reads young
  refine exec_of_act (f := agingTick) rfl ready.1 ?_ ready.2
  rw [agingTick_young (by exact reads) (by exact young), agePeers_eq]
  rfl

/-- Settles O14: the periods with room and without, and the tick of the peer table. -/
theorem linkTimersQueueAndAge : Obligations.LinkTimersQueueAndAge :=
  ⟨periodsQueueStatusAndProbe, fullQueueLosesItsHighestField, peersAgeEachSecond⟩

/-! ### A peer falls silent (R20, R43, R63, R93, R123, R144) -/

theorem withWithdrawn_none {p : Notice → Bool} {s : State} (none_ : ∀ x ∈ s.clc.queue, p x.notice = false) :
    withWithdrawn p s = s := by
  rw [withWithdrawn, withdrawFrom_none _ _ none_]

theorem peerFallsSilentAlone : Clause.PeerFallsSilentAtThirtySeconds := by
  intro s p ready reads other present old others noOffers lines placed noAssign
  have falls : FallsSilent p (fresh s) := ⟨reads, other, present, old, others⟩
  refine exec_of_act (f := agingTick) rfl ready.1 ?_ ready.2
  have records : s.ofm.offers.map (·.seq) = [] := by rw [noOffers, List.map_nil]
  have heard : silenceHeard p (fresh s) = withOutputs [] (raise .peerSilent p.val .clc { s with
      choices := s.choices + 1
      clc := { s.clc with peers := Table.build 16 (silencedPeer p s) } }) := by
    have offers : (s.ofm.offers.map fun o =>
        { o with window := o.window.map fun l => l.filter fun b => !decide (b.cab = p) }) = s.ofm.offers := by
      rw [noOffers, List.map_nil]
    rw [silenceHeard, withWithdrawn_none (by exact noAssign), show (fresh s).ofm.offers = s.ofm.offers from rfl, offers]
    rfl
  rw [agingTick_silent falls, show (fresh s).ofm.offers.map (·.seq) = [] from records, heard, forEach,
    linePeerSilent_quiet _ _ (by exact lines), zonePeerSilent, removeAll_none _ _ _ (by exact placed)]
  rfl

theorem silenceEndsWhatDependsOnThePeer : Clause.SilenceEndsWhatDependsOnThePeer := by
  intro p s a b t v ready falls records lines zones delivered
  refine exec_delivered (f := agingTick) rfl ready.1 ?_ delivered
  have falls' : FallsSilent p (fresh s) := falls
  rw [agingTick_silent falls', show forEach ((fresh s).ofm.offers.map (·.seq)) (loseAt fun m => decide (m.cab = p))
    (silenceHeard p (fresh s)) = a from ofmLosesPeer_of records, linePeerSilent, linesLose_of (by decide) lines]
  exact zonesFreed_of zones

/-- Settles O15: the silence of a peer on which nothing depends, and of any other. -/
theorem peerFallsSilentAtThirtySeconds : Obligations.PeerFallsSilentAtThirtySeconds :=
  ⟨peerFallsSilentAlone, silenceEndsWhatDependsOnThePeer⟩

end Sys2Proof.Machine
end

section
/-!
### Off-hook and on-hook (chapter 2, R22 to R24, R40, R42)

Settles O16 and O17.
-/
namespace Sys2Proof.Machine

/-! ### Off-hook (R23, R40) -/

theorem dropBid_eq (c : CallId) (s : State) : dropBid c s = withoutBid c s := rfl

theorem lineOf_withoutBid (c : CallId) (s : State) (l : Line) : lineOf (withoutBid c s) l = lineOf s l := rfl

theorem withLine_withoutBid (c : CallId) (l : Line) (r : LineRec) (s : State) :
    withLine l r (withoutBid c s) = withoutBid c (withLine l r s) := rfl

theorem availableSet_notIdle {r : LineRec} (h : r.state ≠ .idle) : availableSet r = 0 :=
  if_neg fun available => h available.2.1

/-- A line without a reservation dials (R23). -/
theorem openDialling_free {l : Line} {s : State} (free : (lineOf s l).reserved = none) :
    openDialling l s = withOutputs (s.outputs ++ [.tone l .dial]) (withLine l (dialling (lineOf s l)) s) := by
  unfold openDialling
  dsimp only
  rw [refresh_zero _ _ (availableSet_notIdle (by simp [endReservation, free, onLine_eq, orderTone_eq]))]
  simp [endReservation, free, onLine_eq, orderTone_eq, dialling]

/-- A reserved line dials, and no longer bids (R23, R35, R73). -/
theorem openDialling_reserved {l : Line} {v : Reservation} {s : State} (held : (lineOf s l).reserved = some v) :
    openDialling l s
      = withOutputs (s.outputs ++ [.tone l .dial]) (withoutBid v.call (withLine l (dialling (lineOf s l)) s)) := by
  unfold openDialling
  dsimp only
  rw [refresh_zero _ _ (availableSet_notIdle
    (by simp [endReservation, held, onLine_eq, orderTone_eq, dropBid_eq, lineOf_withoutBid]))]
  simp [endReservation, held, onLine_eq, orderTone_eq, dialling, dropBid_eq, lineOf_withoutBid, withLine_withoutBid]
  rfl

theorem offHookOpensDialling : Clause.OffHookOpensDialling := by
  intro l s ready free
  have opens : takeOffHook l (fresh s) = openDialling l (fresh s) := by
    rw [takeOffHook, show lineOf (fresh s) l = lineOf s l from rfl]
    rcases free with idle | wrapUp
    · rw [idle]
    · rw [wrapUp]
  refine ⟨fun none_ => ?_, fun v held => ?_⟩
  · refine exec_of_act (f := takeOffHook l) rfl ready.1 ?_ ready.2
    rw [opens, openDialling_free (by exact none_)]
    rfl
  · refine exec_of_act (f := takeOffHook l) rfl ready.1 ?_ ready.2
    rw [opens, openDialling_reserved (by exact held)]
    rfl

/-- A ringing line answers: its orders, then its answer to the owner of the call (R40). -/
theorem takeOffHook_ringing {l : Line} {c : LineCall} {s : State} (ringing : (lineOf s l).state = .ringing)
    (call : (lineOf s l).call = some c) : takeOffHook l (fresh s)
      = passAnswer l c.call c.index
          (withOutputs [.ring l false, .tone l .none] (withLine l (answering c (lineOf s l)) s)) := by
  rw [takeOffHook, show lineOf (fresh s) l = lineOf s l from rfl, ringing]
  simp only [answerLine, show lineOf (fresh s) l = lineOf s l from rfl, call, onLine_eq, orderTone_eq, orderRing_eq]
  simp [answering]
  rfl

theorem offHookAnswersARingingLine : Clause.OffHookAnswersARingingLine := by
  intro l c s ⟨ready, link, room⟩ ringing call other
  refine exec_of_act (f := takeOffHook l) rfl ready.1 ?_ ready.2
  have other' : c.call.cab ≠ own (withOutputs [.ring l false, .tone l .none] (withLine l (answering c (lineOf s l)) s)) := other
  rw [takeOffHook_ringing ringing call, passAnswer, if_neg other', queueNotice_running _ _ (by exact link) rfl (by exact room)]
  rfl

theorem offHookAnswersTheOwnPartsCall : Clause.OffHookAnswersTheOwnPartsCall := by
  intro l c s ⟨ready, link, room⟩ shelf ringing call same
  have passes : takeOffHook l (fresh s) = takeAnswer c.call (own s) l c.index
      (withOutputs [.ring l false, .tone l .none] (withLine l (answering c (lineOf s l)) s)) := by
    rw [takeOffHook_ringing ringing call, passAnswer]
    exact if_pos same
  have here : c.call.cab = own (withOutputs [.ring l false, .tone l .none] (withLine l (answering c (lineOf s l)) s)) := same
  refine ⟨fun o before after found seq notParked => ?connects, fun none_ => ?cancelled⟩
  case connects =>
    have id_ : c.call = ⟨own s, o.seq⟩ := by rw [← same, ← seq]
    refine exec_of_act (f := takeOffHook l) rfl ready.1 ?_ ready.2
    have found' : OfferAt o before after
        (withOutputs [.ring l false, .tone l .none] (withLine l (answering c (lineOf s l)) s)) := found
    rw [passes, takeAnswer, if_pos here, seq, findOffer_at found']
    dsimp only
    rw [connectCall_at found' notParked (by exact link) (by exact room) (by exact shelf), id_]
    rfl
  case cancelled =>
    refine exec_of_act (f := takeOffHook l) rfl ready.1 ?_ ready.2
    rw [passes, takeAnswer, if_pos here, findOffer_none (by exact none_)]
    exact queueNotice_running _ _ link rfl room

theorem offHookIsIgnoredElsewhere : Clause.OffHookIsIgnoredElsewhere := by
  intro l s ready
  refine ⟨fun out halted => ?_, fun out notHalted => ?_, fun inService notIdle notWrapUp notRinging => ?_⟩
  · refine exec_of_act (f := takeOffHook l) rfl ready.1 ?_ ready.2
    rw [takeOffHook, show lineOf (fresh s) l = lineOf s l from rfl, out]
    exact if_pos halted
  · refine exec_of_act (f := takeOffHook l) rfl ready.1 ?_ ready.2
    rw [takeOffHook, show lineOf (fresh s) l = lineOf s l from rfl, out]
    exact if_neg notHalted
  · refine exec_of_act (f := takeOffHook l) rfl ready.1 ?_ ready.2
    rw [takeOffHook, show lineOf (fresh s) l = lineOf s l from rfl]
    cases state : (lineOf s l).state with
    | outOfService => exact absurd state inService
    | idle => exact absurd state notIdle
    | wrapUp => exact absurd state notWrapUp
    | ringing => exact absurd state notRinging
    | dialing | answerPending | pickupPending | talking | paging | busy => rfl

/-- Settles O16: the line's state at the off-hook event. -/
theorem offHookByLineState : Obligations.OffHookByLineState :=
  ⟨offHookOpensDialling, offHookAnswersARingingLine, offHookAnswersTheOwnPartsCall, offHookIsIgnoredElsewhere⟩

end Sys2Proof.Machine
end

section
/-!
### On-hook (chapter 2, R22, R24, R36, R42; R118)

Settles O17.
-/
namespace Sys2Proof.Machine

/-- A line with a record becomes IDLE, the first orders of a command (R24, R36). -/
theorem becomeIdle_withLine {l : Line} {r : LineRec} {s : State} (link : s.clc.link = .running)
    (room : s.clc.queue.length < txCapacity) :
    becomeIdle l (withLine l r (withOutputs [] s)) = withOutputs [.ring l false, .tone l .none]
      (withQueued (newlyAvailable r (idleRecord r)) (withLine l (refreshed (idleRecord r)) s)) := by
  rw [becomeIdle_eq l _ (by exact link) (by exact room), lineOf_withLine_self]
  simp

/-- An on-hook event by the state of its line. -/
theorem takeOnHook_eq {l : Line} {s : State} {k : LineState} (state : (lineOf s l).state = k) : takeOnHook l (fresh s)
    = (match k with
      | .dialing => becomeIdle l (withLine l { lineOf s l with armed := false, buffer := [], digitTimer := none } (fresh s))
      | .answerPending | .pickupPending => becomeIdle l (withLine l { lineOf s l with armed := false } (fresh s))
      | .talking => endTalking l (withLine l { lineOf s l with armed := false } (fresh s))
      | .paging => becomeIdle l (onLine l (fun r => { r with page := none })
          (pageOnHook l (withLine l { lineOf s l with armed := false } (fresh s))))
      | .busy => becomeIdle l (shelfSend (.lineOnHook l none) (withLine l { lineOf s l with armed := false } (fresh s)))
      | .outOfService => if s.phase = .halted then
          orderTone l .none (withLine l { lineOf s l with armed := false } (fresh s))
        else withLine l { lineOf s l with armed := false } (fresh s)
      | .idle | .ringing | .wrapUp => withLine l { lineOf s l with armed := false } (fresh s)) := by
  have same : lineOf (fresh s) l = lineOf s l := rfl
  have disarmed : (lineOf (withLine l { lineOf s l with armed := false } (fresh s)) l).state = k := by
    rw [lineOf_withLine_self]
    exact state
  rw [takeOnHook, onLine_eq, same, hangUp, disarmed]
  cases k with
  | dialing => rw [onLine_eq, lineOf_withLine_self, withLine_twice]
  | _ => rfl

theorem onHookMakesTheLineIdle : Clause.OnHookMakesTheLineIdle := by
  intro l s ⟨ready, link, room⟩ shelf
  refine ⟨fun state => ?dialing, fun state => ?pending, fun state => ?busy⟩
  case dialing =>
    refine exec_of_act (f := takeOnHook l) rfl ready.1 ?_ ready.2
    rw [takeOnHook_eq state]
    exact becomeIdle_withLine link room
  case pending =>
    refine exec_of_act (f := takeOnHook l) rfl ready.1 ?_ ready.2
    rcases state with state | state <;> (rw [takeOnHook_eq state]; exact becomeIdle_withLine link room)
  case busy =>
    refine exec_of_act (f := takeOnHook l) rfl ready.1 ?_ ready.2
    rw [takeOnHook_eq state]
    dsimp only
    rw [shelfSend_room _ _ (by exact shelf)]
    exact becomeIdle_withLine (s := withSent [.lineOnHook l none] s) link room

/-! ### The end of a talk (R42) -/

theorem wrapUpAfter_congr {s u : State} (same : u.he = s.he) (r : LineRec) : wrapUpAfter u r = wrapUpAfter s r := by
  have times : groupWrapUp u = groupWrapUp s := by
    funext g
    unfold groupWrapUp
    rw [same]
  unfold wrapUpAfter
  rw [times]

theorem endTalking_eq {l : Line} {c : LineCall} {r : LineRec} {s : State} (call : r.call = some c)
    (shelf : ShelfRoom 1 s) : endTalking l (withLine l r (fresh s))
      = (match wrapUpAfter s r with
        | some t => enterWrapUp l t
        | none => becomeIdle l)
        (withLine l { r with idleSecs := 0 } (withOutputs [] (withSent [.lineOnHook l (some c.call)] s))) := by
  unfold endTalking
  dsimp only
  rw [shelfSend_room _ _ (by exact shelf), onLine_eq, lineOf_withLine_self, withLine_twice, call]
  rw [wrapUpAfter_congr (s := s) (by exact rfl)]
  cases wrapUpAfter s r <;> rfl

/-- A line enters WRAP-UP: it is available for no group (R36, R42). -/
theorem enterWrapUp_withLine {l : Line} {r : LineRec} {t : Nat} {s : State} :
    enterWrapUp l t (withLine l r (withOutputs [] s)) = withOutputs [.ring l false, .tone l .none]
      (withLine l { r with
        state := .wrapUp, wrapUp := some t, call := none, ring := false, tone := .none, available := 0 } s) := by
  rw [enterWrapUp, refresh_zero _ _ (availableSet_notIdle (by simp [onLine_eq, orderTone_eq, orderRing_eq]))]
  simp [onLine_eq, orderTone_eq, orderRing_eq]

theorem onHookEndsATalk : Clause.OnHookEndsATalk := by
  intro l c s ⟨ready, link, room⟩ shelf state call
  have group_ : ∀ r : LineRec, r.call = some c → r.call.bind (·.group) = c.group := fun r h => by rw [h]; rfl
  refine ⟨fun g group member long => ?wraps, fun free => ?idle⟩
  case wraps =>
    have after : wrapUpAfter s { lineOf s l with armed := false } = some (groupWrapUp s g) := by
      rw [wrapUpAfter, group_ _ call, group]
      exact if_pos ⟨member, long⟩
    refine exec_of_act (f := takeOnHook l) rfl ready.1 ?_ ready.2
    rw [takeOnHook_eq state]
    dsimp only
    rw [endTalking_eq (by exact call) shelf, after]
    exact enterWrapUp_withLine
  case idle =>
    have after : wrapUpAfter s { lineOf s l with armed := false } = none := by
      rw [wrapUpAfter, group_ _ call]
      cases group : c.group with
      | none => rfl
      | some g =>
        refine if_neg fun both => ?_
        rcases free g group with member | short
        · exact absurd both.1 (by rw [member]; exact Bool.false_ne_true)
        · exact absurd both.2 (by rw [short]; exact Nat.lt_irrefl 0)
    refine exec_of_act (f := takeOnHook l) rfl ready.1 ?_ ready.2
    rw [takeOnHook_eq state]
    dsimp only
    rw [endTalking_eq (by exact call) shelf, after]
    exact becomeIdle_withLine (s := withSent [.lineOnHook l (some c.call)] s) link room

/-! ### The end of a line's page (R117, R118) -/

theorem linePage_origin {s : State} {l : Line} {r : PageRec} (h : linePage s l = some r) : r.origin = .line l := by
  simpa using List.find?_some h

/-- The shelf's part in the end of a line's page, where no tone is due (R117). -/
theorem endAtLine_silent {r : PageRec} {l : Line} {c : Channel} {s : State} (origin : r.origin = .line l)
    (channel : r.channel = some c) (shelf : ShelfRoom 1 s) :
    endAtLine r none s = withSent (if r.connectSent then [.disconnectPage l c] else []) s := by
  rw [endAtLine, origin]
  cases sent : r.connectSent
  · simp [withSent]
  · simp only [channel, if_true]
    exact shelfSend_room _ _ shelf

section
variable {l : Line} {r : PageRec} {before after : List PageRec} {c : Channel} {s : State}

/-- A line with a record goes on-hook from an announced page (R117, R118). -/
theorem pageOnHook_announced (q : LineRec) (page : PageAt r before after s) (own_ : linePage s l = some r)
    (channel : r.channel = some c) (announced : r.state ≠ .claiming) (link : s.clc.link = .running)
    (room : s.clc.queue.length < txCapacity) (shelf : ShelfRoom 1 s) :
    pageOnHook l (withLine l q (fresh s)) = withLine l q (withOutputs []
      (withSent (if r.connectSent then [.disconnectPage l c] else [])
        (withQueued [.pageEnd ⟨own s, r.seq⟩ r.cls .ended] (withPages (before ++ after) s)))) := by
  have found : linePage (withLine l q (fresh s)) l = some r := own_
  have page' : PageAt r before after (withLine l q (fresh s)) := page
  rw [pageOnHook, found]
  dsimp only
  rw [endPage, if_neg announced, endAnnounced_at page' .ended (by exact link) (by exact room),
    endAtLine_silent (linePage_origin own_) channel (by exact shelf)]
  rfl

/-- A line with a record goes on-hook from a page that is not yet announced (R117, R118). -/
theorem pageOnHook_claiming (q : LineRec) (page : PageAt r before after s) (own_ : linePage s l = some r)
    (claiming : r.state = .claiming) (unsent : r.connectSent = false)
    (unslotted : ∀ i x, slotOf s i = some x → x.page ≠ some ⟨own s, r.seq⟩) :
    pageOnHook l (withLine l q (fresh s)) = withLine l q (withOutputs []
      (withWithdrawn (isStartOf ⟨own s, r.seq⟩) { withPages (before ++ after) s with pgo := { s.pgo with
        pages := before ++ after
        view := s.pgo.view.map fun h => h.filter fun x => !decide (x.page = ⟨own s, r.seq⟩) } })) := by
  have found : linePage (withLine l q (fresh s)) l = some r := own_
  have page' : PageAt r before after (withLine l q (fresh s)) := page
  rw [pageOnHook, found]
  dsimp only
  rw [endPage, if_pos claiming, endClaiming_at page' (by exact unslotted), endAtLine, linePage_origin own_, unsent]
  rfl

end

theorem onHookEndsThePage : Clause.OnHookEndsThePage := by
  intro l r before after c s ⟨ready, link, room⟩ shelf state page own_ channel
  refine ⟨fun announced => ?announced, fun claiming unsent unslotted => ?claiming⟩
  case announced =>
    refine exec_of_act (f := takeOnHook l) rfl ready.1 ?_ ready.2
    rw [takeOnHook_eq state]
    dsimp only
    rw [pageOnHook_announced _ page own_ channel announced link (by omega) shelf, onLine_eq, lineOf_withLine_self,
      withLine_twice, becomeIdle_withLine (by exact link) (by simp [withSent, withQueued, withPages]; omega)]
    simp [withQueued_twice]
    rfl
  case claiming =>
    have shorter := withdrawFrom_length (isStartOf ⟨own s, r.seq⟩) s.clc.queue
    refine exec_of_act (f := takeOnHook l) rfl ready.1 ?_ ready.2
    rw [takeOnHook_eq state]
    dsimp only
    rw [pageOnHook_claiming _ page own_ claiming unsent unslotted, onLine_eq, lineOf_withLine_self, withLine_twice,
      becomeIdle_withLine (by exact link) (show (withdrawFrom _ s.clc.queue).length < txCapacity by omega)]
    rfl

theorem onHookIsNotActedOn : Clause.OnHookIsNotActedOn := by
  intro l s ready
  refine ⟨fun states => ?_, fun out notHalted => ?_, fun out halted => ?_⟩
  · refine exec_of_act (f := takeOnHook l) rfl ready.1 ?_ ready.2
    rcases states with state | state | state <;> (rw [takeOnHook_eq state]; rfl)
  · refine exec_of_act (f := takeOnHook l) rfl ready.1 ?_ ready.2
    rw [takeOnHook_eq out]
    exact if_neg notHalted
  · refine exec_of_act (f := takeOnHook l) rfl ready.1 ?_ ready.2
    rw [takeOnHook_eq out]
    refine (if_pos halted).trans ?_
    rw [orderTone_eq, lineOf_withLine_self, withLine_twice]
    rfl

/-- Settles O17: the line's state at the on-hook event. -/
theorem onHookByLineState : Obligations.OnHookByLineState :=
  ⟨onHookMakesTheLineIdle, onHookEndsATalk, onHookEndsThePage, onHookIsNotActedOn⟩

end Sys2Proof.Machine
end

section
/-!
### Digits and codes (chapter 2, R25 to R28)

How a digit joins a line's buffer, and what a buffer is by the table of codes; settles O18.
-/
namespace Sys2Proof.Machine

/-! ### A buffer against the table of codes (R27) -/

/-- The digits that stand in the places of a code, its numbers from a supply of digits. -/
def placedDigits : List Place → (Nat → Fin 10) → List Digit
  | [], _ => []
  | .lit d :: ps, supply => d :: placedDigits ps supply
  | .number :: ps, supply => .num (supply 0) :: placedDigits ps fun i => supply (i + 1)

theorem equalsCode_placedDigits (ps : List Place) (supply : Nat → Fin 10) :
    equalsCode ps (placedDigits ps supply) = true := by
  induction ps generalizing supply with
  | nil => rfl
  | cons p ps ih => cases p <;> simp [placedDigits, equalsCode, fitsPlace, ih]

theorem placedDigits_of_equalsCode {ps : List Place} {ds : List Digit} (equals : equalsCode ps ds = true) :
    ∃ supply, ds = placedDigits ps supply := by
  induction ps generalizing ds with
  | nil =>
    cases ds with
    | nil => exact ⟨fun _ => 0, rfl⟩
    | cons d rest => simp [equalsCode] at equals
  | cons p ps ih =>
    cases ds with
    | nil => simp [equalsCode] at equals
    | cons d rest =>
      rw [equalsCode, Bool.and_eq_true] at equals
      obtain ⟨fits, equals⟩ := equals
      obtain ⟨supply, rfl⟩ := ih equals
      cases p with
      | lit x =>
        obtain rfl : d = x := by simpa [fitsPlace] using fits
        exact ⟨supply, rfl⟩
      | number =>
        obtain ⟨n, rfl⟩ : ∃ n, d = .num n := by
          cases d with
          | num n => exact ⟨n, rfl⟩
          | star | hash => simp [fitsPlace] at fits
        exact ⟨fun i => if i = 0 then n else supply (i - 1), rfl⟩

theorem beginsCode_iff {ps : List Place} {ds : List Digit} :
    beginsCode ps ds = true ↔ ∃ rest, rest ≠ [] ∧ equalsCode ps (ds ++ rest) = true := by
  induction ps generalizing ds with
  | nil => cases ds <;> simp +contextual [beginsCode, equalsCode]
  | cons p ps ih =>
    cases ds with
    | nil =>
      have fills := equalsCode_placedDigits (p :: ps) fun _ => 0
      have some_ : placedDigits (p :: ps) (fun _ => 0) ≠ [] := by cases p <;> simp [placedDigits]
      simp only [beginsCode, true_iff]
      exact ⟨_, some_, fills⟩
    | cons d ds =>
      simp only [beginsCode, Bool.and_eq_true, ih, List.cons_append, equalsCode]
      constructor
      · exact fun ⟨fits, rest, more, fills⟩ => ⟨rest, more, fits, fills⟩
      · exact fun ⟨rest, more, fits, fills⟩ => ⟨fits, rest, more, fills⟩

/-- The digits of a code are the digits that stand in its places. -/
theorem equalsCode_codePlaces {c : Code} {ds : List Digit} :
    equalsCode (codePlaces c) ds = true ↔ ∃ t u v, ds = codeDigits t u v c := by
  constructor
  · intro fills
    obtain ⟨supply, rfl⟩ := placedDigits_of_equalsCode fills
    exact ⟨supply 0, supply 1, supply 2, by cases c <;> rfl⟩
  · rintro ⟨t, u, v, rfl⟩
    cases c <;> simp [codePlaces, codeDigits, equalsCode, lit, fitsPlace]

/-- No code is a proper beginning of another. -/
theorem codeDigits_apart {c c' : Code} {t u v t' u' v' : Fin 10} {rest : List Digit}
    (h : codeDigits t' u' v' c' ++ rest = codeDigits t u v c) : rest = [] := by
  cases c' <;> cases c <;> simp [codeDigits] at h <;> simp [h]

theorem mem_allCodes (c : Code) : c ∈ allCodes := by
  cases c <;> decide

theorem compareBuffer_neither_or_beginning {b : List Digit} (none_ : ∀ c, equalsCode (codePlaces c) b = false) :
    compareBuffer b = if allCodes.any (fun c => beginsCode (codePlaces c) b) then .beginning else .neither := by
  have absent : allCodes.find? (fun c => equalsCode (codePlaces c) b) = none :=
    List.find?_eq_none.2 fun c _ => by simp [none_ c]
  rw [compareBuffer, absent]

theorem compareBuffer_equals {b : List Digit} {c : Code} (equals : equalsCode (codePlaces c) b = true) :
    ∃ c n, compareBuffer b = .complete c n := by
  have some_ : (allCodes.find? fun c => equalsCode (codePlaces c) b).isSome = true :=
    List.find?_isSome.2 ⟨c, mem_allCodes c, equals⟩
  obtain ⟨d, found⟩ := Option.isSome_iff_exists.1 some_
  exact ⟨d, _, by rw [compareBuffer, found]⟩

theorem buffersAreComparedWithTheCodes : Clause.BuffersAreComparedWithTheCodes := by
  have complete : ∀ b, (∃ c, equalsCode (codePlaces c) b = true) ∨ ∀ c, equalsCode (codePlaces c) b = false := by
    intro b
    by_cases some_ : ∃ c, equalsCode (codePlaces c) b = true
    · exact .inl some_
    · exact .inr fun c => Bool.eq_false_iff.2 fun equals => some_ ⟨c, equals⟩
  refine ⟨?digits, fun b => ⟨?beginning, ?begins⟩, fun b => ⟨?neither, ?none⟩⟩
  case digits =>
    intro c t u v
    cases c <;> simp [compareBuffer, allCodes, codePlaces, equalsCode, fitsPlace, lit, codeDigits, codeNumber, placedNumber]
    omega
  case beginning =>
    intro compared
    rcases complete b with ⟨c, equals⟩ | none_
    · obtain ⟨d, n, done⟩ := compareBuffer_equals equals
      rw [done] at compared
      cases compared
    · rw [compareBuffer_neither_or_beginning none_] at compared
      split at compared
      · next begins =>
        obtain ⟨c, -, starts⟩ := List.any_eq_true.1 begins
        obtain ⟨rest, more, fills⟩ := beginsCode_iff.1 starts
        obtain ⟨t, u, v, digits⟩ := equalsCode_codePlaces.1 fills
        exact ⟨c, t, u, v, rest, more, digits⟩
      · cases compared
  case begins =>
    rintro ⟨c, t, u, v, rest, more, digits⟩
    have none_ : ∀ c', equalsCode (codePlaces c') b = false := by
      intro c'
      refine Bool.eq_false_iff.2 fun equals => more ?_
      obtain ⟨t', u', v', rfl⟩ := equalsCode_codePlaces.1 equals
      exact codeDigits_apart digits
    rw [compareBuffer_neither_or_beginning none_]
    exact if_pos (List.any_eq_true.2
      ⟨c, mem_allCodes c, beginsCode_iff.2 ⟨rest, more, equalsCode_codePlaces.2 ⟨t, u, v, digits⟩⟩⟩)
  case neither =>
    intro compared c t u v rest digits
    rcases complete b with ⟨c', equals⟩ | none_
    · obtain ⟨d, n, done⟩ := compareBuffer_equals equals
      rw [done] at compared
      cases compared
    · rw [compareBuffer_neither_or_beginning none_] at compared
      split at compared
      · cases compared
      · next noBeginning =>
        have fills := equalsCode_codePlaces.2 ⟨t, u, v, digits⟩
        by_cases more : rest = []
        · rw [more, List.append_nil] at fills
          rw [none_ c] at fills
          cases fills
        · exact noBeginning (List.any_eq_true.2 ⟨c, mem_allCodes c, beginsCode_iff.2 ⟨rest, more, fills⟩⟩)
  case none =>
    intro apart
    have none_ : ∀ c, equalsCode (codePlaces c) b = false := by
      intro c
      refine Bool.eq_false_iff.2 fun equals => ?_
      obtain ⟨t, u, v, digits⟩ := equalsCode_codePlaces.1 equals
      exact apart c t u v [] (by rw [List.append_nil, digits])
    rw [compareBuffer_neither_or_beginning none_]
    refine if_neg fun begins => ?_
    obtain ⟨c, -, starts⟩ := List.any_eq_true.1 begins
    obtain ⟨rest, -, fills⟩ := beginsCode_iff.1 starts
    obtain ⟨t, u, v, digits⟩ := equalsCode_codePlaces.1 fills
    exact apart c t u v rest digits

theorem completeCodesAreChecked : Clause.CompleteCodesAreChecked := by
  intro r c n
  cases c <;> simp [passesChecks, needsSupervisor, numberAllowed]

/-! ### Digits at a line (R25, R28) -/

theorem refuseCode_withLine (l : Line) (r : LineRec) (os : List Output) (s : State) :
    refuseCode l (withOutputs os (withLine l r s)) = withOutputs (os ++ [.tone l .refuse]) (withLine l (refusedLine r) s) := by
  simp [refuseCode, onLine_eq, orderTone_eq, refusedLine]

theorem confirmCode_withLine (l : Line) (r : LineRec) (os : List Output) (s : State) :
    confirmCode l (withOutputs os (withLine l r s)) = withOutputs (os ++ [.tone l .confirm])
      (withLine l { r with tone := .confirm, buffer := [], digitTimer := some .first, collecting := true } s) := by
  simp [confirmCode, onLine_eq, orderTone_eq]

section
variable {l : Line} {d : Digit} {s : State}

/-- A digit that the line takes: its timer stopped, tone NONE ordered (R25). -/
theorem takeDigit_placed (state : (lineOf s l).state = .dialing) (collecting : (lineOf s l).collecting = true) :
    takeDigit l d (fresh s) = placeDigit l d (withOutputs [.tone l .none]
      (withLine l { lineOf s l with digitTimer := none, tone := .none } s)) := by
  have takes : takesDigits (lineOf (fresh s) l) = true := by
    rw [show lineOf (fresh s) l = lineOf s l from rfl, takesDigits, state, collecting]
    rfl
  rw [takeDigit, if_pos takes, onLine_eq, orderTone_eq, lineOf_withLine_self, withLine_twice]
  rfl

/-- A digit joins the buffer, and the buffer is judged (R25, R27, R31). -/
theorem takeDigit_joins (phase : s.phase = .running) (state : (lineOf s l).state = .dialing)
    (collecting : (lineOf s l).collecting = true) (first_ : (lineOf s l).buffer = [] → d = .star ∨ d = .hash) :
    takeDigit l d (fresh s)
      = judgeBuffer l (withOutputs [.tone l .none] (withLine l (withDigit d (lineOf s l)) s)) := by
  have joins : joinBuffer l d (withOutputs [.tone l .none] (withLine l { lineOf s l with digitTimer := none, tone := .none } s))
      = judgeBuffer l (withOutputs [.tone l .none] (withLine l (withDigit d (lineOf s l)) s)) := by
    rw [joinBuffer, onLine_eq]
    simp [withDigit]
  rw [takeDigit_placed state collecting]
  unfold placeDigit
  rw [lineOf_withOutputs, lineOf_withLine_self]
  by_cases empty : (lineOf s l).buffer = []
  · rw [if_pos (by exact empty)]
    rcases first_ empty with rfl | rfl <;> exact (if_pos phase).trans joins
  · rw [if_neg (by exact empty)]
    exact joins

end

theorem digitsAreTakenOnlyWhileCollecting : Clause.DigitsAreTakenOnlyWhileCollecting := by
  intro l d s ready closed
  refine exec_of_act (f := takeDigit l d) rfl ready.1 (if_neg ?_) ready.2
  intro takes
  obtain ⟨state, collecting⟩ := Bool.and_eq_true_iff.1 takes
  rcases closed with other | shut
  · exact other (of_decide_eq_true state)
  · exact absurd (shut.symm.trans collecting) Bool.false_ne_true

theorem firstDigitGoesToTheShelfOrIsRefused : Clause.FirstDigitGoesToTheShelfOrIsRefused := by
  intro l n s ready shelf state collecting empty
  have empty' :
      (lineOf (withOutputs [.tone l .none] (withLine l { lineOf s l with digitTimer := none, tone := .none } s)) l).buffer = [] := by
    rw [lineOf_withOutputs, lineOf_withLine_self]
    exact empty
  refine ⟨?_, fun phase d hash => ?_⟩
  · refine exec_of_act (f := takeDigit l (.num n)) rfl ready.1 ?_ ready.2
    rw [takeDigit_placed state collecting]
    unfold placeDigit
    rw [if_pos empty']
    dsimp only
    rw [handToShelf, onLine_eq, shelfSend_room _ _ (by exact shelf)]
    simp [empty]
  · refine exec_of_act (f := takeDigit l d) rfl ready.1 ?_ ready.2
    have refused : takeDigit l d (fresh s)
        = refuseCode l (withOutputs [.tone l .none] (withLine l { lineOf s l with digitTimer := none, tone := .none } s)) := by
      rw [takeDigit_placed state collecting]
      unfold placeDigit
      rw [if_pos empty']
      rcases hash with rfl | rfl <;> exact if_neg phase
    rw [refused, refuseCode_withLine]
    rfl

theorem bufferIsJudgedAfterEachDigit : Clause.BufferIsJudgedAfterEachDigit := by
  intro l d s ready phase state collecting first_
  have joins := takeDigit_joins phase state collecting first_
  have record : lineOf (withOutputs [.tone l .none] (withLine l (withDigit d (lineOf s l)) s)) l = withDigit d (lineOf s l) := by
    rw [lineOf_withOutputs, lineOf_withLine_self]
  refine ⟨fun compared => ?beginning, fun compared => ?neither, fun c n compared fails => ?failed⟩
  case beginning =>
    refine exec_of_act (f := takeDigit l d) rfl ready.1 ?_ ready.2
    rw [joins, judgeBuffer, record, compared]
    simp [onLine_eq]
  case neither =>
    refine exec_of_act (f := takeDigit l d) rfl ready.1 ?_ ready.2
    rw [joins, judgeBuffer, record, compared]
    exact refuseCode_withLine ..
  case failed =>
    refine exec_of_act (f := takeDigit l d) rfl ready.1 ?_ ready.2
    rw [joins, judgeBuffer, record, compared]
    dsimp only
    rw [fails]
    exact refuseCode_withLine ..

/-- Settles O18: the digit, the buffer against the table of codes, and the checks of a complete code. -/
theorem digitsBuildACode : Obligations.DigitsBuildACode :=
  ⟨digitsAreTakenOnlyWhileCollecting, firstDigitGoesToTheShelfOrIsRefused, bufferIsJudgedAfterEachDigit,
    buffersAreComparedWithTheCodes, completeCodesAreChecked⟩

end Sys2Proof.Machine
end

section
/-!
### Feature codes, line timers, cadences (chapter 2, R26 to R30, R32, R35, R38, R39, R41, R42)

Settles O19, O20, O21 and O22.
-/
namespace Sys2Proof.Machine

/-! ### Codes that the Line Unit acts on (R28 to R30, R32) -/

/-- The last digit of a code that passes its checks: the code is acted on (R28). -/
theorem takeDigit_acts {l : Line} {d : Digit} {c : Code} {n : Nat} {s : State} (last : LastDigit l d c n s) :
    takeDigit l d (fresh s) = actOnCode l c n (withOutputs [.tone l .none] (withLine l (withDigit d (lineOf s l)) s)) := by
  obtain ⟨phase, state, collecting, first_, complete, passes⟩ := last
  rw [takeDigit_joins phase state collecting first_, judgeBuffer, lineOf_withOutputs, lineOf_withLine_self, complete]
  exact if_pos passes

/-- A digit that makes the buffer a code's digits is its last digit. -/
theorem lastDigit_of_digits {l : Line} {d : Digit} {c : Code} {t u v : Fin 10} {s : State} (phase : s.phase = .running)
    (state : (lineOf s l).state = .dialing) (collecting : (lineOf s l).collecting = true)
    (begun : (lineOf s l).buffer ≠ []) (digits : (lineOf s l).buffer ++ [d] = codeDigits t u v c)
    (passes : passesChecks (withDigit d (lineOf s l)) c (codeNumber t u v c) = true) :
    LastDigit l d c (codeNumber t u v c) s := by
  refine ⟨phase, state, collecting, fun empty => absurd empty begun, ?_, passes⟩
  rw [withDigit]
  dsimp only
  rw [digits]
  exact buffersAreComparedWithTheCodes.1 c t u v

theorem logInOut_member {l : Line} {g : HuntGroup} {on : Bool} {r : LineRec} {os : List Output} {s : State}
    (member : (indexIn r.memberships g).isSome = true) :
    logInOut l g on (withOutputs os (withLine l r s)) = withOutputs (os ++ [.tone l .confirm])
      (withLine l { r with
        memberships := setLogin g on r.memberships, tone := .confirm, buffer := [], digitTimer := some .first
        collecting := true } s) := by
  rw [logInOut, lineOf_withOutputs, lineOf_withLine_self, if_pos member, onLine_eq, lineOf_withOutputs, lineOf_withLine_self,
    withLine_withOutputs, withLine_twice]
  exact confirmCode_withLine ..

theorem logInOut_stranger {l : Line} {g : HuntGroup} {on : Bool} {r : LineRec} {os : List Output} {s : State}
    (stranger : (indexIn r.memberships g).isSome = false) :
    logInOut l g on (withOutputs os (withLine l r s))
      = withOutputs (os ++ [.tone l .refuse]) (withLine l (refusedLine r) s) := by
  rw [logInOut, lineOf_withOutputs, lineOf_withLine_self, stranger, if_neg Bool.false_ne_true]
  exact refuseCode_withLine ..

theorem doNotDisturbAndLoginCodes : Clause.DoNotDisturbAndLoginCodes := by
  intro l s ready phase state collecting
  refine ⟨fun star => ?dnd, fun k t u g number asks buffer => ?login⟩
  case dnd =>
    have last : LastDigit l (.num 8) .dnd 0 s :=
      lastDigit_of_digits (t := 0) (u := 0) (v := 0) phase state collecting (by simp [star]) (by rw [star]; rfl)
        (by simp [passesChecks, needsSupervisor, numberAllowed])
    refine exec_of_act (f := takeDigit l (.num 8)) rfl ready.1 ?_ ready.2
    rw [takeDigit_acts last, actOnCode, toggleDnd, onLine_eq, lineOf_withOutputs, lineOf_withLine_self, withLine_withOutputs,
      withLine_twice, confirmCode_withLine]
    simp [withDigit, star]
  case login =>
    have acts : takeDigit l (.num u) (fresh s) = logInOut l g (decide (k = 1))
        (withOutputs [.tone l .none] (withLine l (withDigit (.num u) (lineOf s l)) s)) := by
      have allowed : 10 * t.val + u.val < 16 := by rw [number]; exact g.isLt
      have group_ : (⟨10 * t.val + u.val, allowed⟩ : HuntGroup) = g := Fin.ext number
      have coded : ∀ on v, groupCode l (10 * t.val + u.val) on v = logInOut l g on v := by
        intro on v
        rw [groupCode, dif_pos allowed, group_]
      have passes : ∀ c, c = .login ∨ c = .logout →
          passesChecks (withDigit (.num u) (lineOf s l)) c (10 * t.val + u.val) = true := by
        rintro c (rfl | rfl) <;> simp [passesChecks, needsSupervisor, numberAllowed] <;> omega
      rcases asks with rfl | rfl
      · have last : LastDigit l (.num u) .login (10 * t.val + u.val) s :=
          lastDigit_of_digits (v := 0) phase state collecting (by simp [buffer]) (by rw [buffer]; rfl) (passes _ (.inl rfl))
        rw [takeDigit_acts last, actOnCode, coded]
        rfl
      · have last : LastDigit l (.num u) .logout (10 * t.val + u.val) s :=
          lastDigit_of_digits (v := 0) phase state collecting (by simp [buffer]) (by rw [buffer]; rfl) (passes _ (.inr rfl))
        rw [takeDigit_acts last, actOnCode, coded]
        rfl
    refine ⟨fun member => ?member, fun stranger => ?stranger⟩
    case member =>
      refine exec_of_act (f := takeDigit l (.num u)) rfl ready.1 ?_ ready.2
      rw [acts, logInOut_member (by exact member)]
      simp [withDigit, buffer, setLogin]
    case stranger =>
      refine exec_of_act (f := takeDigit l (.num u)) rfl ready.1 ?_ ready.2
      rw [acts, logInOut_stranger (by exact stranger)]
      rfl

theorem allStopCodeQueuesAllStop : Clause.AllStopCodeQueuesAllStop := by
  intro l d s ⟨ready, link, room⟩ last
  refine exec_of_act (f := takeDigit l d) rfl ready.1 ?_ ready.2
  rw [takeDigit_acts last, actOnCode, requestAllStop, allStopRequest, queueNotice_running _ _ (by exact link) rfl (by exact room)]
  simp [confirmCode, onLine_eq, orderTone_eq]

/-- Settles O19: the code's digits, and what the Line Unit makes of the code. -/
theorem lineFeatureCodesAct : Obligations.LineFeatureCodesAct :=
  ⟨doNotDisturbAndLoginCodes, allStopCodeQueuesAllStop⟩

/-! ### Timers of a line (R26, R35, R41) -/

/-- Settles O20: a running and a stopped digit timer, a reservation that ends, a verdict that resolves as LOST. -/
theorem dialVerdictAndReservationTimers : Obligations.DialVerdictAndReservationTimers := by
  refine ⟨fun l s ready => ⟨fun runs => ?_, fun stopped => ?_⟩, fun l v s ⟨ready, link, room⟩ held => ?_,
    fun l s ready pending => ?_⟩
  · refine exec_of_act (f := digitExpiry l) rfl ready.1 ?_ ready.2
    exact (if_pos (Option.isSome_iff_ne_none.2 runs)).trans (refuseCode_withLine l (lineOf s l) [] s ▸ by
      rw [withLine_same l _ s rfl]; rfl)
  · refine exec_of_act (f := digitExpiry l) rfl ready.1 (if_neg ?_) ready.2
    rw [show (lineOf (fresh s) l).digitTimer = none from stopped]
    exact Bool.false_ne_true
  · refine exec_of_act (f := releaseReservation l) rfl ready.1 ?_ ready.2
    rw [releaseReservation_of (s := fresh s) held (.inr ⟨link, room⟩), released, noticed_running _ _ (by exact link)]
    rfl
  · refine exec_of_act (f := verdictExpiry l) rfl ready.1 ?_ ready.2
    refine (if_pos (Option.isSome_iff_ne_none.2 pending)).trans ?_
    rw [resolveLost_eq]
    rfl

/-! ### Cadences (R38) -/

/-- Every second interval rings, the long one of a RECALL excepted. -/
theorem cadenceIntervals_ring (cad : Cadence) {n : Nat} (h : n < (cadenceIntervals cad).length) :
    ∃ t, (cadenceIntervals cad)[n]? = some (t, decide (n % 2 = 0 ∧ n < 6)) := by
  have all : ∀ n : Fin (cadenceIntervals cad).length,
      ((cadenceIntervals cad)[n]?).map (·.2) = some (decide (n.val % 2 = 0 ∧ n.val < 6)) := by
    cases cad <;> decide
  obtain ⟨⟨t, on⟩, here, ring⟩ := Option.map_eq_some_iff.1 (all ⟨n, h⟩)
  exact ⟨t, by rw [← ring]; exact here⟩

theorem cadenceExpiry_next {l : Line} {k : Nat} {c : LineCall} {cad : Cadence} {s : State}
    (ringing : (lineOf s l).state = .ringing) (at_ : (lineOf s l).cadenceAt = some k) (call : (lineOf s l).call = some c)
    (cadence : c.cadence = some cad) :
    let next := (k + 1) % (cadenceIntervals cad).length
    let on := decide (next % 2 = 0 ∧ next < 6)
    cadenceExpiry l (fresh s)
      = withOutputs [.ring l on] (withLine l { lineOf s l with cadenceAt := some next, ring := on } s) := by
  have some_ : 0 < (cadenceIntervals cad).length := by cases cad <;> decide
  obtain ⟨t, interval⟩ := cadenceIntervals_ring cad (Nat.mod_lt (k + 1) some_)
  have bound : (lineOf s l).call.bind (·.cadence) = some cad := by rw [call]; exact cadence
  have turns : cadenceExpiry l (fresh s)
      = orderRing l (decide ((k + 1) % (cadenceIntervals cad).length % 2 = 0 ∧ (k + 1) % (cadenceIntervals cad).length < 6))
          (onLine l (fun r => { r with cadenceAt := some ((k + 1) % (cadenceIntervals cad).length) }) (fresh s)) := by
    unfold cadenceExpiry
    rw [show lineOf (fresh s) l = lineOf s l from rfl]
    dsimp only
    rw [ringing, at_, bound]
    dsimp only
    rw [interval]
  dsimp only
  rw [turns, onLine_eq, orderRing_eq, lineOf_withLine_self, withLine_twice]
  rfl

theorem cadenceRingsInTurn : Clause.CadenceRingsInTurn := by
  intro l k c cad s ready ringing at_ call cadence
  refine exec_of_act (f := cadenceExpiry l) rfl ready.1 ((cadenceExpiry_next ringing at_ call cadence).trans ?_) ready.2
  cases cad <;> rfl

/-! ### The no-answer timer (R38, R39) -/

/-- The record of a line that has stopped ringing. -/
def silenced (r : LineRec) : LineRec :=
  { r with state := .idle, call := none, cadenceAt := none, noAnswer := none, ring := false, tone := .none }

/-- A line stops ringing without an answer, with room for its notices (R38, R39). -/
theorem stopRinging_noAnswer {l : Line} {c : LineCall} {s : State} (call : (lineOf s l).call = some c) (room : Room 3 s) :
    stopRinging l .noAnswer s = withOutputs (s.outputs ++ [.ring l false, .tone l .none])
      (noticed (.noAnswer c.call l :: .ringEnded c.call l .noAnswer :: newlyAvailable (lineOf s l) (silenced (lineOf s l)))
        (withLine l (refreshed (silenced (lineOf s l)))
          (viewRemoveLine c.call (own s) l s))) := by
  have told (t : State) (same : t.clc = s.clc) :
      queueNotice (.noAnswer c.call l) t = noticed [.noAnswer c.call l] t :=
    queueNotice_noticed _ _ rfl ((room.le (by omega)).of_clc same)
  simp only [stopRinging, call, if_true]
  rw [told, queueNotice_noticed _ _ rfl, refresh_noticed]
  · simp [noticed_twice, orderTone_eq, orderRing_eq, onLine_eq, viewRemoveLine, viewRemove, onPpu, newlyAvailable, refreshed,
      silenced]
    rfl
  · rw [noticed_twice]
    exact Room.noticed (n := 1) (room.of_clc rfl)
  · exact Room.noticed (n := 1) ((room.le (by simp)).of_clc rfl)
  · rfl

/-- The no-answer timer of a ringing line (R38, R39). -/
theorem noAnswerExpiry_stops {l : Line} {c : LineCall} {s : State} (ringing : (lineOf s l).state = .ringing)
    (call : (lineOf s l).call = some c) (timer : (lineOf s l).noAnswer ≠ none) (room : Room 3 s) :
    noAnswerExpiry l (fresh s) = withOutputs [.ring l false, .tone l .none]
      (noticed (.noAnswer c.call l :: .ringEnded c.call l .noAnswer :: newlyAvailable (lineOf s l) (silenced (lineOf s l)))
        (withLine l (refreshed (silenced (lineOf s l)))
          (viewRemoveLine c.call (own s) l s))) := by
  have expires : noAnswerExpiry l (fresh s) = stopRinging l .noAnswer (fresh s) :=
    if_pos ⟨ringing, Option.isSome_iff_ne_none.2 timer⟩
  rw [expires, stopRinging_noAnswer (s := fresh s) call room]
  show withOutputs _ (noticed _ (withLine l _ (withOutputs [] (viewRemoveLine c.call (own s) l s)))) = _
  rw [withLine_withOutputs, noticed_withOutputs, withOutputs_twice]
  rfl

theorem unansweredLineTellsItsOwnPart : Clause.UnansweredLineTellsItsOwnPart := by
  intro l c s u ready room ringing call timer r delivered
  exact exec_delivered (f := noAnswerExpiry l) rfl ready.1 (noAnswerExpiry_stops ringing call timer room) delivered

theorem unansweredLineStopsRinging : Clause.UnansweredLineStopsRinging := by
  intro l c s ⟨ready, link, room⟩ ringing call timer
  refine exec_of_act (f := noAnswerExpiry l) rfl ready.1 ?_ ready.2
  rw [noAnswerExpiry_stops ringing call timer (.inr ⟨link, room⟩), noticed_running _ _ (by exact link)]
  rfl

/-- Settles O21: the next interval of a cadence, and the line whose no-answer timer expires. -/
theorem ringingFollowsItsCadence : Obligations.RingingFollowsItsCadence :=
  ⟨cadenceRingsInTurn, unansweredLineStopsRinging, unansweredLineTellsItsOwnPart⟩

/-! ### Seconds of WRAP-UP and IDLE (R42) -/

/-- Settles O22: a second that is not the last of WRAP-UP, the last one, and a second of IDLE. -/
theorem wrapUpAndIdleSecondsCount : Obligations.WrapUpAndIdleSecondsCount := by
  intro l n s ⟨ready, link, room⟩
  have same : lineOf (fresh s) l = lineOf s l := rfl
  refine ⟨fun state left => ?counts, fun state left => ?ends, fun state => ?idle⟩
  case counts =>
    refine exec_of_act (f := wrapUpSecond l) rfl ready.1 ?_ ready.2
    rw [wrapUpSecond, same, state, left]
    exact if_neg (by omega)
  case ends =>
    refine exec_of_act (f := wrapUpSecond l) rfl ready.1 ?_ ready.2
    rw [wrapUpSecond, same, state, left]
    exact (if_pos (Nat.le_refl 1)).trans (becomeIdle_withLine link room)
  case idle =>
    exact exec_of_act (f := idleSecond l) rfl ready.1 (if_pos state) ready.2

end Sys2Proof.Machine
end

section
/-! SUPPORT. O24 and O25: an accepted call, its call id and its offer (R46, R48, R49, R76), and CALL-GONE (R62). -/

namespace Sys2Proof.Machine

/-! ### The sequence value of the next call (R46) -/

/-- A sequence value is held where it is among those of the records. -/
theorem findOffer_isSome (s : State) (q : Seq) : (findOffer s q).isSome = decide (q ∈ s.ofm.offers.map (·.seq)) := by
  rw [Bool.eq_iff_iff, findOffer, List.find?_isSome]
  simp

theorem nextCallSeq_free {s : State} (room : s.ofm.offers.length ≤ 8) : ∀ o ∈ s.ofm.offers, o.seq ≠ nextCallSeq s := by
  intro o here same
  have free := firstFree_free (s.ofm.offers.map (·.seq)) 9 s.ofm.counter (by rw [List.length_map]; omega) (by omega)
  unfold nextCallSeq at same
  simp only [findOffer_isSome] at same
  exact free (same ▸ List.mem_map_of_mem here)

theorem nextCallIdIsFree : Clause.NextCallIdIsFree := by
  intro s
  refine ⟨nextCallSeq_free, fun free => firstFree_candidate _ _ _ ?_⟩
  rw [findOffer_none free]
  rfl

/-! ### Accepted calls (R48, R49) -/

theorem checkArrival_accepts {ref : Word16} {ty : Byte} {v : Word16} {t : CallTarget} {s : State}
    (link : s.clc.link = .running) (unused : ∀ o ∈ s.ofm.offers, o.ref ≠ ref) (room : s.ofm.offers.length < 8)
    (known : KnownTarget s ty v t) : checkArrival s ref ty v = .inr t := by
  have free : ¬ (s.ofm.offers.any fun o => decide (o.ref = ref)) = true := by simpa using unused
  unfold checkArrival
  rw [if_neg (Classical.not_not.2 link), if_neg free, (arrivalTarget_eq_some_iff s ty v t).2 known]
  exact if_neg (Nat.not_le.2 room)

/-- The record of an accepted call stands at the end of the table. -/
theorem enterCall_at {s : State} (room : s.ofm.offers.length < 8) (ref : Word16) (t : CallTarget) :
    OfferAt (arrivalRecord (nextCallSeq s) ref t) s.ofm.offers [] (enterCall (nextCallSeq s) ref t s) :=
  ⟨rfl, by simpa [arrivalRecord] using nextCallSeq_free (Nat.le_of_lt room)⟩

/-- An OFFER of a record that is OFFERING already is queued, and nothing else changes (R76). -/
theorem offerCall_at {o : Offer} {before after : List Offer} {g : HuntGroup} {s : State} (at_ : OfferAt o before after s)
    (hunt : o.target = .hunt g) (offering : { o with state := .offering, window := none } = o) :
    offerCall o.seq s = queueNotice (.offer ⟨own s, o.seq⟩ g o.attempts o.tried) s := by
  have same : withOffers (before ++ o :: after) s = s := by rw [← at_.1]; rfl
  unfold offerCall
  dsimp only
  rw [modOffer_at at_, offering, same, findOffer_at at_]
  dsimp only
  rw [hunt]
  rfl

/-- The record of an accepted call, and its ACCEPTED. -/
def callEntered (ref : Word16) (t : CallTarget) (s : State) : State :=
  withSent [.accepted ref ⟨own s, nextCallSeq s⟩] (enterCall (nextCallSeq s) ref t s)

theorem acceptCall_hunt {ref : Word16} {g : HuntGroup} {s : State} (shelf : ShelfRoom 1 s) (room : s.ofm.offers.length < 8) :
    acceptCall ref (.hunt g) s = queueNotice (.offer ⟨own s, nextCallSeq s⟩ g 0 0) (callEntered ref (.hunt g) s) := by
  unfold acceptCall
  dsimp only
  rw [shelfSend_room _ _ (by exact shelf)]
  exact offerCall_at (s := callEntered ref (.hunt g) s) (o := arrivalRecord (nextCallSeq s) ref (.hunt g))
    (enterCall_at room ref (.hunt g)) rfl rfl

theorem acceptCall_direct {ref : Word16} {cab : Cabinet} {line : Line} {s : State} (shelf : ShelfRoom 1 s) :
    acceptCall ref (.direct cab line) s
      = queueNotice (.ringAssign ⟨own s, nextCallSeq s⟩ cab line .direct) (callEntered ref (.direct cab line) s) := by
  unfold acceptCall
  dsimp only
  rw [shelfSend_room _ _ (by exact shelf)]
  rfl

theorem callArrival_accepts {ref : Word16} {ty : Byte} {v : Word16} {t : CallTarget} {s : State}
    (link : s.clc.link = .running) (unused : ∀ o ∈ s.ofm.offers, o.ref ≠ ref) (room : s.ofm.offers.length < 8)
    (known : KnownTarget s ty v t) : callArrival ref ty v (fresh s) = acceptCall ref t (fresh s) := by
  unfold callArrival
  rw [checkArrival_accepts (s := fresh s) link unused room known]

theorem acceptedArrivals : Clause.AcceptedArrivals := by
  intro ref ty v s ⟨ready, link, room⟩ shelf unused few
  refine ⟨fun g known => ?_, fun cab line known => ?_⟩
  · refine exec_of_act (f := callArrival ref ty v) rfl ready.1 ?_ ready.2
    rw [callArrival_accepts link unused few known, acceptCall_hunt (s := fresh s) shelf few,
      queueNotice_running _ _ (by exact link) rfl (by exact room)]
    rfl
  · refine exec_of_act (f := callArrival ref ty v) rfl ready.1 ?_ ready.2
    rw [callArrival_accepts link unused few known, acceptCall_direct (s := fresh s) shelf,
      queueNotice_running _ _ (by exact link) rfl (by exact room)]
    rfl

theorem acceptedArrivalsAtAFullQueue : Clause.AcceptedArrivalsAtAFullQueue := by
  intro ref ty v s t u ready link shelf unused few delivered
  refine ⟨fun g known full => ?_, fun cab line known full => ?_⟩
  · refine exec_delivered (f := callArrival ref ty v) rfl ready.1 ?_ delivered
    rw [callArrival_accepts link unused few known, acceptCall_hunt (s := fresh s) shelf few]
    exact queueNotice_full (by exact link) rfl full
  · refine exec_delivered (f := callArrival ref ty v) rfl ready.1 ?_ delivered
    rw [callArrival_accepts link unused few known, acceptCall_direct (s := fresh s) shelf]
    exact queueNotice_full (by exact link) rfl full

/-- Settles O24: the checks pass, and the table with fewer than 8 records leaves one of nine sequence values free. -/
theorem acceptedArrivalsGetAFreeCallId : Obligations.AcceptedArrivalsGetAFreeCallId :=
  ⟨acceptedArrivals, acceptedArrivalsAtAFullQueue, nextCallIdIsFree⟩

/-! ### CALL-GONE (R62) -/

/-- CALL-GONE ends the call of the first record with its reference. -/
theorem callGone_at {o : Offer} {before after : List Offer} {s : State} (at_ : OfferAt o before after s)
    (first : ∀ x ∈ before, x.ref ≠ o.ref) : callGone o.ref s = endCall o none s := by
  have found : s.ofm.offers.find? (fun x => decide (x.ref = o.ref)) = some o := by
    rw [at_.1, List.find?_append, List.find?_eq_none.2 (by simpa using first)]
    simp
  unfold callGone
  rw [found]
  rfl

/-- A call without parties out ends without outcome: its orbit is freed, and its record goes (R51). -/
theorem endCall_unheard {o : Offer} {s : State} (alone : partiesOut o = false) :
    endCall o none s = freeOffer o.seq (freeOrbitOf o s) := by
  unfold endCall
  rw [alone]
  rfl

theorem freeOrbitOf_open {o : Offer} (s : State) (open_ : ∀ n, o.state ≠ .parked n) : freeOrbitOf o s = s := by
  unfold freeOrbitOf
  split
  · next n parked => exact absurd parked (open_ n)
  · rfl

theorem partiesOut_parked {o : Offer} {n : OrbitNumber} (parked : o.state = .parked n) (unassigned : o.assigned = none)
    (silent : o.ringing = []) : partiesOut o = false := by
  simp [partiesOut, parked, unassigned, silent]

/-- A call that is not parked ends without outcome (R51, R62). -/
theorem endCall_withoutOutcome {o : Offer} {before after : List Offer} {s : State} (at_ : OfferAt o before after s)
    (open_ : ∀ n, o.state ≠ .parked n) (room : Room 1 s) :
    endCall o none s
      = callFreed o before after (noticed (if partiesOut o then [.cancel ⟨own s, o.seq⟩] else []) s) := by
  have told : (if partiesOut o then queueNotice (.cancel ⟨own s, o.seq⟩) s else s)
      = noticed (if partiesOut o then [.cancel ⟨own s, o.seq⟩] else []) s := by
    split
    · exact queueNotice_noticed _ _ rfl room
    · exact (noticed_nil s).symm
  unfold endCall
  dsimp only
  rw [freeOrbitOf_open _ open_, show callIdOf s o.seq = ⟨own s, o.seq⟩ from rfl, told]
  exact freeOffer_at (by rw [OfferAt, noticed_ofm]; exact at_)

theorem freeSlot_withoutPage {i : OrbitSlot} {x : Orbit} {s : State} (slot : slotOf s i = some x) (noPage : x.page = none) :
    freeSlot i s = withSlot i none s := by
  unfold freeSlot
  rw [slot]
  dsimp only
  rw [noPage]
  rfl

theorem callGoneEndsWithoutOutcome : Clause.CallGoneEndsTheCall := by
  intro o before after s ⟨ready, link, room⟩ at_ first
  refine ⟨fun open_ => ?_, fun n x parked unassigned silent slot noPage => ?_, fun ref none_ => ?_⟩
  · refine exec_of_act (f := callGone o.ref) rfl ready.1 ?_ ready.2
    rw [callGone_at (s := fresh s) at_ first, endCall_withoutOutcome (s := fresh s) at_ open_ (.inr ⟨link, room⟩),
      noticed_running _ _ (by exact link)]
    rfl
  · refine exec_of_act (f := callGone o.ref) rfl ready.1 ?_ ready.2
    rw [callGone_at (s := fresh s) at_ first, endCall_unheard (partiesOut_parked parked unassigned silent), freeOrbitOf, parked]
    dsimp only
    rw [freeSlot_withoutPage (s := fresh s) slot noPage]
    exact freeOffer_at (s := withSlot (orbitSlot n) none (fresh s)) at_
  · have missed : (fresh s).ofm.offers.find? (fun o => decide (o.ref = ref)) = none :=
      List.find?_eq_none.2 fun x here => by simpa using none_ x here
    refine exec_of_act (f := callGone ref) rfl ready.1 ?_ ready.2
    unfold callGone
    rw [missed]
    rfl

theorem callGoneOfAParkedCallFreesItsOrbit : Clause.CallGoneOfAParkedCallFreesItsOrbit := by
  intro o before after n s t ⟨ready, link, room⟩ at_ first parked unassigned silent freed
  have freed' : OrbitFreed n (fresh s) (withOutputs [] t) := freed.withOutputs []
  obtain ⟨ofm, -, -, -, -, own_, -, deliveries⟩ := orbitFreed_frame freed
  have at' : OfferAt o before after (withOutputs [] t) := by
    rw [OfferAt, show (withOutputs [] t).ofm = s.ofm from ofm]
    exact at_
  have running : cutOff s = false := by simp [cutOff, link]
  refine exec_of_act (f := callGone o.ref) rfl ready.1 ?_ ((deliveries running).trans ready.2)
  rw [callGone_at (s := fresh s) at_ first, endCall_unheard (partiesOut_parked parked unassigned silent), freeOrbitOf, parked]
  dsimp only
  rw [orbitSlot_orbitNumber, freeSlot_of freed' (.inr ⟨link, room⟩), freeOffer_at at']
  rfl

/-- Settles O25. -/
theorem callGoneEndsTheCall : Obligations.CallGoneEndsTheCall :=
  ⟨callGoneEndsWithoutOutcome, callGoneOfAParkedCallFreesItsOrbit⟩

end Sys2Proof.Machine
end

section
/-! SUPPORT. O26: the assign wait ends by its timer or by a DECLINE (R53, R61, R79, R80). -/

namespace Sys2Proof.Machine

/-! ### A notice heard from a known peer in RUNNING (R4, R12, R19) -/

/-- A heard command answers what its blocks make of the state in which its source has been heard. -/
theorem exec_heardKnown {c : Instr} {f : State → State} {src : Cabinet} {everywhere : Bool} {s t : State}
    (arm : exec c s = act (hear src everywhere f) s) (ready : Ready s) (link : s.clc.link = .running) (known : Known src s)
    (key : f (withOutputs [.acknowledge true] (heardFrom src s)) = t) (quiet : t.deliveries = []) : exec c s = .next t :=
  exec_of_act arm ready.1 ((hear_fresh src everywhere f s link known).trans key) quiet

/-- The same where own notices are delivered after it. -/
theorem exec_heardDelivered {c : Instr} {f : State → State} {src : Cabinet} {everywhere : Bool} {s t u : State}
    (arm : exec c s = act (hear src everywhere f) s) (ready : Ready s) (link : s.clc.link = .running) (known : Known src s)
    (key : f (withOutputs [.acknowledge true] (heardFrom src s)) = t) (delivered : Delivered t u) : exec c s = .next u :=
  exec_delivered arm ready.1 ((hear_fresh src everywhere f s link known).trans key) delivered

theorem heardDecline_read {src : Cabinet} {call : RawId} {line : Byte} {c : CallId} {l : Line} (id : codeCall call = some c)
    (place : codeBelow 16 line = some l) (s : State) : heardDecline src call line s = takeDecline c src l s := by
  unfold heardDecline
  rw [id, place]
  rfl

/-! ### The assign timer (R53, R80) -/

theorem assignExpiry_direct {o : Offer} {before after : List Offer} {cab : Cabinet} {line : Line} {s : State}
    (at_ : OfferAt o before after s) (direct : o.target = .direct cab line) (timer : o.assignTimer = true) :
    assignExpiry o.seq s = endCall o (some .busy) s := by
  unfold assignExpiry
  rw [findOffer_at at_]
  dsimp only
  rw [if_pos timer, if_pos (isDirect_direct direct)]

theorem assignExpiry_hunt {o : Offer} {before after : List Offer} {g : HuntGroup} {s : State}
    (at_ : OfferAt o before after s) (hunt : o.target = .hunt g) (timer : o.assignTimer = true) :
    assignExpiry o.seq s = failAssign o.seq s := by
  unfold assignExpiry
  rw [findOffer_at at_]
  dsimp only
  rw [if_pos timer, isDirect_hunt hunt]
  rfl

theorem assignExpiry_stopped {o : Offer} {before after : List Offer} {s : State}
    (at_ : OfferAt o before after s) (timer : o.assignTimer = false) : assignExpiry o.seq s = s := by
  unfold assignExpiry
  rw [findOffer_at at_]
  dsimp only
  rw [timer]
  rfl

theorem assignTimerExpires : Clause.AssignTimerExpires := by
  intro o m before after s ⟨ready, link, room⟩ shelf at_ assigned state
  have out : partiesOut o = true := by simp [partiesOut, assigned]
  refine ⟨fun cab line direct timer => ?_, fun g p hunt timer group silent untried => ?_, fun timer => ?_⟩
  · refine exec_of_act (f := assignExpiry o.seq) rfl ready.1 ?_ ready.2
    rw [assignExpiry_direct (s := fresh s) at_ direct timer,
      endCall_at (s := fresh s) at_ o rfl (by simp [state]) link room shelf, if_pos out]
    rfl
  · refine exec_of_act (f := assignExpiry o.seq) rfl ready.1 ?_ ready.2
    rw [assignExpiry_hunt (s := fresh s) at_ hunt timer,
      failAssign_at (s := fresh s) at_ link room g hunt assigned p group silent untried]
    rfl
  · exact exec_of_act (f := assignExpiry o.seq) rfl ready.1 (assignExpiry_stopped (s := fresh s) at_ timer) ready.2

/-! ### A DECLINE (R53, R61, R80) -/

theorem takeDecline_direct {o : Offer} {m : Member} {before after : List Offer} {cab : Cabinet} {line : Line} {s : State}
    (at_ : OfferAt o before after s) (state : o.state = .assigned) (assigned : o.assigned = some m)
    (direct : o.target = .direct cab line) :
    takeDecline ⟨own s, o.seq⟩ m.cab m.line s = endCall { o with assigned := none, assignTimer := false } (some .busy) s := by
  unfold takeDecline
  rw [ownOffer_at at_]
  dsimp only
  rw [if_pos ⟨state, by simp [assigned, atLine]⟩, if_pos (isDirect_direct direct)]

theorem takeDecline_hunt {o : Offer} {m : Member} {before after : List Offer} {g : HuntGroup} {s : State}
    (at_ : OfferAt o before after s) (state : o.state = .assigned) (assigned : o.assigned = some m)
    (hunt : o.target = .hunt g) : takeDecline ⟨own s, o.seq⟩ m.cab m.line s = failAssign o.seq s := by
  unfold takeDecline
  rw [ownOffer_at at_]
  dsimp only
  rw [if_pos ⟨state, by simp [assigned, atLine]⟩, isDirect_hunt hunt]
  rfl

theorem declineFromTheAssignedMember : Clause.DeclineFromTheAssignedMember := by
  intro src call line l o m before after s ⟨ready, link, room⟩ shelf known at_ id place state assigned from_ at_line silent
  subst from_ at_line
  have gone : partiesOut { o with assigned := none, assignTimer := false } = false := by simp [partiesOut, state, silent]
  refine ⟨fun cab dl direct => ?_, fun g p hunt group untried => ?_⟩
  · refine exec_heardKnown (f := heardDecline m.cab call line) rfl ready link known ?_ ready.2
    rw [heardDecline_read id place]
    refine (takeDecline_direct (by exact at_) state assigned direct).trans ?_
    rw [endCall_at (o := o) (by exact at_) { o with assigned := none, assignTimer := false } rfl (by simp [state])
      (by exact link) (by exact room) (by exact shelf), gone]
    simp
    rfl
  · refine exec_heardKnown (f := heardDecline m.cab call line) rfl ready link known ?_ ready.2
    rw [heardDecline_read id place]
    refine (takeDecline_hunt (by exact at_) state assigned hunt).trans ?_
    rw [failAssign_at (by exact at_) (by exact link) (by exact room) g hunt assigned p (by exact group) silent untried]
    rfl

/-! ### The next step (R79) -/

/-- The assign wait of a hunt call fails: its member is counted as tried, and the next step is decided (R80). -/
theorem failAssign_of {o : Offer} {m : Member} {before after : List Offer} {g : HuntGroup} {s t : State}
    (at_ : OfferAt o before after s) (hunt : o.target = .hunt g) (assigned : o.assigned = some m)
    (step : NextStep (withoutAssigned m.index o) before after (withOffers (before ++ withoutAssigned m.index o :: after) s) t) :
    failAssign o.seq s = t := by
  have lost : loseAssigned o = withoutAssigned m.index o := by
    simp [loseAssigned, assigned, countTried, withoutAssigned, isDirect, hunt, targetGroup]
  unfold failAssign
  rw [modOffer_at at_, lost]
  exact nextStep_of (o := withoutAssigned m.index o) (offerAt_withOffers at_ rfl) step

theorem assignWaitMakesTheNextStep : Clause.AssignWaitMakesTheNextStep := by
  intro o before after m g s t u ready at_ hunt state assigned delivered
  refine ⟨fun timer step => ?_, fun src call line link from_ known id place step => ?_⟩
  · refine exec_delivered (f := assignExpiry o.seq) rfl ready.1 ?_ delivered
    rw [assignExpiry_hunt (s := fresh s) at_ hunt timer]
    exact failAssign_of (s := fresh s) at_ hunt assigned step
  · subst from_
    refine exec_heardDelivered (f := heardDecline m.cab call line) rfl ready link known ?_ delivered
    rw [heardDecline_read id place]
    refine (takeDecline_hunt (by exact at_) state assigned hunt).trans ?_
    exact failAssign_of (by exact at_) hunt assigned step

/-- Settles O26. -/
theorem assignedMemberFails : Obligations.AssignedMemberFails :=
  ⟨assignTimerExpires, declineFromTheAssignedMember, assignWaitMakesTheNextStep⟩

end Sys2Proof.Machine
end

section
/-! SUPPORT. O27: a RING-STARTED at the owner of its call and at the ring view (R52, R59, R90). -/

namespace Sys2Proof.Machine

/-! ### The ring view (R90) -/

theorem viewEntered_new {e : ViewEntry} {s : State}
    (new : ∀ x ∈ s.ppu.view, ¬ (x.call = e.call ∧ x.cab = e.cab ∧ x.line = e.line))
    (room : s.ppu.view.length < viewCapacity) : viewEntered e s = withRinging e s := by
  unfold viewEntered
  rw [if_neg (fun ⟨x, here, same⟩ => new x here same), if_pos room]

theorem viewEntered_again {e : ViewEntry} {s : State}
    (stands : ∃ x ∈ s.ppu.view, x.call = e.call ∧ x.cab = e.cab ∧ x.line = e.line) : viewEntered e s = s :=
  if_pos stands

theorem viewEntered_full {e : ViewEntry} {s : State}
    (new : ¬ ∃ x ∈ s.ppu.view, x.call = e.call ∧ x.cab = e.cab ∧ x.line = e.line) (full : viewCapacity ≤ s.ppu.view.length) :
    viewEntered e s = raise .viewOverflow (100 + 16 * e.cab.val + e.line.val) .ppu s := by
  unfold viewEntered
  rw [if_neg new, if_neg (Nat.not_lt.2 full)]

/-! ### The heard RING-STARTED -/

/-- A heard RING-STARTED is recorded at its owner and then entered in the ring view. -/
theorem exec_ringStarted {src : Cabinet} {call : RawId} {line index pickup : Byte} {c : CallId} {l : Line}
    {i : Option OrderIndex} {g : Option PickupGroup} {s t u : State} (ready : Ready s) (link : s.clc.link = .running)
    (known : Known src s) (id : codeCall call = some c) (place : codeBelow 16 line = some l)
    (order : codeOrNone 32 index = some i) (group : codeOrNone 16 pickup = some g)
    (recorded : StartRecorded c ⟨src, l, i⟩ (withOutputs [.acknowledge true] (heardFrom src s)) t)
    (viewed : viewEntered ⟨c, src, l, g, false⟩ t = u) (quiet : u.deliveries = []) :
    exec (.ringStarted src call line index pickup) s = .next u := by
  refine exec_heardKnown (f := heardRingStarted src call line index pickup) rfl ready link known ?_ quiet
  unfold heardRingStarted
  rw [id, place, order, group]
  show viewEnter c src l g (takeRingStarted c ⟨src, l, i⟩ _) = u
  rw [takeRingStarted_of recorded, viewEnter_eq, viewed]

theorem ringStartedEndsTheAssignWait : Clause.RingStartedFromTheAssignedMember := by
  intro src call line index pickup l i g o m before after s ⟨ready, link, room⟩ known at_ id place order group state assigned
    from_ at_line silent new few
  subst from_ at_line
  refine exec_ringStarted ready link known id place order group
    (.inr (.inr ⟨o, before, after, at_, rfl, by simp [state],
      .inl ⟨⟨.inr (by simp [silent]), .inl ⟨state, m, assigned, rfl, rfl⟩⟩, rfl⟩⟩)) ?_ ready.2
  rw [viewEntered_new (by exact new) (by exact few)]
  simp only [state, silent, List.not_mem_nil, false_and, exists_false, List.length_nil, Nat.reduceLeDiff, or_self,
    if_false, List.nil_append, if_true]
  cases isDirect o <;> cases i <;> rfl

theorem ringStartedAtEveryOtherState : Clause.RingStartedAtEveryOtherState := by
  intro src call line index pickup l i g o before after s ⟨ready, link, room⟩ known at_ id place order group new few
    stranger open_ m erased becomes joined
  have unknown : ¬ ∃ y ∈ o.ringing, y.cab = src ∧ y.line = l := fun ⟨y, here, same⟩ => stranger y here same
  have enters {o' : Offer} {t : State} (view : t.ppu = s.ppu) (quiet : t.deliveries = [])
      (recorded : StartRecorded ⟨own s, o.seq⟩ ⟨src, l, i⟩ (withOutputs [.acknowledge true] (heardFrom src s))
        (withOutputs [.acknowledge true] (withOffers (before ++ o' :: after) t))) : becomes o' t := by
    have same : (withOutputs [.acknowledge true] (withOffers (before ++ o' :: after) t)).ppu = s.ppu := view
    exact exec_ringStarted ready link known id place order group recorded
      (viewEntered_new (by rw [same]; exact new) (by rw [same]; exact few)) quiet
  refine ⟨fun room' => ⟨fun stays => ?_, fun w waiting => ?_⟩, fun full => ?_⟩
  · refine enters rfl ready.2 (.inr (.inr ⟨o, before, after, at_, rfl, open_, .inr ⟨?_, ?_⟩⟩))
    · rintro ⟨-, ⟨assigned, a, is, same⟩ | ⟨w, waiting⟩⟩
      · rcases stays with offering | ringing | ⟨-, others⟩
        · rw [offering] at assigned; cases assigned
        · rw [ringing] at assigned; cases assigned
        · exact others a is same
      · rcases stays with offering | ringing | ⟨assigned, -⟩
        · rw [offering] at waiting; cases waiting
        · rw [ringing] at waiting; cases waiting
        · rw [assigned] at waiting; cases waiting
    · simp only [unknown, false_or]
      rw [if_neg (Nat.not_le.2 room')]
      rfl
  · refine enters rfl ready.2 (.inr (.inr ⟨o, before, after, at_, rfl, open_, .inl ⟨⟨.inr room', .inr ⟨w, waiting⟩⟩, ?_⟩⟩))
    simp only [unknown, false_or, waiting, reduceCtorEq, if_false]
    rw [if_neg (Nat.not_le.2 room')]
    rfl
  · refine enters rfl ready.2 (.inr (.inr ⟨o, before, after, at_, rfl, open_, .inr ⟨?_, ?_⟩⟩))
    · rintro ⟨known_ | room', -⟩
      · exact unknown known_
      · exact absurd full (Nat.not_le.2 room')
    · simp only [unknown, false_or]
      rw [if_pos full]
      rfl

theorem ringStartedWithoutARecord : Clause.RingStartedWithoutARecord := by
  intro src call line index pickup c l i g s ⟨ready, link, room⟩ known id place order group
  refine ⟨fun new few => ⟨fun ⟨mine, noRecord⟩ => ?_, fun other => ?_⟩, fun other stands => ?_, fun other new full => ?_⟩
  · refine exec_ringStarted ready link known id place order group (t := withOutputs [.acknowledge true]
      (withQueued [.cancel c] (heardFrom src s))) (.inr (.inl ⟨mine, .inr ⟨link, room⟩, ?_, noRecord⟩))
      (viewEntered_new (fun x here same => new ⟨x, here, same⟩) (by exact few)) ready.2
    rw [noticed_running _ _ (by exact link)]
    rfl
  · exact exec_ringStarted ready link known id place order group (.inl ⟨other, rfl⟩)
      (viewEntered_new (fun x here same => new ⟨x, here, same⟩) (by exact few)) ready.2
  · exact exec_ringStarted ready link known id place order group (.inl ⟨other, rfl⟩)
      (viewEntered_again stands) ready.2
  · exact exec_ringStarted ready link known id place order group (.inl ⟨other, rfl⟩) (viewEntered_full new full) ready.2

/-- Settles O27. -/
theorem ringStartedFromTheAssignedMember : Obligations.RingStartedFromTheAssignedMember :=
  ⟨ringStartedEndsTheAssignWait, ringStartedAtEveryOtherState, ringStartedWithoutARecord⟩

end Sys2Proof.Machine
end

section
/-! SUPPORT. O28: members that are lost, by a NO-ANSWER or a RING-ENDED (R60, R63, R79, R91). -/

namespace Sys2Proof.Machine

/-- Where no own notice waits, own delivery changes nothing. -/
theorem Delivered.quiet {t : State} (none_ : t.deliveries = []) : Delivered t t := ⟨0, Nat.zero_le _, none_, rfl⟩

/-! ### The heard notices -/

/-- A heard NO-ANSWER takes the members at its source and line from the record (R60). -/
theorem exec_noAnswer {src : Cabinet} {call : RawId} {line : Byte} {l : Line} {q : Seq} {s t u : State} (ready : Ready s)
    (link : s.clc.link = .running) (known : Known src s) (id : codeCall call = some ⟨own s, q⟩)
    (place : codeBelow 16 line = some l)
    (loses : RecordLoses (atLine src l) q (withOutputs [.acknowledge true] (heardFrom src s)) t) (delivered : Delivered t u) :
    exec (.noAnswer src call line) s = .next u := by
  refine exec_heardDelivered (f := heardNoAnswer src call line) rfl ready link known ?_ delivered
  unfold heardNoAnswer
  rw [id, place]
  exact membersLost_of (c := ⟨own s, q⟩) (.inr ⟨rfl, loses⟩)

/-- A heard RING-ENDED is taken at the owner of its call, and its entry leaves the ring view (R60, R91). -/
theorem heardRingEnded_read {src : Cabinet} {call : RawId} {line reason : Byte} {c : CallId} {l : Line} {r : RingEndReason}
    (id : codeCall call = some c) (place : codeBelow 16 line = some l) (why : codeRingEnd reason = some r) (s : State) :
    heardRingEnded src call line reason s = viewRemoveLine c src l (takeRingEnded c src l r s) := by
  unfold heardRingEnded
  rw [id, place, why]
  rfl

theorem exec_ringEnded {src : Cabinet} {call : RawId} {line reason : Byte} {l : Line} {r : RingEndReason} {q : Seq}
    {s t u : State} (ready : Ready s) (link : s.clc.link = .running) (known : Known src s)
    (id : codeCall call = some ⟨own s, q⟩) (place : codeBelow 16 line = some l) (why : codeRingEnd reason = some r)
    (loss : lossReason r = true)
    (loses : RecordLoses (atLine src l) q (withOutputs [.acknowledge true] (heardFrom src s)) t)
    (delivered : Delivered (viewRemoveLine ⟨own s, q⟩ src l t) u) : exec (.ringEnded src call line reason) s = .next u := by
  refine exec_heardDelivered (f := heardRingEnded src call line reason) rfl ready link known ?_ delivered
  have taken : takeRingEnded ⟨own s, q⟩ src l r (withOutputs [.acknowledge true] (heardFrom src s)) = t := by
    unfold takeRingEnded
    rw [if_pos loss]
    exact membersLost_of (c := ⟨own s, q⟩) (.inr ⟨rfl, loses⟩)
  rw [heardRingEnded_read id place why, taken]

theorem exec_ringEnded_other {src : Cabinet} {call : RawId} {line reason : Byte} {c : CallId} {l : Line} {r : RingEndReason}
    {s : State} (ready : Ready s) (link : s.clc.link = .running) (known : Known src s)
    (id : codeCall call = some c) (place : codeBelow 16 line = some l) (why : codeRingEnd reason = some r)
    (other : lossReason r = false) :
    exec (.ringEnded src call line reason) s
      = .next (viewRemoveLine c src l (withOutputs [.acknowledge true] (heardFrom src s))) := by
  refine exec_heardKnown (f := heardRingEnded src call line reason) rfl ready link known ?_ ready.2
  rw [heardRingEnded_read id place why, takeRingEnded, other]
  rfl

theorem lostMemberMakesTheNextStep : Clause.LostMemberMakesTheNextStep := by
  intro src call line l q s t u ready link known id place loses
  refine ⟨exec_noAnswer ready link known id place loses, fun reason r why loss delivered => ?_⟩
  exact exec_ringEnded ready link known id place why loss loses delivered

/-! ### What a record loses (R60) -/

/-- A record without the members that `p` picks (R60). -/
def losing (p : Member → Bool) (o : Offer) : Offer :=
  { o with
    ringing := o.ringing.filter fun m => !p m
    assigned := if o.assigned.any p then none else o.assigned
    assignTimer := if o.assigned.any p then false else o.assignTimer
    tried := if (targetGroup o.target).isSome then
        ((o.ringing ++ o.assigned.toList).filter p).foldl
          (fun t m => addTried m.index (o.ringing.filter fun m => !p m) t) o.tried
      else o.tried }

section
variable {p : Member → Bool} {o : Offer} {before after : List Offer} {s t : State}

/-- A record that loses a member, and neither its assigned one nor its last ringing one in RINGING, keeps its state. -/
theorem recordLoses_stays (at_ : OfferAt o before after s) (open_ : ∀ n, o.state ≠ .parked n)
    (lost : (o.ringing ++ o.assigned.toList).filter p ≠ [])
    (stays : ¬ (o.assigned.any p = true ∨ (o.state = .ringing ∧ (o.ringing.filter fun m => !p m) = []))) :
    RecordLoses p o.seq s (withOffers (before ++ losing p o :: after) s) :=
  ⟨o, before, after, at_, rfl, .inr ⟨lost, open_, .inl ⟨stays, rfl⟩⟩⟩

/-- A DIRECT call that loses its only member ends with NO-ANSWER and no CANCEL. -/
theorem recordLoses_ends (at_ : OfferAt o before after s) {cab : Cabinet} {dl : Line} (direct : o.target = .direct cab dl)
    (shelf : ShelfRoom 1 s) (room : Room 1 s) (states : o.state = .ringing ∨ o.state = .assigned)
    (lost : (o.ringing ++ o.assigned.toList).filter p ≠ [])
    (goesOn : o.assigned.any p = true ∨ (o.state = .ringing ∧ (o.ringing.filter fun m => !p m) = []))
    (alone : (losing p o).ringing = [] ∧ (losing p o).assigned = none) :
    RecordLoses p o.seq s (callFreed o before after (withSent [.callEnded o.ref ⟨own s, o.seq⟩ .noAnswer] s)) := by
  have open_ (n : OrbitNumber) : o.state ≠ .parked n := by rcases states with st | st <;> rw [st] <;> simp
  have offering : o.state ≠ .offering := by rcases states with st | st <;> rw [st] <;> simp
  have gone : partiesOut (losing p o) = false := by
    rw [partiesOut, alone.1, alone.2, show (losing p o).state = o.state from rfl, decide_eq_false offering]
    rfl
  refine ⟨o, before, after, at_, rfl, .inr ⟨lost, open_, .inr (.inr ⟨goesOn, by rw [direct]; rfl, ?_⟩)⟩⟩
  refine ⟨before, after, offerAt_withOffers at_ (o' := losing p o) rfl, shelf, .inl ⟨room, open_, ?_⟩⟩
  show _ = callFreed (losing p o) before after (withSent _ (noticed (if partiesOut (losing p o) then _ else []) _))
  rw [gone]
  simp only [Bool.false_eq_true, if_false, noticed_nil]
  rfl

/-- A HUNT call that loses its assigned member, or its last ringing one in RINGING, makes the next-step decision. -/
theorem recordLoses_goesOn (at_ : OfferAt o before after s) (open_ : ∀ n, o.state ≠ .parked n)
    (lost : (o.ringing ++ o.assigned.toList).filter p ≠ [])
    (goesOn : o.assigned.any p = true ∨ (o.state = .ringing ∧ (o.ringing.filter fun m => !p m) = []))
    (hunt : (targetGroup o.target).isSome = true)
    (step : NextStep (losing p o) before after (withOffers (before ++ losing p o :: after) s) t) :
    RecordLoses p o.seq s t :=
  ⟨o, before, after, at_, rfl, .inr ⟨lost, open_, .inr (.inl ⟨goesOn, hunt, step⟩)⟩⟩

end

/-- A tried set that does not hold the whole span lacks an order index of it. -/
theorem exists_untried {t : IndexSet} {span : Nat} (untried : exhausted t span = false) :
    ∃ i : OrderIndex, i.val < span ∧ hasIndex t i = false := by
  rw [← Bool.not_eq_true, exhausted_iff] at untried
  simpa using untried

theorem ringingMemberLeavesItsRecord : Clause.RingingMemberIsLost := by
  intro src call line reason l r o m before after s ⟨ready, link, room⟩ shelf known at_ id place why state unassigned from_
    at_line unseen ended
  have picked : atLine src l m = true := by simp [atLine, from_, at_line]
  have open_ (n : OrbitNumber) : o.state ≠ .parked n := by simp [state]
  refine ⟨fun cab dl direct rings => ?_, fun g x hunt rings other => ?_, fun loss => ?_⟩
  · have loses : RecordLoses (atLine src l) o.seq (withOutputs [.acknowledge true] (heardFrom src s)) _ :=
      recordLoses_ends (before := before) (after := after) at_ direct shelf (.inr ⟨link, room⟩) (.inl state)
        (by simp [rings, unassigned, picked]) (.inr ⟨state, by simp [rings, picked]⟩)
        (by simp [losing, rings, unassigned, picked])
    exact ⟨exec_noAnswer ready link known id place loses (.quiet ready.2), fun loss =>
      exec_ringEnded ready link known id place why loss loses (.quiet ready.2)⟩
  · have unpicked : atLine src l x = false := by simpa [atLine] using other
    have loses : RecordLoses (atLine src l) o.seq (withOutputs [.acknowledge true] (heardFrom src s)) _ :=
      recordLoses_stays (before := before) (after := after) at_ open_ (by simp [rings, picked])
        (by simp [rings, unassigned, unpicked])
    have left : losing (atLine src l) o = { o with ringing := [x], tried := addTried m.index [x] o.tried } := by
      simp [losing, rings, unassigned, picked, unpicked, hunt, targetGroup]
    rw [left] at loses
    exact exec_noAnswer ready link known id place loses (.quiet ready.2)
  · exact exec_ringEnded_other ready link known id place why loss

theorem memberOfAnAssignedCallIsLost : Clause.MemberOfAnAssignedCallIsLost := by
  intro src call line l o m a before after s ⟨ready, link, room⟩ shelf known at_ id place state assigned from_ at_line kept
  have picked : atLine src l m = true := by simp [atLine, from_, at_line]
  have open_ (n : OrbitNumber) : o.state ≠ .parked n := by simp [state]
  refine ⟨fun cab dl direct same silent => ?_, fun g p hunt group same silent untried => ?_,
    fun cab dl direct other rings => ?_, fun g hunt other rings => ?_⟩
  · subst same
    have loses : RecordLoses (atLine src l) o.seq (withOutputs [.acknowledge true] (heardFrom src s)) _ :=
      recordLoses_ends (before := before) (after := after) at_ direct shelf (.inr ⟨link, room⟩) (.inr state)
        (by simp [silent, assigned, picked]) (.inl (by simp [assigned, picked]))
        (by simp [losing, silent, assigned, picked])
    exact exec_noAnswer ready link known id place loses (.quiet ready.2)
  · subst same
    have left : losing (atLine src l) o = withoutAssigned a.index o := by
      simp [losing, withoutAssigned, silent, assigned, picked, hunt, targetGroup]
    refine exec_noAnswer (q := o.seq) ready link known id place (recordLoses_goesOn at_ open_ (by simp [silent, assigned, picked])
      (.inl (by simp [assigned, picked])) (by rw [hunt]; rfl) ?_) (.quiet ?_)
    · rw [left]
      refine .inr ⟨silent, g, hunt, .inl ⟨⟨p, group, ?_⟩, .inr ⟨link, room, rfl⟩⟩⟩
      rw [show (withoutAssigned a.index o).tried = addTried a.index [] o.tried by rw [withoutAssigned, silent]]
      exact exists_untried untried
    · exact ready.2
  · have unpicked : atLine src l a = false := by simpa [atLine] using other
    have loses : RecordLoses (atLine src l) o.seq (withOutputs [.acknowledge true] (heardFrom src s)) _ :=
      recordLoses_stays (before := before) (after := after) at_ open_ (by simp [rings, picked])
        (by simp [assigned, unpicked, state])
    have left : losing (atLine src l) o = { o with ringing := [] } := by
      simp [losing, rings, assigned, picked, unpicked, direct, targetGroup]
    rw [left] at loses
    exact exec_noAnswer ready link known id place loses (.quiet ready.2)
  · have unpicked : atLine src l a = false := by simpa [atLine] using other
    have loses : RecordLoses (atLine src l) o.seq (withOutputs [.acknowledge true] (heardFrom src s)) _ :=
      recordLoses_stays (before := before) (after := after) at_ open_ (by simp [rings, picked])
        (by simp [assigned, unpicked, state])
    have left : losing (atLine src l) o = { o with ringing := [], tried := addTried m.index [] o.tried } := by
      simp [losing, rings, assigned, picked, unpicked, hunt, targetGroup]
    rw [left] at loses
    exact exec_noAnswer ready link known id place loses (.quiet ready.2)

/-- Settles O28. -/
theorem ringingMemberIsLost : Obligations.RingingMemberIsLost :=
  ⟨ringingMemberLeavesItsRecord, memberOfAnAssignedCallIsLost, lostMemberMakesTheNextStep⟩

end Sys2Proof.Machine
end

section
/-! SUPPORT. O29 and O30: answers and claims at the owner of a call (R50, R54 to R58, R92, R103). -/

namespace Sys2Proof.Machine

/-- The state in which the blocks take a notice of a known peer (R4, R19). -/
abbrev hearing (src : Cabinet) (s : State) : State := withOutputs [.acknowledge true] (heardFrom src s)

/-! ### Answers (R55) -/

theorem heardAnswered_read {src : Cabinet} {call : RawId} {line index : Byte} {c : CallId} {l : Line}
    {i : Option OrderIndex} (id : codeCall call = some c) (place : codeBelow 16 line = some l)
    (order : codeOrNone 32 index = some i) (s : State) : heardAnswered src call line index s = takeAnswer c src l i s := by
  unfold heardAnswered
  rw [id, place, order]
  rfl

theorem takeAnswer_at {o : Offer} {before after : List Offer} {s : State} (at_ : OfferAt o before after s) (cab : Cabinet)
    (l : Line) (i : Option OrderIndex) : takeAnswer ⟨own s, o.seq⟩ cab l i s = connectCall o cab l i s := by
  unfold takeAnswer
  rw [if_pos rfl, findOffer_at at_]

theorem takeAnswer_none {q : Seq} {s : State} (none_ : ∀ o ∈ s.ofm.offers, o.seq ≠ q) (cab : Cabinet) (l : Line)
    (i : Option OrderIndex) : takeAnswer ⟨own s, q⟩ cab l i s = queueNotice (.cancel ⟨own s, q⟩) s := by
  unfold takeAnswer
  rw [if_pos rfl, findOffer_none none_]

theorem answerConnectsOrCancels : Clause.AnswerConnectsTheCall := by
  intro src call line index l i s ⟨ready, link, room⟩ shelf known place order
  refine ⟨fun o before after at_ id open_ => ?_, fun q id none_ => ?_⟩
  · refine exec_heardKnown (f := heardAnswered src call line index) rfl ready link known ?_ ready.2
    rw [heardAnswered_read id place order]
    refine (takeAnswer_at (s := hearing src s) at_ src l i).trans ?_
    rw [connectCall_at (by exact at_) open_ (by exact link) (by exact room) (by exact shelf)]
    rfl
  · refine exec_heardKnown (f := heardAnswered src call line index) rfl ready link known ?_ ready.2
    rw [heardAnswered_read id place order]
    refine (takeAnswer_none (s := hearing src s) none_ src l i).trans ?_
    rw [queueNotice_running _ _ (by exact link) rfl (by exact room)]
    rfl

theorem answerOfAParkedCallFreesItsOrbit : Clause.AnswerOfAParkedCallFreesItsOrbit := by
  intro src call line index l i n o before after s t ⟨ready, link, room⟩ shelf known place order at_ id parked freed
  have running : cutOff (heardFrom src s) = false := by simp [cutOff, heardFrom, withPeer, link]
  have quiet : t.deliveries = [] := ((orbitFreed_frame freed).2.2.2.2.2.2.2 running).trans ready.2
  refine exec_heardKnown (f := heardAnswered src call line index) rfl ready link known ?_ quiet
  rw [heardAnswered_read id place order]
  refine (takeAnswer_at (s := hearing src s) at_ src l i).trans ?_
  exact connectCall_parked (s := hearing src s) at_ parked link room shelf (freed.withOutputs [.acknowledge true])

/-- Settles O29. -/
theorem answerConnectsTheCall : Obligations.AnswerConnectsTheCall :=
  ⟨answerConnectsOrCancels, answerOfAParkedCallFreesItsOrbit⟩

/-! ### Claims (R54, R56 to R58, R92) -/

/-- A heard CLAIM is taken at its owner, and marks the entries of the call that it names. -/
theorem heardClaim_read {b : RawClaim} {t : ClaimTarget} {cab : Cabinet} {l : Line} (target : codeClaim b = some t)
    (claimer : codeBelow 16 b.cab = some cab) (place : codeBelow 16 b.line = some l) (s : State) :
    heardClaim b s = markClaim t (takeClaim t cab l false s) := by
  unfold heardClaim
  rw [target, claimer, place]
  rfl

theorem takeClaim_call (q : Seq) (cab : Cabinet) (l : Line) (here : Bool) (s : State) :
    takeClaim (.call ⟨own s, q⟩) cab l here s = claimCall ⟨own s, q⟩ cab l here s := if_pos rfl

theorem claimCall_at {o : Offer} {before after : List Offer} {s : State} (at_ : OfferAt o before after s) (cab : Cabinet)
    (l : Line) (here : Bool) (wins : o.state = .assigned ∨ o.state = .ringing) :
    claimCall ⟨own s, o.seq⟩ cab l here s = connectCall o cab l none s := by
  unfold claimCall
  rw [findOffer_at at_]
  dsimp only
  rcases wins with state | state <;> rw [state]

theorem claimCall_late {o : Offer} {before after : List Offer} {s : State} (at_ : OfferAt o before after s) (cab : Cabinet)
    (l : Line) (here : Bool) (unassigned : o.state ≠ .assigned) (silent : o.state ≠ .ringing) :
    claimCall ⟨own s, o.seq⟩ cab l here s = refuseClaim (.call ⟨own s, o.seq⟩) cab l here .tooLate s := by
  unfold claimCall
  rw [findOffer_at at_]
  dsimp only
  cases state : o.state with
  | assigned => exact absurd state unassigned
  | ringing => exact absurd state silent
  | offering | waiting w | parked n => rfl

theorem claimCall_none {q : Seq} {s : State} (none_ : ∀ o ∈ s.ofm.offers, o.seq ≠ q) (cab : Cabinet) (l : Line)
    (here : Bool) : claimCall ⟨own s, q⟩ cab l here s
      = refuseClaim (.call ⟨own s, q⟩) cab l here (if issued s q then .taken else .unknown) s := by
  unfold claimCall
  rw [findOffer_none none_]

/-- An orbit of the part is claimed. -/
theorem takeClaim_orbit {n : OrbitNumber} {s : State} (mine : n.val / 4 = (own s).val) (cab : Cabinet) (l : Line) (here : Bool) :
    takeClaim (.orbit n) cab l here s = claimOrbit n cab l here s := if_pos (Fin.ext mine)

theorem claimOrbit_empty {n : OrbitNumber} {s : State} (slot : slotOf s (orbitSlot n) = none) (cab : Cabinet) (l : Line)
    (here : Bool) : claimOrbit n cab l here s = refuseClaim (.orbit n) cab l here .empty s := by
  unfold claimOrbit
  rw [slot, Option.bind_none]

theorem claimOrbit_at {n : OrbitNumber} {x : Orbit} {o : Offer} {before after : List Offer} {s : State}
    (slot : slotOf s (orbitSlot n) = some x) (at_ : OfferAt o before after s) (call : x.call = o.seq) (cab : Cabinet) (l : Line)
    (here : Bool) : claimOrbit n cab l here s = connectCall o cab l none s := by
  unfold claimOrbit
  rw [slot, Option.bind_some, call, findOffer_at at_]

theorem claimsByCallAndOfEmptyOrbits : Clause.ClaimsAreDecidedByTheOwner := by
  intro src b cab l q s ⟨ready, link, room⟩ shelf known claimer place id refusedWith
  have refuses {r : ClaimRefusal} (target : codeClaim b = some (.call id))
      (decided : claimCall id cab l false (withOutputs [.acknowledge true] (heardFrom src s))
        = queueNotice (.refused (.call id) cab l r) (withOutputs [.acknowledge true] (heardFrom src s))) : refusedWith r := by
    refine exec_heardKnown (f := heardClaim b) rfl ready link known ?_ ready.2
    rw [heardClaim_read target claimer place]
    refine (congrArg (markClaim (.call id)) ((takeClaim_call q cab l false (hearing src s)).trans decided)).trans ?_
    rw [queueNotice_running _ _ (by exact link) rfl (by exact room)]
    rfl
  refine ⟨fun target => ⟨fun o before after at_ same => ⟨fun wins => ?_, fun unassigned silent => ?_⟩, fun none_ was => ?_,
    fun none_ unwrapped never => ?_⟩, fun n target mine slot => ?_⟩
  · subst same
    refine exec_heardKnown (f := heardClaim b) rfl ready link known ?_ ready.2
    rw [heardClaim_read target claimer place]
    have open_ (n : OrbitNumber) : o.state ≠ .parked n := by rcases wins with st | st <;> rw [st] <;> simp
    refine (congrArg (markClaim (.call id)) ((takeClaim_call o.seq cab l false (hearing src s)).trans
      (claimCall_at (s := hearing src s) at_ cab l false wins))).trans ?_
    rw [connectCall_at (by exact at_) open_ (by exact link) (by exact room) (by exact shelf)]
    rfl
  · subst same
    exact refuses target (claimCall_late (s := hearing src s) at_ cab l false unassigned silent)
  · refine refuses target ((claimCall_none (s := hearing src s) none_ cab l false).trans ?_)
    have issued_ : issued (hearing src s) q = true := by simpa [issued, heardFrom, withPeer] using was
    rw [issued_]
    rfl
  · refine refuses target ((claimCall_none (s := hearing src s) none_ cab l false).trans ?_)
    have unissued : issued (hearing src s) q = false := by simpa [issued, heardFrom, withPeer, unwrapped] using never
    rw [unissued]
    rfl
  · refine exec_heardKnown (f := heardClaim b) rfl ready link known ?_ ready.2
    rw [heardClaim_read target claimer place]
    refine (congrArg (markClaim (.orbit n)) ((takeClaim_orbit (s := hearing src s) mine cab l false).trans
      (claimOrbit_empty (s := hearing src s) slot cab l false))).trans ?_
    exact congrArg (markClaim (.orbit n))
      (queueNotice_running (.refused (.orbit n) cab l .empty) (hearing src s) link rfl room)

theorem claimOfAnOrbitRetrievesTheCall : Clause.ClaimOfAnOrbitRetrievesTheCall := by
  intro src b cab l i x o before after s ⟨ready, link, room⟩ shelf known claimer place target slot at_ call parked id retrieved
  have mine : (orbitNumber (own s) i).val / 4 = (own s).val := by simp only [orbitNumber]; omega
  have slot' : slotOf s (orbitSlot (orbitNumber (own s) i)) = some x := by rw [orbitSlot_orbitNumber]; exact slot
  have takes {t : State} (quiet : t.deliveries = [])
      (freed : OrbitFreed i (withQueued [.connected id cab l (targetGroup o.target) none]
        (withOutputs [.acknowledge true] (heardFrom src s))) t) :
      exec (.claim src b) s = .next (callFreed o before after (withSent [.connect o.ref id cab l] t)) := by
    refine exec_heardKnown (f := heardClaim b) rfl ready link known ?_ quiet
    rw [heardClaim_read target claimer place]
    refine (congrArg (markClaim _) ((takeClaim_orbit (s := hearing src s) mine cab l false).trans
      (claimOrbit_at (s := hearing src s) slot' at_ call cab l false))).trans ?_
    exact connectCall_parked (by exact at_) parked (by exact link) (by exact room) (by exact shelf) freed
  refine ⟨fun noPage => ?_, fun r p q page at' air cls origin => ?_⟩
  · refine (takes (by exact ready.2) ⟨x, slot, .inl ⟨fun p is => ?_, rfl⟩⟩).trans rfl
    rw [noPage] at is
    cases is
  · refine (takes ?_ ⟨x, slot, .inr ⟨r, p, q, page, at', origin, .inl ⟨by simp [air], rfl⟩⟩⟩).trans ?_
    · rw [noticed_running _ _ (by exact link)]
      exact ready.2
    · have both (t : State) :
          withQueued [.connected id cab l (targetGroup o.target) none, .pageEnd ⟨own s, r.seq⟩ .code .ended] t
            = withQueued [.pageEnd ⟨own s, r.seq⟩ .code .ended]
                (withQueued [.connected id cab l (targetGroup o.target) none] t) :=
        (withQueued_twice [_] [_] t).symm
      rw [noticed_running _ _ (by exact link), cls, both]
      rfl

/-- Settles O30. -/
theorem claimsAreDecidedByTheOwner : Obligations.ClaimsAreDecidedByTheOwner :=
  ⟨claimsByCallAndOfEmptyOrbits, claimOfAnOrbitRetrievesTheCall⟩

end Sys2Proof.Machine
end

section
/-! SUPPORT. O31: CONNECTED, REFUSED and CANCEL at the lines of the part (R35, R39, R41, R68, R91). -/

namespace Sys2Proof.Machine

/-! ### The heard notices -/

section
variable {l n : Line} {c : CallId} {cb : Cabinet} {g : Option HuntGroup} {i : Option OrderIndex} {s t : State}

/-- A CONNECTED at the lines, where only one is a party of the call, and that one alone can be the line it names. -/
theorem lineConnected_of {u : State} (only : OnlyParty l c s) (lines : ∀ m, lineOf u m = lineOf s m)
    (same : cb = own s → n = l) (ownU : own u = own s) (connects : LineConnects c cb n g i l u t) (ownT : own t = own s)
    (others : ∀ m, m ≠ l → lineOf t m = lineOf s m) : lineConnected c cb n g i u = t := by
  refine lineConnected_at only lines same ownU ?_ ownT others
  have taken := lineConnects_of connects
  rw [ownU] at taken
  by_cases here : cb = own s
  · rw [if_pos ⟨here, (same here).symm⟩] at taken
    rw [if_pos here]
    exact taken
  · rw [if_neg fun h => here h.1] at taken
    rw [if_neg here]
    exact taken

theorem exec_connected {src : Cabinet} {call : RawId} {cab line group index : Byte} (ready : Ready s)
    (link : s.clc.link = .running) (known : Known src s) (id : codeCall call = some c) (cabinet : codeBelow 16 cab = some cb)
    (place : codeBelow 16 line = some n) (group_ : codeOrNone 16 group = some g) (order : codeOrNone 32 index = some i)
    (only : OnlyParty l c s) (same : cb = own s → n = l)
    (connects : LineConnects c cb n g i l (forgetOffer c (rotate g i (hearing src s))) t) (ownT : own t = own s)
    (others : ∀ m, m ≠ l → lineOf t m = lineOf s m) (quiet : t.deliveries = []) :
    exec (.connected src call cab line group index) s = .next (viewRemoveCall c t) := by
  have frame : own (rotate g i (hearing src s)) = own s ∧ ∀ m, lineOf (rotate g i (hearing src s)) m = lineOf s m := by
    unfold rotate
    split
    · exact ⟨rfl, fun _ => rfl⟩
    · exact ⟨rfl, fun _ => rfl⟩
  refine exec_heardKnown (f := heardConnected call cab line group index) rfl ready link known ?_ quiet
  unfold heardConnected
  rw [id, cabinet, place, group_, order]
  show viewRemoveCall c (lineConnected c cb n g i (huntConnected c g i (hearing src s))) = _
  rw [huntConnected, releaseCall_none c _ fun m => by
    rw [show lineOf (forgetOffer c (rotate g i (hearing src s))) m = lineOf s m from frame.2 m]
    exact (only m).2]
  exact congrArg (viewRemoveCall c) (lineConnected_of only frame.2 same frame.1 connects ownT others)

/-- The same of a CONNECTED that names no group or no order index, which leaves the rotation pointers. -/
theorem exec_connected_unnamed {src : Cabinet} {call : RawId} {cab line group index : Byte} (ready : Ready s)
    (link : s.clc.link = .running) (known : Known src s) (id : codeCall call = some c) (cabinet : codeBelow 16 cab = some cb)
    (place : codeBelow 16 line = some n) (group_ : codeOrNone 16 group = some g) (order : codeOrNone 32 index = some i)
    (unnamed : g = none ∨ i = none) (only : OnlyParty l c s) (same : cb = own s → n = l)
    (connects : LineConnects c cb n g i l (forgetOffer c (hearing src s)) t) (ownT : own t = own s)
    (others : ∀ m, m ≠ l → lineOf t m = lineOf s m) (quiet : t.deliveries = []) :
    exec (.connected src call cab line group index) s = .next (viewRemoveCall c t) :=
  exec_connected ready link known id cabinet place group_ order only same
    (by rw [rotate_none g i _ unnamed]; exact connects) ownT others quiet

/-- A CANCEL at the lines, where only one is a party of the call. -/
theorem lineCancel_of {u : State} (only : OnlyParty l c s) (lines : ∀ m, lineOf u m = lineOf s m)
    (loses : PartyLoses c .cancelled l u t) (others : ∀ m, m ≠ l → lineOf t m = lineOf s m)
    (kept : (lineOf t l).reserved = (lineOf s l).reserved) : lineCancel c u = t := by
  have stranger {v : State} {m : Line} (other : m ≠ l) (is : lineOf v m = lineOf s m) : cancelAt c m v = v := by
    obtain ⟨awaits_, rings⟩ := (only m).1 other
    unfold cancelAt
    rw [is, awaits_, rings]
    rfl
  have taken : cancelAt c l u = t := partyLoses_of loses (by simp)
  unfold lineCancel
  rw [forEach_oneLine l _ u (fun m other => stranger other (lines m))
    (fun m other => by rw [taken]; exact stranger other (others m other)), taken]
  refine releaseCall_none c t fun m => ?_
  by_cases here : m = l
  · subst here
    rw [kept]
    exact (only m).2
  · rw [others m here]
    exact (only m).2

theorem exec_cancel {src : Cabinet} {call : RawId} (ready : Ready s)
    (link : s.clc.link = .running) (known : Known src s) (id : codeCall call = some c) (only : OnlyParty l c s)
    (loses : PartyLoses c .cancelled l (forgetOffer c (hearing src s)) t) (others : ∀ m, m ≠ l → lineOf t m = lineOf s m)
    (kept : (lineOf t l).reserved = (lineOf s l).reserved) (quiet : t.deliveries = []) :
    exec (.cancel src call) s = .next (viewRemoveCall c t) := by
  refine exec_heardKnown (f := heardCancel call) rfl ready link known ?_ quiet
  unfold heardCancel
  rw [id]
  exact congrArg (viewRemoveCall c) (lineCancel_of only (fun _ => rfl) loses others kept)

end

/-! ### Lines that await or ring -/

theorem awaits_of {r : LineRec} {v : Verdict} {t : ClaimTarget} (verdict : r.verdict = some v) (target : v.target = t) :
    awaits r t = true := by
  simp [awaits, verdict, target]

theorem awaits_none {r : LineRec} {t : ClaimTarget} (verdict : r.verdict = none) : awaits r t = false := by
  simp [awaits, verdict]

/-- The state in which a line has stopped ringing for a call (R39). -/
def ringingStopped (l : Line) (call : CallId) (reason : RingEndReason) (s : State) : State :=
  withOutputs (s.outputs ++ [.ring l false, .tone l .none])
    (noticed (.ringEnded call l reason :: newlyAvailable (lineOf s l) (silenced (lineOf s l)))
      (withLine l (refreshed (silenced (lineOf s l))) (viewRemoveLine call (own s) l s)))

section
variable {l : Line} {c : LineCall} {reason : RingEndReason} {s : State}

theorem ringingStops_of (room : Room 2 s) (ringing : (lineOf s l).state = .ringing) (call : (lineOf s l).call = some c) :
    RingingStops l c.call reason s (ringingStopped l c.call reason s) :=
  ⟨c, ringing, call, rfl, room, rfl⟩

theorem own_ringingStopped (l : Line) (call : CallId) (reason : RingEndReason) (s : State) :
    own (ringingStopped l call reason s) = own s := own_noticed ..

theorem lineOf_ringingStopped_ne {m : Line} (call : CallId) (other : m ≠ l) :
    lineOf (ringingStopped l call reason s) m = lineOf s m := by
  rw [ringingStopped, lineOf_withOutputs, lineOf_noticed]
  exact lineOf_withLine_ne _ _ other

theorem lineOf_ringingStopped_self (call : CallId) :
    lineOf (ringingStopped l call reason s) l = refreshed (silenced (lineOf s l)) := by
  rw [ringingStopped, lineOf_withOutputs, lineOf_noticed]
  exact lineOf_withLine_self ..

/-- On the link, with the entries of the call gone from the ring view as well (R91). -/
theorem ringingStopped_forgotten {src : Cabinet} (link : s.clc.link = .running) (call : CallId) :
    viewRemoveCall call (ringingStopped l call reason (forgetOffer call (hearing src s)))
      = withOutputs [.acknowledge true, .ring l false, .tone l .none]
          (withQueued (.ringEnded call l reason :: newlyAvailable (lineOf s l) (silenced (lineOf s l)))
            (callForgotten call (withLine l (refreshed (silenced (lineOf s l))) (heardFrom src s)))) := by
  have twice : (s.ppu.view.filter fun e => !decide (e.call = call ∧ e.cab = own s ∧ e.line = l)).filter
      (fun e => !decide (e.call = call)) = s.ppu.view.filter fun e => !decide (e.call = call) := by
    rw [List.filter_filter]
    refine List.filter_congr fun e _ => ?_
    by_cases same : e.call = call <;> simp [same]
  rw [ringingStopped, noticed_running _ _ (by exact link)]
  refine Eq.trans ?_ (congrArg (fun v => withOutputs [.acknowledge true, .ring l false, .tone l .none]
    (withQueued (.ringEnded call l reason :: newlyAvailable (lineOf s l) (silenced (lineOf s l)))
      { callForgotten call (withLine l (refreshed (silenced (lineOf s l))) (heardFrom src s)) with
        ppu := { s.ppu with view := v } })) twice)
  rfl

end

theorem connectedResolvesAPendingLine : Clause.ConnectedResolvesAPendingLine := by
  intro src call cab line group index c cb l n g i v s ⟨ready, link, room⟩ known id cabinet place group_ order verdict
    target only same rotated
  refine ⟨fun here => ?_, fun there => ?_⟩
  · have named : n = l := same here
    subst named here
    refine exec_connected (l := n) ready link known id cabinet place group_ order only same
      (.inl ⟨⟨rfl, rfl⟩, ⟨v, verdict, .inl target⟩, rfl⟩) rfl (fun m other => lineOf_withLine_ne _ _ other) ready.2
  · refine exec_connected (l := l) ready link known id cabinet place group_ order only same
      (.inr (.inr ⟨fun h => there h.1, .inl ⟨awaits_of verdict target, rfl⟩⟩)) rfl
      (fun m other => lineOf_withLine_ne _ _ other) ready.2

theorem connectedResolvesARetrieve : Clause.ConnectedResolvesARetrieve := by
  intro src call cab line group index c l g i v o s ⟨ready, link, room⟩ known id cabinet place group_ order unnamed verdict
    target only
  exact exec_connected_unnamed (l := l) ready link known id cabinet place group_ order unnamed only (fun _ => rfl)
    (.inl ⟨⟨rfl, rfl⟩, ⟨v, verdict, .inr ⟨o, target⟩⟩, rfl⟩) rfl (fun m other => lineOf_withLine_ne _ _ other) ready.2

theorem connectedStopsARingingLine : Clause.ConnectedStopsARingingLine := by
  intro src call cab line group index c cb l n g i s ⟨ready, link, room⟩ known id cabinet there place group_ order unnamed
    ringing ofCall verdict only r
  refine (exec_connected_unnamed (l := l) ready link known id cabinet place group_ order unnamed only
    (fun here => absurd here there)
    (.inr (.inr ⟨fun h => there h.1, .inr (.inl ⟨awaits_none verdict, ringingStops_of (.inr ⟨link, room⟩) ringing ofCall⟩)⟩))
    (own_ringingStopped ..) (fun m other => lineOf_ringingStopped_ne c.call other) ?_).trans
      (congrArg _ (ringingStopped_forgotten link c.call))
  rw [ringingStopped, noticed_running _ _ (by exact link)]
  exact ready.2

theorem lateVerdictReleasesTheShelfsPath : Clause.LateVerdictReleasesTheShelfsPath := by
  intro src call cab line group index c l g i s ⟨ready, link, room⟩ shelf known id cabinet place group_ order unnamed
    late only
  have none_ (v : Verdict) (is : (lineOf s l).verdict = some v) : ∃ d, v.target = .call d ∧ d ≠ c := by
    rcases late with no | ⟨w, d, has, target, other⟩
    · rw [no] at is; cases is
    · obtain rfl : v = w := Option.some.inj (is.symm.trans has)
      exact ⟨d, target, other⟩
  exact exec_connected_unnamed (l := l) ready link known id cabinet place group_ order unnamed only (fun _ => rfl)
    (.inr (.inl ⟨⟨rfl, rfl⟩, none_, shelf, rfl⟩)) rfl (fun m other => rfl) ready.2

theorem refusedAndCancelResolveAsLost : Clause.RefusedAndCancelResolveAsLost := by
  intro src b call reason c l v s ⟨ready, link, room⟩ known verdict lost
  refine ⟨fun target claimer place => ?_, fun id target only => ?_⟩
  · refine exec_heardKnown (f := heardRefused b) rfl ready link known ?_ ready.2
    unfold heardRefused
    rw [target, claimer, place]
    have refused : takeRefusal v.target l (hearing src s) = resolveLost l (hearing src s) :=
      if_pos (awaits_of (by exact verdict) rfl)
    refine (if_pos rfl).trans (refused.trans ?_)
    rw [resolveLost_eq]
    rfl
  · exact exec_cancel ready link known id only (.inl ⟨awaits_of verdict target, rfl⟩)
      (fun m other => lineOf_withLine_ne _ _ other)
      (by rw [resolvedLost, lineOf_withOutputs, lineOf_withLine_self]; rfl) ready.2

theorem cancelStopsARingingLine : Clause.CancelStopsARingingLine := by
  intro src call c l s ⟨ready, link, room⟩ known id ringing ofCall verdict only r
  refine (exec_cancel ready link known id only
    (.inr (.inl ⟨awaits_none verdict, ringingStops_of (.inr ⟨link, room⟩) ringing ofCall⟩))
    (fun m other => lineOf_ringingStopped_ne c.call other) ?_ ?_).trans (congrArg _ (ringingStopped_forgotten link c.call))
  · rw [lineOf_ringingStopped_self]
    rfl
  · rw [ringingStopped, noticed_running _ _ (by exact link)]
    exact ready.2

/-- Settles O31. -/
theorem verdictsReachTheLine : Obligations.VerdictsReachTheLine :=
  ⟨connectedResolvesAPendingLine, connectedResolvesARetrieve, connectedStopsARingingLine, lateVerdictReleasesTheShelfsPath,
    refusedAndCancelResolveAsLost, cancelStopsARingingLine⟩

end Sys2Proof.Machine
end

section
/-! SUPPORT. O32 and O33: the member side of a hunt: an OFFER is bid for or rung, and a queued bid is withdrawn
(R70 to R74). -/

namespace Sys2Proof.Machine

/-! ### An OFFER that is heard (R70, R71) -/

theorem heardOffer_read {call : RawId} {group : Byte} {tried : IndexSet} {c : CallId} {g : HuntGroup}
    (id : codeCall call = some c) (place : codeBelow 16 group = some g) (s : State) :
    heardOffer call group tried s = memberOffer c g tried s := by
  unfold heardOffer
  rw [id, place]
  rfl

/-- A call not heard before enters a heard-offer list that has room. -/
theorem withNewestOffer_new {c : CallId} {g : HuntGroup} {s : State} (room : s.he.heard.length < heardCapacity)
    (new : ∀ e ∈ s.he.heard, e.call ≠ c) : withNewestOffer c g s = withHeard c g s := by
  have others : (s.he.heard.filter fun e => !decide (e.call = c)) = s.he.heard :=
    List.filter_eq_self.2 fun e here => by simpa using new e here
  simp only [withNewestOffer, others, if_pos room]
  rfl

theorem offerIsAnsweredByTheBestCandidate : Clause.OfferIsAnsweredByTheBestCandidate := by
  intro src call group attempt tried c g s ⟨ready, link, room⟩ known id place few new free sequential
  have heard {t : State} (answers : MemberAnswers c g tried (withHeard c g (hearing src s)) t) (quiet : t.deliveries = []) :
      exec (.offer src call group attempt tried) s = .next t := by
    refine exec_heardKnown (f := heardOffer call group tried) rfl ready link known ?_ quiet
    rw [heardOffer_read id place]
    refine memberOffer_of (.inl ⟨free, rfl⟩) ?_
    rw [withNewestOffer_new (s := hearing src s) few new]
    exact answers
  refine ⟨fun none_ => heard (.inl ⟨none_, rfl⟩) ready.2, fun l i k stands key best => ?_⟩
  refine (heard (.inr (.inr ⟨sequential, .inr ⟨link, room⟩, l, i, k, stands, key, best, rfl⟩)) ?_).trans ?_
  · rw [noticed_running _ _ (by exact link)]
    exact ready.2
  · rw [noticed_running _ _ (by exact link)]
    rfl

/-! ### Lines that ring one after another (R37, R74) -/

/-- What a line's start of ringing leaves on the link. -/
theorem ringStarts_frame {l : Line} {c : CallId} {cad : Cadence} {g : Option HuntGroup} {s : State}
    (link : s.clc.link = .running) :
    (ringStarts l c cad g s).clc = (withQueued [.ringStarted c l (g.bind (indexIn (lineOf s l).memberships))
        (lineOf s l).pickup] s).clc
      ∧ (ringStarts l c cad g s).lu = (withLine l (ringingRecord s c cad g (lineOf s l)) s).lu
      ∧ (ringStarts l c cad g s).he = s.he ∧ (ringStarts l c cad g s).deliveries = s.deliveries := by
  obtain ⟨clc, lu, he, deliveries⟩ := viewEnter_frame c (own s) l (lineOf s l).pickup (withOutputs (s.outputs ++ [.ring l true])
    (noticed [.ringStarted c l (g.bind (indexIn (lineOf s l).memberships)) (lineOf s l).pickup]
      (withLine l (ringingRecord s c cad g (lineOf s l)) s)))
  rw [viewEnter_eq, noticed_running _ _ (by exact link)] at clc lu he deliveries
  unfold ringStarts
  rw [noticed_running _ _ (by exact link)]
  exact ⟨clc, lu, he, deliveries⟩

/-- Every candidate of a list rings for a call, and nothing else happens at the lines and at the HE. -/
structure RingsAll (c : CallId) (g : HuntGroup) (xs : List Candidate) (s t : State) : Prop where
  queue : t.clc.queue = s.clc.queue ++ xs.map fun x =>
    newEntry (own s) (.ringStarted c x.line (some x.index) (lineOf s x.line).pickup)
  he : t.he = s.he
  deliveries : t.deliveries = s.deliveries
  rings : ∀ x ∈ xs, lineOf t x.line = ringingRecord s c .hunt (some g) (lineOf s x.line)
  others : ∀ l, l ∉ xs.map (·.line) → lineOf t l = lineOf s l

theorem ringsAll_requests {c : CallId} {g : HuntGroup} {xs : List Candidate} {s : State} (link : s.clc.link = .running)
    (room : s.clc.queue.length + xs.length ≤ txCapacity) (apart : (xs.map (·.line)).Nodup)
    (stand : ∀ x ∈ xs, isAvailable (lineOf s x.line) g = true ∧ indexIn (lineOf s x.line).memberships g = some x.index) :
    RingsAll c g xs s (forEach xs (simultaneousRequest c g) s) := by
  induction xs generalizing s with
  | nil => exact ⟨by simp [forEach], rfl, rfl, by simp, fun _ _ => rfl⟩
  | cons x xs ih =>
    obtain ⟨fresh_, apart⟩ := List.nodup_cons.1 apart
    obtain ⟨available, index⟩ := stand x (List.mem_cons_self ..)
    have few : s.clc.queue.length + 1 ≤ txCapacity := by
      rw [List.length_cons] at room
      omega
    have step : simultaneousRequest c g x s = ringStarts x.line c .hunt (some g) s := by
      unfold simultaneousRequest
      rw [if_pos available]
      exact startRinging_noticed _ _ _ _ _ (isAvailable_free available) (.inr ⟨link, few⟩)
    obtain ⟨clc, lu, he, deliveries⟩ := ringStarts_frame (l := x.line) (c := c) (cad := .hunt) (g := some g) link
    rw [Option.bind_some, index] at clc
    generalize ringStarts x.line c .hunt (some g) s = v at step clc lu he deliveries
    have same : own v = own s := congrArg (·.address) clc
    have self_ : lineOf v x.line = ringingRecord s c .hunt (some g) (lineOf s x.line) := by
      unfold lineOf
      rw [lu]
      exact lineOf_withLine_self ..
    have other (m : Line) (ne : m ≠ x.line) : lineOf v m = lineOf s m := by
      unfold lineOf
      rw [lu]
      exact lineOf_withLine_ne _ _ ne
    have behind (y : Candidate) (here : y ∈ xs) : y.line ≠ x.line :=
      fun same => fresh_ (List.mem_map.2 ⟨y, here, same⟩)
    have record (r : LineRec) : ringingRecord v c .hunt (some g) r = ringingRecord s c .hunt (some g) r := by
      simp only [ringingRecord, noAnswerTime, groupNoAnswer, he]
    have rest := ih (s := v) (by rw [clc]; exact link) (by rw [clc]; simp at room ⊢; omega) apart (fun y here => by
      rw [other _ (behind y here)]
      exact stand y (List.mem_cons_of_mem _ here))
    rw [forEach, step]
    refine ⟨?_, rest.he.trans he, rest.deliveries.trans deliveries, fun y here => ?_, fun l none_ => ?_⟩
    · have entries : xs.map (fun y => newEntry (own v) (.ringStarted c y.line (some y.index) (lineOf v y.line).pickup))
          = xs.map fun y => newEntry (own s) (.ringStarted c y.line (some y.index) (lineOf s y.line).pickup) :=
        List.map_congr_left fun y here => by rw [same, other _ (behind y here)]
      rw [rest.queue, entries, clc, List.map_cons]
      exact List.append_assoc ..
    · rcases List.mem_cons.1 here with rfl | here
      · rw [rest.others _ fresh_, self_]
      · rw [rest.rings y here, record, other _ (behind y here)]
    · rw [List.map_cons, List.mem_cons, not_or] at none_
      rw [rest.others l none_.2, other l none_.1]

/-- The lines of the candidates for an OFFER are lines of the part, each once. -/
theorem candidates_lines (s : State) (g : HuntGroup) (tried : IndexSet) :
    (candidates s g tried).map (·.line) = allLines.filter fun l => (candidateAt s g tried l).isSome := by
  have each (ls : List Line) : (ls.filterMap (candidateAt s g tried)).map (·.line)
      = ls.filter fun l => (candidateAt s g tried l).isSome := by
    induction ls with
    | nil => rfl
    | cons l ls ih =>
      cases at_ : candidateAt s g tried l with
      | none => simp [at_, ih]
      | some x => simp [at_, ih, ((candidateAt_iff ..).1 at_).2.1]
  exact each allLines

theorem candidates_few (s : State) (g : HuntGroup) (tried : IndexSet) : (candidates s g tried).length ≤ 16 := by
  rw [← List.length_map (f := (·.line)), candidates_lines]
  exact Nat.le_trans (List.length_filter_le ..) (by decide)

theorem simultaneousOfferRingsEveryCandidate : Clause.SimultaneousOfferRingsEveryCandidate := by
  intro src call group attempt tried c g s ⟨ready, link, room⟩ known id place free simultaneous
  have rung := ringsAll_requests (c := c) (g := g) (xs := candidates s g tried) (s := withNewestOffer c g (hearing src s)) link
    (Nat.le_trans (Nat.add_le_add_left (candidates_few s g tried) _) room)
    (by rw [candidates_lines]; exact List.filter_sublist.nodup (by decide))
    (fun x here => by
      obtain ⟨index, -, available⟩ := ((candidates_mem ..).1 here).1
      exact ⟨available, index⟩)
  refine ⟨_, exec_heardKnown (f := heardOffer call group tried) rfl ready link known ?_ (rung.deliveries.trans ready.2),
    congrArg (·.bids) rung.he, fun l i stands => ?_, fun l none_ => ?_, rung.queue⟩
  · have released_ : releaseCall c (hearOffer c g (hearing src s)) = withNewestOffer c g (hearing src s) :=
      releaseCall_of (.inl ⟨free, rfl⟩)
    rw [heardOffer_read id place]
    unfold memberOffer
    rw [released_]
    dsimp only
    rw [show disciplineOf (withNewestOffer c g (hearing src s)) g = .simultaneous from simultaneous]
    rfl
  · exact rung.rings ⟨bidKey s g l i, i, l⟩ ((candidates_mem ..).2 ⟨stands, rfl⟩)
  · refine rung.others l fun here => ?_
    obtain ⟨x, is, rfl⟩ := List.mem_map.1 here
    exact none_ x.index ((candidates_mem ..).1 is).1

/-- Settles O32. -/
theorem offerIsBidForOrRung : Obligations.OfferIsBidForOrRung :=
  ⟨offerIsAnsweredByTheBestCandidate, simultaneousOfferRingsEveryCandidate⟩

/-! ### Queued bids (R72) -/

theorem heardBid_read {src : Cabinet} {key : BidKey} {call : RawId} {line index : Byte} {c : CallId} {l : Line}
    {i : Option OrderIndex} (id : codeCall call = some c) (place : codeBelow 16 line = some l)
    (order : codeOrNone 32 index = some i) (s : State) :
    heardBid src key call line index s
      = ownerBid c ⟨src, l, i, arbNumber 2 key.val src⟩ (memberBid c (arbNumber 2 key.val src) s) := by
  unfold heardBid
  rw [id, place, order]
  rfl

theorem withdrawBid_idle {c : CallId} {s : State} (idle : ∀ x ∈ s.clc.queue, x.inAttempt = false) :
    withdrawBid c s = releaseCall c s := by
  have none_ : bidInAttempt s c = false := by
    unfold bidInAttempt
    rw [List.any_eq_false]
    intro x here
    simp [idle x here]
  unfold withdrawBid
  rw [none_]
  rfl

/-- A change of the bid entries of a call is gone with them. -/
theorem withoutBid_modBid (c : CallId) (f : BidEntry → BidEntry) (keeps : ∀ b, (f b).call = b.call) (s : State) :
    withoutBid c (modBid c f s) = withoutBid c s := by
  have gone : (s.he.bids.map fun b => if b.call = c then f b else b).filter (fun b => !decide (b.call = c))
      = s.he.bids.filter fun b => !decide (b.call = c) := by
    induction s.he.bids with
    | nil => rfl
    | cons b bs ih => by_cases same : b.call = c <;> simp [same, keeps, ih]
  exact congrArg (fun bs => withWithdrawn (isBidFor c) { s with he := { s.he with bids := bs } }) gone

section
variable {l : Line} {c : CallId} {s : State}

theorem released_modBid (link : s.clc.link = .running) (f : BidEntry → BidEntry) (keeps : ∀ b, (f b).call = b.call) :
    released l c (modBid c f s) = released l c s := by
  have same := withoutBid_modBid c f keeps
    (withLine l (refreshed { lineOf s l with reserved := none }) s)
  unfold released
  rw [noticed_running _ _ (by exact link), noticed_running _ _ (by exact link)]
  exact congrArg (withQueued _) same

theorem released_withOutputs (os : List Output) : released l c (withOutputs os s) = withOutputs os (released l c s) :=
  noticed_withOutputs (newlyAvailable (lineOf s l) { lineOf s l with reserved := none }) os
    (withoutBid c (withLine l (refreshed { lineOf s l with reserved := none }) s))

theorem own_released : own (released l c s) = own s := own_noticed ..

theorem released_deliveries (link : s.clc.link = .running) : (released l c s).deliveries = s.deliveries :=
  noticed_deliveries _ _ (by simp [cutOff, withoutBid, withWithdrawn, withLine, link])

end

/-- A BID heard at the member side (R72). -/
theorem memberBid_better {c : CallId} {b : BidEntry} {field : Nat} {s : State} (bid : bidOf s c = some b)
    (queued : b.standing = .queued) (better : field < arbNumber 2 b.key.val (own s)) :
    memberBid c field s = withdrawBid c s := by
  unfold memberBid
  rw [bid]
  exact if_pos ⟨queued, better⟩

theorem memberBid_other {c : CallId} {b : BidEntry} {field : Nat} {s : State} (bid : bidOf s c = some b)
    (other : b.standing = .sent ∨ arbNumber 2 b.key.val (own s) ≤ field) : memberBid c field s = s := by
  unfold memberBid
  rw [bid]
  refine if_neg fun ⟨queued, better⟩ => ?_
  rcases other with sent | better'
  · rw [sent] at queued
    cases queued
  · exact absurd better (Nat.not_lt.2 better')

theorem ownerBid_foreign {c : CallId} {b : WindowBid} {s : State} (foreign : c.cab ≠ own s) : ownerBid c b s = s :=
  if_neg foreign

/-- Settles O33. -/
theorem queuedBidsAreWithdrawn : Obligations.QueuedBidsAreWithdrawn := by
  intro src key call line index pk c l n i g b s ⟨ready, link, room⟩ known id place order foreign bid reserved only idle
  refine ⟨fun queued better => ?_, fun other => ?_, fun running => ?_, fun stopped => ?_⟩
  · refine exec_heardKnown (f := heardBid src key call line index) rfl ready link known ?_
      (t := withOutputs [.acknowledge true] (released l c (heardFrom src s)))
      ((released_deliveries (by exact link)).trans ready.2)
    rw [heardBid_read id place order, memberBid_better (by exact bid) queued ?_, withdrawBid_idle (by exact idle),
      releaseCall_at l c g _ (by exact reserved) (by exact only) (by exact link) (by exact room), released_withOutputs]
    · exact ownerBid_foreign (by rw [own_withOutputs, own_released]; exact foreign)
    · show arbNumber 2 key.val src < arbNumber 2 b.key.val (own s)
      unfold arbNumber
      omega
  · refine exec_heardKnown (f := heardBid src key call line index) rfl ready link known ?_ ready.2
    rw [heardBid_read id place order, memberBid_other (by exact bid) ?_]
    · exact ownerBid_foreign (by exact foreign)
    · refine other.imp_right fun worse => ?_
      show arbNumber 2 b.key.val (own s) ≤ arbNumber 2 key.val src
      unfold arbNumber
      omega
  · refine exec_of_act (f := sendLimitExpiry c) rfl ready.1 ?_
      (t := withOutputs [] (released l c s)) ((released_deliveries link).trans ready.2)
    unfold sendLimitExpiry
    rw [show bidOf (fresh s) c = some b from bid]
    dsimp only
    rw [if_pos running, withdrawBid_idle (by exact idle),
      releaseCall_at l c g _ (by exact reserved) (by exact only) (by exact link) (by exact room),
      released_modBid (by exact link) (fun b => { b with limit := false }) (fun _ => rfl)]
    exact released_withOutputs (s := s) []
  · refine exec_of_act (f := sendLimitExpiry c) rfl ready.1 ?_ ready.2
    unfold sendLimitExpiry
    rw [show bidOf (fresh s) c = some b from bid]
    dsimp only
    rw [stopped]
    rfl

end Sys2Proof.Machine
end

section
/-! SUPPORT. O34 and O35: a RING-ASSIGN at a line of the part, bids at the owner side, and the close of a bid window
(R37, R75, R77, R78). -/

namespace Sys2Proof.Machine

/-! ### RING-ASSIGN (R37, R75) -/

theorem heardRingAssign_read {call : RawId} {cab line cadence : Byte} {c : CallId} {cb : Cabinet} {l : Line} {cad : Cadence}
    (id : codeCall call = some c) (cabinet : codeBelow 16 cab = some cb) (place : codeBelow 16 line = some l)
    (tone : codeCadence cadence = some cad) (s : State) :
    heardRingAssign call cab line cadence s = takeAssign c cb l cad s := by
  unfold heardRingAssign
  rw [id, cabinet, place, tone]
  rfl

section
variable {c : CallId} {l : Line} {cad : Cadence} {g : Option HuntGroup} {s : State}

/-- A line starts ringing on the link, with room in the ring view (R37, R90). -/
theorem ringStarts_room (link : s.clc.link = .running) (few : s.ppu.view.length < viewCapacity)
    (new : ∀ e ∈ s.ppu.view, ¬ (e.call = c ∧ e.cab = own s ∧ e.line = l)) :
    ringStarts l c cad g s = withRinging ⟨c, own s, l, (lineOf s l).pickup, false⟩
      (withOutputs (s.outputs ++ [.ring l true])
        (withQueued [.ringStarted c l (g.bind (indexIn (lineOf s l).memberships)) (lineOf s l).pickup]
          (withLine l (ringingRecord s c cad g (lineOf s l)) s))) := by
  unfold ringStarts
  rw [noticed_running _ _ (by exact link)]
  exact viewEntered_new new few

/-- Where no line holds a reservation for the call, the named line alone decides. -/
theorem takeAssign_unheld (none_ : ∀ m v, (lineOf s m).reserved = some v → v.call ≠ c)
    (silent : ringsFor (lineOf s l) c = false) :
    takeAssign c (own s) l cad s = if assignAccepted s c l cad
      then startRinging l c cad (assignGroup s c l cad) (withoutBid c s) else queueNotice (.decline c l) (withoutBid c s) := by
  unfold takeAssign lineAssign
  dsimp only
  rw [dropBid_eq, reservedLine_none (by exact none_)]
  refine (if_pos rfl).trans ?_
  unfold decideAssign
  rw [show ringsFor (lineOf (withCode none endReservation (withoutBid c s)) l) c = false from silent]
  rfl

/-- The line that holds the reservation for the call rings in its group (R75). -/
theorem takeAssign_held {h : HuntGroup} (hunts : cad ≠ .direct) (held : (lineOf s l).reserved = some ⟨c, h⟩)
    (only : ∀ m v, m ≠ l → (lineOf s m).reserved = some v → v.call ≠ c) (silent : ringsFor (lineOf s l) c = false) :
    takeAssign c (own s) l cad s
      = refresh l (startRinging l c cad (some h) (withLine l { lineOf s l with reserved := none } (withoutBid c s))) := by
  obtain ⟨accepted, group⟩ :=
    (assignAccepted_iff c l cad s).1 (some h) (.inr ⟨hunts, h, rfl, .inl held⟩)
  have ended : endReservation l (withoutBid c s) = withLine l { lineOf s l with reserved := none } (withoutBid c s) := by
    have same := withoutBid_twice c s
    unfold endReservation
    rw [show (lineOf (withoutBid c s) l).reserved = some ⟨c, h⟩ from held]
    exact congrArg (withLine l { lineOf s l with reserved := none }) same
  unfold takeAssign lineAssign
  dsimp only
  rw [dropBid_eq, reservedLine_at l c h (withoutBid c s) held only]
  have here : own s = own (endReservation l (withoutBid c s)) := by
    rw [ended]
    rfl
  refine congrArg (refresh l) ((if_pos here).trans ?_)
  show decideAssign c l cad _ _ (endReservation l (withoutBid c s)) = _
  rw [ended]
  unfold decideAssign
  rw [if_neg, if_pos (by exact accepted), show assignGroup (withoutBid c s) c l cad = some h from group]
  rw [lineOf_withLine_self]
  simpa [ringsFor] using silent

theorem lineOf_withRinging (e : ViewEntry) (s : State) (m : Line) : lineOf (withRinging e s) m = lineOf s m := rfl

/-- A ringing line has nothing to announce. -/
theorem refresh_ringing (ringing : (lineOf s l).state = .ringing) (announced : (lineOf s l).available = 0) :
    refresh l s = s := by
  rw [refresh_zero _ _ (availableSet_notIdle (by rw [ringing]; simp))]
  rw [← announced]
  exact withLine_same l (lineOf s l) s rfl

end

/-- An available line is in service, idle and takes calls (R36). -/
theorem isAvailable_idle {r : LineRec} {h : HuntGroup} (available : isAvailable r h = true) :
    r.inService = true ∧ r.state = .idle ∧ r.dnd = false := by
  unfold isAvailable availableSet at available
  by_cases all : r.inService = true ∧ r.state = .idle ∧ r.dnd = false ∧ r.reserved = none
  · exact ⟨all.1, all.2.1, all.2.2.1⟩
  · rw [if_neg all] at available
    simp [hasGroup] at available

/-- Settles O34: the reservation for the call, which only the named line can hold, ends, and the line decides. -/
theorem ringAssignRingsOrIsDeclined : Obligations.RingAssignRingsOrIsDeclined := by
  intro src call cab line cadence c l cad s ⟨ready, link, room⟩ known id cabinet place tone others silent
  have room' : (withoutBid c (hearing src s)).clc.queue.length + 1 ≤ txCapacity :=
    Nat.lt_of_le_of_lt (withdrawFrom_length _ _) room
  have unheld (free : (lineOf s l).reserved = none) (m : Line) (v : Reservation) (held : (lineOf s m).reserved = some v) :
      v.call ≠ c := by
    by_cases here : m = l
    · subst here
      rw [free] at held
      cases held
    · exact others m v here held
  refine ⟨fun g accepts few new => ?_, fun free busy => ?_⟩
  · have starts (free : (lineOf s l).reserved = none) (accepts : AcceptsIn c l cad g (hearing src s)) :
        takeAssign c (own s) l cad (hearing src s) = withOutputs [.acknowledge true, .ring l true]
          (withRinging ⟨c, own s, l, (lineOf s l).pickup, false⟩
            (withQueued [.ringStarted c l (g.bind (indexIn (lineOf s l).memberships)) (lineOf s l).pickup]
              (withoutBid c (withLine l (ringingRecord s c cad g (lineOf s l)) (heardFrom src s))))) := by
      obtain ⟨accepted, group⟩ := (assignAccepted_iff c l cad (hearing src s)).1 g accepts
      refine (takeAssign_unheld (s := hearing src s) (unheld free) silent).trans ?_
      rw [accepted, group]
      refine (startRinging_noticed l c cad g (withoutBid c (hearing src s)) free (.inr ⟨link, room'⟩)).trans ?_
      exact ringStarts_room (s := withoutBid c (hearing src s)) link few new
    refine exec_heardKnown (f := heardRingAssign call cab line cadence) rfl ready link known ?_ ready.2
    rw [heardRingAssign_read id cabinet place tone]
    rcases accepts with ⟨rfl, rfl, idle⟩ | ⟨hunts, h, rfl, held⟩ | ⟨hunts, h, rfl, free, heard, available⟩
    · exact starts idle.2.2.2 (.inl ⟨rfl, rfl, idle⟩)
    · refine (takeAssign_held (s := hearing src s) hunts held others silent).trans ?_
      rw [startRinging_noticed _ _ _ _ _ (by rw [lineOf_withLine_self]) (.inr (by exact ⟨link, room'⟩)),
        ringStarts_room (by exact link) (by exact few) (by exact new), lineOf_withLine_self, withLine_twice]
      refine refresh_ringing ?_ ?_
      · rw [lineOf_withRinging, lineOf_withOutputs, lineOf_withQueued, lineOf_withLine_self]
        rfl
      · rw [lineOf_withRinging, lineOf_withOutputs, lineOf_withQueued, lineOf_withLine_self]
        rfl
    · exact starts free (.inr ⟨hunts, h, rfl, .inr ⟨(fun v is => nomatch free.symm.trans is), heard, available⟩⟩)
  · refine exec_heardKnown (f := heardRingAssign call cab line cadence) rfl ready link known ?_ ready.2
    have unaccepted : assignAccepted (hearing src s) c l cad = false := by
      refine (assignAccepted_iff c l cad (hearing src s)).2 fun g accepts => ?_
      have idle : (lineOf s l).inService = true ∧ (lineOf s l).state = .idle ∧ (lineOf s l).dnd = false := by
        rcases accepts with ⟨-, -, inService, idle, dnd, -⟩ | ⟨-, h, -, held | ⟨-, -, available⟩⟩
        · exact ⟨inService, idle, dnd⟩
        · exact absurd (free.symm.trans held) (by simp)
        · exact isAvailable_idle available
      rcases busy with state | dnd | service
      · exact state idle.2.1
      · exact absurd (dnd.symm.trans idle.2.2) (by simp)
      · exact absurd (service.symm.trans idle.1) (by simp)
    rw [heardRingAssign_read id cabinet place tone]
    refine (takeAssign_unheld (s := hearing src s) (unheld free) silent).trans ?_
    rw [unaccepted]
    exact (queueNotice_running _ _ (by exact link) rfl room').trans rfl

end Sys2Proof.Machine
end

section
/-! SUPPORT. O35 and O36: bids at the owner side, the close of a bid window, and the overflow step (R77, R78, R81 to R87,
R100). -/

namespace Sys2Proof.Machine

/-! ### Bids at the owner side (R77) -/

theorem memberBid_none {c : CallId} {field : Nat} {s : State} (none_ : bidOf s c = none) : memberBid c field s = s := by
  unfold memberBid
  rw [none_]

/-- The arbitration number of a bid. -/
theorem arbNumber_bid (key : BidKey) (src : Cabinet) : arbNumber 2 key.val src = 8192 + key.val * 16 + src.val := by
  unfold arbNumber
  omega

theorem exec_bid {src : Cabinet} {key : BidKey} {call : RawId} {line index : Byte} {pk : Word16} {c : CallId} {l : Line}
    {i : Option OrderIndex} {s t : State} (ready : Ready s) (link : s.clc.link = .running) (known : Known src s)
    (id : codeCall call = some c) (place : codeBelow 16 line = some l) (order : codeOrNone 32 index = some i)
    (none_ : bidOf s c = none) (enters : BidEnters c ⟨src, l, i, 8192 + key.val * 16 + src.val⟩ (hearing src s) t)
    (quiet : t.deliveries = []) : exec (.bid src key call line index pk) s = .next t := by
  refine exec_heardKnown (f := heardBid src key call line index) rfl ready link known ?_ quiet
  rw [heardBid_read id place order, memberBid_none (by exact none_), arbNumber_bid]
  exact ownerBid_of enters

theorem bidsEnterAnOpenWindow : Clause.BidsEnterAnOpenWindow := by
  intro src key call line index pk l i o before after s ⟨ready, link, room⟩ known at_ id place order none_
  refine ⟨fun w window untried => ⟨fun new => ?_, fun p q x split_ same others => ?_⟩, fun ignored => ?_⟩
  · exact exec_bid ready link known id place order none_
      (.inr ⟨o, before, after, at_, rfl, .inr ⟨w, _, window, untried, rfl, .inl ⟨new, rfl⟩⟩⟩) ready.2
  · exact exec_bid ready link known id place order none_
      (.inr ⟨o, before, after, at_, rfl, .inr ⟨w, _, window, untried, rfl, .inr ⟨p, x, q, split_, same, others, rfl⟩⟩⟩) ready.2
  · exact exec_bid ready link known id place order none_ (.inr ⟨o, before, after, at_, rfl, .inl ⟨ignored, rfl⟩⟩) ready.2

/-! ### The close of a window (R78) -/

section
variable {o : Offer} {before after : List Offer} {w : List WindowBid} {s : State}

theorem closeWindow_ringing (at_ : OfferAt o before after s) (window : o.window = some w) (rings : o.ringing ≠ []) :
    closeWindow o.seq s = withOffers (before ++ { o with state := .ringing, window := none } :: after)
      (withoutStanding o.seq s) := by
  unfold closeWindow
  rw [findOffer_at at_]
  dsimp only
  rw [window]
  exact (if_pos (by simpa using rings)).trans (becomeRinging_at at_)

theorem closeWindow_assigns {p q : List WindowBid} {b : WindowBid} (at_ : OfferAt o before after s)
    (window : o.window = some (p ++ b :: q)) (silent : o.ringing = []) (lower : ∀ x ∈ p, b.field < x.field)
    (least : ∀ x ∈ q, b.field ≤ x.field) : closeWindow o.seq s = assignWinner o b s := by
  unfold closeWindow
  rw [findOffer_at at_]
  dsimp only
  rw [window]
  dsimp only
  rw [silent, lowestBid_split p q b lower least]
  rfl

/-- A window that closes with no bid takes the overflow step. -/
theorem closeWindow_overflows (at_ : OfferAt o before after s) (window : o.window = some []) (silent : o.ringing = []) :
    closeWindow o.seq s = overflow o.seq (withOffers (before ++ { o with window := none } :: after) s) := by
  unfold closeWindow
  rw [findOffer_at at_]
  dsimp only
  rw [window]
  refine (if_neg (by simp [silent])).trans ?_
  rw [modOffer_at at_]
  rfl

end

theorem windowCloseAssignsTheLowestBid : Clause.WindowCloseAssignsTheLowestBid := by
  intro o before after w s ⟨ready, link, room⟩ at_ window
  refine ⟨fun rings => ?_, fun p q b split_ lower least silent => ?_⟩
  · exact exec_of_act (f := closeWindow o.seq) rfl ready.1 (closeWindow_ringing (s := fresh s) at_ window rings) ready.2
  · subst split_
    refine exec_of_act (f := closeWindow o.seq) rfl ready.1 ?_ ready.2
    rw [closeWindow_assigns (s := fresh s) at_ window silent lower least, assignWinner, modOffer_at (s := fresh s) at_,
      queueNotice_running _ _ (by exact link) rfl (by exact room)]
    rfl

/-- Settles O35. -/
theorem bidWindowAssignsTheLowestBid : Obligations.BidWindowAssignsTheLowestBid :=
  ⟨bidsEnterAnOpenWindow, windowCloseAssignsTheLowestBid⟩

/-! ### The overflow step (R81 to R87) -/

theorem closedWindowTakesTheOverflowStep : Clause.ClosedWindowTakesTheOverflowStep := by
  intro o before after s t u ready at_ window silent closed step delivered
  refine exec_delivered (f := closeWindow o.seq) rfl ready.1 ?_ delivered
  rw [closeWindow_overflows (s := fresh s) at_ window silent]
  exact overflow_of (o := closed) (s := withOffers (before ++ closed :: after) (fresh s))
    (offerAt_withOffers (s := fresh s) at_ rfl) step

/-- A call without a standing loses none. -/
theorem withoutStanding_none {q : Seq} {s : State} (none_ : ∀ x ∈ s.he.queue, x.call ≠ q) : withoutStanding q s = s :=
  dropStanding_none q s none_

/-- A changed record that is not parked ends with an outcome (R51). -/
theorem endsCall {o o' : Offer} {before after : List Offer} {outcome : EndReason} {s : State} (at_ : OfferAt o before after s)
    (same : o'.seq = o.seq) (open_ : ∀ n, o'.state ≠ .parked n) (shelf : ShelfRoom 1 s) (room : Room 1 s) :
    CallEnds (some outcome) o' (withOffers (before ++ o' :: after) s) (callFreed o' before after
      (withSent [.callEnded o'.ref ⟨own s, o'.seq⟩ outcome]
        (noticed (if partiesOut o' then [.cancel ⟨own s, o'.seq⟩] else []) (withOffers (before ++ o' :: after) s)))) :=
  ⟨before, after, offerAt_withOffers at_ same, shelf, .inl ⟨room.of_clc rfl, open_, rfl⟩⟩

theorem overflowFollowsItsAction : Clause.OverflowFollowsTheGroupsAction := by
  intro o before after g p s ⟨ready, link, room⟩ shelf at_ window state silent target group unqueued waiting
  have closes {t : State} (step : Overflowed { o with window := none } before after
      (withOutputs [] (withOffers (before ++ { o with window := none } :: after) s)) t) (quiet : t.deliveries = []) :
      exec (.bidWindowClose o.seq) s = .next t :=
    closedWindowTakesTheOverflowStep o before after s t t ready at_ window silent step (.quiet quiet)
  have running : cutOff s = false := by simp [cutOff, link]
  have recycles : recycled { o with window := none } before after
      (withOutputs [] (withOffers (before ++ { o with window := none } :: after) s))
        = withOutputs [] (withOffers (before ++ { o with state := .waiting .recyclePause, window := none } :: after) s) := by
    unfold recycled
    rw [withoutStanding_none (by exact unqueued)]
    rfl
  refine ⟨fun how => ?_, fun queue flag => ?_, fun forward depth entry => ?_, fun forward stuck => ?_⟩
  · refine (closes (t := recycled { o with window := none } before after
      (withOutputs [] (withOffers (before ++ { o with window := none } :: after) s)))
      ⟨g, target, .inr ⟨p, group, ?_⟩⟩ ready.2).trans (congrArg _ recycles)
    rcases how with recycle | ⟨queue, off⟩ | ⟨park, full⟩
    · exact .inl ⟨recycle, .inr (.inr (.inl ⟨running, .inl rfl, rfl⟩))⟩
    · exact .inr (.inr (.inr (.inl ⟨queue, off, .inr (.inr (.inl ⟨running, .inl rfl, rfl⟩))⟩)))
    · have full' : o.parkDone = true ∨ ∀ i, slotOf s i ≠ none :=
        full.imp_right fun all i => Option.isSome_iff_ne_none.1 (all i)
      exact .inr (.inr (.inl ⟨park, .inr (.inr (.inl ⟨running, .inr ⟨rfl, full'⟩, rfl⟩))⟩))
  · have waits := closes ⟨g, target, .inr ⟨p, group, .inr (.inr (.inr (.inr (.inr ⟨queue, flag, fun x here same =>
      absurd same (unqueued x here), .inr (.inr ⟨running, fun ⟨x, here, same⟩ => unqueued x here same, rfl⟩)⟩))))⟩⟩
      (by exact ready.2)
    exact waits.trans rfl
  · refine (closes ⟨g, target, .inr ⟨p, group, .inr (.inl ⟨forward, .inr (.inr (.inr (.inl ⟨rfl, ⟨depth, entry⟩, link, room,
      rfl⟩)))⟩)⟩⟩ (by exact ready.2)).trans ?_
    rw [withoutStanding_none (by exact unqueued)]
    rfl
  · have ends : ¬ (o.depth < 2 ∧ (s.he.groups.get p.forward).isSome = true) := by
      rintro ⟨shallow, entry⟩
      rcases stuck with deep | none_
      · omega
      · rw [none_] at entry
        cases entry
    have out : partiesOut { o with window := none } = true := by simp [partiesOut, state]
    have call := endsCall (s := withOutputs [] s) (o' := { o with window := none }) (outcome := .unanswered) at_ rfl
      (by simp [state]) shelf (.inr ⟨link, room⟩)
    rw [if_pos out, noticed_running _ _ (by exact link)] at call
    exact (closes ⟨g, target, .inr ⟨p, group, .inr (.inl ⟨forward, .inl ⟨.inr ⟨rfl, ends⟩, call⟩⟩)⟩⟩ ready.2).trans rfl

theorem parkFillsAnOrbitAndPagesItsCode : Clause.ParkFillsAnOrbitAndPagesItsCode := by
  intro o before after g p i s ⟨ready, link, room⟩ at_ window state silent target group unqueued park once free lowest q orbit
    page parked
  have running : cutOff s = false := by simp [cutOff, link]
  have notFull : ¬ (o.parkDone = true ∨ ∀ j, slotOf s j ≠ none) := by
    rintro (done | all)
    · rw [once] at done
      cases done
    · exact all i free
  have parks {t : State} (asked : CodePageAsked i (parkSlot o g p) (withSlot i (some (parkSlot o g p))
      (withOffers (before ++ { o with state := .parked orbit, window := none } :: after) (withOutputs [] s))) t)
      (quiet : t.deliveries = []) : exec (.bidWindowClose o.seq) s = .next t := by
    refine closedWindowTakesTheOverflowStep o before after s t t ready at_ window silent ⟨g, target, .inr ⟨p, group,
      .inr (.inr (.inl ⟨park, .inr (.inr (.inr (.inr ⟨rfl, notFull, running, i, free,
        fun j below => Option.isSome_iff_ne_none.1 (lowest j below), ?_⟩)))⟩))⟩⟩ (.quiet quiet)
    rw [withoutStanding_none (by exact unqueued)]
    exact asked
  refine ⟨fun few fresh_ => ?_, fun many => ?_⟩
  · refine (parks (.inl ⟨few, link, room, fresh_, rfl⟩) ready.2).trans ?_
    rw [withSlot_twice]
    rfl
  · exact parks (.inr ⟨.inl many, rfl⟩) ready.2

/-- Settles O36. -/
theorem overflowFollowsTheGroupsAction : Obligations.OverflowFollowsTheGroupsAction :=
  ⟨overflowFollowsItsAction, parkFillsAnOrbitAndPagesItsCode, closedWindowTakesTheOverflowStep⟩

end Sys2Proof.Machine
end

section
/-! SUPPORT. O37: waiting calls that go on (R65, R82 to R87). -/

namespace Sys2Proof.Machine

/-! ### The recycle pause and an AVAILABLE (R82, R84) -/

theorem recycleExpiry_at {o : Offer} {before after : List Offer} {s : State} (at_ : OfferAt o before after s)
    (pause : o.state = .waiting .recyclePause) : recycleExpiry o.seq s = reofferAfresh o.seq s := by
  unfold recycleExpiry
  rw [findOffer_at at_]
  exact if_pos pause

theorem groupsOf_single (g : HuntGroup) : groupsOf (BitVec.twoPow 16 g.val) = [g] := by
  revert g
  decide

theorem availableServesEachGroup : Clause.AvailableServesEachGroup := by
  intro src groups s t u ready link known served delivered
  exact exec_heardDelivered (f := takeAvailable groups) rfl ready link known (takeAvailable_of served) delivered

/-! ### The queue wait (R85) -/

theorem standingOf_at {q : Seq} {ahead behind : List Standing} {x : Standing} {s : State}
    (queue : s.he.queue = ahead ++ x :: behind) (call : x.call = q) (others : ∀ y ∈ ahead, y.call ≠ q) :
    standingOf s q = some x := by
  unfold standingOf
  rw [queue, List.find?_append, List.find?_eq_none.2 (by simpa using others)]
  simp [call]

/-- The wait of a QUEUED record takes its standing, and the queue-expiry action follows. -/
theorem queueWaitExpiry_queued {o : Offer} {before after : List Offer} {g : HuntGroup} {p : GroupParams} {x : Standing}
    {s : State} (at_ : OfferAt o before after s) (target : o.target = .hunt g) (group : s.he.groups.get g = some p)
    (queued : o.state = .waiting .queued) (stands : standingOf s o.seq = some x) (young : x.expired = false) :
    queueWaitExpiry o.seq s
      = applyStep o g p (stepOf p.queueExpiry o p (withoutStanding o.seq s)) (withoutStanding o.seq s) := by
  have entry : groupOf s o = some p := by simp [groupOf, target, targetGroup, group]
  have step : expiryStep s o p = stepOf p.queueExpiry o p (withoutStanding o.seq s) := by
    unfold expiryStep stepOf
    cases p.queueExpiry <;> rfl
  unfold queueWaitExpiry
  rw [findOffer_at at_, stands]
  dsimp only
  rw [young, queued, entry, target]
  exact congrArg (fun a => applyStep o g p a (withoutStanding o.seq s)) step

theorem queueExpiryTakesItsAction : Clause.QueueExpiryTakesItsAction := by
  intro o before after g p s t u ready at_ target group queued ⟨x, here, call⟩ young action delivered
  refine exec_delivered (f := queueWaitExpiry o.seq) rfl ready.1 ?_ delivered
  cases stands : standingOf (fresh s) o.seq with
  | none => exact absurd call (by simpa using List.find?_eq_none.1 stands x here)
  | some y =>
    have is : y.call = o.seq := by simpa using List.find?_some stands
    rw [queueWaitExpiry_queued (s := fresh s) at_ target group queued stands (young y (List.mem_of_find?_eq_some stands) is)]
    exact applyStep_of (s := withoutStanding o.seq (fresh s)) at_ action

/-- The wait of a record that is OFFERING or ASSIGNED marks its standing. -/
theorem queueWaitExpiry_marks {o : Offer} {before after : List Offer} {g : HuntGroup} {ahead behind : List Standing}
    {s : State} (at_ : OfferAt o before after s) (tried : o.state = .offering ∨ o.state = .assigned)
    (queue : s.he.queue = ahead ++ ⟨o.seq, g, false⟩ :: behind) (others : ∀ x ∈ ahead ++ behind, x.call ≠ o.seq) :
    queueWaitExpiry o.seq s = { s with he := { s.he with queue := ahead ++ ⟨o.seq, g, true⟩ :: behind } } := by
  have stands := standingOf_at queue rfl fun y here => others y (List.mem_append_left _ here)
  have marked : (s.he.queue.map fun y => if y.call = o.seq then { y with expired := true } else y)
      = ahead ++ ⟨o.seq, g, true⟩ :: behind := by
    rw [queue]
    exact map_at (·.call) (⟨o.seq, g, false⟩ : Standing) ahead behind (fun y => { y with expired := true }) others
  unfold queueWaitExpiry
  rw [findOffer_at at_, stands]
  dsimp only
  rcases tried with state | state
  · rw [state]
    exact congrArg (fun q => { s with he := { s.he with queue := q } }) marked
  · rw [state]
    exact congrArg (fun q => { s with he := { s.he with queue := q } }) marked

theorem withoutStanding_twice (q : Seq) (s : State) : withoutStanding q (withoutStanding q s) = withoutStanding q s := by
  simp only [withoutStanding, List.filter_filter, Bool.and_self]

theorem waitingCallsAreOfferedAgain : Clause.WaitingCallsGoOn := by
  intro o before after g s ⟨ready, link, room⟩ shelf at_ target again
  refine ⟨fun pause => ?_, fun src ahead behind e known queued queue others => ?_,
    fun p ahead behind group queue others silent => ?_⟩
  · refine exec_of_act (f := recycleExpiry o.seq) rfl ready.1 ?_ ready.2
    rw [recycleExpiry_at (s := fresh s) at_ pause, reofferAfresh_at (s := fresh s) at_ link room g target]
    rfl
  · refine (availableServesEachGroup src _ s (again (hearing src s)) _ ready link known ?_ (.quiet ready.2)).trans rfl
    show Chain GroupServed (groupsOf (BitVec.twoPow 16 g.val)) _ _
    rw [groupsOf_single]
    exact ⟨_, .inr ⟨o, before, after, g, ahead, e, behind, at_, target, queued, queue,
      fun x here same => absurd same (others x here), .inr ⟨link, room, rfl⟩⟩, rfl⟩
  · have running : cutOff s = false := by simp [cutOff, link]
    have expires {t : State} (queued : o.state = .waiting .queued)
        (action : ActionTaken p.queueExpiry o g p before after (withOutputs [] (withoutStanding o.seq s)) t)
        (quiet : t.deliveries = []) : exec (.queueWaitExpiry o.seq) s = .next t :=
      queueExpiryTakesItsAction o before after g p s t t ready at_ target group queued
        ⟨⟨o.seq, g, false⟩, by simp [queue], rfl⟩ (fun x here same => by
          rw [queue, List.mem_append, List.mem_cons] at here
          rcases here with here | rfl | here
          · exact absurd same (others x (List.mem_append_left _ here))
          · rfl
          · exact absurd same (others x (List.mem_append_right _ here))) action (.quiet quiet)
    refine ⟨fun tried => ?_, fun queued unassigned ends => ?_, fun queued recycle => ?_⟩
    · exact exec_of_act (f := queueWaitExpiry o.seq) rfl ready.1
        (queueWaitExpiry_marks (s := fresh s) at_ tried queue others) ready.2
    · have alone : partiesOut o = false := by simp [partiesOut, queued, unassigned, silent]
      have call : CallEnds (some .unanswered) o (withOutputs [] (withoutStanding o.seq s)) _ :=
        ⟨before, after, at_, shelf, .inl ⟨.inr ⟨link, room⟩, by simp [queued], rfl⟩⟩
      simp only [alone, Bool.false_eq_true, if_false, noticed_nil] at call
      refine (expires queued (by rw [ends]; exact .inl ⟨.inl rfl, call⟩) ?_).trans ?_
      · exact ready.2
      · exact congrArg (fun t => Host.Outcome.next (withWithdrawn (isOfferOf ⟨own s, o.seq⟩) (withOffers (before ++ after)
          (withSent [.callEnded o.ref ⟨own s, o.seq⟩ .unanswered] t)))) (withoutStanding_twice o.seq (withOutputs [] s))
    · refine (expires (t := recycled o before after (withOutputs [] (withoutStanding o.seq s))) queued ?_ ready.2).trans ?_
      · rw [recycle]
        exact .inr (.inr (.inl ⟨running, .inl rfl, rfl⟩))
      · have twice := withoutStanding_twice o.seq (withOutputs [] s)
        let waits : Offer := { o with state := .waiting .recyclePause, window := none }
        exact congrArg (fun t => Host.Outcome.next (withOffers (before ++ waits :: after) t)) twice

/-! ### Off the link (R65) -/

/-- One more waiting notice is delivered. -/
theorem deliveredIn_cons {n : Notice} {rest : List Notice} {k : Nat} {s u t : State} (waits : s.deliveries = n :: rest)
    (taken : OwnDelivery n { s with deliveries := rest } u) (more : deliveredIn k u t) : deliveredIn (k + 1) s t :=
  .inr ⟨n, rest, u, waits, taken, more⟩

/-- A chain of things that change nothing. -/
theorem Chain.still {α : Type} {happens : α → State → State → Prop} {s : State} (l : List α)
    (still : ∀ a ∈ l, happens a s s) : Chain happens l s s := by
  induction l with
  | nil => rfl
  | cons a l ih => exact ⟨s, still a (List.mem_cons_self ..), ih fun b here => still b (List.mem_cons_of_mem _ here)⟩

/-- An AVAILABLE of a line finds no waiting call. -/
theorem groupsServed_none {groups : GroupSet} {s : State} (none_ : ∀ o ∈ s.ofm.offers, o.state ≠ .waiting .queued) :
    Chain GroupServed (groupsOf groups) s s :=
  Chain.still _ fun _ _ => .inl ⟨fun _ _ _ ⟨o, here, _, waits⟩ => none_ o here waits, rfl⟩

/-- Off the link a call that loses its last ringing member ends with outcome ISOLATED, where it would be offered again, recycled
or parked. -/
theorem recordLoses_isolated {o : Offer} {m : Member} {g : HuntGroup} {p : GroupParams} {before after : List Offer}
    {q : Member → Bool} {s : State} (off : cutOff s = true) (shelf : ShelfRoom 1 s) (at_ : OfferAt o before after s)
    (ringing : o.state = .ringing) (rings : o.ringing = [m]) (picked : q m = true) (unassigned : o.assigned = none)
    (target : o.target = .hunt g) (group : s.he.groups.get g = some p)
    (goesOn : (∃ j : OrderIndex, j.val < p.span ∧ hasIndex (addTried m.index [] o.tried) j = false)
      ∨ p.overflow = .recycle ∨ p.overflow = .park) :
    RecordLoses q o.seq s (callFreed o before after (withSent [.callEnded o.ref ⟨own s, o.seq⟩ .isolated] s)) := by
  have left : losing q o = { o with ringing := [], tried := addTried m.index [] o.tried } := by
    simp [losing, rings, unassigned, picked, target, targetGroup]
  have alone : partiesOut (losing q o) = false := by rw [left]; simp [partiesOut, ringing, unassigned]
  have call := endsCall (outcome := .isolated) (o' := losing q o) at_ rfl (by rw [left]; simp [ringing]) shelf (.inl off)
  simp only [alone, Bool.false_eq_true, if_false, noticed_nil] at call
  refine recordLoses_goesOn at_ (by simp [ringing]) (by simp [rings, picked]) (.inr ⟨ringing, by simp [rings, picked]⟩)
    (by rw [target]; rfl) (.inr ⟨by rw [left], g, target, ?_⟩)
  by_cases untried : ∃ p, s.he.groups.get g = some p ∧ ∃ j : OrderIndex, j.val < p.span ∧ hasIndex (losing q o).tried j = false
  · exact .inl ⟨untried, .inl ⟨off, call⟩⟩
  · refine .inr ⟨untried, g, target, .inr ⟨p, group, ?_⟩⟩
    rcases goesOn with more | recycle | park
    · refine absurd ⟨p, group, ?_⟩ untried
      rw [left]
      exact more
    · exact .inl ⟨recycle, .inr (.inl ⟨by simp, off, call⟩)⟩
    · exact .inr (.inr (.inl ⟨park, .inr (.inl ⟨by simp, off, call⟩)⟩))

/-- The own delivery of what a line tells that rang without an answer: the owner, this part, loses the member, and then finds no
record and no waiting call. -/
theorem delivered_unanswered {c : CallId} {l : Line} {added : GroupSet} {s t : State} (mine : c.cab = own s)
    (loses : ∀ ns, RecordLoses (atLine (own s) l) c.seq { s with deliveries := ns } { t with deliveries := ns })
    (gone : ∀ o ∈ t.ofm.offers, o.seq ≠ c.seq) (unqueued : ∀ o ∈ t.ofm.offers, o.state ≠ .waiting .queued) :
    Delivered { s with deliveries := .noAnswer c l :: .ringEnded c l .noAnswer :: newGroups added }
      { t with deliveries := [] } := by
  have told (ns : List Notice) {k : Nat} {u : State} (more : deliveredIn k { t with deliveries := ns } u) :
      deliveredIn (k + 2) { s with deliveries := .noAnswer c l :: .ringEnded c l .noAnswer :: ns } u :=
    deliveredIn_cons rfl (.inr ⟨mine, loses _⟩) (deliveredIn_cons rfl (.inr ⟨rfl, .inl ⟨fun _ => gone, rfl⟩⟩) more)
  unfold newGroups
  split
  · exact ⟨2, by decide, told [] ⟨rfl, rfl⟩⟩
  · exact ⟨3, by decide, told _ (deliveredIn_cons (k := 0) rfl (groupsServed_none unqueued) ⟨rfl, rfl⟩)⟩

theorem continuingCallEndsIsolated : Clause.ContinuingCallEndsIsolated := by
  intro l c o i g p before after s ready off shelf at_ ringingLine ofCall id timer ringing rings unassigned target group goesOn
    unqueued r
  obtain ⟨call, cadence, ofGroup, index⟩ := c
  obtain rfl : call = ⟨own s, o.seq⟩ := id
  have stops := noAnswerExpiry_stops ringingLine ofCall timer (.inl off)
  let idle := withOutputs [.ring l false, .tone l .none] (withLine l (refreshed r) (viewRemoveLine ⟨own s, o.seq⟩ (own s) l s))
  let ended := callFreed o before after (withSent [.callEnded o.ref ⟨own s, o.seq⟩ .isolated] idle)
  have start (ns : List Notice) : withOutputs [.ring l false, .tone l .none]
      (noticed ns (withLine l (refreshed r) (viewRemoveLine ⟨own s, o.seq⟩ (own s) l s))) = { idle with deliveries := ns } := by
    unfold noticed
    rw [if_pos (by exact off),
      show (withLine l (refreshed r) (viewRemoveLine ⟨own s, o.seq⟩ (own s) l s)).deliveries = [] from ready.2]
    rfl
  have quiet : { ended with deliveries := [] } = ended := by
    rw [← show ended.deliveries = [] from ready.2]
  have delivered := delivered_unanswered (c := ⟨own s, o.seq⟩) (l := l) (s := idle) (t := ended)
    (added := availableSet r &&& ~~~ (lineOf s l).available) rfl
    (fun ns => recordLoses_isolated (q := atLine (own s) l) (s := { idle with deliveries := ns }) off shelf at_ ringing rings
      (by simp [atLine]) unassigned target group goesOn) at_.2 unqueued
  rw [quiet] at delivered
  exact exec_delivered (f := noAnswerExpiry l) rfl ready.1 (stops.trans (start _)) delivered

/-- Settles O37. -/
theorem waitingCallsGoOn : Obligations.WaitingCallsGoOn :=
  ⟨waitingCallsAreOfferedAgain, queueExpiryTakesItsAction, availableServesEachGroup, continuingCallEndsIsolated⟩

end Sys2Proof.Machine
end

section
/-! SUPPORT. O38: the recall and repeat timers of a park orbit (R101, R103, R104, R113). -/

namespace Sys2Proof.Machine

section
variable {i : OrbitSlot} {x : Orbit} {s t : State}

/-- An orbit without a code page is freed by emptying its slot. -/
theorem orbitFreed_withoutPage (slot : slotOf s i = some x) (noPage : ∀ p, x.page = some p → ∀ r ∈ s.pgo.pages, r.seq ≠ p.seq) :
    OrbitFreed i s (withSlot i none s) := ⟨x, slot, .inl ⟨noPage, rfl⟩⟩

/-- The recall timer frees the orbit and offers its call again, once parked (R104). -/
theorem recallExpiry_of {o : Offer} {before after : List Offer} {g : HuntGroup} (slot : slotOf s i = some x)
    (freed : OrbitFreed i s t) (at_ : OfferAt o before after s) (call : x.call = o.seq) (target : o.target = .hunt g)
    (link : s.clc.link = .running) (room : s.clc.queue.length < txCapacity) (room' : t.clc.queue.length < txCapacity) :
    recallExpiry i s = withQueued [.offer ⟨own s, o.seq⟩ g (min 255 (o.attempts + 1)) 0]
      (withOffers (before ++ reoffered { o with parkDone := true, tried := 0 } :: after) t) := by
  obtain ⟨ofm, -, -, -, -, own_, link', -⟩ := orbitFreed_frame freed
  have at_t : OfferAt o before after t := by
    rw [OfferAt, ofm]
    exact at_
  unfold recallExpiry
  rw [slot]
  dsimp only
  rw [freeSlot_of freed (.inr ⟨link, room⟩), call, modOffer_at at_t]
  refine (reofferAfresh_at (offerAt_withOffers (o' := { o with parkDone := true }) at_t rfl) (by exact link'.trans link)
    (by exact room') g target).trans ?_
  rw [withOffers_twice, own_withOffers, own_]
  rfl

/-- The repeat timer replaces the code page of its orbit below the limit (R101, R113). -/
theorem repeatExpiry_of {u : State} (slot : slotOf s i = some x) (runs : x.repeating = true) (below : x.repeats < x.limit)
    (room : Room 1 s) (freed : OrbitFreed i s t)
    (asked : CodePageAsked i { x with page := none, repeats := x.repeats + 1 }
      (withSlot i (some { x with page := none, repeats := x.repeats + 1 }) t) u) : repeatExpiry i s = u := by
  unfold repeatExpiry
  rw [slot]
  dsimp only
  rw [if_pos runs, if_pos below,
    endCodePage_of (o := some { x with page := none, repeats := x.repeats + 1 }) slot freed room (by rintro y ⟨⟩; rfl)]
  exact requestCodePage_of (x := { x with page := none, repeats := x.repeats + 1 }) (by simp [slotOf, withSlot]) asked

end

theorem recallTimerOffersTheParkedCallAgain : Clause.RecallTimerOffersTheParkedCallAgain := by
  intro i x o before after g s ⟨ready, link, room⟩ at_ call target o' again
  refine ⟨fun slot noPage => ?_, fun r b a slot page at' air cls origin => ?_, fun empty => ?_⟩
  · refine exec_of_act (f := recallExpiry i) rfl ready.1 ?_ ready.2
    rw [recallExpiry_of (s := fresh s) slot (orbitFreed_withoutPage (s := fresh s) slot (by simp [noPage])) at_ call target link
      (Nat.lt_of_succ_lt room) (Nat.lt_of_succ_lt room)]
    rfl
  · have freed : OrbitFreed i (fresh s) (withQueued [.pageEnd ⟨own s, r.seq⟩ .code .ended]
        (withPages (b ++ a) (withSlot i none (fresh s)))) := by
      refine ⟨x, slot, .inr ⟨r, b, a, page, at', origin, .inl ⟨by simp [air], ?_⟩⟩⟩
      rw [noticed_running _ _ (by exact link), cls]
      rfl
    refine exec_of_act (f := recallExpiry i) rfl ready.1 ?_ ready.2
    rw [recallExpiry_of (s := fresh s) slot freed at_ call target link (Nat.lt_of_succ_lt room)
      (by simpa [withQueued, withPages, withSlot] using Nat.lt_of_succ_le room)]
    exact withQueued_twice [_] [_] (withOffers (before ++ o' :: after) (withSlot i none (withPages (b ++ a) (fresh s))))
  · refine exec_of_act (f := recallExpiry i) rfl ready.1 ?_ ready.2
    unfold recallExpiry
    rw [show slotOf (fresh s) i = none from empty]
    rfl

theorem repeatReplacesTheCodePage : Clause.RepeatReplacesTheCodePage := by
  intro i x s t u v ready room slot runs below y freed asked delivered
  exact exec_delivered (f := repeatExpiry i) rfl ready.1 (repeatExpiry_of (s := fresh s) slot runs below room freed asked) delivered

theorem repeatTimerAnnouncesTheCodeAgain : Clause.RepeatTimerAnnouncesTheCodeAgain := by
  intro i x s ⟨ready, link, room⟩ slot q orbit
  refine ⟨fun runs below gone few fresh_ => ?_, fun runs limit => ?_, fun stopped => ?_⟩
  · refine (repeatReplacesTheCodePage i x s _ _ _ ready (.inr ⟨link, room⟩) slot runs below
      (orbitFreed_withoutPage (s := withOutputs [] s) slot gone) (.inl ⟨few, link, room, fresh_, rfl⟩) (.quiet ready.2)).trans ?_
    rw [withSlot_twice, withSlot_twice]
    rfl
  · refine exec_of_act (f := repeatExpiry i) rfl ready.1 ?_ ready.2
    unfold repeatExpiry
    rw [show slotOf (fresh s) i = some x from slot]
    dsimp only
    rw [if_pos runs, if_neg (Nat.not_lt.2 limit)]
    rfl
  · refine exec_of_act (f := repeatExpiry i) rfl ready.1 ?_ ready.2
    unfold repeatExpiry
    rw [show slotOf (fresh s) i = some x from slot]
    dsimp only
    rw [stopped]
    rfl

/-- Settles O38. -/
theorem orbitTimersRecallAndRepeat : Obligations.OrbitTimersRecallAndRepeat :=
  ⟨recallTimerOffersTheParkedCallAgain, repeatTimerAnnouncesTheCodeAgain, repeatReplacesTheCodePage⟩

end Sys2Proof.Machine
end

section
/-! SUPPORT. O39: pickup and retrieve codes (R33, R92, R94 to R98). -/

namespace Sys2Proof.Machine

/-! ### What a pickup selects (R94 to R97) -/

theorem reachable_iff (s : State) (cab : Cabinet) :
    reachable s cab = true ↔ (cab = own s ∨ (s.clc.link = .running ∧ (peerOf s cab).state = .present)) := by
  simp [reachable, peerOf]

/-- The first of a list that fits is found. -/
theorem find_first {α : Type} {p : α → Bool} {l before after : List α} {e : α} (is : l = before ++ e :: after) (fits : p e = true)
    (none_ : ∀ x ∈ before, ¬ p x = true) : l.find? p = some e := by
  rw [is, List.find?_append, List.find?_eq_none.2 none_]
  simp [fits]

/-- The group pickup's choice, as a condition on the entry (R95). -/
theorem groupSelection_fits {s : State} {l : Line} {g : PickupGroup} (e : ViewEntry) :
    (decide (e.pickup = some g) && !e.marked && !isClaimer s l e && reachable s e.call.cab) = true
      ↔ (e.pickup = some g ∧ e.marked = false ∧ ¬ (e.cab = own s ∧ e.line = l) ∧ reachable s e.call.cab = true) := by
  simp [isClaimer, and_assoc, Decidable.imp_iff_not_or]

theorem directedSelection_at {s : State} {l line : Line} {cab : Cabinet} (other : ¬ (cab = own s ∧ line = l)) :
    directedSelection s l (100 + 16 * cab.val + line.val)
      = s.ppu.view.find? fun e => decide (e.cab = cab ∧ e.line = line) && reachable s e.call.cab := by
  unfold directedSelection
  rw [(directoryLine_eq_some_iff _ _ _).2 rfl]
  exact if_neg other

theorem pickupSelectsTheOldestReachableEntry : Clause.PickupSelectsTheOldestReachableEntry := by
  intro l s
  refine ⟨reachable_iff s, fun none_ => ?_, fun g pickup => ⟨fun before e after view fits earlier => ?_, fun none_ => ?_⟩,
    fun n cab line number other => ⟨fun before e after view fits earlier => ?_, fun none_ => ?_⟩, ?_, fun o => ?_⟩
  · unfold groupSelection
    rw [none_]
  · unfold groupSelection
    rw [pickup]
    exact find_first view ((groupSelection_fits e).2 fits) fun x here => mt (groupSelection_fits x).1 (earlier x here)
  · unfold groupSelection
    rw [pickup]
    exact List.find?_eq_none.2 fun x here => mt (groupSelection_fits x).1 (none_ x here)
  · subst number
    rw [directedSelection_at other]
    exact find_first view (by simpa [and_assoc] using fits) fun x here => by simpa [and_assoc] using earlier x here
  · subst number
    rw [directedSelection_at other]
    exact List.find?_eq_none.2 fun x here => by simpa [and_assoc] using none_ x here
  · unfold directedSelection
    rw [(directoryLine_eq_some_iff (directoryNumber (own s) l) (own s) l).2 rfl]
    exact if_pos ⟨rfl, rfl⟩
  · unfold retrieveSelection
    rw [dif_pos o.isLt]

/-! ### The codes' claims (R33, R98) -/

section
variable {l : Line} {d : Digit} {n : Nat} {s : State}

/-- The last digit of a group pickup code. -/
theorem digit_groupPickup (last : LastDigit l d .groupPickup n s) :
    takeDigit l d (fresh s) = claimRequest l (claimOf (groupSelection s l))
      (withOutputs [.tone l .none] (withLine l (withDigit d (lineOf s l)) s)) := by
  have same : groupSelection (withOutputs [.tone l .none] (withLine l (withDigit d (lineOf s l)) s)) l = groupSelection s l := by
    unfold groupSelection
    rw [lineOf_withOutputs, lineOf_withLine_self]
    rfl
  rw [takeDigit_acts last, ← same]
  rfl

theorem digit_directedPickup (last : LastDigit l d .directedPickup n s) :
    takeDigit l d (fresh s) = claimRequest l (claimOf (directedSelection s l n))
      (withOutputs [.tone l .none] (withLine l (withDigit d (lineOf s l)) s)) := takeDigit_acts last

theorem digit_retrieve (last : LastDigit l d .retrieve n s) :
    takeDigit l d (fresh s) = claimRequest l (retrieveSelection s n)
      (withOutputs [.tone l .none] (withLine l (withDigit d (lineOf s l)) s)) := takeDigit_acts last

/-- A line that awaits the verdict on its claim, with the tone orders that went out. -/
def claiming (l : Line) (t : ClaimTarget) (r : LineRec) (s : State) : State :=
  withOutputs [.tone l .none, .tone l .none]
    (withLine l { r with state := .pickupPending, buffer := [], verdict := some ⟨t, .pickup⟩ } s)

/-- A claim is formed for a line that has just ordered no tone. -/
theorem formClaim_withLine {r : LineRec} (t : ClaimTarget) (silent : r.tone = .none) :
    formClaim l t (withOutputs [.tone l .none] (withLine l r s)) = dispatchClaim l t (markClaim t (claiming l t r s)) := by
  have formed : orderTone l .none (onLine l (fun r => { r with
      state := .pickupPending, buffer := [], verdict := some ⟨t, .pickup⟩ }) (withOutputs [.tone l .none] (withLine l r s)))
        = claiming l t r s := by
    simp [onLine_eq, orderTone_eq, claiming, ← silent]
  exact congrArg (fun u => dispatchClaim l t (markClaim t u)) formed

end

theorem pickupCodesFormAClaim : Clause.PickupCodesFormAClaim := by
  intro l d code n s ⟨ready, link, room⟩ last r selected pending which
  have acts : takeDigit l d (fresh s) = claimRequest l selected (withOutputs [.tone l .none] (withLine l r s)) := by
    rcases which with rfl | rfl | rfl
    · exact digit_groupPickup last
    · exact digit_directedPickup last
    · exact digit_retrieve last
  refine ⟨fun c is foreign => ?_, fun o is foreign => ?_, fun none_ => ?_⟩
  · refine exec_of_act (f := takeDigit l d) rfl ready.1 ?_ ready.2
    rw [acts, is]
    refine (formClaim_withLine (.call c) rfl).trans ((if_neg foreign).trans ?_)
    exact queueNotice_running _ (markClaim (.call c) (claiming l (.call c) r s)) link rfl room
  · refine exec_of_act (f := takeDigit l d) rfl ready.1 ?_ ready.2
    rw [acts, is]
    refine (formClaim_withLine (.orbit o) rfl).trans ((if_neg foreign).trans ?_)
    exact queueNotice_running _ (markClaim (.orbit o) (claiming l (.orbit o) r s)) link rfl room
  · refine exec_of_act (f := takeDigit l d) rfl ready.1 ?_ ready.2
    rw [acts, none_]
    exact refuseCode_withLine l r [.tone l .none] s

/-- A claim of the line that is refused here. -/
theorem refuseClaim_here (l : Line) (t : ClaimTarget) (r : LineRec) (reason : ClaimRefusal) (s : State) :
    refuseClaim t (own s) l true reason (markClaim t (claiming l t r s))
      = markClaim t (withOutputs [.tone l .none, .tone l .none, .tone l .lost]
          (withLine l { r with state := .busy, buffer := [], call := none, verdict := none, tone := .lost } s)) := by
  have line : lineOf (markClaim t (claiming l t r s)) l
      = { r with state := .pickupPending, buffer := [], verdict := some ⟨t, .pickup⟩ } := by
    have kept : lineOf (markClaim t (claiming l t r s)) l = lineOf (claiming l t r s) l := by cases t <;> rfl
    rw [kept, claiming, lineOf_withOutputs, lineOf_withLine_self]
  have awaits_ : awaits (lineOf (markClaim t (claiming l t r s)) l) t = true := by
    rw [line]
    exact awaits_of rfl rfl
  have marked : resolvedLost l (markClaim t (claiming l t r s)) = markClaim t (resolvedLost l (claiming l t r s)) := by
    cases t <;> rfl
  refine (if_pos awaits_).trans ?_
  rw [resolveLost_eq, marked]
  simp [resolvedLost, claiming]

theorem claimsOfOwnCallsAreDecidedHere : Clause.ClaimsOfOwnCallsAreDecidedHere := by
  intro l d code n s ⟨ready, link, room⟩ shelf last r selected pending lost won which
  have acts : takeDigit l d (fresh s) = claimRequest l selected (withOutputs [.tone l .none] (withLine l r s)) := by
    rcases which with rfl | rfl | rfl
    · exact digit_groupPickup last
    · exact digit_directedPickup last
    · exact digit_retrieve last
  have decides {t : ClaimTarget} {u : State} (is : selected = some t) (mine : targetOwner t = own s)
      (decided : takeClaim t (own s) l true (markClaim t (claiming l t r s)) = u) (quiet : u.deliveries = []) :
      exec (.digit l d) s = .next u := by
    have kept : own (markClaim t (claiming l t r s)) = own s := by cases t <;> rfl
    refine exec_of_act (f := takeDigit l d) rfl ready.1 ?_ quiet
    rw [acts, is]
    refine (formClaim_withLine t rfl).trans ((if_pos (mine.trans kept.symm)).trans ?_)
    rw [kept]
    exact decided
  refine ⟨fun q is => ⟨fun o before after at_ same => ⟨fun wins => ?_, fun unassigned silent => ?_⟩, fun none_ => ?_⟩,
    fun i is => ⟨fun empty => ?_, fun o before after x t at_ slot call parked freed => ?_⟩⟩
  · subst same
    have open_ (n : OrbitNumber) : o.state ≠ .parked n := by rcases wins with st | st <;> rw [st] <;> simp
    let marked := withMark ⟨own s, o.seq⟩ (claiming l (.call ⟨own s, o.seq⟩) r s)
    have takes : takeClaim (.call ⟨own s, o.seq⟩) (own s) l true marked = connectCall o (own s) l none marked :=
      (takeClaim_call o.seq (own s) l true marked).trans (claimCall_at (s := marked) at_ (own s) l true wins)
    exact decides is rfl (takes.trans
      (connectCall_at (s := marked) at_ open_ link (Nat.lt_of_succ_lt room) shelf (own s) l none)) ready.2
  · subst same
    let marked := withMark ⟨own s, o.seq⟩ (claiming l (.call ⟨own s, o.seq⟩) r s)
    have takes := (takeClaim_call o.seq (own s) l true marked).trans
      (claimCall_late (s := marked) at_ (own s) l true unassigned silent)
    exact decides is rfl (takes.trans (refuseClaim_here l (.call ⟨own s, o.seq⟩) r _ s)) ready.2
  · let marked := withMark ⟨own s, q⟩ (claiming l (.call ⟨own s, q⟩) r s)
    have takes := (takeClaim_call q (own s) l true marked).trans (claimCall_none (s := marked) none_ (own s) l true)
    exact decides is rfl (takes.trans (refuseClaim_here l (.call ⟨own s, q⟩) r _ s)) ready.2
  · have mine : (orbitNumber (own s) i).val / 4 = (own s).val := by simp only [orbitNumber]; omega
    let pends := claiming l (.orbit (orbitNumber (own s) i)) r s
    have takes := (takeClaim_orbit (s := pends) mine (own s) l true).trans
      (claimOrbit_empty (s := pends) (by rw [orbitSlot_orbitNumber]; exact empty) (own s) l true)
    exact decides is (Fin.ext mine) (takes.trans (refuseClaim_here l (.orbit (orbitNumber (own s) i)) r _ s)) ready.2
  · have mine : (orbitNumber (own s) i).val / 4 = (own s).val := by simp only [orbitNumber]; omega
    let pends := claiming l (.orbit (orbitNumber (own s) i)) r s
    have takes := (takeClaim_orbit (s := pends) mine (own s) l true).trans
      (claimOrbit_at (s := pends) (by rw [orbitSlot_orbitNumber]; exact slot) at_ call (own s) l true)
    have running : cutOff s = false := by simp [cutOff, link]
    have quiet : t.deliveries = [] := ((orbitFreed_frame freed).2.2.2.2.2.2.2 running).trans ready.2
    exact decides is (Fin.ext mine) (takes.trans (connectCall_parked (s := pends) at_ parked link room shelf
      (freed.withOutputs [.tone l .none, .tone l .none]))) quiet

/-- Settles O39. -/
theorem pickupCodesClaimACall : Obligations.PickupCodesClaimACall :=
  ⟨pickupCodesFormAClaim, pickupSelectsTheOldestReachableEntry, claimsOfOwnCallsAreDecidedHere⟩

end Sys2Proof.Machine
end

section
/-! SUPPORT. O40: page codes claim a channel (R27, R32, R107, R109, R112, R117). -/

namespace Sys2Proof.Machine

/-! ### The choice of a channel (R109) -/

section
variable {view : Table 4 (Option ChannelHold)} {cls : PageClass} {c : Channel} {h : ChannelHold}

/-- The lowest free channel is taken. -/
theorem chooseChannel_free (free : view.get c = none) (lower : ∀ e, e < c → (view.get e).isSome = true) :
    chooseChannel view cls = some (c, false) := by
  have found : allChannels.find? (fun c => (view.get c).isNone) = some c :=
    allChannels_find _ c (by simp [free]) fun e below => by simpa [Option.isNone_eq_false_iff] using lower e below
  unfold chooseChannel
  rw [found]

theorem noChannelFree (full : ∀ e, (view.get e).isSome = true) : allChannels.find? (fun c => (view.get c).isNone) = none :=
  List.find?_eq_none.2 fun e _ => by simpa [Option.isSome_iff_ne_none] using full e

/-- With none free, an ALARM page seizes the lowest channel that holds a ROUTINE page. -/
theorem chooseChannel_seize (full : ∀ e, (view.get e).isSome = true) (alarm : cls = .alarm) (held : view.get c = some h)
    (routine : h.cls = .routine) (lower : ∀ e x, e < c → view.get e = some x → x.cls ≠ .routine) :
    chooseChannel view cls = some (c, true) := by
  let fits := fun c => match view.get c with
    | some h => decide (h.cls = PageClass.routine)
    | none => false
  have found : allChannels.find? fits = some c := by
    refine allChannels_find fits c (by simp [fits, held, routine]) fun e below => ?_
    obtain ⟨x, is⟩ := Option.isSome_iff_exists.1 (full e)
    simpa [fits, is] using lower e x below is
  have seized : (allChannels.find? fits).map (fun c => (c, true)) = some (c, true) := by rw [found]; rfl
  unfold chooseChannel
  rw [noChannelFree full]
  exact (if_pos alarm).trans seized

/-- With none free and none to seize, there is no channel. -/
theorem chooseChannel_none (full : ∀ e, (view.get e).isSome = true)
    (unseized : cls ≠ .alarm ∨ ∀ c h, view.get c = some h → h.cls ≠ .routine) : chooseChannel view cls = none := by
  let fits := fun c => match view.get c with
    | some h => decide (h.cls = PageClass.routine)
    | none => false
  unfold chooseChannel
  rw [noChannelFree full]
  by_cases alarm : cls = .alarm
  · have found : allChannels.find? fits = none := by
      refine List.find?_eq_none.2 fun e _ => ?_
      obtain ⟨x, is⟩ := Option.isSome_iff_exists.1 (full e)
      simpa [fits, is] using unseized.resolve_left (Classical.not_not.2 alarm) e x is
    have none_ : (allChannels.find? fits).map (fun c => (c, true)) = none := by rw [found]; rfl
    exact (if_pos alarm).trans none_
  · exact if_neg alarm

end

/-! ### A line's request for a page (R32, R112) -/

/-- A page of a line that has ended (R32). -/
theorem linePageEnded_eq (l : Line) (t : Tone) (s : State) :
    linePageEnded l t s = withOutputs (s.outputs ++ [.tone l t]) (pageEnded l t s) := by
  simp [linePageEnded, onLine_eq, orderTone_eq, pageEnded]

/-- A PAGING line whose request is with the Page Originator, with the tone orders that went out. -/
def asking (l : Line) (r : LineRec) (s : State) : State :=
  withOutputs [.tone l .none, .tone l .none] (withLine l { r with state := .paging, buffer := [], armed := false } s)

/-- The page of a line that the table takes next, and the line that has been given its id. -/
def givenPage (l : Line) (cls : PageClass) (t : PageTarget) (r : LineRec) (s : State) : State :=
  withOutputs [.tone l .none, .tone l .none]
    (withLine l { r with state := .paging, buffer := [], armed := false, page := some ⟨own s, nextPageSeq s⟩ }
      (withNewPage (newPage (nextPageSeq s) cls t (.line l) r.armed) s))

section
variable {l : Line} {d : Digit} {code : Code} {n : Nat} {cls : PageClass} {t : PageTarget} {r : LineRec} {s : State}

/-- A page code asks the Page Originator for its page. -/
theorem requestPage_asking (silent : r.tone = .none) :
    requestPage l cls t (withOutputs [.tone l .none] (withLine l r s)) = pageRequest l cls t r.armed (asking l r s) := by
  unfold requestPage
  dsimp only
  rw [lineOf_withOutputs, lineOf_withLine_self]
  congr 1
  simp [onLine_eq, orderTone_eq, asking, ← silent]

/-- The last digit of a page code. -/
theorem digit_page (last : LastDigit l d code n s) (target : pageTargetOf n = some t)
    (which : cls = .routine ∧ (code = .routinePage ∨ code = .overrideRoutine)
      ∨ cls = .alarm ∧ (code = .alarmPage ∨ code = .overrideAlarm)) :
    takeDigit l d (fresh s) = pageRequest l cls t (withDigit d (lineOf s l)).armed (asking l (withDigit d (lineOf s l)) s) := by
  have coded : takeDigit l d (fresh s)
      = pageCode l cls n (withOutputs [.tone l .none] (withLine l (withDigit d (lineOf s l)) s)) := by
    rw [takeDigit_acts last]
    rcases which with ⟨rfl, rfl | rfl⟩ | ⟨rfl, rfl | rfl⟩ <;> rfl
  rw [coded, pageCode, target]
  exact requestPage_asking rfl

/-- With six pages of lines and orbits the request is refused. -/
theorem pageRequest_full (link : s.clc.link = .running) (full : 6 ≤ sharedCount s) :
    pageRequest l cls t r.armed (asking l r s) = linePageEnded l .busy (asking l r s) :=
  (if_neg (Classical.not_not.2 link)).trans (if_pos full)

/-- With a place in the table the page is written, and its channel chosen. -/
theorem pageRequest_given (link : s.clc.link = .running) (place : sharedCount s < 6) :
    pageRequest l cls t r.armed (asking l r s) = match chooseChannel s.pgo.view cls with
      | none => linePageEnded l .busy (freePage (nextPageSeq s) (givenPage l cls t r s))
      | some (c, seize) => queueStart (nextPageSeq s) (takeChannel (nextPageSeq s) cls c seize (givenPage l cls t r s)) := by
  have given : linePageGiven l ⟨own s, nextPageSeq s⟩
      (writePage (newPage (nextPageSeq s) cls t (.line l) r.armed) (asking l r s)) = givenPage l cls t r s := by
    rw [linePageGiven, onLine_eq]
    simp only [writePage, onPgo, asking, givenPage, lineOf, withNewPage, withLine, withOutputs, Table.get_set_self, Table.set_set,
      newPage]
  refine (if_neg (Classical.not_not.2 link)).trans ((if_neg (Nat.not_le.2 place)).trans ?_)
  exact congrArg (fun u => match chooseChannel s.pgo.view cls with
      | none => linePageEnded l .busy (freePage (nextPageSeq s) u)
      | some (c, seize) => queueStart (nextPageSeq s) (takeChannel (nextPageSeq s) cls c seize u)) given

/-- The new record stands at the end of the table. -/
theorem pageAt_givenPage (new : ∀ x ∈ s.pgo.pages, x.seq ≠ nextPageSeq s) :
    PageAt (newPage (nextPageSeq s) cls t (.line l) r.armed) s.pgo.pages [] (givenPage l cls t r s) :=
  ⟨rfl, by simpa [newPage] using new⟩

end

/-- A record's PAGE-START goes out (R112). -/
theorem queueStart_of {q : Seq} {r : PageRec} {s : State} (found : findPage s q = some r) (link : s.clc.link = .running)
    (room : s.clc.queue.length < txCapacity) : queueStart q s = withQueued [.pageStart (startBody s r)] s := by
  unfold queueStart
  rw [found]
  exact queueNotice_running _ _ link rfl room

/-- A record that takes a channel, whatever the seizure has made of the rest. -/
theorem queueStart_takes {l : Line} {q : Seq} {c : Channel} {seize : Bool} {r : PageRec} {s u : State}
    (seized : (if seize then endSeized c s else s) = u) (here : own u = own s) (found : findPage u q = some r)
    (seq : r.seq = q) (line : r.origin = .line l) (link : u.clc.link = .running) (room : u.clc.queue.length < txCapacity) :
    queueStart q (takeChannel q r.cls c seize s)
      = withQueued [.pageStart ⟨⟨own s, q⟩, r.cls, r.target, some c, seize, r.override, none⟩]
        (withView c (some ⟨⟨own s, q⟩, r.cls⟩)
          (withPages (u.pgo.pages.map fun y => if y.seq = q then { y with channel := some c, seize := seize } else y) u)) := by
  have takes : takeChannel q r.cls c seize s = withView c (some ⟨⟨own s, q⟩, r.cls⟩)
      (withPages (u.pgo.pages.map fun y => if y.seq = q then { y with channel := some c, seize := seize } else y) u) := by
    unfold takeChannel
    dsimp only
    rw [seized, modPage_eq, pageIdOf, show own u = own s from here]
    rfl
  have taken : findPage (withView c (some ⟨⟨own s, q⟩, r.cls⟩)
      (withPages (u.pgo.pages.map fun y => if y.seq = q then { y with channel := some c, seize := seize } else y) u)) q
        = some { r with channel := some c, seize := seize } := by
    have same : ((fun r : PageRec => decide (r.seq = q)) ∘
        fun y => if y.seq = q then { y with channel := some c, seize := seize } else y) = fun r => decide (r.seq = q) := by
      funext y
      by_cases is : y.seq = q <;> simp [is]
    unfold findPage at found ⊢
    refine (List.find?_map ..).trans ?_
    rw [same, found]
    simp [seq]
  rw [takes, queueStart_of taken (by exact link) (by exact room)]
  congr 3
  simp only [startBody, pageIdOf, line, seq]
  congr 2

theorem pageCodeTakesAChannel : Clause.PageCodesClaimAChannel := by
  intro l d code n cls t s ⟨ready, link, room⟩ last target which r q paging busy
  have asks := digit_page last target which
  have claims {c : Channel} {seize : Bool} (place : sharedCount s < 6) (new : ∀ x ∈ s.pgo.pages, x.seq ≠ q)
      (chosen : chooseChannel s.pgo.view cls = some (c, seize))
      (seized : (if seize then endSeized c (givenPage l cls t r s) else givenPage l cls t r s) = givenPage l cls t r s) :
      exec (.digit l d) s = .next (withOutputs [.tone l .none, .tone l .none]
        (withQueued [.pageStart ⟨⟨own s, q⟩, cls, t, some c, seize, r.armed, none⟩]
          (withLine l { paging with page := some ⟨own s, q⟩ } (withView c (some ⟨⟨own s, q⟩, cls⟩)
            (withNewPage { newPage q cls t (.line l) r.armed with channel := some c, seize := seize } s))))) := by
    refine exec_of_act (f := takeDigit l d) rfl ready.1 ?_ ready.2
    have at_ := pageAt_givenPage (l := l) (cls := cls) (t := t) (r := r) new
    rw [asks, pageRequest_given link place, chosen]
    refine (queueStart_takes (r := newPage q cls t (.line l) r.armed) seized rfl (findPage_at at_) rfl rfl link room).trans ?_
    have pages := modPage_at at_ fun y => { y with channel := some c, seize := seize }
    rw [modPage_eq] at pages
    refine (congrArg (fun u => withQueued _ (withView c _ u)) pages).trans ?_
    rfl
  refine ⟨fun c place new free lower => ?_, fun full => ?_, fun place new full unseized => ?_,
    fun c h alarm place new full held routine foreign lower => ?_⟩
  · exact claims place new (chooseChannel_free free lower) rfl
  · refine exec_of_act (f := takeDigit l d) rfl ready.1 ?_ ready.2
    rw [asks, pageRequest_full link full, linePageEnded_eq]
    simp [asking, pageEnded, busy, paging, r]
  · refine exec_of_act (f := takeDigit l d) rfl ready.1 ?_ ready.2
    have none_ : chooseChannel s.pgo.view cls = none :=
      chooseChannel_none full (unseized.imp (fun is => by simp [is]) id)
    rw [asks, pageRequest_given link place, none_]
    dsimp only
    have freed : freePage (nextPageSeq s) (givenPage l cls t r s) = withPages (s.pgo.pages ++ []) (givenPage l cls t r s) :=
      freePage_at (pageAt_givenPage new)
    rw [freed, linePageEnded_eq]
    have line : lineOf (withPages (s.pgo.pages ++ []) (givenPage l cls t r s)) l
        = { paging with page := some ⟨own s, q⟩ } := lineOf_withLine_self ..
    unfold pageEnded
    rw [line, List.append_nil]
    simp only [givenPage, withLine, withPages, withNewPage, withOutputs, Table.set_set, busy]
    rfl
  · refine claims place new (chooseChannel_seize full alarm held routine lower) ?_
    have kept : (givenPage l cls t r s).pgo.view.get c = some h := held
    have unseized : endSeized c (givenPage l cls t r s) = givenPage l cls t r s := by
      unfold endSeized
      rw [kept]
      exact if_neg foreign
    exact unseized

/-! ### A page of the part that is seized (R109, R117) -/

/-- What the end of a line's page leaves, on the link. -/
theorem linePageEnds_running {reason : PageEndReason} {r : PageRec} {s u : State} (ends : LinePageEnds reason r s u)
    (link : s.clc.link = .running) : own u = own s ∧ u.clc.link = .running ∧ u.deliveries = s.deliveries
      ∧ ∃ before after, PageAt r before after s ∧ u.pgo.pages = before ++ after := by
  obtain ⟨l, before, after, _, at_, _, _, _, ⟨_, rfl⟩ | ⟨_, _, rfl⟩⟩ := ends
  · rw [noticed_running _ _ (by exact link)]
    exact ⟨rfl, link, rfl, before, after, at_, rfl⟩
  · exact ⟨rfl, link, rfl, before, after, at_, rfl⟩

theorem alarmCodeSeizesTheOwnPage : Clause.AlarmCodeSeizesTheOwnPage := by
  intro l m d code n t c h v s u ⟨ready, link, room⟩ last target which place new full held routine lower mine here origin other
    r q ends room'
  have asks := digit_page (cls := .alarm) last target (.inr ⟨rfl, which⟩)
  have ends : LinePageEnds .channelLost v (givenPage l .alarm t r s) u := ends
  obtain ⟨same, running, quiet, before, after, at_, pages⟩ := linePageEnds_running ends link
  have seized : endSeized c (givenPage l .alarm t r s) = u := by
    have kept : (givenPage l .alarm t r s).pgo.view.get c = some h := held
    unfold endSeized
    rw [kept]
    dsimp only
    rw [mine]
    exact (if_pos rfl).trans (endPageSeq_of ends)
  have found : findPage u q = some (newPage q .alarm t (.line l) r.armed) := by
    have all : s.pgo.pages ++ [newPage q .alarm t (.line l) r.armed] = before ++ v :: after := at_.1
    have stands : newPage q .alarm t (.line l) r.armed ∈ before ++ after := by
      have among : newPage q .alarm t (.line l) r.armed ∈ before ++ v :: after := all ▸ by simp
      have apart : newPage q .alarm t (.line l) r.armed ≠ v := fun is => new v here (congrArg PageRec.seq is).symm
      simpa [apart] using among
    unfold findPage
    rw [pages]
    cases is : (before ++ after).find? fun y => decide (y.seq = q) with
    | none => exact absurd (List.find?_eq_none.1 is _ stands) (by simp [newPage])
    | some y =>
      have seq : y.seq = q := by simpa using List.find?_some is
      have among : y ∈ s.pgo.pages ++ [newPage q .alarm t (.line l) r.armed] := by
        rw [all]
        exact mem_around v (List.mem_of_find?_eq_some is)
      rcases List.mem_append.1 among with old | is_new
      · exact absurd seq (new y old)
      · rw [List.mem_singleton.1 is_new]
  refine exec_of_act (f := takeDigit l d) rfl ready.1 ?_ (quiet.trans ready.2)
  rw [asks, pageRequest_given link place, chooseChannel_seize full rfl held routine lower]
  exact queueStart_takes (seize := true) (r := newPage q .alarm t (.line l) r.armed) seized same found rfl rfl running room'

theorem pageCodesOffTheLinkAreRefused : Clause.PageCodesOffTheLinkAreRefused := by
  intro l d code n t s ready off last target which
  have asks : ∃ cls, takeDigit l d (fresh s)
      = pageRequest l cls t (withDigit d (lineOf s l)).armed (asking l (withDigit d (lineOf s l)) s) := by
    rcases which with routine | routine | alarm | alarm
    · exact ⟨.routine, digit_page last target (.inl ⟨rfl, .inl routine⟩)⟩
    · exact ⟨.routine, digit_page last target (.inl ⟨rfl, .inr routine⟩)⟩
    · exact ⟨.alarm, digit_page last target (.inr ⟨rfl, .inl alarm⟩)⟩
    · exact ⟨.alarm, digit_page last target (.inr ⟨rfl, .inr alarm⟩)⟩
  obtain ⟨cls, asks⟩ := asks
  refine exec_of_act (f := takeDigit l d) rfl ready.1 ?_ ready.2
  rw [asks]
  refine (if_pos off).trans ?_
  rw [linePageEnded_eq]
  simp [asking, pageEnded]

/-! ### Page targets and page ids (R27, R107) -/

/-- The sequence values that a record or an own entry of the channel view holds. -/
def heldPageSeqs (s : State) : List Seq :=
  s.pgo.pages.map (·.seq) ++ s.pgo.view.rows.filterMap fun h => h.bind fun x =>
    if x.page.cab = own s then some x.page.seq else none

theorem mem_heldPageSeqs {s : State} {q : Seq} : q ∈ heldPageSeqs s ↔
    (∃ r ∈ s.pgo.pages, r.seq = q) ∨ ∃ c h, s.pgo.view.get c = some h ∧ h.page = ⟨own s, q⟩ := by
  have entry (h : ChannelHold) : (if h.page.cab = own s then some h.page.seq else none) = some q ↔ h.page = ⟨own s, q⟩ := by
    obtain ⟨⟨cab, seq⟩, cls⟩ := h
    by_cases mine : cab = own s <;> simp [mine]
  have rows (h : Option ChannelHold) : h ∈ s.pgo.view.rows ↔ ∃ c, s.pgo.view.get c = h := by
    rw [List.mem_iff_getElem]
    exact ⟨fun ⟨i, lt, is⟩ => ⟨⟨i, s.pgo.view.size ▸ lt⟩, is⟩, fun ⟨c, is⟩ => ⟨c.val, by simp [s.pgo.view.size], is⟩⟩
  simp only [heldPageSeqs, List.mem_append, List.mem_map, List.mem_filterMap, Option.bind_eq_some_iff, entry, rows]
  refine or_congr Iff.rfl ⟨fun ⟨_, ⟨c, is⟩, h, some_, page⟩ => ⟨c, h, is.trans some_, page⟩,
    fun ⟨c, h, is, page⟩ => ⟨some h, ⟨c, is⟩, h, rfl, page⟩⟩

theorem pageSeqHeld_eq (s : State) : pageSeqHeld s = fun q => decide (q ∈ heldPageSeqs s) := by
  funext q
  have rows : (s.pgo.view.rows.any fun h => decide (h.map (·.page) = some (pageIdOf s q))) = true
      ↔ ∃ c h, s.pgo.view.get c = some h ∧ h.page = ⟨own s, q⟩ := by
    simp only [List.any_eq_true, decide_eq_true_eq, Option.map_eq_some_iff, List.mem_iff_getElem]
    exact ⟨fun ⟨_, ⟨i, lt, is⟩, h, some_, page⟩ => ⟨⟨i, s.pgo.view.size ▸ lt⟩, h, is.trans some_, page⟩,
      fun ⟨c, h, is, page⟩ => ⟨some h, ⟨c.val, by simp [s.pgo.view.size], is⟩, h, rfl, page⟩⟩
  rw [Bool.eq_iff_iff, pageSeqHeld, Bool.or_eq_true, rows, decide_eq_true_eq, mem_heldPageSeqs, findPage, List.find?_isSome]
  simp

/-- The search ends before its last try where fewer values than tries are held. -/
theorem firstFree_before (l : List Seq) {fuel : Nat} (q : Seq) (short : l.length < fuel) (small : fuel < 256) :
    ∃ k < fuel, firstFree (fun x => decide (x ∈ l)) fuel q = seqAfter k q ∧ seqAfter k q ∉ l ∧ ∀ j < k, seqAfter j q ∈ l := by
  obtain ⟨k, le, is, free, held⟩ := firstFree_or (fun x => decide (x ∈ l)) fuel q
  have before : k < fuel := by
    refine Nat.not_le.1 fun not_before => ?_
    have apart : ((List.range k).map fun j => seqAfter j q).Nodup := by
      refine List.pairwise_map.2 (List.nodup_range.imp_of_mem fun {i j} hi hj ne same => ne ?_)
      exact seqAfter_injective q (by rw [List.mem_range] at hi; omega) (by rw [List.mem_range] at hj; omega) same
    have fits := length_le_of_nodup _ l apart fun x here => by
      obtain ⟨j, hj, rfl⟩ := List.mem_map.1 here
      simpa using held j (List.mem_range.1 hj)
    rw [List.length_map, List.length_range] at fits
    omega
  exact ⟨k, before, is, by simpa using free before, fun j lt => by simpa using held j lt⟩

theorem pageTargetsAndPageIds : Clause.PageTargetsAndPageIds := by
  refine ⟨rfl, fun g => ?_, fun n large other => ?_, fun s few => ?_⟩
  · have in_ : g.val ≠ 99 := by omega
    simp [pageTargetOf, in_]
  · simp [pageTargetOf, other, large]
  · intro held
    have short : (heldPageSeqs s).length < 13 := by
      have rows := List.length_filterMap_le (fun h : Option ChannelHold => h.bind fun x =>
        if x.page.cab = own s then some x.page.seq else none) s.pgo.view.rows
      rw [s.pgo.view.size] at rows
      simp only [heldPageSeqs, List.length_append, List.length_map]
      omega
    obtain ⟨k, lt, is, free, before⟩ := firstFree_before (heldPageSeqs s) s.pgo.counter short (by omega)
    have is : nextPageSeq s = seqAfter k s.pgo.counter := by
      rw [nextPageSeq, pageSeqHeld_eq]
      exact is
    refine ⟨k, by omega, by rw [is]; rfl, ?_, fun j lt q at_ => ?_⟩
    · rw [is]
      exact mt mem_heldPageSeqs.2 free
    · have : q = seqAfter j s.pgo.counter := Fin.ext at_
      exact mem_heldPageSeqs.1 (this ▸ before j lt)

/-- Settles O40. -/
theorem pageCodesClaimAChannel : Obligations.PageCodesClaimAChannel :=
  ⟨pageCodeTakesAChannel, alarmCodeSeizesTheOwnPage, pageCodesOffTheLinkAreRefused, pageTargetsAndPageIds⟩

end Sys2Proof.Machine
end

section
/-! SUPPORT. O41: the contact inputs and their pages (R114, R115). -/

namespace Sys2Proof.Machine

section
variable {i : ContactInput} {s : State}

/-- An input as taken leaves the rest. -/
theorem setInput_eq (i : ContactInput) (on : Bool) (s : State) : setInput i on s = withInput i on s := by cases i <;> rfl

theorem inputPage_withInput (i j : ContactInput) (on : Bool) (s : State) : inputPage (withInput i on s) j = inputPage s j := by
  cases i <;> rfl

theorem inputPage_origin {r : PageRec} (found : inputPage s i = some r) : r.origin = .input i := by
  simpa using List.find?_some found

theorem inputActive_fresh (i : ContactInput) (s : State) : inputActive (fresh s) i = inputActive s i := by cases i <;> rfl

/-- An input that becomes active while the inputs are read originates its page where none stands (R114). -/
theorem inputBecomesActive_originates (reads : inputsRead s.phase = true) (off : inputActive s i = false)
    (none_ : inputPage s i = none) :
    inputBecomesActive i (fresh s) = originateInput i (withInput i true (fresh s)) := by
  have takes : (inputsRead (fresh s).phase && !inputActive (fresh s) i) = true := by
    rw [inputActive_fresh, off]
    exact (Bool.and_true _).trans reads
  have gone : inputPage (fresh s) i = none := none_
  refine (if_pos takes).trans ?_
  dsimp only
  rw [setInput_eq, inputPage_withInput, gone]

/-- A page that stands is no longer released (R114). -/
theorem inputBecomesActive_keeps {r : PageRec} (reads : inputsRead s.phase = true) (off : inputActive s i = false)
    (found : inputPage s i = some r) :
    inputBecomesActive i (fresh s) = modPage r.seq (fun r => { r with released := false }) (withInput i true (fresh s)) := by
  have takes : (inputsRead (fresh s).phase && !inputActive (fresh s) i) = true := by
    rw [inputActive_fresh, off]
    exact (Bool.and_true _).trans reads
  have here : inputPage (fresh s) i = some r := found
  refine (if_pos takes).trans ?_
  dsimp only
  rw [setInput_eq, inputPage_withInput, here]

/-- An input that becomes inactive while the inputs are read releases its page (R114, R115). -/
theorem inputBecomesInactive_taken {r : PageRec} {before after : List PageRec} (reads : inputsRead s.phase = true)
    (on : inputActive s i = true) (found : inputPage s i = some r) (at_ : PageAt r before after s) :
    inputBecomesInactive i (fresh s) =
      if minimumPast r then
        endPage r .ended none (withPages (before ++ { r with released := true } :: after) (withInput i false (fresh s)))
      else withPages (before ++ { r with released := true } :: after) (withInput i false (fresh s)) := by
  have takes : (inputsRead (fresh s).phase && inputActive (fresh s) i) = true := by
    rw [inputActive_fresh, on]
    exact (Bool.and_true _).trans reads
  have at_' : PageAt r before after (withInput i false (fresh s)) := by
    cases i <;> exact at_
  have here : inputPage (fresh s) i = some r := found
  refine (if_pos takes).trans ?_
  dsimp only
  rw [setInput_eq, inputPage_withInput, here]
  dsimp only
  rw [modPage_at at_']

end

theorem contactInputsOriginatePages : Clause.ContactInputsOriginatePages := by
  intro i s ⟨ready, link, room⟩ q
  refine ⟨fun running off none_ new => ⟨?alarm, ?evac⟩, fun r before after running off at_ found => ?_, fun unread => ?_⟩
  case alarm =>
    rintro rfl
    refine exec_of_act (f := inputBecomesActive .alarm) rfl ready.1 ?_ ready.2
    rw [inputBecomesActive_originates (by rw [running]; rfl) off none_]
    exact queueStart_new (newPage q .alarm (.group s.pgo.alarmGroup) (.input .alarm) false)
      (withInput .alarm true (fresh s)) new link room
  case evac =>
    rintro rfl
    refine exec_of_act (f := inputBecomesActive .evac) rfl ready.1 ?_ ready.2
    rw [inputBecomesActive_originates (by rw [running]; rfl) off none_]
    exact congrArg (raise .evacActive q.val .pgo)
      (queueStart_new (newPage q .evac .all (.input .evac) false) (withInput .evac true (fresh s)) new link room)
  · have at_' : PageAt r before after (withInput i true (fresh s)) := by
      cases i <;> exact at_
    refine exec_of_act (f := inputBecomesActive i) rfl ready.1 ?_ (by cases i <;> exact ready.2)
    rw [inputBecomesActive_keeps (by rw [running]; rfl) off found]
    exact (modPage_at at_' _).trans (by cases i <;> rfl)
  · have passes : ¬ (inputsRead (fresh s).phase && !inputActive (fresh s) i) = true := by
      rw [inputActive_fresh, show (fresh s).phase = s.phase from rfl]
      rcases unread with phase | phase | on
      · simp [phase, inputsRead]
      · simp [phase, inputsRead]
      · simp [on]
    exact exec_of_act (f := inputBecomesActive i) rfl ready.1 (if_neg passes) ready.2

theorem inputPagesEndAfterTheirMinimum : Clause.InputPagesEndAfterTheirMinimum := by
  intro i r before after s ⟨ready, link, room⟩ running at_ found air ended kept
  have reads : inputsRead s.phase = true := by rw [running]; rfl
  have ends {x : PageRec} {u : State} (same : x.seq = r.seq) (stands : PageAt x before after u) (air : x.state = .onAir)
      (input : x.origin = .input i) (link : u.clc.link = .running) (room : u.clc.queue.length < txCapacity) :
      endPage x .ended none u = withQueued [.pageEnd ⟨own u, r.seq⟩ x.cls .ended] (withPages (before ++ after) u) := by
    rw [endPage_notLine stands .ended none link room (by simp [air]) (by simp [input]), same]
  have input := inputPage_origin found
  refine ⟨fun on past => ?_, fun on timed => ?_, fun off => ?_, fun timed released => ?_, fun timed unreleased => ?_⟩
  · refine exec_of_act (f := inputBecomesInactive i) rfl ready.1 ?_ (by cases i <;> exact ready.2)
    have minimum : minimumPast r = true := by simp [minimumPast, air, past]
    let freed := { r with released := true }
    let u := withPages (before ++ freed :: after) (withInput i false (fresh s))
    have stands : PageAt freed before after u := ⟨rfl, at_.2⟩
    have gone : endPage freed .ended none u
        = withQueued [.pageEnd ⟨own u, r.seq⟩ r.cls .ended] (withPages (before ++ after) u) :=
      ends rfl stands air input (by cases i <;> exact link) (by cases i <;> exact room)
    rw [inputBecomesInactive_taken reads on found at_, if_pos minimum]
    refine Eq.trans (b := endPage freed .ended none u) rfl (gone.trans ?_)
    cases i <;> rfl
  · refine exec_of_act (f := inputBecomesInactive i) rfl ready.1 ?_ (by cases i <;> exact ready.2)
    have waits : ¬ minimumPast r = true := by simp [minimumPast, timed]
    rw [inputBecomesInactive_taken reads on found at_, if_neg waits]
    cases i <;> rfl
  · have passes : ¬ (inputsRead (fresh s).phase && inputActive (fresh s) i) = true := by
      rw [inputActive_fresh, off]
      simp
    exact exec_of_act (f := inputBecomesInactive i) rfl ready.1 (if_neg passes) ready.2
  · refine exec_of_act (f := minimumExpiry i) rfl ready.1 ?_ ready.2
    have here : inputPage (fresh s) i = some r := found
    unfold minimumExpiry
    rw [here]
    exact (if_pos timed).trans ((if_pos released).trans (ends rfl (u := fresh s) at_ air input link room))
  · refine exec_of_act (f := minimumExpiry i) rfl ready.1 ?_ ready.2
    have here : inputPage (fresh s) i = some r := found
    unfold minimumExpiry
    rw [here]
    exact (if_pos timed).trans ((if_neg (by simp [unreleased])).trans (modPage_at (s := fresh s) at_ _))

/-- Settles O41. -/
theorem inputPagesFollowTheirInput : Obligations.InputPagesFollowTheirInput :=
  ⟨contactInputsOriginatePages, inputPagesEndAfterTheirMinimum⟩

end Sys2Proof.Machine
end

section
/-! SUPPORT. O42: report windows, life timers and ZONE-REPORTs (R118 to R121). -/

namespace Sys2Proof.Machine

@[simp] theorem withSent_nil (s : State) : withSent [] s = s := by simp [withSent]

section
variable {r : PageRec} {before after : List PageRec} {s : State}

/-- A live outcome is PLAYING, PENDING or HELD (R119). -/
theorem live_iff (o : ZoneOutcome) : live o = true ↔ o = .playing ∨ o = .pending ∨ o = .held := by
  cases o <;> simp [live]

/-- Where a record stands, no other has its sequence value. -/
theorem pageAt_unique {x : PageRec} (at_ : PageAt r before after s) (here : x ∈ s.pgo.pages) (same : x.seq = r.seq) :
    x = r := by
  rw [at_.1] at here
  simp only [List.mem_append, List.mem_cons] at here
  rcases here with front | is | back
  · exact absurd same (at_.2 x (by simp [front]))
  · exact is
  · exact absurd same (at_.2 x (by simp [back]))

theorem reportWindowExpiry_live {l : Line} {c : Channel} (at_ : PageAt r before after s) (shelf : ShelfRoom 1 s)
    (origin : r.origin = .line l) (channel : r.channel = some c) (timer : r.timer = some .reportWindow)
    (some_ : ∃ e ∈ r.reports, live e.2 = true) :
    reportWindowExpiry r.seq s = withOutputs (s.outputs ++ [.tone l .confirm]) (withSent [.connectPage l c]
      (withLine l { lineOf s l with tone := .confirm }
        (withPages (before ++ { r with state := .onAir, connectSent := true, timer := none } :: after) s))) := by
  have heard : (r.reports.any fun e => live e.2) = true := List.any_eq_true.2 some_
  unfold reportWindowExpiry
  rw [findPage_at at_]
  dsimp only
  rw [timer, origin, channel]
  dsimp only
  rw [if_pos heard, modPage_at at_, linePageOnAir, shelfSend_room _ _ (by exact shelf), orderTone_eq]
  simp [origin, channel]

theorem reportWindowExpiry_dead {l : Line} {c : Channel} (at_ : PageAt r before after s)
    (origin : r.origin = .line l) (channel : r.channel = some c) (timer : r.timer = some .reportWindow)
    (none_ : ∀ e ∈ r.reports, ¬ live e.2 = true) :
    reportWindowExpiry r.seq s = endPage r .noZone (some .refuse) s := by
  have silent : ¬ (r.reports.any fun e => live e.2) = true := by simpa using none_
  unfold reportWindowExpiry
  rw [findPage_at at_]
  dsimp only
  rw [timer, origin, channel]
  exact if_neg silent

end

theorem pageTimersDecideThePage : Clause.PageTimersDecideThePage := by
  intro r before after s ⟨ready, link, room⟩ shelf at_
  refine ⟨fun l c origin channel reporting timer => ⟨fun some_ => ?_, fun none_ unconnected => ?_⟩,
    fun o origin air timer => ?_, fun timer => ⟨?_, ?_⟩⟩
  · refine exec_of_act (f := reportWindowExpiry r.seq) rfl ready.1 ?_ ready.2
    exact reportWindowExpiry_live (s := fresh s) at_ shelf origin channel timer (by simpa only [live_iff] using some_)
  · refine exec_of_act (f := reportWindowExpiry r.seq) rfl ready.1 ?_ ready.2
    refine (reportWindowExpiry_dead (s := fresh s) at_ origin channel timer fun e here => ?_).trans ?_
    · rw [live_iff]
      obtain ⟨playing, pending, held⟩ := none_ e here
      exact fun live => live.elim playing fun waits => waits.elim pending held
    · refine (endPage_line (s := fresh s) at_ .noZone .refuse l c link room shelf (by simp [reporting]) origin
        fun _ => channel).trans ?_
      rw [if_neg (by simp [unconnected])]
      rw [withSent_nil]
      rfl
  · refine exec_of_act (f := codeLifeExpiry r.seq) rfl ready.1 ?_ ready.2
    unfold codeLifeExpiry
    rw [findPage_at (s := fresh s) at_]
    exact (if_pos timer).trans
      (endPage_notLine (s := fresh s) at_ .ended none link room (by simp [air]) (by simp [origin]))
  · refine exec_of_act (f := reportWindowExpiry r.seq) rfl ready.1 ?_ ready.2
    unfold reportWindowExpiry
    rw [findPage_at (s := fresh s) at_]
    dsimp only
    rw [timer]
    rfl
  · refine exec_of_act (f := codeLifeExpiry r.seq) rfl ready.1 ?_ ready.2
    unfold codeLifeExpiry
    rw [findPage_at (s := fresh s) at_]
    exact if_neg (by simp [timer])

/-- A ZONE-REPORT that the Page Originator reads. -/
theorem heardZoneReport_read {page : RawId} {zone outcome : Byte} {p : PageId} {z : ZoneNumber} {o : ZoneOutcome}
    (id : codePage page = some p) (place : codeBelow 64 zone = some z) (out : codeOutcome outcome = some o) (s : State) :
    heardZoneReport page zone outcome s = pgoReport p z o s := by
  rw [heardZoneReport, id, place, out]
  rfl

theorem zoneReportsAreKeptAndJudged : Clause.ZoneReportsAreKeptAndJudged := by
  intro src page zone outcome z out r before after s ⟨ready, link, room⟩ shelf known at_ id place which heard list kept none_
  have reports {t : State} (taken : ReportTaken ⟨own s, r.seq⟩ z out (hearing src s) t) (quiet : t.deliveries = []) :
      exec (.zoneReport src page zone outcome) s = .next t :=
    exec_heardKnown (f := heardZoneReport page zone outcome) rfl ready link known
      ((heardZoneReport_read id place which _).trans (pgoReport_of taken)) quiet
  have keeps (l : Line) (origin : r.origin = .line l) (announced_ : r.state ≠ .claiming)
      (stays : ¬ (r.state = .onAir ∧ none_)) : kept :=
    reports (.inr ⟨r, before, after, at_, ⟨rfl, ⟨l, origin⟩, announced_⟩, .inl ⟨stays, rfl⟩⟩) ready.2
  refine ⟨fun l origin reporting => ?_, fun l origin air some_ => ?_, fun l c origin air dead channel connected => ?_,
    fun elsewhere => ?_⟩
  · exact keeps l origin (by simp [reporting]) (by simp [reporting])
  · exact keeps l origin (by simp [air]) fun both => some_ both.2
  · let reported := { r with reports := list }
    let listed := withPages (before ++ reported :: after) (hearing src s)
    have at_' : PageAt reported before after listed := ⟨rfl, at_.2⟩
    have ends : LinePageEnds .noZone reported listed (withOutputs [.acknowledge true, .tone l .lost]
        (withSent [.disconnectPage l c] (withQueued [.pageEnd ⟨own s, r.seq⟩ r.cls .noZone]
          (pageEnded l .lost (withPages (before ++ after) heard))))) := by
      refine ⟨l, before, after, origin, at_', .inr ⟨link, room⟩, shelf, fun _ => ⟨c, channel⟩,
        .inl ⟨by simp [reported, air], ?_⟩⟩
      rw [noticed_running _ _ (by exact link)]
      simp only [reported, connected, channel, if_true]
      rfl
    exact reports (.inr ⟨r, before, after, at_, ⟨rfl, ⟨l, origin⟩, by simp [air]⟩, .inr ⟨air, dead, ends⟩⟩) ready.2
  · refine reports (.inl ⟨fun x here takes => ?_, rfl⟩) ready.2
    obtain ⟨same, ⟨l, origin⟩, -⟩ := takes
    have is : x = r := pageAt_unique at_ here (congrArg PageId.seq same).symm
    exact elsewhere l (is ▸ origin)

/-- Settles O42. -/
theorem reportsAndTimersDecideThePage : Obligations.ReportsAndTimersDecideThePage :=
  ⟨pageTimersDecideThePage, zoneReportsAreKeptAndJudged⟩

end Sys2Proof.Machine
end

section
/-! SUPPORT. O43: pages that meet on a channel, and the page that chooses again (R108 to R111). -/

namespace Sys2Proof.Machine

theorem prevails_iff {other : ChannelHold} {r : PageRec} {cab : Cabinet} : prevails other r cab = true ↔
    classRank r.cls < classRank other.cls ∨ (other.cls = r.cls ∧ other.page.cab < cab) := by
  simp [prevails]

theorem channelRecord_congr {s u : State} (pgo : u.pgo.pages = s.pgo.pages) (c : Channel) :
    channelRecord u c = channelRecord s c := by
  rw [channelRecord, channelRecord, pgo]

theorem channelRecord_channel {s : State} {c : Channel} {r : PageRec} (found : channelRecord s c = some r) :
    r.channel = some c := by
  simpa using List.find?_some found

/-- The end of a line's page, with CONNECT-PAGE not sent, at the line and the shelf (R117). -/
theorem endAtLine_unconnected {l : Line} {r : PageRec} (t : Tone) (s : State) (origin : r.origin = .line l)
    (unconnected : r.connectSent = false) :
    endAtLine r (some t) s = withOutputs (s.outputs ++ [.tone l t]) (pageEnded l t s) := by
  simp [endAtLine, origin, unconnected, linePageEnded_eq]

/-- A STATUS goes out where none is queued (R7, R21). -/
theorem queueStatus_room {s : State} (link : s.clc.link = .running) (room : s.clc.queue.length < txCapacity)
    (none_ : ∀ x ∈ s.clc.queue, isStatus x.notice = false) :
    queueStatus .running s = withQueued [.status .running (assembleStatus s)] s := by
  refine queueNotice_room _ _ (.inl link) ?_ room
  have unqueued : s.clc.queue.any (fun e => isStatus e.notice) = false := by simpa [List.any_eq_false] using none_
  rw [sameHousekeepingQueued, unqueued]
  rfl

section
variable {i : Instr} {src : Cabinet} {c : Channel} {h : ChannelHold} {s u : State}

/-- What a command that names one channel leaves: the PGO's part of the state before it, with the link. -/
structure NamingLeaves (s u : State) : Prop where
  pgo : u.pgo = s.pgo
  zc : u.zc = s.zc
  quiet : u.deliveries = s.deliveries
  queue : u.clc.queue = s.clc.queue
  link : u.clc.link = s.clc.link
  here : own u = own s
  spu : u.spu = s.spu
  ofm : u.ofm = s.ofm

theorem namesChannel_leaves (names : NamesChannel i src c h s u) : NamingLeaves s u := by
  obtain ⟨-, pgo, zc, quiet, queue, link, here, spu, ofm, -⟩ := namesChannel_frame names
  exact ⟨pgo, zc, quiet, queue, link, here, spu, ofm⟩

/-- A STATUS says the same of the part where its pages, calls and address are the same. -/
theorem assembleStatus_congr {s u : State} (pgo : u.pgo = s.pgo) (ofm : u.ofm = s.ofm) (here : own u = own s) :
    assembleStatus u = assembleStatus s := by
  simp only [assembleStatus, inputPage, ownChannels, channelRecord, pageIdOf, pgo, ofm, here]

/-- The state in which the channel has been entered. -/
theorem view_entered (leaves : NamingLeaves s u) (c : Channel) (h : ChannelHold) :
    (withOutputs [.acknowledge true] (withView c (some h) u)).pgo.view = s.pgo.view.set c (some h) := by
  show u.pgo.view.set c (some h) = _
  rw [leaves.pgo]

end

theorem announcedPageMeetsAnother : Clause.PagesThatMeetOnAChannel := by
  intro i src c h s u ⟨ready, link, room⟩ shelf names entered
  have leaves := namesChannel_leaves names
  let seen := withOutputs [.acknowledge true] u
  have pages : u.pgo.pages = s.pgo.pages := congrArg Pgo.pages leaves.pgo
  have same : ∀ d, channelRecord seen d = channelRecord s d := channelRecord_congr (u := seen) pages
  have linkU : u.clc.link = .running := leaves.link.trans link
  have roomU : u.clc.queue.length < txCapacity := by rw [leaves.queue]; exact room
  have quietU : u.deliveries = [] := leaves.quiet.trans ready.2
  have entries : ∀ m x, (s.pgo.view.set c (some h)).get m = some x → x.page.cab = src →
      (m = c ∧ x = h) ∨ (m ≠ c ∧ s.pgo.view.get m = some x) :=
    view_set_entries (s := s) (v := withView c (some h) s) rfl
  refine ⟨fun none_ => ?_, fun r before after l at_ found origin state => ?_⟩
  · refine namesChannel_exec names link ready.1 entered ?_ leaves.zc rfl quietU (view_entered leaves c h ▸ entries)
    unfold channelSeen
    rw [same, none_]
    rfl
  · have announced_ : r.state ≠ .claiming := by rcases state with st | st <;> simp [st]
    have at_' : PageAt r before after seen := by
      rw [PageAt, show seen.pgo = s.pgo from leaves.pgo]
      exact at_
    intro meets
    refine ⟨fun weaker mine unqueued => ?_, fun stronger => ?_⟩
    · refine namesChannel_exec names link ready.1 _ ?_ leaves.zc rfl quietU fun m x is from_ => ?_
      · have unqueuedU : ∀ x ∈ u.clc.queue, isStatus x.notice = false := by
          rw [leaves.queue]
          exact unqueued
        have yields : ¬ prevails h r (own seen) = true := by
          rw [prevails_iff, show own seen = own s from leaves.here]
          exact weaker
        unfold channelSeen
        rw [same, found]
        refine (if_neg announced_).trans ((if_neg yields).trans ?_)
        rw [queueStatus_room (s := seen) linkU roomU unqueuedU,
          assembleStatus_congr (s := s) (u := seen) leaves.pgo leaves.ofm leaves.here]
        rfl
      · have is : s.pgo.view.get m = some x := by
          rw [← leaves.pgo]
          exact is
        refine .inr ⟨fun on => ?_, is⟩
        exact names.1.1 (from_ ▸ mine x (on ▸ is))
    · refine namesChannel_exec names link ready.1 _ ?_ leaves.zc rfl quietU (view_entered leaves c h ▸ entries)
      have wins : prevails h r (own seen) = true := by
        rw [prevails_iff, show own seen = own s from leaves.here]
        exact stronger
      unfold channelSeen
      rw [same, found]
      refine (if_neg announced_).trans ((if_pos wins).trans ?_)
      have shelfU : u.spu.output.length < outputCapacity := by
        rw [leaves.spu]
        exact shelf
      rw [endPage_line at_' .channelLost .lost l c linkU roomU shelfU announced_ origin
        fun _ => channelRecord_channel found, show own seen = own s from leaves.here]
      rfl

theorem claimingPageChoosesAgain : Clause.ClaimingPageChoosesAgain := by
  intro i src c h r before after l s u ⟨ready, link, room⟩ shelf names at_ found origin claiming_ unconnected other id waiting
    entered holds full lowestRoutine taken again
  have leaves := namesChannel_leaves names
  let seen := withOutputs [.acknowledge true] u
  have pages : u.pgo.pages = s.pgo.pages := congrArg Pgo.pages leaves.pgo
  have here : own entered = own s := leaves.here
  have queue : entered.clc.queue = s.clc.queue := leaves.queue
  have linkE : entered.clc.link = .running := leaves.link.trans link
  have at_' {v : PageRec} {front back : List PageRec} (is : PageAt v front back s) : PageAt v front back entered := by
    rw [PageAt, show entered.pgo.pages = s.pgo.pages from pages]
    exact is
  have waiting' : ∀ e ∈ entered.clc.queue, isStartOf ⟨own s, r.seq⟩ e.notice = true → e.inAttempt = false := by
    rw [queue]
    exact waiting
  have repicks : channelSeen c h seen = repick r entered := by
    exact channelSeen_claiming ((channelRecord_congr (u := seen) pages c).trans found) claiming_
  have entries : ∀ m x, entered.pgo.view.get m = some x → x.page.cab = src →
      (m = c ∧ x = h) ∨ (m ≠ c ∧ s.pgo.view.get m = some x) := view_set_entries (view_entered leaves c h)
  have takes {d : Channel} {seize : Bool} {pages : List PageRec} {t : State} (zc : t.zc = u.zc)
      (peers : t.clc.peers = u.clc.peers) (quiet : t.deliveries = u.deliveries) (view : t.pgo.view = entered.pgo.view)
      (key : repick r entered = taken d seize pages t) : exec i s = .next (taken d seize pages t) := by
    refine namesChannel_exec names link ready.1 _ (repicks.trans key) (zc.trans leaves.zc) peers
      ((quiet.trans leaves.quiet).trans ready.2) fun m x is from_ => ?_
    have is : (t.pgo.view.set d (some ⟨id, r.cls⟩)).get m = some x := is
    rw [view] at is
    by_cases at_d : m = d
    · subst at_d
      rw [Table.get_set_self] at is
      obtain rfl := Option.some.inj is
      exact absurd from_.symm names.1.1
    · rw [Table.get_set_ne _ _ at_d] at is
      exact entries m x is from_
  have seizes {d : Channel} {x : ChannelHold} (all : full) (alarm : r.cls = .alarm) (lowest : lowestRoutine d x) :
      chooseChannel entered.pgo.view r.cls = some (d, true) := by
    obtain ⟨is, routine, lower⟩ := lowest
    exact chooseChannel_seize (fun e => Option.isSome_iff_ne_none.2 (all e)) alarm is routine lower
  refine ⟨fun d free lower => ?_, fun d x all alarm lowest foreign => ?_, fun d x all alarm lowest v front back m k stands page
    apart line announced_ channel => ?_, fun all none_ => ?_⟩
  · refine takes rfl rfl rfl rfl ?_
    exact repick_at here origin (chooseChannel_free free fun m below => Option.isSome_iff_ne_none.2 (lower m below)) rfl
      (at_' at_) here waiting'
  · refine takes rfl rfl rfl rfl ?_
    have kept : endSeized d entered = entered := by
      have is : entered.pgo.view.get d = some x := lowest.1
      unfold endSeized
      rw [is]
      exact if_neg (here.symm ▸ foreign)
    exact repick_at here origin (seizes all alarm lowest) kept (at_' at_) here waiting'
  · refine takes (by simp [pageEnded, entered, withView]) (by simp [pageEnded, entered, withView])
      (by simp [pageEnded, entered, withView]) (by simp [pageEnded, entered, withView]) ?_
    have ended : endSeized d entered = withOutputs [.acknowledge true, .tone m .lost]
        (withSent (if v.connectSent then [.disconnectPage m k] else [])
          (withQueued [.pageEnd ⟨own s, v.seq⟩ v.cls .channelLost]
            (pageEnded m .lost (withPages (front ++ back) entered)))) := by
      have roomE : u.clc.queue.length < txCapacity := by
        rw [leaves.queue]
        exact room
      have shelfE : u.spu.output.length < outputCapacity := by
        rw [leaves.spu]
        exact shelf
      have ends := endPage_line (at_' stands) .channelLost .lost m k linkE roomE shelfE announced_ line fun _ => channel
      have is : entered.pgo.view.get d = some x := lowest.1
      unfold endSeized
      rw [is]
      dsimp only
      rw [page, if_pos here.symm, endPageSeq, findPage_at (at_' stands)]
      refine ends.trans ?_
      rw [here]
      rfl
    have among {y : PageRec} (in_ : y ∈ front ++ back) : y ∈ s.pgo.pages := by
      rw [stands.1]
      exact mem_around v in_
    have stays : r ∈ front ++ back := by
      have all : r ∈ front ++ v :: back := stands.1 ▸ at_.1 ▸ by simp
      have not_v : r ≠ v := fun is => apart (congrArg PageRec.seq is).symm
      simpa [not_v] using all
    have attempts_ : ∀ e ∈ (endSeized d entered).clc.queue, isStartOf ⟨own s, r.seq⟩ e.notice = true → e.inAttempt = false := by
      intro e in_ starts
      rw [ended] at in_
      simp only [withOutputs, withSent, withQueued, pageEnded, withLine, withPages, List.mem_append, List.map_cons,
        List.map_nil, List.mem_singleton] at in_
      rcases in_ with old | rfl
      · exact waiting' e old starts
      · cases starts
    rw [ended] at attempts_
    refine (repick_map here origin (seizes all alarm lowest) ended rfl stays (fun y in_ => pageAt_unique at_ (among in_)) here
      attempts_).trans ?_
    rfl
  · refine namesChannel_exec names link ready.1 _ (repicks.trans ?_) leaves.zc rfl (leaves.quiet.trans ready.2) entries
    have stands : PageAt r before after (withdraw (isStartOf id) entered) := at_' at_
    unfold repick
    rw [chooseChannel_none (fun e => Option.isSome_iff_ne_none.2 (all e)) none_]
    dsimp only
    rw [pageIdOf, here, freePage_at stands, endAtLine_unconnected _ _ origin unconnected]
    rfl

/-- Settles O43. -/
theorem pagesThatMeetOnAChannel : Obligations.PagesThatMeetOnAChannel :=
  ⟨announcedPageMeetsAnother, claimingPageChoosesAgain⟩

end Sys2Proof.Machine
end

section
/-! SUPPORT. O44: PAGE-END and ALL-STOP at pages, views, orbits and zones, and the resume choice (R108, R122, R135,
R138, R141). -/

namespace Sys2Proof.Machine

theorem onLink_of {s : State} (link : s.clc.link = .running) : cutOff s = false := by simp [cutOff, link]

/-- What a PAGE-END from a known peer makes of the channel view (R108). -/
def unviewed (src : Cabinet) (p : PageId) (s : State) : State :=
  withOutputs [.acknowledge true] { heardFrom src s with
    pgo := { s.pgo with view := s.pgo.view.map fun h => h.filter fun x => !decide (x.page = p) } }

/-- A PAGE-END that the part reads: the view, the zones, then the orbits. -/
theorem heardPageEnd_read {page : RawId} {p : PageId} (id : codePage page = some p) (src : Cabinet) (s : State) :
    heardPageEnd page (hearing src s) = clearCodePage p (zonePageEnd p (unviewed src p s)) := by
  rw [heardPageEnd, id]
  exact congrArg (fun u => clearCodePage p (zonePageEnd p u)) (freeView_filter _ (hearing src s))

theorem pageEndAndAllStopAreTaken : Clause.PageEndAndAllStopAreTaken := by
  intro src page reason cab s ⟨ready, link, room⟩ shelf known
  refine ⟨fun p id unplaced unset => ?_, fun r before after l c unplaced at_ routine others origin channel announced_ => ?_⟩
  · refine exec_heardKnown (f := heardPageEnd page) rfl ready link known ?_ (by exact ready.2)
    have still : zonePageEnd p (unviewed src p s) = unviewed src p s := forEach_same _ _ _ fun z _ => by
      rw [removePages_none z _ _ (unviewed src p s) (unplaced z).1 (unplaced z).2.1 (unplaced z).2.2]
      exact removeEvac_none z _ (unviewed src p s) fun x here => decide_eq_false fun is => unset z (is ▸ here)
    rw [heardPageEnd_read id, still, clearCodePage_eq]
    rfl
  · let sent := if r.connectSent then [OutRecord.disconnectPage l c] else []
    let stopped := withOutputs [.acknowledge true, .tone l .lost] (withSent sent
      (withQueued [.pageEnd ⟨own s, r.seq⟩ .routine .allStop]
        (pageEnded l .lost (withPages (before ++ after) (heardFrom src s)))))
    have ends : LinePageEnds .allStop r (hearing src s) stopped := by
      refine ⟨l, before, after, origin, at_, .inr ⟨link, room⟩, shelf, fun _ => ⟨c, channel⟩, .inl ⟨announced_, ?_⟩⟩
      rw [noticed_running _ _ (by exact link), channel, routine]
      rfl
    have alone : s.pgo.pages.filter (fun r => decide (r.cls = .routine)) = [r] := by
      have none_ : ∀ pages : List PageRec, (∀ x ∈ pages, x ∈ before ++ after) →
          pages.filter (fun r => decide (r.cls = .routine)) = [] := fun pages among =>
        List.filter_eq_nil_iff.2 fun x here => by simpa using others x (among x here)
      rw [at_.1, List.filter_append, List.filter_cons_of_pos (by simp [routine]),
        none_ before fun x here => List.mem_append_left _ here, none_ after fun x here => List.mem_append_right _ here]
      rfl
    have pages : pgoAllStop (hearing src s) = stopped := by
      refine pgoAllStop_of ?_
      rw [show (hearing src s).pgo.pages = s.pgo.pages from rfl, alone]
      exact ⟨stopped, ends, rfl⟩
    refine exec_heardKnown (f := takeAllStop) rfl ready link known ?_ (by exact ready.2)
    rw [takeAllStop, pages]
    exact removeAll_none _ none (ppuAllStop stopped) unplaced

/-! ### The zone that plays the page (R135, R138) -/

theorem withoutPages_unpicked {gone : PageEntry → Bool} {r : ZoneRec} (held : ∀ h, r.held = some h → gone h.entry = false)
    (pending : ∀ x ∈ r.pending, gone x = false) : withoutPages gone r = r := by
  have keptHeld : (r.held.filter fun h => !gone h.entry) = r.held := by
    cases is : r.held with
    | none => rfl
    | some h => simp [Option.filter, held h is]
  have keptPending : (r.pending.filter fun x => !gone x) = r.pending :=
    List.filter_eq_self.2 fun x here => by simp [pending x here]
  rw [withoutPages, keptHeld, keptPending]

/-- The active page of a zone is removed without report, and nothing else of it is (R135, R138). -/
theorem removePages_active {gone : PageEntry → Bool} {z : LocalZone} {s : State}
    (picked : (pickActive gone (zoneOf s z)).isSome = true)
    (held : ∀ h, (zoneOf s z).held = some h → gone h.entry = false) (pending : ∀ x ∈ (zoneOf s z).pending, gone x = false) :
    removePages z gone none s = leaveActive z s := by
  have unheld : pickHeld gone (zoneOf s z) = none := by
    cases is : (zoneOf s z).held with
    | none => simp [pickHeld, is]
    | some h => simp [pickHeld, is, held h is]
  have kept : (zoneOf s z).pending.filter (fun x => !gone x) = (zoneOf s z).pending :=
    List.filter_eq_self.2 fun x here => by simp [pending x here]
  unfold removePages
  simp only [onZone_eq, unheld, kept, picked, Option.isSome_none, Bool.false_eq_true, if_false, if_true]
  rw [withZone_same z _ s rfl]

theorem lastLeaves_evac (z : LocalZone) (s : State) : (zoneOf (lastLeaves z s) z).evac = (zoneOf s z).evac := by
  simp [lastLeaves, levelSet, zoneEnters]

theorem pageEndStopsThePlayingZone : Clause.PageEndStopsThePlayingZone := by
  intro src page reason e n z s ⟨ready, link, _⟩ known id active held pending evac others orbits
  have same : zoneOf (unviewed src e.page s) z = zoneOf s z := rfl
  have gone : removePages z (fun x => decide (x.page = e.page)) none (unviewed src e.page s)
      = lastLeaves z (unviewed src e.page s) := by
    refine (removePages_active ?_ ?_ ?_).trans (leaveActive_last held pending)
    · simp [pickActive, same, active]
    · simp [same, held]
    · simp [same, pending]
  refine pageEnd_oneZone ready.1 link known id others orbits (unviewed src e.page s) rfl gone ?_ ?_ ?_ ?_
  · exact (lastLeaves_evac z _).trans evac
  · exact fun y other => (lastLeaves_others _ other).trans rfl
  · simp only [lastLeaves, levelSet, zoneEnters, patternStops]
    split <;> rfl
  · exact (lastLeaves_deliveries z _).trans ready.2

theorem resumeChoiceFollowsTheClass : Clause.ResumeChoiceFollowsTheClass := by
  intro src page reason e n z notes s ⟨ready, link, room⟩ running known notes_ id active plays evac unheld unpending others
    orbits r seen becomes
  have whole : withoutPages (fun x => decide (x.page = e.page)) r = r :=
    withoutPages_unpicked (fun h is => decide_eq_false (unheld h is)) fun x here => decide_eq_false (unpending x here)
  have resumes {t : State} (choice : Resumes z r seen t) : becomes t := by
    have freed : ZoneFreed (fun x => decide (x.page = e.page)) z seen t :=
      .inr ⟨e, n, active, decide_eq_true rfl, whole.symm ▸ choice⟩
    obtain ⟨evac', others', ppu, quiet, -⟩ := resumes_frame choice
    have onLink : cutOff seen = false := onLink_of (s := seen) link
    exact pageEnd_oneZone ready.1 link known id others orbits seen rfl (removePages_of freed) (evac'.trans evac)
      (fun y other => others' y other) ppu ((quiet onLink).trans ready.2)
  have room' : Room 1 seen := .inr ⟨link, room⟩
  refine ⟨fun h held first_ => ⟨fun c alarm live_ source awake => ?_, fun restarts => ?_⟩, fun x rest pending higher => ?_⟩
  · exact resumes ⟨plays, evac, .inr (.inr ⟨h, held, first_, .inr ⟨c, awake, alarm, live_, source, room', running, rfl⟩⟩)⟩
  · have restarts' : r.state = .waking ∨ h.entry.cls ≠ .alarm ∨
        (h.phase ≠ .live ∧ (h.phase = .tone → h.entry.source = .tone)) := by
      by_cases alarm : h.entry.cls = .alarm
      · exact .inr (.inr (restarts alarm))
      · exact .inr (.inl alarm)
    exact resumes ⟨plays, evac, .inr (.inr ⟨h, held, first_, .inl ⟨restarts', notes, room', running, notes_, rfl⟩⟩)⟩
  · exact resumes ⟨plays, evac, .inr (.inl ⟨x, rest, pending, higher, notes, room', running, notes_, rfl⟩)⟩

/-! ### Every zone (R138, R141) -/

theorem allStopClearsTheZones : Clause.AllStopClearsTheZones := by
  intro src cab s t ready link known others freed
  have pages : pgoAllStop (hearing src s) = hearing src s := by
    have none_ : (hearing src s).pgo.pages.filter (fun r => decide (r.cls = .routine)) = [] :=
      List.filter_eq_nil_iff.2 fun x here => by simpa using others x here
    rw [pgoAllStop, none_]
    rfl
  refine exec_heardKnown (f := takeAllStop) rfl ready link known ?_
    ((zonesFreed_quiet freed (onLink_of (by exact link))).trans ready.2)
  rw [takeAllStop, pages]
  exact zonesFreed_of freed

theorem pageEndFreesEveryZone : Clause.PageEndFreesEveryZone := by
  intro src page reason p s t ready link known id unset freed
  refine exec_heardKnown (f := heardPageEnd page) rfl ready link known ?_
    ((zonesFreed_quiet freed (onLink_of (by exact link))).trans ready.2)
  rw [heardPageEnd_read id, zonePageEnd_of (pageLeaves_unset (s := unviewed src p s) unset freed), clearCodePage_eq]

/-- Settles O44. -/
theorem pageEndsReachPagesAndZones : Obligations.PageEndsReachPagesAndZones :=
  ⟨pageEndAndAllStopAreTaken, pageEndStopsThePlayingZone, resumeChoiceFollowsTheClass, allStopClearsTheZones,
    pageEndFreesEveryZone⟩

end Sys2Proof.Machine
end

section
/-! SUPPORT. O45: a PAGE-START at a zone (R127 to R135). -/

namespace Sys2Proof.Machine

/-! ### The state that a PAGE-START meets the zones in (R108, R128) -/

section
variable (src : Cabinet) (e : PageEntry) (s : State)

@[simp] theorem zoneOf_startSeen (y : LocalZone) : zoneOf (startSeen src e s) y = zoneOf s y := by
  unfold startSeen; split <;> rfl
@[simp] theorem levelOf_startSeen (y : LocalZone) : levelOf (startSeen src e s) y = levelOf s y := by
  unfold startSeen; split <;> rfl
@[simp] theorem seqOf_startSeen (y : LocalZone) : seqOf (startSeen src e s) y = seqOf s y := by
  unfold startSeen; split <;> rfl
@[simp] theorem numberOf_startSeen (y : LocalZone) : numberOf (startSeen src e s) y = numberOf s y := by
  unfold startSeen; split <;> rfl
@[simp] theorem startSeen_phase : (startSeen src e s).phase = s.phase := by unfold startSeen; split <;> rfl
@[simp] theorem startSeen_ts : (startSeen src e s).ts = s.ts := by unfold startSeen; split <;> rfl
@[simp] theorem startSeen_link : (startSeen src e s).clc.link = s.clc.link := by unfold startSeen; split <;> rfl
@[simp] theorem startSeen_queue : (startSeen src e s).clc.queue = s.clc.queue := by unfold startSeen; split <;> rfl
@[simp] theorem startSeen_deliveries : (startSeen src e s).deliveries = s.deliveries := by unfold startSeen; split <;> rfl

/-- The state that the zones meet the page in, with the frame acknowledged. -/
abbrev startHeard : State := withOutputs [.acknowledge true] (startSeen src e s)

end

section
variable {src : Cabinet} {b : RawPageStart} {e : PageEntry} {t : PageTarget} {z : LocalZone} {override : Bool} {s u : State}

theorem room_startHeard {n : Nat} (link : s.clc.link = .running) (room : s.clc.queue.length + n ≤ txCapacity) :
    Room n (startHeard src e s) := .inr ⟨(startSeen_link ..).trans link, by simpa using room⟩

/-- A PAGE-START for one zone answers what the zone's acceptance makes of it. -/
theorem exec_oneZone (start : OneZoneStart b src e t z override s) (accepts : accept z e override (startHeard src e s) = u)
    (others : ∀ y, y ≠ z → (zoneOf u y).cfg = (zoneOf s y).cfg) (quiet : u.deliveries = s.deliveries) :
    exec (.pageStart src b) s = .next u :=
  exec_of_act (f := hear src true (heardStart b)) rfl start.1.1.1 (heardStart_oneZone start u accepts others)
    (quiet.trans start.1.1.2)

@[simp] theorem zoneOf_zoneReports (y : LocalZone) (p : PageId) (o : ZoneOutcome) :
    zoneOf (zoneReports z p o s) y = zoneOf s y := zoneOf_noticed ..

/-- A zone's report sends to no block of a part on the link. -/
theorem deliveries_zoneReports {p : PageId} {o : ZoneOutcome} (link : s.clc.link = .running) :
    (zoneReports z p o s).deliveries = s.deliveries := noticed_deliveries _ _ (onLink_of link)

end

/-! ### The branches of the acceptance (R130 to R132) -/

section
variable {z : LocalZone} {e : PageEntry} {override : Bool} {s : State}

/-- A quiet zone lets a ROUTINE or CODE page in with the override alone (R130). -/
abbrev Locked (e : PageEntry) (override : Bool) (r : ZoneRec) : Prop :=
  (e.cls = .routine ∨ e.cls = .code) ∧ r.cfg.quiet = true ∧ override = false

theorem not_locked {r : ZoneRec} (lets : r.cfg.quiet = false ∨ override = true ∨ e.cls = .alarm) : ¬ Locked e override r := by
  rintro ⟨cls, quiet, no⟩
  rcases lets with is | is | is
  · rw [is] at quiet
    cases quiet
  · rw [is] at no
    cases no
  · rw [is] at cls
    simp at cls

theorem accept_outOfService (out : (zoneOf s z).state = .outOfService) : accept z e override s = report z e.page .fault s :=
  if_pos out

theorem accept_fault (fault : (zoneOf s z).state = .fault) (cls : e.cls ≠ .evac) :
    accept z e override s = report z e.page .fault s :=
  (if_neg (by simp [fault])).trans ((if_pos fault).trans (if_neg cls))

section
variable (inService : (zoneOf s z).state ≠ .outOfService) (sound : (zoneOf s z).state ≠ .fault)
include inService sound

theorem accept_locked (locked : Locked e override (zoneOf s z)) : accept z e override s = report z e.page .locked s :=
  (if_neg inService).trans ((if_neg sound).trans (if_pos locked))

theorem accept_evac (cls : e.cls = .evac) : accept z e override s = evacAccept z e.page s :=
  (if_neg inService).trans ((if_neg sound).trans ((if_neg (by simp [cls])).trans (if_pos cls)))

variable (unlocked : ¬ Locked e override (zoneOf s z)) (cls : e.cls ≠ .evac)
include unlocked cls

theorem accept_idle (idle : (zoneOf s z).active = none) : accept z e override s = acceptPlaying z e s := by
  refine (if_neg inService).trans ((if_neg sound).trans ((if_neg unlocked).trans ((if_neg cls).trans ?_)))
  rw [idle]
  rfl

theorem accept_against {x : PageClass} (active : activeClass (zoneOf s z).active = some x) :
    accept z e override s = acceptAgainst z e x s := by
  refine (if_neg inService).trans ((if_neg sound).trans ((if_neg unlocked).trans ((if_neg cls).trans ?_)))
  rw [active]

end

/-- A page that fits in the pending list waits in its order (R127, R132). -/
theorem arriveToPending_fits {l : List PageEntry} (placed : Placed false e (zoneOf s z).pending l) (fits : l.length ≤ 4)
    (running : s.phase = .running) (room : Room 1 s) :
    arriveToPending z e s = zoneReports z e.page .pending (withZone z { zoneOf s z with pending := l } s) := by
  simp only [arriveToPending, insertPending_fits placed fits, onZone_eq]
  exact report_room _ _ _ _ (by exact running) (by exact room.of_clc rfl)

end

theorem pageStartWakesAReleasedZone : Clause.PageStartWakesAReleasedZone := by
  intro src b e t z override notes s start cls notes_ r level taken seen released idle evac lets
  obtain ⟨⟨ready, link, room⟩, running, -⟩ := id start
  have same : zoneOf seen z = r := zoneOf_startSeen ..
  have plays : accept z e override seen = pagePlays z { r with active := some (.page e 0) } e notes seen := by
    rw [accept_idle (by rw [same, released]; simp) (by rw [same, released]; simp) (by rw [same]; exact not_locked lets) cls
      (by rw [same]; exact idle), acceptPlaying,
      activate_plays z e 0 notes seen ((startSeen_phase ..).trans running) (room_startHeard link room)
        (by rw [show seen.ts = s.ts from startSeen_ts ..]; exact notes_) (by rw [same, released]; simp)
        (by rw [same]; exact evac), same]
  have linkSeen : seen.clc.link = .running := (startSeen_link ..).trans link
  have answers {u : State} (is : pagePlays z { r with active := some (.page e 0) } e notes seen = u) :
      exec (.pageStart src b) s = .next u := by
    refine exec_oneZone start (plays.trans is) (fun y other => ?_) ?_
    · rw [← is, pagePlays_others _ _ _ _ _ _ other]
      exact congrArg ZoneRec.cfg (zoneOf_startSeen src e s y)
    · rw [← is, pagePlays_deliveries _ _ _ _ _ (onLink_of linkSeen)]
      exact startSeen_deliveries ..
  have levels : levelOf seen z = levelOf s z := levelOf_startSeen ..
  have sequencers : seqOf seen z = seqOf s z := seqOf_startSeen ..
  refine ⟨fun wakes => answers ?_, fun atOnce => answers ?_⟩
  · rw [pagePlays, if_pos ⟨released, wakes⟩, levels]
  · rw [pagePlays, if_neg (by simp [atOnce]), pageBegins, if_neg (by simp [released]), levels, sequencers]

theorem pageStartIsTurnedAwayOrWaits : Clause.PageStartIsTurnedAwayOrWaits := by
  intro src b e t z override s start cls r seen away
  obtain ⟨⟨ready, link, room⟩, running, -⟩ := id start
  have same : zoneOf seen z = r := zoneOf_startSeen ..
  have linkSeen : seen.clc.link = .running := (startSeen_link ..).trans link
  have runs : seen.phase = .running := (startSeen_phase ..).trans running
  have room' : Room 1 seen := room_startHeard link room
  have answers {o : ZoneOutcome} (is : accept z e override seen = report z e.page o seen) : away o := by
    refine exec_oneZone start (is.trans (report_room _ _ _ _ runs room')) (fun y other => ?_) ?_
    · simp [zoneReports, seen]
    · rw [deliveries_zoneReports linkSeen]
      exact startSeen_deliveries ..
  refine ⟨fun st => answers ?_, fun inService sound routine quiet no => answers ?_,
    fun x n inService sound lets active weaker => ⟨fun routine => answers ?_, fun waits empty => ?_⟩⟩
  · rcases st with out | fault
    · exact accept_outOfService (same.symm ▸ out)
    · exact accept_fault (same.symm ▸ fault) cls
  · exact accept_locked (same.symm ▸ inService) (same.symm ▸ sound) (same.symm ▸ ⟨routine, quiet, no⟩)
  · rw [accept_against (x := x.cls) (same.symm ▸ inService) (same.symm ▸ sound) (same.symm ▸ not_locked lets) cls
      (by rw [same, show r.active = _ from active]; rfl), acceptAgainst, if_neg (Nat.not_lt.2 weaker), if_pos routine]
  · have placed : Placed false e (zoneOf seen z).pending [e] := ⟨[], [], by simp [same, empty], rfl, by simp, by simp⟩
    refine exec_oneZone start ?_ (fun y other => ?_) ?_
    · rw [accept_against (x := x.cls) (same.symm ▸ inService) (same.symm ▸ sound) (same.symm ▸ not_locked lets) cls
        (by rw [same, show r.active = _ from active]; rfl), acceptAgainst, if_neg (Nat.not_lt.2 weaker), if_neg waits,
        arriveToPending_fits placed (by simp) runs room', same]
    · simp [zoneReports, seen, zoneOf_withZone_ne _ _ other]
    · rw [deliveries_zoneReports (by exact linkSeen)]
      exact startSeen_deliveries ..

theorem pagesWaitInTheirOrder : Clause.PagesWaitInTheirOrder := by
  intro src b e t z override l s start ⟨_, link, room⟩ r seen waits becomes sound inService lets cls against placed
  have running := start.2.1
  have same : zoneOf seen z = r := zoneOf_startSeen ..
  have runs : seen.phase = .running := (startSeen_phase ..).trans running
  have linkSeen : seen.clc.link = .running := (startSeen_link ..).trans link
  have unlocked : ¬ Locked e override r := by
    rintro ⟨routine, quiet, no⟩
    have code : e.cls = .code := by
      rcases cls with is | is
      · exact is
      · simp [is] at routine
    rw [lets code quiet] at no
    cases no
  have notEvac : e.cls ≠ .evac := by rcases cls with is | is <;> simp [is]
  have notRoutine : e.cls ≠ .routine := by rcases cls with is | is <;> simp [is]
  have arrives : accept z e override seen = arriveToPending z e seen := by
    have active : ∃ x, activeClass (zoneOf seen z).active = some x ∧ ¬ classRank e.cls > classRank x := by
      rcases against with is | ⟨x, n, is, weaker⟩
      · exact ⟨.evac, by rw [same, is]; rfl, by rcases cls with is | is <;> rw [is] <;> decide⟩
      · exact ⟨x.cls, by rw [same, is]; rfl, Nat.not_lt.2 weaker⟩
    obtain ⟨x, active, weaker⟩ := active
    rw [accept_against (same.symm ▸ inService) (same.symm ▸ sound) (same.symm ▸ unlocked) notEvac active, acceptAgainst,
      if_neg weaker, if_neg notRoutine]
  have placed' : Placed false e (zoneOf seen z).pending l := same.symm ▸ placed
  have kept : withZone z { zoneOf seen z with pending := l.take 4 } seen = waits := by rw [same]
  have answers {u : State} (quiet : u.deliveries = seen.deliveries) (others : ∀ y, y ≠ z → zoneOf u y = zoneOf seen y)
      (is : (l.length ≤ 4 ∧ u = zoneReports z e.page .pending waits) ∨ ∃ y, l.length = 5 ∧ l.getLast? = some y ∧
        ((y = e ∧ u = zoneReports z e.page .full waits)
          ∨ (y ≠ e ∧ u = zoneReports z e.page .pending (zoneReports z y.page .dropped waits)))) : becomes u := by
    refine exec_oneZone start (arrives.trans (arriveToPending_of placed' runs (room_startHeard link room) ?_))
      (fun y other => ?_) (quiet.trans (startSeen_deliveries ..))
    · rw [kept]
      exact is
    · rw [others y other]
      exact congrArg ZoneRec.cfg (zoneOf_startSeen src e s y)
  have once (o : ZoneOutcome) (p : PageId) : (zoneReports z p o waits).deliveries = seen.deliveries :=
    deliveries_zoneReports (by exact linkSeen)
  have elsewhere (y : LocalZone) (other : y ≠ z) : zoneOf waits y = zoneOf seen y := zoneOf_withZone_ne _ _ other
  refine ⟨fun fits => answers (once ..) (fun y other => ?_) (.inl ⟨fits, rfl⟩),
    fun y full last => ⟨fun itself => ?_, fun others => ?_⟩⟩
  · simpa [zoneReports] using elsewhere y other
  · exact answers (once ..) (fun y other => by simpa [zoneReports] using elsewhere y other)
      (.inr ⟨y, full, last, .inl ⟨itself, rfl⟩⟩)
  · refine answers ?_ (fun y other => by simpa [zoneReports] using elsewhere y other)
      (.inr ⟨y, full, last, .inr ⟨others, rfl⟩⟩)
    rw [deliveries_zoneReports (by simpa [zoneReports, waits] using linkSeen)]
    exact once ..

/-! ### A seizure at a zone (R129, R135) -/

theorem pageBegins_cfg (z : LocalZone) (r : ZoneRec) (e : PageEntry) (notes : Table 8 Nat) (s : State) :
    (zoneOf (pageBegins z r e notes s) z).cfg = r.cfg := by
  unfold pageBegins
  split <;> simp [zoneReports, levelSet, zoneEnters, patternStarts]

/-- A resume choice keeps the zone's configuration. -/
theorem resumes_cfg {z : LocalZone} {r : ZoneRec} {s t : State} (choice : Resumes z r s t) : (zoneOf t z).cfg = r.cfg := by
  obtain ⟨-, -, ⟨-, -, rfl⟩ | ⟨x, rest, -, -, notes, -, -, -, rfl⟩
    | ⟨h, -, -, ⟨-, notes, -, -, -, rfl⟩ | ⟨c, -, -, -, -, -, -, rfl⟩⟩⟩ := choice
  · simp [lastLeaves, levelSet, zoneEnters]
  · exact pageBegins_cfg ..
  · exact pageBegins_cfg ..
  · unfold liveResumes
    split <;> simp [zoneReports, levelSet, zoneEnters, patternStops]

theorem seizureFreesTheZone : Clause.SeizureFreesTheZone := by
  intro src b p c z notes s seizing notes_ r gone others held pending lost room freed seen becomes
  obtain ⟨ready, link, running, -⟩ := id seizing
  let entered := withOutputs [.acknowledge true] (withView c (some p) (heardFrom src s))
  let base := withQueued (lost.map fun e => .zoneReport e.page (numberOf s z) .lost) entered
  have isSeen : seen = withZone z freed base := rfl
  have removes : removePages z gone (some .lost) entered
      = (if (pickActive gone r).isSome then leaveActive z else (fun u => u)) seen := by
    have roomLost : Room lost.length entered := .inr ⟨link, by exact Nat.le_of_succ_le room⟩
    rw [removePages_lost z gone entered running roomLost,
      noticed_running _ _ (by exact link)]
    rfl
  have roomBase : Room 1 base := by
    refine .inr ⟨link, ?_⟩
    simpa [base, entered, withQueued, withOutputs, withView, heardFrom, withPeer] using room
  refine ⟨fun none_ => ?_, fun e n active isGone plays evac => ?_⟩
  · refine seizing_oneZone seizing seen others ?_ (fun y other => ?_) ?_ ready.2
    · rw [removes, none_]
      rfl
    · exact zoneOf_withZone_ne _ base other
    · rw [isSeen, zoneOf_withZone_self]
  · have picked : (pickActive gone r).isSome = true := by
      simp [pickActive, show r.active = _ from active, isGone]
    have resumes {t : State} (choice : Resumes z freed base t) : becomes t := by
      obtain ⟨-, others', -, quiet, -⟩ := resumes_frame choice
      have cfg : (zoneOf t z).cfg = freed.cfg := resumes_cfg choice
      refine seizing_oneZone seizing t others ?_ (fun y other => (others' y other).trans rfl) cfg
        ((quiet (onLink_of (by exact link))).trans ready.2)
      rw [removes, if_pos picked, isSeen]
      exact resumes_of choice
    have begins {r' : ZoneRec} {x : PageEntry} (choice : Resumes z freed base (pageBegins z r' x notes base)) :
        becomes (pageBegins z r' x notes seen) := by
      rw [isSeen, pageBegins_withZone]
      exact resumes choice
    refine ⟨fun unheld unpending => ?_, fun x rest unheld waits => ?_, fun h stands unpending again => ?_⟩
    · exact resumes ⟨plays, evac, .inl ⟨unheld, unpending, rfl⟩⟩
    · refine begins ⟨plays, evac, .inr (.inl ⟨x, rest, waits, ?_, notes, roomBase, running, notes_, rfl⟩)⟩
      intro h stands
      rw [show freed.held = none from unheld] at stands
      cases stands
    · refine begins ⟨plays, evac, .inr (.inr ⟨h, stands, ?_, .inl ⟨?_, notes, roomBase, running, notes_, rfl⟩⟩)⟩
      · intro x first_
        rw [show freed.pending = [] from unpending] at first_
        cases first_
      · by_cases alarm : h.entry.cls = .alarm
        · exact .inr (.inr ⟨(again alarm).1, fun tone => absurd tone (again alarm).2⟩)
        · exact .inr (.inl alarm)

/-- Settles O45. -/
theorem pageStartMeetsAZone : Obligations.PageStartMeetsAZone :=
  ⟨pageStartWakesAReleasedZone, pageStartIsTurnedAwayOrWaits, seizureFreesTheZone, pagesWaitInTheirOrder⟩

end Sys2Proof.Machine
end

section
/-! SUPPORT. O46: a page takes a zone, and the evacuation starts and gathers (R128, R130 to R133, R139, R140). -/

namespace Sys2Proof.Machine

/-- A page takes up a zone, over nothing active or over a page of lower class once that has given way (R130, R131, R133). -/
theorem accept_takes {z : LocalZone} {e : PageEntry} {override : Bool} {notes : Table 8 Nat} {s u : State}
    (inService : (zoneOf s z).state ≠ .outOfService) (sound : (zoneOf s z).state ≠ .fault)
    (unlocked : ¬ Locked e override (zoneOf s z)) (cls : e.cls ≠ .evac) {x : PageEntry} {n : Nat}
    (active : (zoneOf s z).active = some (.page x n)) (higher : classRank x.cls < classRank e.cls)
    (gives : displaceActive z s = u) (running : u.phase = .running) (room : Room 1 u) (notes_ : u.ts.notes = some notes)
    (state : (zoneOf u z).state = (zoneOf s z).state) (evac : (zoneOf u z).evac = []) :
    accept z e override s = pagePlays z { zoneOf u z with active := some (.page e 0) } e notes u := by
  rw [accept_against (x := x.cls) inService sound unlocked cls (by rw [active]; rfl), acceptAgainst, if_pos higher, gives,
    acceptPlaying]
  exact activate_plays z e 0 notes u running room notes_ (by rw [state]; exact ⟨sound, inService⟩) evac

theorem alarmPreemptsALowerPage : Clause.AlarmPreemptsALowerPage := by
  intro src b e t z override notes c x n s start ⟨_, link, room⟩ notes_ alarm source evac active unheld r level seen plays
  have running := start.2.1
  have same : zoneOf seen z = r := zoneOf_startSeen ..
  have runs : seen.phase = .running := (startSeen_phase ..).trans running
  have linkSeen : seen.clc.link = .running := (startSeen_link ..).trans link
  have roomSeen : Room 2 seen := room_startHeard link room
  have begins {o : ZoneOutcome} {r' : ZoneRec} (inService : r.state ≠ .outOfService) (sound : r.state ≠ .fault)
      (awake : r.state ≠ .released ∧ r.state ≠ .waking) (higher : classRank x.cls < classRank e.cls)
      (cfg : r'.cfg = r.cfg) (state : r'.state = r.state) (set : r'.evac = r.evac)
      (gives : displaceActive z seen = withZone z r' (zoneReports z x.page o seen)) :
      plays r' (zoneReports z x.page o seen) := by
    have room' : Room 1 (withZone z r' (zoneReports z x.page o seen)) := (Room.noticed (n := 1) roomSeen).of_clc rfl
    have runs' : (zoneReports z x.page o seen).phase = .running := by simpa [zoneReports] using runs
    have accepts := accept_takes (override := override) (notes := notes) (same.symm ▸ inService) (same.symm ▸ sound)
      (same.symm ▸ not_locked (.inr (.inr alarm))) (by simp [alarm]) (by rw [same]; exact active) higher gives runs' room'
      (by simpa [zoneReports, seen] using notes_) (by rw [zoneOf_withZone_self, state, same])
      (by rw [zoneOf_withZone_self, set]; exact evac)
    rw [zoneOf_withZone_self, pagePlays, if_neg (by simp [state, awake.1]), pageBegins_withZone] at accepts
    have answers := exec_oneZone start accepts (fun y other => ?_) ?_
    · refine answers.trans (congrArg Host.Outcome.next ?_)
      have sounds : firstSound notes e = (.chime, .alarmPrelude, notes.get 2) := by simp [firstSound, alarm, source]
      have levels : levelOf (zoneReports z x.page o seen) z = levelOf s z := by simp [zoneReports, seen]
      have sequencers : seqOf (zoneReports z x.page o seen) z = seqOf s z := by simp [zoneReports, seen]
      have params : r'.cfg.level = r.cfg.level := congrArg ZoneConfig.level cfg
      rw [pageBegins, if_neg (by simp [state, awake.2]), sounds, levels, sequencers, params, alarm]
    · rw [pageBegins_others _ _ _ _ _ _ other]
      simp [zoneReports, seen]
    · rw [pageBegins_deliveries _ _ _ _ _ (by simpa [zoneReports] using onLink_of linkSeen), deliveries_zoneReports linkSeen]
      exact startSeen_deliveries ..
  refine ⟨fun routine live_ => ?_, fun code sounding_ => ?_⟩
  · refine begins (by simp [live_]) (by simp [live_]) (by simp [live_]) (by rw [routine, alarm]; decide) rfl rfl rfl ?_
    simp only [displaceActive, same, show r.active = _ from active, routine, if_true]
    rw [report_room _ _ _ _ runs (roomSeen.le (by omega))]
    exact (withZone_same z r _ (by simp [zoneReports, same])).symm
  · refine begins (by simp [sounding_]) (by simp [sounding_]) (by simp [sounding_]) (by rw [code, alarm]; decide) rfl rfl rfl ?_
    simp only [displaceActive, same, show r.active = _ from active, show r.held = none from unheld, onZone_eq]
    rw [if_neg (by simp [code]), report_room _ _ _ _ (by exact runs) (by exact (roomSeen.le (by omega)).of_clc rfl),
      ← withZone_zoneReports, sounding_]

/-! ### The evacuation (R139) -/

/-- The set with one page more, but for a cabinet's second. -/
theorem joinEvac_eq (p : PageId) (set : List PageId) :
    joinEvac p set = if set.any (fun x => decide (x.cab = p.cab)) then set else set ++ [p] := rfl

/-- An EVAC page joins the set of an evacuating zone (R139). -/
theorem evacAccept_gathers {z : LocalZone} {p : PageId} {s : State} (some_ : (zoneOf s z).evac ≠ []) :
    evacAccept z p s = report z p .playing (withZone z { zoneOf s z with
      evac := if (zoneOf s z).evac.any (fun x => decide (x.cab = p.cab)) then (zoneOf s z).evac
        else (zoneOf s z).evac ++ [p] } s) := if_neg some_

theorem evacuationStartsAndGathers : Clause.EvacuationStartsAndGathers := by
  intro src b e t z override s start evac source r seen
  obtain ⟨⟨ready, link, room⟩, running, -⟩ := id start
  have heard : startHeard src e s = seen := by simp [startHeard, startSeen, source, seen]
  have room' : Room 1 seen := .inr ⟨link, room⟩
  refine ⟨fun released idle empty wakes => ?_, fun inService sound gathered => ?_⟩
  · refine exec_oneZone start ?_ (fun y other => ?_) ?_
    · have waits := activate_waits z .evacuation .tone (withZone z { r with evac := [e.page] } seen)
        (by rw [zoneOf_withZone_self]; exact released) (by rw [zoneOf_withZone_self]; exact Nat.ne_of_gt wakes)
      have floor : ∀ p a, targetOf p a (some .evac) = p.floor := by simp [targetOf]
      have begins : activate z .evacuation .tone (withZone z { r with evac := [e.page] } seen) = levelSet z r.cfg.level.floor
          (zoneEnters z { r with evac := [e.page], active := some .evacuation, state := .waking } true .none seen) := by
        rw [waits, zoneOf_withZone_self, show levelClass _ = some PageClass.evac from rfl, floor]
        simp [zoneEnters]
      have free : (zoneOf seen z).evac = [] := empty
      have set : onZone z (fun r => { r with evac := joinEvac e.page r.evac }) seen
          = withZone z { r with evac := [e.page] } seen := by
        rw [onZone_eq, free]
        rfl
      rw [heard, accept_evac (by exact released ▸ nofun) (by exact released ▸ nofun) evac, evacAccept, if_pos free]
      dsimp only
      rw [displaceActive_none z seen idle, set, begins]
      exact report_room _ _ _ _ (by exact running) (by exact room'.of_clc rfl)
    · rw [zoneOf_zoneReports]
      exact congrArg ZoneRec.cfg (zoneOf_withZone_ne _ seen other)
    · exact deliveries_zoneReports (by exact link)
  · refine exec_oneZone start ?_ (fun y other => ?_) ?_
    · rw [heard, accept_evac (by exact inService) (by exact sound) evac, evacAccept_gathers (by exact gathered)]
      exact report_room _ _ _ _ (by exact running) (by exact room'.of_clc rfl)
    · rw [zoneOf_zoneReports]
      exact congrArg ZoneRec.cfg (zoneOf_withZone_ne _ seen other)
    · exact deliveries_zoneReports (by exact link)

theorem pagesTakeAZone : Clause.PagesTakeAZone := by
  intro src b e t z override notes s u start ⟨_, link, room⟩ notes_ r seen sound inService empty lets gives
  have running := start.2.1
  have same : zoneOf seen z = r := zoneOf_startSeen ..
  have linkSeen : seen.clc.link = .running := (startSeen_link ..).trans link
  have unlocked : ¬ Locked e override r := fun ⟨cls, quiet, no⟩ => by
    rw [lets cls quiet] at no
    cases no
  have kept : (cutOff seen = false → u.deliveries = seen.deliveries) ∧ u.clc.link = seen.clc.link
      ∧ ∀ y, y ≠ z → zoneOf u y = zoneOf seen y := by
    rcases gives with ⟨-, rfl⟩ | ⟨-, displaced⟩
    · exact ⟨fun _ => rfl, rfl, fun _ _ => rfl⟩
    · obtain ⟨-, -, -, -, link', -, -, -, quiet, -, others⟩ := displaced_frame displaced
      exact ⟨quiet, link', others⟩
  obtain ⟨quiet, linkU, others⟩ := kept
  have linkU : u.clc.link = .running := linkU.trans linkSeen
  have quiet : u.deliveries = s.deliveries := (quiet (onLink_of linkSeen)).trans (startSeen_deliveries ..)
  have gives' : ((zoneOf seen z).active = none ∧ u = seen)
      ∨ ((∃ x n, (zoneOf seen z).active = some (.page x n) ∧ classRank x.cls < classRank e.cls) ∧ Displaced z seen u) := by
    rw [same]
    exact gives
  have ok : (zoneOf seen z).state ≠ .fault ∧ (zoneOf seen z).state ≠ .outOfService ∧ ¬ Locked e override (zoneOf seen z) := by
    rw [same]
    exact ⟨sound, inService, unlocked⟩
  refine exec_oneZone start (accept_of ⟨room_startHeard link room, (startSeen_phase ..).trans running,
    .inr (.inr (.inr (.inr (.inl ⟨ok, same.symm ▸ empty, notes, u, (startSeen_ts src e s).symm ▸ notes_, gives', rfl⟩))))⟩)
    (fun y other => ?_) ?_
  · have back : zoneOf u y = zoneOf s y := (others y other).trans (zoneOf_startSeen ..)
    split
    · rw [zoneOf_zoneReports, evacuationStarts_others _ _ _ _ _ other, back]
    · rw [pagePlays_others _ _ _ _ _ _ other, back]
  · split
    · rw [deliveries_zoneReports (by rw [(evacuationStarts_clc ..).2]; exact linkU), evacuationStarts_deliveries, quiet]
    · rw [pagePlays_deliveries _ _ _ _ _ (onLink_of linkU), quiet]

theorem evacuationJoinsInFault : Clause.EvacuationJoinsInFault := by
  intro src b e t z override s start evac r seen fault
  obtain ⟨⟨ready, link, room⟩, running, -⟩ := id start
  have same : zoneOf seen z = r := zoneOf_startSeen ..
  have linkSeen : seen.clc.link = .running := (startSeen_link ..).trans link
  have quietSeen : seen.deliveries = s.deliveries := startSeen_deliveries ..
  have number : numberOf seen z = numberOf s z := numberOf_startSeen ..
  have accepts : accept z e override seen = evacInFault z e.page seen :=
    (if_neg (by simp [same, fault])).trans ((if_pos (by simpa [same] using fault)).trans (if_pos evac))
  have joins := evacInFault_eq z e.page seen ((startSeen_phase ..).trans running) (room_startHeard link room)
  rw [same, number] at joins
  refine ⟨fun empty => ?_, fun gathered => ?_⟩
  · refine exec_oneZone start (accepts.trans (joins.trans ?_)) (fun y other => ?_) ?_
    · rw [if_pos empty, empty]
      rfl
    · rw [zoneOf_zoneReports]
      exact congrArg ZoneRec.cfg ((zoneOf_withZone_ne _ seen other).trans (zoneOf_startSeen ..))
    · exact (deliveries_zoneReports (by exact linkSeen)).trans quietSeen
  · refine exec_oneZone start (accepts.trans (joins.trans ?_)) (fun y other => ?_) ?_
    · rw [if_neg gathered]
    · rw [zoneOf_zoneReports]
      exact congrArg ZoneRec.cfg ((zoneOf_withZone_ne _ seen other).trans (zoneOf_startSeen ..))
    · exact (deliveries_zoneReports (by exact linkSeen)).trans quietSeen

/-! ### LISTENING (R128, R140) -/

/-- An EVAC page in the start-up phase LISTENING, at a zone with nothing active, starts the evacuation and reports nothing. -/
theorem evacAccept_listening {z : LocalZone} {p : PageId} {notes : Table 8 Nat} {s : State} (listens : s.phase = .listening)
    (notes_ : s.ts.notes = some notes) (sound : (zoneOf s z).state ≠ .fault) (inService : (zoneOf s z).state ≠ .outOfService)
    (empty : (zoneOf s z).evac = []) (idle : (zoneOf s z).active = none) :
    evacAccept z p s = evacuationStarts z { zoneOf s z with active := some .evacuation, evac := [p] } notes s := by
  rw [evacAccept_starts z p notes s s empty (displaceActive_none z s idle) notes_ ⟨sound, inService⟩ empty]
  exact if_neg (by rw [(evacuationStarts_clc ..).1, listens]; simp)

/-- What a STATUS leaves in LISTENING before the ZC takes it: nothing is answered (R19, R21, R108). -/
theorem heardStatus_listening {src : Cabinet} {b : RawStatus} {f : LinkField} {e : Option PageId}
    {t : Table 4 (Option ChannelHold)} {s : State} (link : s.clc.link = .listening) (known : Known src s)
    (field : codeLinkField b.link = some f) (evacuation : codeEvacuation b = some e) (channels : codeChannels b = some t)
    (free : ∀ c, (t.get c).isSome = true → channelRecord s c = none) :
    hear src true (heardStatus src b) (fresh s)
      = zoneStatus src (withOutputs [.acknowledge true] (statusTaken src .running e t s)) := by
  let peer := withOutputs [.acknowledge true] (withPeer src { state := .present, age := 0, evac := e, channels := t } s)
  have present : (s.clc.peers.get src).state = .present := known.2
  have recorded : recordChannels src b (recordEvacuation src b (hearing src s)) = peer := by
    simp only [recordChannels, recordEvacuation, evacuation, channels, withCode, modPeer, onClc, heardFrom, withPeer,
      withOutputs, Table.modify, Table.get_set_self, Table.set_set, peerOf, present, peer]
  have unanswered : answerStatus b peer = peer := by
    rw [answerStatus, field]
    exact if_neg (by simp [show peer.clc.link = _ from link])
  rw [hear_listening src _ s link known]
  unfold heardStatus
  dsimp only
  rw [recorded, unanswered, channels, evacuation]
  refine congrArg (zoneStatus src) ((pgoStatus_free peer src t ?_ free).trans ?_)
  · simp [peer, withPeer, withOutputs]
  · simp only [statusTaken, if_true, withQueued_nil]
    rfl

theorem listeningZonesTakeEvacuationsAlone : Clause.ListeningZonesTakeEvacuationsAlone := by
  intro src z notes s ready link listens notes_ r evacuates
  refine ⟨fun b e t override start => ?_, fun b f p t known field evacuation channels free cab sound inService empty idle
    unplaced others => ?_⟩
  · intro seen
    have same : zoneOf seen z = r := zoneOf_startSeen ..
    have listensSeen : seen.phase = .listening := (startSeen_phase ..).trans listens
    have heard (f : State → State) : hear src true f (fresh s) = f (hearing src s) := hear_listening src f s link start.1
    have quietSeen : seen.deliveries = [] := (startSeen_deliveries ..).trans ready.2
    have takes {u : State} (evac : e.cls = .evac) (accepts : accept z e override seen = u)
        (others : ∀ y, y ≠ z → zoneOf u y = zoneOf seen y) (quiet : u.deliveries = seen.deliveries) :
        exec (.pageStart src b) s = .next u := by
      refine exec_of_act (f := hear src true (heardStart b)) rfl ready.1 ((heard _).trans ?_) (quiet.trans quietSeen)
      refine heardStart_at start (by rw [listens, evac]; rfl) u accepts fun y other => ?_
      exact congrArg ZoneRec.cfg ((others y other).trans (zoneOf_startSeen ..))
    refine ⟨fun other => ?_, fun evac sound inService => ⟨fun empty idle => ?_, fun gathered => ?_⟩⟩
    · refine exec_of_act (f := hear src true (heardStart b)) rfl ready.1 ((heard _).trans ?_) quietSeen
      exact heardStart_passed start (by rw [listens]; exact decide_eq_false other)
    · refine takes evac ?_ (fun y other => evacuationStarts_others _ _ _ _ _ other) (evacuationStarts_deliveries ..)
      rw [accept_evac (same.symm ▸ inService) (same.symm ▸ sound) evac,
        evacAccept_listening listensSeen ((startSeen_ts src e s).symm ▸ notes_) (same.symm ▸ sound) (same.symm ▸ inService)
          (same.symm ▸ empty) (same.symm ▸ idle), same]
    · refine takes evac ?_ (fun y other => zoneOf_withZone_ne _ _ other) rfl
      rw [accept_evac (same.symm ▸ inService) (same.symm ▸ sound) evac, evacAccept_gathers (same.symm ▸ gathered), same]
      exact if_neg fun runs => absurd (listensSeen.symm.trans runs) (by simp)
  · let taken := withOutputs [.acknowledge true] (statusTaken src .running (some p) t s)
    have same (y : LocalZone) : zoneOf taken y = zoneOf s y := rfl
    refine exec_of_act (f := hear src true (heardStatus src b)) rfl ready.1
      ((heardStatus_listening link known field evacuation channels free).trans ?_)
      ((evacuationStarts_deliveries ..).trans ready.2)
    refine zoneStatus_at (z := z) (some p) evac_statusTaken (fun y other => by rw [same]; exact others y other)
      (fun y other => evacuationStarts_others _ _ _ _ _ other) (fun q is => ?_) nofun
    obtain rfl := Option.some.inj is
    refine ⟨by rw [same, empty]; rfl, ?_⟩
    rw [acceptAt_evac (by rw [same]; exact unplaced) (by rw [same]; exact inService) (by rw [same]; exact sound),
      evacAccept_listening (by exact listens) (by exact notes_) (by rw [same]; exact sound) (by rw [same]; exact inService)
        (by rw [same]; exact empty) (by rw [same]; exact idle), same]

/-- Settles O46. -/
theorem alarmsAndEvacuationsTakeAZone : Obligations.AlarmsAndEvacuationsTakeAZone :=
  ⟨alarmPreemptsALowerPage, evacuationStartsAndGathers, pagesTakeAZone, evacuationJoinsInFault,
    listeningZonesTakeEvacuationsAlone⟩

end Sys2Proof.Machine
end

section
/-! SUPPORT. O47 and O48: the wake, hang and one-second timers of a zone, and completion reports (R134 to R137, R154). -/

namespace Sys2Proof.Machine

/-! ### Wake and hang timers (R134, R137) -/

section
variable {z : LocalZone} {s : State}

theorem wakeExpiry_waking {a : Active} (waking : (zoneOf s z).state = .waking) (active : (zoneOf s z).active = some a) :
    wakeExpiry z s = enterPhase z (firstPhase a) a s := by
  unfold wakeExpiry
  rw [waking, active]

theorem wakeExpiry_elsewhere (awake : (zoneOf s z).state ≠ .waking) : wakeExpiry z s = s := by
  unfold wakeExpiry
  split
  · next waking _ => exact absurd waking awake
  · rfl

/-- A page enters its first sounding phase, and its pattern starts (R133, R134). -/
theorem enterPhase_page (e : PageEntry) (n : Nat) {notes : Table 8 Nat} (notes_ : s.ts.notes = some notes) :
    enterPhase z (firstPhase (.page e n)) (.page e n) s
      = patternStarts z (firstSound notes e).2.1 (firstSound notes e).2.2 (zoneEnters z { zoneOf s z with
          state := (firstSound notes e).1, keptRun := nextSeq (seqOf s z).number } true .tone s) := by
  obtain ⟨i, time, rest, steps, sound, sounds, -⟩ := firstSound_spec notes e n
  rw [enterPhase_eq z _ _ i notes s notes_ rest time steps sounds, sound]

theorem enterPhase_evacuation {notes : Table 8 Nat} (notes_ : s.ts.notes = some notes) :
    enterPhase z .tone .evacuation s = patternStarts z .evacTone (notes.get 6) (zoneEnters z { zoneOf s z with
      state := .tone, keptRun := nextSeq (seqOf s z).number } true .tone s) :=
  enterPhase_eq z .evacuation .tone 6 notes s notes_ _ _ rfl rfl

end

theorem wakeAndHangTimersMoveTheZone : Clause.WakeAndHangTimersMoveTheZone := by
  intro z e n notes s ready notes_ r
  refine ⟨fun waking active => ?_, fun waking active => ?_, fun awake => ?_, fun hangs => ?_, fun elsewhere => ?_⟩
  · refine exec_of_act (f := wakeExpiry z) rfl ready.1 ?_ ready.2
    rw [wakeExpiry_waking (s := fresh s) waking active]
    exact enterPhase_page e n notes_
  · refine exec_of_act (f := wakeExpiry z) rfl ready.1 ?_ ready.2
    rw [wakeExpiry_waking (s := fresh s) waking active]
    exact enterPhase_evacuation notes_
  · exact exec_of_act (f := wakeExpiry z) rfl ready.1 (wakeExpiry_elsewhere (s := fresh s) awake) ready.2
  · refine exec_of_act (f := hangExpiry z) rfl ready.1 ?_ ready.2
    have silent : sounding (zoneOf (fresh s) z).state = false := by
      rw [show (zoneOf (fresh s) z).state = .hang from hangs]
      rfl
    exact (if_pos hangs).trans (enterState_quiet z .released (fresh s) (.inl silent))
  · exact exec_of_act (f := hangExpiry z) rfl ready.1 (if_neg elsewhere) ready.2

/-! ### Completion reports (R134, R135, R154) -/

/-- A stop order at an IDLE sequencer (R149). -/
theorem patternStops_idle {z : LocalZone} {s : State} (idle : (seqOf s z).run = none) : patternStops z s = s := by
  rw [← stopPattern_eq, stopPattern, idle]
  rfl

section
variable {z : LocalZone} {x : Completion} {rest : List Completion} {s : State}

/-- The oldest completion report has been taken. -/
def completionTaken (z : LocalZone) (rest : List Completion) (s : State) : State :=
  withSequencer z { seqOf s z with reports := rest } s

theorem takeCompletion_kept (reports : (seqOf s z).reports = x :: rest) (kept : x.run = (zoneOf s z).keptRun) :
    takeCompletion z s = completed z (completionTaken z rest s) := by
  unfold takeCompletion
  rw [reports]
  exact if_pos kept

theorem takeCompletion_other (reports : (seqOf s z).reports = x :: rest) (other : x.run ≠ (zoneOf s z).keptRun) :
    takeCompletion z s = completionTaken z rest s := by
  unfold takeCompletion
  rw [reports]
  exact if_neg other

theorem completed_chime {a : Active} (chime : (zoneOf s z).state = .chime) (active : (zoneOf s z).active = some a) :
    completed z s = enterPhase z .live a s := by
  unfold completed
  rw [chime, active]

theorem completed_code {e : PageEntry} {n : Nat} (code : (zoneOf s z).state = .code)
    (active : (zoneOf s z).active = some (.page e n)) : completed z s = leaveWith z e.page .ended s := by
  unfold completed
  rw [code, active]

theorem completed_elsewhere (chime : (zoneOf s z).state ≠ .chime) (code : (zoneOf s z).state ≠ .code) : completed z s = s := by
  unfold completed
  split
  · next is _ => exact absurd is chime
  · next is _ => exact absurd is code
  · rfl

/-- A prelude that has ended brings LIVE on the page's channel (R134). -/
theorem enterPhase_live {e : PageEntry} {n : Nat} {c : Channel} (idle : (seqOf s z).run = none)
    (active : (zoneOf s z).active = some (.page e n)) (source : e.source = .channel c) :
    enterPhase z .live (.page e n) s = zoneEnters z { zoneOf s z with state := .live } true (.channel c) s := by
  have order : sourceOrder { zoneOf s z with state := .live } = .channel c := by
    obtain ⟨page, cls, src, orbit⟩ := e
    have is : src = .channel c := source
    subst is
    simp [sourceOrder, active]
  have enters := enterState_eq z .live s
  rw [order, patternStops_idle idle] at enters
  simp only [ite_self] at enters
  have plain : enterPhase z .live (.page e n) s = enterState z .live s := rfl
  exact plain.trans enters

/-- The page that a zone plays leaves with a report, and the zone makes the resume choice (R135). -/
theorem leaveWith_freed {e : PageEntry} {n : Nat} {o : ZoneOutcome} {t : State} (running : s.phase = .running) (room : Room 1 s)
    (active : (zoneOf s z).active = some (.page e n)) (unheld : ∀ h, (zoneOf s z).held = some h → h.entry.page ≠ e.page)
    (unpending : ∀ y ∈ (zoneOf s z).pending, y.page ≠ e.page)
    (freed : ZoneFreed (fun y => decide (y.page = e.page)) z (zoneReports z e.page o s) t) : leaveWith z e.page o s = t := by
  rw [leaveWith, report_room z e.page o s running room, ← removePages_of freed]
  refine (removePages_active ?_ ?_ ?_).symm
  · simp [pickActive, active]
  · rw [zoneOf_zoneReports]
    exact fun h held => decide_eq_false (unheld h held)
  · rw [zoneOf_zoneReports]
    exact fun y here => decide_eq_false (unpending y here)

theorem zoneFreed_quiet {gone : PageEntry → Bool} {p : PageId} {o : ZoneOutcome} {t : State} (link : s.clc.link = .running)
    (freed : ZoneFreed gone z (zoneReports z p o s) t) : t.deliveries = s.deliveries := by
  obtain ⟨-, -, -, quiet, -⟩ := zoneFreed_frame freed
  exact (quiet (by simpa [zoneReports] using onLink_of link)).trans (deliveries_zoneReports link)

end

theorem completionAdvancesTheActivePage : Clause.CompletionAdvancesTheActivePage := by
  intro z x rest e n s ⟨ready, link, room⟩ running reports active r taken
  have room' : Room 1 taken := .inr ⟨link, room⟩
  refine ⟨fun kept chime idle c source => ?_, fun kept code unheld unpending => ?_, fun elsewhere => ?_⟩
  · refine exec_of_act (f := takeCompletion z) rfl ready.1 ?_ ready.2
    have idle' : (seqOf taken z).run = none := by simpa [taken] using idle
    rw [takeCompletion_kept (s := fresh s) reports kept]
    exact (completed_chime (s := taken) chime active).trans (enterPhase_live idle' active source)
  · have quiet : (lastLeaves z (zoneReports z e.page .ended taken)).deliveries = [] := by
      rw [lastLeaves_deliveries, deliveries_zoneReports (by exact link)]
      exact ready.2
    refine exec_of_act (f := takeCompletion z) rfl ready.1 ?_ quiet
    rw [takeCompletion_kept (s := fresh s) reports kept]
    exact (completed_code (s := taken) code active).trans
      (leaveWith_last z e.page .ended taken running room' unheld unpending)
  · refine exec_of_act (f := takeCompletion z) rfl ready.1 ?_ ready.2
    by_cases kept : x.run = r.keptRun
    · obtain ⟨chime, code⟩ := elsewhere.resolve_left (Classical.not_not.2 kept)
      rw [takeCompletion_kept (s := fresh s) reports kept]
      exact completed_elsewhere (s := taken) chime code
    · exact takeCompletion_other (s := fresh s) reports kept

theorem endedChimeBringsTheResumeChoice : Clause.EndedChimeBringsTheResumeChoice := by
  intro z x rest e n s t ⟨ready, link, room⟩ running reports active unheld unpending kept code freed
  let taken := withOutputs [] (withSequencer z { seqOf s z with reports := rest } s)
  refine exec_of_act (f := takeCompletion z) rfl ready.1 ?_ ((zoneFreed_quiet (s := taken) link freed).trans ready.2)
  rw [takeCompletion_kept (s := fresh s) reports kept]
  exact (completed_code (s := taken) code active).trans
    (leaveWith_freed (s := taken) running (.inr ⟨link, room⟩) active unheld unpending freed)

/-- Settles O47. -/
theorem zonePhasesAdvance : Obligations.ZonePhasesAdvance :=
  ⟨wakeAndHangTimersMoveTheZone, completionAdvancesTheActivePage, endedChimeBringsTheResumeChoice⟩

/-! ### The seconds of an active page (R136) -/

section
variable {z : LocalZone} {e : PageEntry} {n m : Nat} {s : State}

/-- A page one second older. -/
def older (z : LocalZone) (e : PageEntry) (n : Nat) (s : State) : State :=
  withZone z { zoneOf s z with active := some (.page e (n + 1)) } s

theorem elapsedTick_timed (active : (zoneOf s z).active = some (.page e n)) (timed : classMaximum s e.cls = some m) :
    elapsedTick z s = if m ≤ n + 1 then leaveWith z e.page .timedOut (older z e n s) else older z e n s := by
  unfold elapsedTick
  rw [active]
  dsimp only
  rw [timed]
  rfl

theorem elapsedTick_untimed (active : (zoneOf s z).active = some (.page e n)) (untimed : classMaximum s e.cls = none) :
    elapsedTick z s = s := by
  unfold elapsedTick
  rw [active]
  dsimp only
  rw [untimed]

theorem elapsedTick_pageless (pageless : (zoneOf s z).active = none ∨ (zoneOf s z).active = some .evacuation) :
    elapsedTick z s = s := by
  unfold elapsedTick
  rcases pageless with active | active <;> rw [active]

theorem classMaximum_timed (cls : e.cls = .routine ∨ e.cls = .alarm) :
    classMaximum s e.cls = some (if e.cls = .routine then s.zc.routineMax else s.zc.alarmMax) := by
  rcases cls with is | is <;> rw [is] <;> rfl

end

theorem secondsReachTheClassMaximum : Clause.ElapsedSecondsReachTheClassMaximum := by
  intro z e n s ⟨ready, link, room⟩ running r maximum
  let aged := older z e n (fresh s)
  have zone : zoneOf aged z = { r with active := some (.page e (n + 1)) } := zoneOf_withZone_self ..
  refine ⟨fun active cls => ⟨fun below => ?_, fun reached unheld unpending => ?_⟩, fun active cls => ?_, fun pageless => ?_⟩
  · refine exec_of_act (f := elapsedTick z) rfl ready.1 ?_ ready.2
    exact (elapsedTick_timed (s := fresh s) active (classMaximum_timed cls)).trans (if_neg (Nat.not_le.2 below))
  · refine exec_of_act (f := elapsedTick z) rfl ready.1 ?_ ?_
    · refine (elapsedTick_timed (s := fresh s) active (classMaximum_timed cls)).trans
        ((if_pos (Nat.le_of_eq reached.symm)).trans ?_)
      refine (leaveWith_last z e.page .timedOut aged running (.inr ⟨link, room⟩) (by rw [zone]; exact unheld)
        (by rw [zone]; exact unpending)).trans ?_
      have kept : zoneReports z e.page .timedOut aged
          = withZone z { zoneOf (zoneReports z e.page .timedOut (fresh s)) z with active := some (.page e (n + 1)) }
            (zoneReports z e.page .timedOut (fresh s)) := by
        rw [zoneOf_zoneReports, withZone_zoneReports]
        rfl
      rw [kept, lastLeaves_active]
      rfl
    · rw [lastLeaves_deliveries, deliveries_zoneReports (by exact link)]
      exact ready.2
  · refine exec_of_act (f := elapsedTick z) rfl ready.1 (elapsedTick_untimed (s := fresh s) active ?_) ready.2
    rcases cls with is | is <;> rw [is] <;> rfl
  · exact exec_of_act (f := elapsedTick z) rfl ready.1 (elapsedTick_pageless (s := fresh s) pageless) ready.2

theorem timedOutPageBringsTheResumeChoice : Clause.TimedOutPageBringsTheResumeChoice := by
  intro z e n s t ⟨ready, link, room⟩ running r active cls reached unheld unpending freed
  let aged := older z e n (fresh s)
  have zone : zoneOf aged z = { r with active := some (.page e (n + 1)) } := zoneOf_withZone_self ..
  refine exec_of_act (f := elapsedTick z) rfl ready.1 ?_ ((zoneFreed_quiet (s := aged) link freed).trans ready.2)
  refine (elapsedTick_timed (s := fresh s) active (classMaximum_timed cls)).trans
    ((if_pos (Nat.le_of_eq reached.symm)).trans ?_)
  exact leaveWith_freed (s := aged) (n := n + 1) running (.inr ⟨link, room⟩) (by rw [zone]) (by rw [zone]; exact unheld)
    (by rw [zone]; exact unpending) freed

/-- Settles O48. -/
theorem elapsedSecondsReachTheClassMaximum : Obligations.ElapsedSecondsReachTheClassMaximum :=
  ⟨secondsReachTheClassMaximum, timedOutPageBringsTheResumeChoice⟩

end Sys2Proof.Machine
end

section
/-! SUPPORT. O49: an amplifier fault and its end (R126, R142, R143). -/

namespace Sys2Proof.Machine

section
variable {z : LocalZone} {s u : State}

/-- The page of an active place. -/
def activePages : Option Active → List PageId
  | some (.page e _) => [e.page]
  | some .evacuation | none => []

/-- The pages of a zone's places in their order (R142). -/
theorem placedPages_eq (r : ZoneRec) :
    placedPages r = activePages r.active ++ (r.held.map (·.entry.page)).toList ++ r.pending.map (·.page) := by
  have active : ((pickActive (fun _ => true) r).toList).map (·.page) = activePages r.active := by
    unfold pickActive activePages
    rcases r.active with _ | _ | ⟨e, n⟩ <;> rfl
  have held : ((pickHeld (fun _ => true) r).toList).map (·.page) = (r.held.map (·.entry.page)).toList := by
    unfold pickHeld
    cases r.held <;> rfl
  rw [placedPages, List.map_append, List.map_append, active, held]

/-- A zone enters FAULT once its pages have been reported, whatever the phase makes of the reports (R126, R142). -/
theorem enterFault_reported (reports : reportAll z (placedPages (zoneOf s z) ++ (zoneOf s z).evac) .fault s = u)
    (zone : zoneOf u z = zoneOf s z) (level : levelOf u z = levelOf s z) (number : numberOf u z = numberOf s z) :
    enterFault z s =
      let faulted := raise .ampFault (numberOf s z).val .zc
        (zoneEnters z { zoneOf s z with active := none, held := none, pending := [], state := .fault } false .none
          (if sounding (zoneOf s z).state then patternStops z u else u))
      if (zoneOf s z).active.isSome then levelSet z (targetOf (zoneOf s z).cfg.level (levelOf s z).level
        (if (zoneOf s z).evac = [] then none else some .evac)) faulted else faulted := by
  have enters : enterState z .fault (onZone z (fun r => { r with active := none, held := none, pending := [] }) u)
      = zoneEnters z { zoneOf s z with active := none, held := none, pending := [], state := .fault } false .none
        (if sounding (zoneOf s z).state then patternStops z u else u) := by
    rw [enterState_eq, onZone_eq, zone, zoneOf_withZone_self]
    cases sounding (zoneOf s z).state <;>
      simp [sounding, patternStops_withZone, zoneEnters, amplifierOrder, zoneActive, sourceOrder]
  have numbers (v : State) (same : own v = own u) : numberOf v z = numberOf s z := by
    rw [← number, numberOf, numberOf, same]
  unfold enterFault
  dsimp only
  rw [reports, enters, numbers _ (by split <;> rfl), jumpLevel_eq]
  congr 2
  have zone' : zoneOf (raise .ampFault (numberOf s z).val .zc
      (zoneEnters z { zoneOf s z with active := none, held := none, pending := [], state := .fault } false .none
        (if sounding (zoneOf s z).state then patternStops z u else u))) z
      = { zoneOf s z with active := none, held := none, pending := [], state := .fault } := by
    simp [zoneEnters]
  have level' : levelOf (raise .ampFault (numberOf s z).val .zc
      (zoneEnters z { zoneOf s z with active := none, held := none, pending := [], state := .fault } false .none
        (if sounding (zoneOf s z).state then patternStops z u else u))) z = levelOf s z := by
    rw [levelOf_raise, ← level]
    split <;> simp [zoneEnters, patternStops]
  rw [zone', level']
  simp [levelClass, activeClass]

/-- A zone's new record, orders and stop order do not read the record that stood in it. -/
theorem zoneEnters_over (sounds : Bool) (q r : ZoneRec) (amplifier : Bool) (source : SourceOrder) (ns : List Notice) :
    zoneEnters z r amplifier source (if sounds then patternStops z (withQueued ns (withZone z q s))
        else withQueued ns (withZone z q s))
      = zoneEnters z r amplifier source (if sounds then patternStops z (withQueued ns s) else withQueued ns s) := by
  rw [show withQueued ns (withZone z q s) = withZone z q (withQueued ns s) from rfl, patternStops_withZone]
  cases sounds <;> simp [zoneEnters]

/-- The reports of a zone that enters FAULT: in RUNNING with room for them, or none in the start-up phase LISTENING (R142). -/
theorem faultReports {pages : List PageId} (phase : (s.clc.link = .running ∧ s.phase = .running) ∨ s.phase = .listening)
    (room : s.clc.queue.length + (if s.phase = .running then pages else []).length ≤ txCapacity) :
    reportAll z pages .fault s
      = withQueued ((if s.phase = .running then pages else []).map fun p => .zoneReport p (numberOf s z) .fault) s := by
  rcases phase with ⟨link, running⟩ | listens
  · rw [if_pos running] at room ⊢
    rw [reportAll_room _ _ _ _ running (.inr ⟨link, room⟩), noticed_running _ _ link]
  · have silent : ¬ s.phase = .running := by simp [listens]
    rw [if_neg silent]
    exact (forEach_same pages (fun p s => report z p .fault s) s fun p _ => if_neg silent).trans (withQueued_nil s).symm

end

theorem zoneEntersFault : Clause.ZoneEntersFault := by
  intro z s ready phase r pin activePage reported cls unfaulted
  have served : zonesServed s.phase = true := by rcases phase with ⟨-, is⟩ | is <;> rw [is] <;> rfl
  let pinned := fresh (setFaultPin z true s)
  let marked := withZone z { r with ampFault := true } pinned
  have same : zoneOf marked z = { r with ampFault := true } := zoneOf_withZone_self ..
  have takes : faultBecomesActive z (s.pins.ampFault.get z) pinned = faultActive z pinned :=
    if_pos (by rw [unfaulted]; exact (Bool.and_true _).trans served)
  refine ⟨fun inService room => ?_, fun out => ?_⟩
  · intro u faulted
    have pages : activePage ++ (r.held.map (·.entry.page)).toList ++ r.pending.map (·.page) ++ r.evac
        = placedPages (zoneOf marked z) ++ (zoneOf marked z).evac := by
      have active : activePage = activePages r.active := by
        rcases is : r.active with _ | _ | ⟨e, n⟩ <;> simp only [activePage, is] <;> rfl
      rw [same, placedPages_eq, active]
    have isReported : reported = if marked.phase = .running then placedPages (zoneOf marked z) ++ (zoneOf marked z).evac
        else [] := by
      rw [← pages]
      rfl
    have reports := faultReports (z := z) (s := marked) phase (by rw [← isReported]; exact room)
    rw [← isReported] at reports
    have enters := enterFault_reported reports rfl rfl rfl
    have faults : faultActive z pinned = enterFault z marked :=
      if_neg (c := (zoneOf marked z).state = .outOfService) (by rw [same]; exact inService)
    have stopped : zoneEnters z { r with active := none, held := none, pending := [], ampFault := true, state := .fault }
        false .none (if sounding r.state then
          patternStops z (withQueued (reported.map fun p => .zoneReport p (numberOf s z) .fault) marked)
          else withQueued (reported.map fun p => .zoneReport p (numberOf s z) .fault) marked)
        = pin true (zoneEnters z { r with
            active := none, held := none, pending := [], ampFault := true, state := .fault } false .none
          (if sounding r.state then patternStops z u else u)) := by
      refine (zoneEnters_over ..).trans ?_
      cases sounding r.state <;> rfl
    have levels : levelOf marked z = levelOf s z := rfl
    simp only [same, levels] at enters
    have quiet : faulted.deliveries = [] := by
      show (if sounding r.state then patternStops z u else u).deliveries = []
      split
      · exact ready.2
      · exact ready.2
    have acts {t : State} (is : enterFault z marked = t) (quiet : t.deliveries = []) : exec (.ampFaultActive z) s = .next t :=
      exec_of_act (s' := setFaultPin z true s) (f := faultBecomesActive z (s.pins.ampFault.get z)) rfl ready.1
        (takes.trans (faults.trans is)) quiet
    refine ⟨fun active => acts ?_ quiet, fun idle => acts ?_ quiet⟩
    · rw [enters, if_pos (Option.isSome_iff_ne_none.2 active)]
      exact congrArg (fun v => levelSet z (targetOf r.cfg.level (levelOf s z).level cls)
        (raise .ampFault (numberOf s z).val .zc v)) stopped
    · rw [enters, if_neg (by simp [idle])]
      exact congrArg (raise .ampFault (numberOf s z).val .zc) stopped
  · have stays : faultActive z pinned = marked :=
      if_pos (c := (zoneOf marked z).state = .outOfService) (by rw [same]; exact out)
    exact exec_of_act (s' := setFaultPin z true s) (f := faultBecomesActive z (s.pins.ampFault.get z)) rfl ready.1
      (takes.trans stays) ready.2

theorem amplifierFaultEndReleasesTheZone : Clause.AmplifierFaultEndReleasesTheZone := by
  intro z notes s ready phase notes_ r pin freed faulted
  have served : zonesServed s.phase = true := by rcases phase with is | is <;> rw [is] <;> rfl
  let unpinned := fresh (setFaultPin z false s)
  let left := zoneEnters z { r with ampFault := false, state := .released } false .none unpinned
  have takes : faultBecomesInactive z (s.pins.ampFault.get z) unpinned = faultInactive z unpinned :=
    if_pos (by rw [faulted]; exact (Bool.and_true _).trans served)
  have acts {t : State} (is : faultInactive z unpinned = t) (quiet : t.deliveries = []) :
      exec (.ampFaultInactive z) s = .next t :=
    exec_of_act (s' := setFaultPin z false s) (f := faultBecomesInactive z (s.pins.ampFault.get z)) rfl ready.1
      (takes.trans is) quiet
  have zone : zoneOf left z = { r with ampFault := false, state := .released } := zoneOf_withZone_self ..
  have floor : ∀ p a, targetOf p a (some .evac) = p.floor := by simp [targetOf]
  have levelIs {a : Option Active} {st : ZoneState} (gathered : r.evac ≠ []) :
      levelClass { r with ampFault := false, active := a, state := st } = some .evac := by simp [levelClass, gathered]
  have quiet : freed.deliveries = [] := ready.2
  refine ⟨fun fault => ⟨fun empty => ?_, fun gathered wakes => ?_, fun gathered atOnce => ?_⟩, fun out => ?_⟩
  · refine acts ?_ (by exact ready.2)
    refine (faultInactive_eq z unpinned fault).trans ((if_neg (Classical.not_not.2 empty)).trans ?_)
    rfl
  · refine acts ?_ (by simpa [pin, levelSet, zoneEnters, patternStarts] using quiet)
    refine (faultInactive_eq z unpinned fault).trans ((if_pos gathered).trans ?_)
    refine (activate_waits z .evacuation .tone left (by rw [zone]) (by rw [zone]; exact Nat.ne_of_gt wakes)).trans ?_
    rw [zone, levelIs gathered, floor]
    rfl
  · refine acts ?_ (by simpa [pin, levelSet, zoneEnters, patternStarts] using quiet)
    refine (faultInactive_eq z unpinned fault).trans ((if_pos gathered).trans ?_)
    refine (activate_enters z .evacuation .tone notes 6 left notes_ _ _ rfl rfl
      (.inl (by rw [zone]; exact ⟨rfl, atOnce⟩))).trans ?_
    rw [zone, levelIs gathered, floor]
    rfl
  · refine acts ?_ (by exact ready.2)
    refine if_neg (c := (zoneOf (withZone z { r with ampFault := false } unpinned) z).state = .fault) ?_
    rw [zoneOf_withZone_self]
    exact fun is => nomatch out.symm.trans is

/-- Settles O49. -/
theorem amplifierFaultTakesTheZone : Obligations.AmplifierFaultTakesTheZone :=
  ⟨zoneEntersFault, amplifierFaultEndReleasesTheZone⟩

end Sys2Proof.Machine
end

section
/-! SUPPORT. O50 and O52: the step timer of a sequencer, and ambient samples (R147, R150, R154, R158 to R168). -/

namespace Sys2Proof.Machine

/-! ### The step timer (R150) -/

section
variable {z : LocalZone} {notes : Table 8 Nat} {s : State}

/-- The tone order of a sequencer whose run has changed. -/
theorem changeSound_withSequencer (z : LocalZone) (q : Sequencer) (sound : Option Nat) (s : State)
    (kept : q.sound = (seqOf s z).sound) : changeSound z sound (withSequencer z q s)
      = withOutputs (s.outputs ++ if (seqOf s z).sound = sound then [] else [.sound z sound])
        (withSequencer z { q with sound := sound } s) := by
  rw [changeSound_eq, sequencerPlays, seqOf_withSequencer_self, kept, withSequencer_twice]
  rfl

theorem enterStep_eq (notes_ : s.ts.notes = some notes) (p : Pattern) (step : Nat) (x : StepSound) :
    enterStep z p step x s = sequencerPlays z (some ⟨p, step⟩) (x.map notes.get) s := by
  unfold enterStep
  rw [notes_]
  exact changeSound_withSequencer z { seqOf s z with run := some ⟨p, step⟩ } _ s rfl

/-- The end of a finite pattern: IDLE, silence, and a completion report that waits (R150, R154). -/
theorem finishPattern_eq (z : LocalZone) (p : Pattern) (s : State) :
    finishPattern z p s = sequencerPlays z none none (withSequencer z { seqOf s z with
      reports := (seqOf s z).reports ++ [⟨p, (seqOf s z).number⟩] } s) := by
  refine (changeSound_withSequencer z { seqOf s z with
    run := none, reports := (seqOf s z).reports ++ [⟨p, (seqOf s z).number⟩] } none s rfl).trans ?_
  rw [sequencerPlays, seqOf_withSequencer_self, withSequencer_twice]
  rfl

theorem stepExpiry_next {r : Run} {x : StepSound × Nat} (run : (seqOf s z).run = some r)
    (next_ : (patternSteps r.pattern)[r.step]? = some x) : stepExpiry z s = enterStep z r.pattern (r.step + 1) x.1 s := by
  unfold stepExpiry
  rw [run]
  dsimp only
  rw [next_]

theorem stepExpiry_again {r : Run} {x : StepSound × Nat} (run : (seqOf s z).run = some r)
    (last : (patternSteps r.pattern).length = r.step) (cycles : cyclic r.pattern = true)
    (first_ : (patternSteps r.pattern)[0]? = some x) : stepExpiry z s = enterStep z r.pattern 1 x.1 s := by
  obtain ⟨rest, steps⟩ : ∃ rest, patternSteps r.pattern = x :: rest := by
    cases is : patternSteps r.pattern with
    | nil => simp [is] at first_
    | cons y rest => exact ⟨rest, by simpa [is] using first_⟩
  unfold stepExpiry
  rw [run]
  dsimp only
  rw [List.getElem?_eq_none (Nat.le_of_eq last)]
  refine (if_pos cycles).trans ?_
  rw [steps]

theorem stepExpiry_ends {r : Run} (run : (seqOf s z).run = some r) (last : (patternSteps r.pattern).length = r.step)
    (finite : cyclic r.pattern = false) : stepExpiry z s = finishPattern z r.pattern s := by
  unfold stepExpiry
  rw [run]
  dsimp only
  rw [List.getElem?_eq_none (Nat.le_of_eq last)]
  exact if_neg (by simp [finite])

end

/-- The cyclic patterns are the two tones (R152). -/
theorem cyclic_iff (p : Pattern) : cyclic p = true ↔ p = .alarmTone ∨ p = .evacTone := by
  cases p <;> simp [cyclic]

/-- Settles O50: by the step that the run stands at. -/
theorem stepTimerPlaysThePattern : Obligations.StepTimerPlaysThePattern := by
  intro z r notes s ready notes_ steps plays
  have acts {t : State} (is : stepExpiry z (fresh s) = t) (quiet : t.deliveries = []) : exec (.stepTimerExpiry z) s = .next t :=
    exec_of_act (f := stepExpiry z) rfl ready.1 is quiet
  refine ⟨fun run => ⟨fun x next_ => ⟨?_, ?_⟩, fun last cycles x first_ => ⟨?_, ?_⟩, fun last alarm evac => ?_⟩, fun idle => ?_⟩
  · exact acts ((stepExpiry_next (s := fresh s) run next_).trans (enterStep_eq (s := fresh s) notes_ _ _ _)) (by exact ready.2)
  · show Option.map _ (steps[r.step + 1 - 1]?) = _
    rw [Nat.add_sub_cancel, next_]
    rfl
  · exact acts ((stepExpiry_again (s := fresh s) run last ((cyclic_iff _).2 cycles) first_).trans
      (enterStep_eq (s := fresh s) notes_ _ _ _))
      (by exact ready.2)
  · show Option.map _ (steps[0]?) = _
    rw [first_]
    rfl
  · have finite : cyclic r.pattern = false := by
      rw [← Bool.not_eq_true, cyclic_iff]
      exact fun either => either.elim alarm evac
    exact acts ((stepExpiry_ends (s := fresh s) run last finite).trans (finishPattern_eq z r.pattern (fresh s)))
      (by exact ready.2)
  · refine acts ?_ ready.2
    unfold stepExpiry
    rw [show (seqOf (fresh s) z).run = none from idle]
    rfl

/-! ### Ambient samples (R158 to R168) -/

section
variable {z : LocalZone} {code : Byte} {s : State}

/-- C moves from the level state that stands. -/
theorem followTarget_same (z : LocalZone) (s : State) : followTarget z s = levelMoves z (levelOf s z) s := by
  rw [← followTarget_eq, withLevel_same z _ s rfl]

/-- A sample at an in-service zone, from a good load on (R158). -/
theorem exec_sample {t : State} (ready : Ready s) (phase : s.phase = .listening ∨ s.phase = .running)
    (inService : (zoneOf s z).cfg.inService = true) (takes : takeSample z code (fresh s) = t) (quiet : t.deliveries = []) :
    exec (.ambientSample z code) s = .next t := by
  have served : (zonesServed s.phase && (zoneOf s z).cfg.inService) = true := by
    rw [inService]
    rcases phase with is | is <;> rw [is] <;> rfl
  exact exec_of_act (f := sampleArrives z code) rfl ready.1 ((if_pos served).trans takes) quiet

theorem takeSample_fault (z : LocalZone) (s : State) : takeSample z 255 s = faultSample z s := if_pos rfl

theorem takeSample_valid (z : LocalZone) (s : State) (valid : code ≠ 255) : takeSample z code s = validSample z code.toNat s :=
  if_neg valid

theorem levelMoves_deliveries (z : LocalZone) (v : Level) (s : State) : (levelMoves z v s).deliveries = s.deliveries := rfl

end

theorem faultSamplesFailTheSensor : Clause.FaultSamplesFailTheSensor := by
  intro z s ready phase inService v p moves
  have acts {v' : Level} {t : State} (is : faultSample z (fresh s) = levelMoves z v' (withOutputs [] t))
      (quiet : t.deliveries = []) : moves v' t :=
    exec_sample ready phase inService ((takeSample_fault z (fresh s)).trans is) ((levelMoves_deliveries ..).trans quiet)
  refine ⟨fun works few => acts ?_ ready.2, fun works seventh => acts ?_ ready.2, fun failed => acts ?_ ready.2⟩
  · have sound : ¬ (levelOf (fresh s) z).failed = true := by simp [show (levelOf (fresh s) z).failed = false from works]
    refine (if_neg sound).trans ((if_pos few).trans ?_)
    exact followTarget_eq z { v with faultRun := v.faultRun + 1 } (fresh s)
  · have sound : ¬ (levelOf (fresh s) z).failed = true := by simp [show (levelOf (fresh s) z).failed = false from works]
    have eighth : ¬ (levelOf (fresh s) z).faultRun < 7 := by
      rw [show (levelOf (fresh s) z).faultRun = 7 from seventh]
      omega
    refine (if_neg sound).trans ((if_neg eighth).trans ?_)
    dsimp only
    rw [onLevel_eq, setSmoothed_eq]
    exact followTarget_eq z _ (raise .sensorFailed (numberOf s z).val .lvu (fresh s))
  · exact (if_pos failed).trans (followTarget_same z (fresh s))

theorem validSamplesMoveTheLevel : Clause.ValidSamplesMoveTheLevel := by
  intro z code s ready phase inService valid v p cls active moves
  have acts {v' : Level} (is : validSample z code.toNat (fresh s) = levelMoves z v' (fresh s)) : moves v' :=
    exec_sample ready phase inService ((takeSample_valid z (fresh s) valid).trans is)
      ((levelMoves_deliveries ..).trans ready.2)
  refine ⟨fun failed => acts ?_, fun works held => acts ?_, fun works free => ?_⟩
  · refine (if_pos failed).trans ?_
    rw [onLevel_eq, setSmoothed_eq]
    exact followTarget_eq z _ (fresh s)
  · have sound : ¬ (levelOf (fresh s) z).failed = true := by simp [show (levelOf (fresh s) z).failed = false from works]
    refine (if_neg sound).trans ((if_pos held).trans ?_)
    rw [onLevel_eq, onLevel_eq, levelOf_withLevel_self, withLevel_twice]
    exact followTarget_eq z _ (fresh s)
  · intro used shift
    refine acts ?_
    have sound : ¬ (levelOf (fresh s) z).failed = true := by simp [show (levelOf (fresh s) z).failed = false from works]
    have unheld : ¬ (levelOf (fresh s) z).holdOff > 0 := by
      rw [show (levelOf (fresh s) z).holdOff = 0 from free]
      omega
    have uses : usedAndShift (withLevel z { levelOf (fresh s) z with faultRun := 0 } (fresh s)) z code.toNat
        = (used, shift) := by
      rw [usedAndShift, levelOf_withLevel_self, zoneOf_withLevel]
      simp only [used, shift]
      cases is : active
      · exact if_neg (c := zoneActive (zoneOf s z).state = true) (by simpa [active] using is)
      · exact if_pos (c := zoneActive (zoneOf s z).state = true) is
    refine (if_neg sound).trans ((if_neg unheld).trans ?_)
    dsimp only
    rw [onLevel_eq, setSmoothed_eq, uses]
    exact followTarget_eq z _ (fresh s)

theorem samplesAreTakenInServiceOnly : Clause.SamplesAreTakenInServiceOnly := by
  intro z code s ready untaken
  have idle : ¬ (zonesServed s.phase && (zoneOf s z).cfg.inService) = true := by
    rcases untaken with out | phase | phase
    · simp [out]
    · simp [phase, zonesServed]
    · simp [phase, zonesServed]
  exact exec_of_act (f := sampleArrives z code) rfl ready.1 (if_neg idle) ready.2

/-- Settles O52. -/
theorem samplesMoveTheLevel : Obligations.SamplesMoveTheLevel :=
  ⟨faultSamplesFailTheSensor, validSamplesMoveTheLevel, samplesAreTakenInServiceOnly⟩

end Sys2Proof.Machine
end

section
/-! SUPPORT. O55: SHELF-CLEAR at the calls, the lines and the pages of lines (R44, R66, R124, R173). -/

namespace Sys2Proof.Machine

/-! ### Lines that do not ring (R44) -/

/-- The tone order that SHELF-CLEAR brings at a line that does not ring. -/
def clearedTone (l : Line) (r : LineRec) : Option Output :=
  match r.state with
  | .talking => some (.tone l .busy)
  | .answerPending | .pickupPending => some (.tone l .lost)
  | .ringing | .paging | .dialing | .busy | .wrapUp | .idle | .outOfService => none

theorem clearedTones_eq (s : State) : clearedTones s = allLines.filterMap fun l => clearedTone l (lineOf s l) := rfl

theorem clearLine_eq {l : Line} {s : State} (silent : (lineOf s l).state ≠ .ringing) :
    clearLine l s = withOutputs (s.outputs ++ (clearedTone l (lineOf s l)).toList)
      (withLine l (clearedLine (lineOf s l)) s) := by
  have stays (kept : clearedLine (lineOf s l) = lineOf s l) :
      s = withOutputs (s.outputs ++ []) (withLine l (clearedLine (lineOf s l)) s) := by
    rw [withLine_same l _ s kept, List.append_nil]
    rfl
  have pending (is : (lineOf s l).state = .answerPending ∨ (lineOf s l).state = .pickupPending) :
      resolvedLost l s = withOutputs (s.outputs ++ [.tone l .lost]) (withLine l (clearedLine (lineOf s l)) s) := by
    rcases is with is | is <;> simp [resolvedLost, clearedLine, is]
  apply clearLine_of
  unfold LineCleared clearedTone
  cases is : (lineOf s l).state with
  | ringing => exact absurd is silent
  | talking => simp [clearedLine, is]
  | answerPending => exact (pending (.inl is)).symm
  | pickupPending => exact (pending (.inr is)).symm
  | paging | dialing | busy | wrapUp | idle | outOfService => exact (stays (by simp [clearedLine, is])).symm

theorem clearedLine_silent {r : LineRec} (silent : r.state ≠ .ringing) : (clearedLine r).state ≠ .ringing := by
  unfold clearedLine
  split
  · exact nofun
  · exact nofun
  · exact nofun
  all_goals exact silent

/-- Some lines are cleared, in their order. -/
def linesCleared (ls : List Line) (s : State) : State :=
  withOutputs (s.outputs ++ ls.filterMap fun l => clearedTone l (lineOf s l))
    { s with lu := Table.build 16 fun l => if l ∈ ls then clearedLine (lineOf s l) else lineOf s l }

theorem linesCleared_nil (s : State) : linesCleared [] s = s := by
  have same : (Table.build 16 fun l => lineOf s l) = s.lu := Table.ext_get fun l => Table.get_build ..
  simp only [linesCleared, List.filterMap_nil, List.append_nil, List.not_mem_nil, if_false, same]
  rfl

theorem linesCleared_cons {l : Line} {ls : List Line} (s : State) (once : l ∉ ls) :
    linesCleared (l :: ls) s = linesCleared ls (withOutputs (s.outputs ++ (clearedTone l (lineOf s l)).toList)
      (withLine l (clearedLine (lineOf s l)) s)) := by
  have other {m : Line} (here : m ∈ ls) : lineOf (withLine l (clearedLine (lineOf s l)) s) m = lineOf s m :=
    lineOf_withLine_ne _ s fun same => once (same ▸ here)
  have lines : (Table.build 16 fun m => if m ∈ l :: ls then clearedLine (lineOf s m) else lineOf s m)
      = Table.build 16 fun m => if m ∈ ls then clearedLine (lineOf (withLine l (clearedLine (lineOf s l)) s) m)
          else lineOf (withLine l (clearedLine (lineOf s l)) s) m := by
    refine Table.ext_get fun m => ?_
    rw [Table.get_build, Table.get_build]
    by_cases here : m ∈ ls
    · rw [if_pos (List.mem_cons_of_mem l here), if_pos here, other here]
    · rw [if_neg here]
      by_cases same : m = l
      · rw [same, if_pos (List.mem_cons_self ..), lineOf_withLine_self]
      · rw [if_neg (by simp [same, here]), lineOf_withLine_ne _ s same]
  have tones : ((l :: ls).filterMap fun m => clearedTone m (lineOf s m)) = (clearedTone l (lineOf s l)).toList
      ++ ls.filterMap fun m => clearedTone m (lineOf (withLine l (clearedLine (lineOf s l)) s) m) := by
    have rest := congrArg (List.filterMap id) (List.map_congr_left fun m here => congrArg (clearedTone m) (other here))
    rw [List.filterMap_map, List.filterMap_map] at rest
    rw [show (ls.filterMap fun m => clearedTone m (lineOf (withLine l (clearedLine (lineOf s l)) s) m)) = _ from rest]
    show _ = _ ++ ls.filterMap fun m => clearedTone m (lineOf s m)
    cases is : clearedTone l (lineOf s l) <;> simp [is]
  unfold linesCleared
  rw [lines, tones, ← List.append_assoc]
  rfl

theorem clearLines_eq {ls : List Line} (once : ls.Nodup) {s : State} (silent : ∀ l, (lineOf s l).state ≠ .ringing) :
    forEach ls clearLine s = linesCleared ls s := by
  induction ls generalizing s with
  | nil => exact (linesCleared_nil s).symm
  | cons l rest ih =>
    obtain ⟨here, once⟩ := List.nodup_cons.1 once
    rw [forEach, clearLine_eq (silent l), linesCleared_cons s here]
    refine ih once fun m => ?_
    show (lineOf (withLine l (clearedLine (lineOf s l)) s) m).state ≠ .ringing
    by_cases same : m = l
    · rw [same, lineOf_withLine_self]
      exact clearedLine_silent (silent l)
    · rw [lineOf_withLine_ne _ s same]
      exact silent m

theorem lineShelfClear_eq {s : State} (silent : ∀ l, (lineOf s l).state ≠ .ringing) :
    lineShelfClear s = withOutputs (s.outputs ++ clearedTones s)
      { s with lu := Table.build 16 fun l => clearedLine (lineOf s l) } := by
  have all (l : Line) : l ∈ allLines := List.mem_finRange l
  refine (clearLines_eq (ls := allLines) (List.nodup_finRange 16) silent).trans ?_
  simp only [linesCleared, all, if_true, clearedTones_eq]

theorem pgoShelfClear_none {s : State} (unpaged : ∀ r ∈ s.pgo.pages, ∀ l, r.origin ≠ .line l) : pgoShelfClear s = s := by
  refine pgoShelfClear_of (t := s) ?_
  rw [List.filter_eq_nil_iff.2 fun r here => ?_]
  · exact rfl
  · cases is : r.origin with
    | line l => exact absurd is (unpaged r here l)
    | input _ | orbit _ => simp

/-! ### SHELF-CLEAR (R173) -/

theorem shelfClearEndsTheCall : Clause.ShelfClearEndsCallsAndTalks := by
  intro s ⟨ready, link, room⟩ silent unpaged lines
  have acts {t : State} (calls : ofmShelfClear (fresh s) = withOutputs [] t) (lu : t.lu = s.lu) (pgo : t.pgo = s.pgo)
      (quiet : t.deliveries = []) : exec .shelfClear s = .next (lines t) := by
    have same : lineOf (withOutputs [] t) = lineOf s := by
      funext l
      exact congrArg (fun lu => lu.get l) lu
    refine exec_of_act (f := clearShelf) rfl ready.1 ?_ (t := lines t) quiet
    unfold clearShelf
    rw [calls, lineShelfClear_eq (by rw [same]; exact silent), pgoShelfClear_none (by
      show ∀ r ∈ t.pgo.pages, ∀ l, r.origin ≠ .line l
      rw [pgo]
      exact unpaged)]
    simp only [lines, clearedTones_eq, same]
    rfl
  refine ⟨fun none_ => ?_, fun o only open_ => ?_⟩
  · refine acts (t := s) ?_ rfl rfl ready.2
    unfold ofmShelfClear offerSeqs
    rw [show (fresh s).ofm.offers = [] from none_]
    rfl
  · have at_ : OfferAt o [] [] (fresh s) := ⟨only, by simp⟩
    refine acts ?_ rfl rfl ready.2
    unfold ofmShelfClear offerSeqs
    rw [show (fresh s).ofm.offers = [o] from only]
    refine (congrArg (withCode · (endCall · none) (fresh s)) (findOffer_at at_)).trans ?_
    refine (endCall_withoutOutcome at_ open_ (.inr ⟨link, room⟩)).trans ?_
    rw [noticed_running _ _ (by exact link)]
    rfl

theorem shelfClearEndsEverything : Clause.ShelfClearEndsEverything := by
  intro s a b t v ready calls lines pages delivered
  refine exec_delivered (f := clearShelf) rfl ready.1 ?_ delivered
  unfold clearShelf
  rw [show fresh s = withOutputs [] s from rfl, ofmShelfClear_of calls, lineShelfClear_of lines]
  exact pgoShelfClear_of pages

/-- Settles O55. -/
theorem shelfClearEndsCallsAndTalks : Obligations.ShelfClearEndsCallsAndTalks :=
  ⟨shelfClearEndsTheCall, shelfClearEndsEverything⟩

end Sys2Proof.Machine
end

section
/-! SUPPORT. O56: records from the shelf and to the shelf, and ATTENTION (R169 to R172, R177, R187). -/

namespace Sys2Proof.Machine

/-! ### Records from the shelf (R169, R170, R172) -/

section
variable {n kind sum : Byte} {payload rest : List Byte} {s : State}

theorem recordComplete_iff (n : Byte) (rest : List Byte) : recordComplete (n :: rest) = true ↔ rest.length = n.toNat + 2 :=
  beq_iff_eq

/-- The first bytes of a complete record are not complete. -/
theorem recordComplete_part {front back : List Byte} (complete : recordComplete (front ++ back) = true) (more : back ≠ []) :
    recordComplete front = false := by
  cases front with
  | nil => rfl
  | cons n rest =>
    rw [List.cons_append, recordComplete_iff, List.length_append] at complete
    have := List.length_pos_iff.2 more
    rw [← Bool.not_eq_true, recordComplete_iff]
    omega

theorem judgeRecord_badSum (bad : ((n :: kind :: rest).map fun b => b.toNat).sum % 256 ≠ 0) :
    judgeRecord (n :: kind :: rest) = some .badSum := by
  rw [Ne, ← byteSum_zero] at bad
  exact if_pos bad

theorem judgeRecord_goodSum (good : ((n :: kind :: rest).map fun b => b.toNat).sum % 256 = 0) :
    judgeRecord (n :: kind :: rest) = match inLength kind with
      | none => some .unknownKind
      | some l => if n.toNat = l then none else some .badLength := by
  rw [← byteSum_zero] at good
  exact if_neg (Classical.not_not.2 good)

theorem judgeRecord_unknownKind (good : ((n :: kind :: rest).map fun b => b.toNat).sum % 256 = 0)
    (unknown : inLength kind = none) : judgeRecord (n :: kind :: rest) = some .unknownKind := by
  rw [judgeRecord_goodSum good, unknown]

theorem judgeRecord_badLength {l : Nat} (good : ((n :: kind :: rest).map fun b => b.toNat).sum % 256 = 0)
    (known : inLength kind = some l) (wrong : n.toNat ≠ l) : judgeRecord (n :: kind :: rest) = some .badLength := by
  rw [judgeRecord_goodSum good, known]
  exact if_neg wrong

theorem judgeRecord_none_iff : judgeRecord (n :: kind :: rest) = none
    ↔ ((n :: kind :: rest).map fun b => b.toNat).sum % 256 = 0 ∧ inLength kind = some n.toNat := by
  by_cases good : ((n :: kind :: rest).map fun b => b.toNat).sum % 256 = 0
  · cases known : inLength kind with
    | none => simp [judgeRecord_unknownKind good known]
    | some l =>
      by_cases right : n.toNat = l
      · rw [judgeRecord_goodSum good, known]
        exact ⟨fun _ => ⟨good, congrArg some right.symm⟩, fun _ => if_pos right⟩
      · simp [judgeRecord_badLength good known right, Ne.symm right]
  · rw [judgeRecord_badSum good]
    exact ⟨nofun, fun ⟨sums, _⟩ => absurd sums good⟩

theorem recordCommand_bad (complete : recordComplete (n :: kind :: rest) = true)
    (bad : ¬ ((n :: kind :: rest).map fun b => b.toNat).sum % 256 = 0 ∨ inLength kind ≠ some n.toNat) :
    recordCommand (n :: kind :: rest) = some (.shelfRecordBad (n :: kind :: rest)) := by
  have judged : (judgeRecord (n :: kind :: rest)).isSome = true := by
    rw [Option.isSome_iff_ne_none, Ne, judgeRecord_none_iff]
    exact fun ⟨good, known⟩ => bad.elim (fun wrong => wrong good) fun wrong => wrong known
  exact (if_pos complete).trans (if_pos judged)

theorem recordCommand_good (complete : recordComplete (n :: kind :: rest) = true)
    (good : ((n :: kind :: rest).map fun b => b.toNat).sum % 256 = 0) (known : inLength kind = some n.toNat) :
    recordCommand (n :: kind :: rest) = goodCommand (n :: kind :: rest) := by
  refine (if_pos complete).trans (if_neg ?_)
  rw [judgeRecord_none_iff.2 ⟨good, known⟩]
  exact nofun

theorem shelfByte_last {bytes : List Byte} (released : s.pins.reset = false) (is : s.spu.incoming ++ [sum] = bytes)
    (complete : recordComplete bytes = true) : shelfByte sum s
      = { s with spu := { s.spu with incoming := [] }, pending := s.pending ++ (recordCommand bytes).toList } := by
  subst is
  exact (if_neg (by simp [released])).trans (if_pos complete)

/-- The bytes of a record, from no byte received: its command joins the queue, and no byte is then received (R169). -/
theorem shelfBytes_record (released : s.pins.reset = false) (idle : s.spu.incoming = [])
    (long : payload.length = n.toNat) :
    (n :: kind :: (payload ++ [sum])).foldl (fun t b => shelfByte b t) s
      = { s with pending := s.pending ++ (recordCommand (n :: kind :: (payload ++ [sum]))).toList } := by
  have complete : recordComplete ((n :: kind :: payload) ++ [sum]) = true := by
    rw [List.cons_append, recordComplete_iff]
    simp [long]
  have body := shelfByte_part (n :: kind :: payload) s [] released idle fun a b is _ =>
    recordComplete_part (back := b ++ [sum]) (by
      rw [List.nil_append, ← List.append_assoc, ← is]
      exact complete) (by simp)
  rw [show n :: kind :: (payload ++ [sum]) = (n :: kind :: payload) ++ [sum] from rfl, List.foldl_append, body]
  refine (shelfByte_last (s := { s with spu := { s.spu with incoming := n :: kind :: payload } }) released rfl
    complete).trans ?_
  rw [← idle]

end

theorem shelfBytesBecomeCommands : Clause.ShelfBytesBecomeCommands := by
  refine ⟨fun b s reset => if_pos reset, fun n kind sum payload s released idle long => ?_⟩
  intro record received becomes good lengthOf
  have complete : recordComplete record = true := by
    rw [recordComplete_iff]
    simp [long]
  have becomes_ {c : Instr} (is : recordCommand record = some c) : becomes c := by
    refine (shelfBytes_record released idle long).trans ?_
    rw [is]
    rfl
  have known {k : Nat} (is : inLength kind = some k) (fits : payload.length = k) : inLength kind = some n.toNat := by
    rw [is, ← long, fits]
  refine ⟨fun front back is more => ?_, fun bad => ?_, fun a b t c d sums kinds is => ?_, fun a b sums kinds is => ?_,
    fun sums kinds is => ?_, fun sums kinds is => ?_⟩
  · refine shelfByte_part front s [] released idle fun a b split _ => ?_
    refine recordComplete_part (back := b ++ back) ?_ (by simp [more])
    rw [List.nil_append, ← List.append_assoc, ← split, ← is]
    exact complete
  · refine becomes_ (recordCommand_bad complete ?_)
    rw [inLength_eq]
    exact bad
  · subst kinds is
    refine becomes_ ((recordCommand_good complete sums (known rfl rfl)).trans ?_)
    rw [← wordOf_eq, ← wordOf_eq]
    rfl
  · subst kinds is
    refine becomes_ ((recordCommand_good complete sums (known rfl rfl)).trans ?_)
    rw [← wordOf_eq]
    rfl
  · subst kinds is
    exact becomes_ (recordCommand_good complete sums (known rfl rfl))
  · subst kinds is
    exact becomes_ (recordCommand_good complete sums (known rfl rfl))

/-! ### Bad records and gaps (R169, R170) -/

section
variable {n kind : Byte} {rest : List Byte} {s : State}

theorem badRecord_judged {cause : RecordFault} (long : rest.length = n.toNat + 1)
    (judged : judgeRecord (n :: kind :: rest) = some cause) :
    badRecord (n :: kind :: rest) s = raiseRecordFault cause kind s := by
  have complete : recordComplete (n :: kind :: rest) = true := by
    rw [recordComplete_iff, List.length_cons, long]
  refine (if_pos complete).trans ?_
  rw [judged]
  rfl

theorem abandonRecord_part {bytes : List Byte} (is : s.spu.incoming ++ bytes = n :: rest)
    (few : rest.length < n.toNat + 2) : abandonRecord bytes s
      = raiseRecordFault .incomplete (recordKind (n :: rest)) (onSpu (fun u => { u with incoming := [] }) s) := by
  unfold abandonRecord
  rw [is]
  exact if_pos few

theorem abandonRecord_complete {bytes : List Byte} (is : s.spu.incoming ++ bytes = n :: rest)
    (all : n.toNat + 2 ≤ rest.length) : abandonRecord bytes s = s := by
  unfold abandonRecord
  rw [is]
  exact if_neg (Nat.not_lt.2 all)

theorem abandonRecord_none {bytes : List Byte} (is : s.spu.incoming ++ bytes = []) : abandonRecord bytes s = s := by
  unfold abandonRecord
  rw [is]

end

theorem badShelfRecordsRaiseTheFault : Clause.BadShelfRecordsRaiseTheFault := by
  intro n kind rest s ready sum lengthOf faulted abandoned
  have judged {cause : RecordFault} (long : rest.length = n.toNat + 1) (is : judgeRecord (n :: kind :: rest) = some cause) :
      exec (.shelfRecordBad (n :: kind :: rest)) s = .next (faulted (faultNumber cause) kind.toNat s) :=
    exec_of_act (f := badRecord _) rfl ready.1 (badRecord_judged (s := fresh s) long is) (by exact ready.2)
  have gap {bytes : List Byte} {t : State} (is : abandonRecord bytes (fresh s) = t) (quiet : t.deliveries = []) :
      exec (.recordGapTimeout bytes) s = .next t :=
    exec_of_act (f := abandonRecord bytes) rfl ready.1 is quiet
  refine ⟨fun long => ⟨fun bad => judged long (judgeRecord_badSum bad),
    fun good unknown => judged long (judgeRecord_unknownKind good ((inLength_eq kind).trans unknown)),
    fun k good known wrong => judged long (judgeRecord_badLength good ((inLength_eq kind).trans known) wrong)⟩,
    fun bytes => ⟨fun is few => ?_, fun is all => ?_, fun is => ?_, fun is => ?_⟩⟩
  · exact gap (abandonRecord_part (s := fresh s) is (by rw [List.length_cons]; omega)) (by exact ready.2)
  · exact gap (abandonRecord_complete (s := fresh s) is (by rw [List.length_cons]; omega)) ready.2
  · exact gap (abandonRecord_part (s := fresh s) is (Nat.succ_pos _)) (by exact ready.2)
  · exact gap (abandonRecord_none (s := fresh s) is) ready.2

/-! ### Records to the shelf (R171, R187), and ATTENTION (R177) -/

theorem byteSum_append (a b : List Byte) : byteSum (a ++ b) = byteSum a + byteSum b := by
  induction a with
  | nil => simp [byteSum]
  | cons x rest ih => rw [List.cons_append, byteSum, byteSum, ih, BitVec.add_assoc]

/-- The sum byte makes the sum 0 (R187). -/
theorem byteSum_recordBytes (kind : Byte) (payload : List Byte) : byteSum (recordBytes kind payload) = 0 := by
  refine (byteSum_append _ _).trans ?_
  exact (congrArg (_ + ·) (BitVec.add_zero _)).trans (BitVec.add_right_neg _)

theorem sentRecordsLeaveOldestFirst : Clause.SentRecordsLeaveOldestFirst := by
  intro s ready
  have sent {t : State} (is : recordSent (fresh s) = t) (quiet : t.deliveries = []) : exec .outputRecordSent s = .next t :=
    exec_of_act (f := recordSent) rfl ready.1 is quiet
  refine ⟨fun r rest is => ⟨sent ?_ ready.2, ?_, ?_, rfl⟩, fun none_ => sent ?_ ready.2⟩
  · unfold recordSent
    rw [show (fresh s).spu.output = r :: rest from is]
    rfl
  · exact (byteSum_zero _).1 (byteSum_recordBytes _ _)
  · simp [outBytes, recordBytes]
  · unfold recordSent
    rw [show (fresh s).spu.output = [] from none_]
    rfl

theorem attentionFollowsFlagsAndMask : Clause.AttentionFollowsFlagsAndMask := by
  intro s
  simp [attention, enabled, conditionsByPriority_all]

/-- Settles O56. -/
theorem shelfRecordsInAndOut : Obligations.ShelfRecordsInAndOut :=
  ⟨shelfBytesBecomeCommands, badShelfRecordsRaiseTheFault, sentRecordsLeaveOldestFirst, attentionFollowsFlagsAndMask⟩

end Sys2Proof.Machine
end

section
/-! SUPPORT. O57: a frame is read as the notice that it carries (R1, R4, 12.1, R186). -/

namespace Sys2Proof.Machine

/-! ### Bit stuffing (R1) -/

/-- Inserted bits are removed where they were inserted: the receiver counts the sender's runs. -/
theorem unstuffFrom_stuffFrom {last : Bool} {run : Nat} (few : run ≤ 5) (bs : List Bool) :
    unstuffFrom last run (stuffFrom last run bs) = .bits bs := by
  induction bs generalizing last run with
  | nil => rfl
  | cons b rest ih =>
    have short : ¬ 6 ≤ run := by omega
    by_cases sixth : b = last ∧ 5 ≤ run
    · obtain ⟨same, five⟩ := sixth
      have five : run = 5 := by omega
      subst same five
      simp [stuffFrom, unstuffFrom, ih, Reading.cons]
    · have run_ : (if b = last then run + 1 else 1) ≤ 5 := by
        split
        · next same =>
          have := not_and.1 sixth same
          omega
        · omega
      rw [stuffFrom, if_neg sixth, unstuffFrom, if_neg short, ih run_]
      rfl

theorem unstuff_stuff (bs : List Bool) : unstuff (stuff bs) = .bits bs := unstuffFrom_stuffFrom (by omega) bs

/-! ### Numbers as bits (R1) -/

@[simp] theorem length_natBits (w n : Nat) : (natBits w n).length = w := by
  induction w with
  | zero => rfl
  | succ w ih => rw [natBits, List.length_cons, ih]

theorem foldl_natBits (w n start : Nat) :
    (natBits w n).foldl (fun m b => 2 * m + b.toNat) start = start * 2 ^ w + n % 2 ^ w := by
  induction w generalizing start with
  | zero => simp [natBits, Nat.mod_one]
  | succ w ih =>
    rw [natBits, List.foldl_cons, ih, Nat.toNat_testBit, Nat.mod_pow_succ, Nat.pow_succ]
    grind

theorem bitsNat_natBits (w n : Nat) : bitsNat (natBits w n) = n % 2 ^ w := by
  rw [bitsNat, foldl_natBits, Nat.zero_mul, Nat.zero_add]

/-- A field read where it stands. -/
theorem bitsNat_field {front back : List Bool} {i w n : Nat} (here : front.length = i) :
    bitsNat (((front ++ (natBits w n ++ back)).drop i).take w) = n % 2 ^ w := by
  rw [List.drop_left' here, List.take_left' (length_natBits w n), bitsNat_natBits]

theorem bitsBytes_byteBits (p : List Byte) (rest : List Bool) : bitsBytes p.length (byteBits p ++ rest) = p := by
  induction p with
  | nil => rfl
  | cons b p ih =>
    have bits : byteBits (b :: p) ++ rest = natBits 8 b.toNat ++ (byteBits p ++ rest) := by
      simp [byteBits]
    rw [List.length_cons, bitsBytes, bits, List.take_left' (length_natBits ..), List.drop_left' (length_natBits ..), ih,
      bitsNat_natBits]
    congr 1
    rw [Nat.mod_eq_of_lt b.isLt]
    exact BitVec.ofNat_toNat ..

theorem length_byteBits (p : List Byte) : (byteBits p).length = 8 * p.length := by
  induction p with
  | nil => rfl
  | cons b p ih =>
    rw [byteBits, List.map_cons, List.flatten_cons, List.length_append, length_natBits, ← byteBits, ih, List.length_cons]
    omega

/-! ### The fields of a frame (12.1) -/

/-- The bits of a frame after its start bit, field by field; `rest` is what follows the payload. -/
def frameFields (cls key kind : Nat) (src : Cabinet) (p : List Byte) (rest : List Bool) : List Bool :=
  natBits 2 cls ++ (natBits 10 key ++ (natBits 4 src.val ++ (natBits 5 kind ++ (natBits 5 p.length ++ (byteBits p ++ rest)))))

theorem contentBits_append (src : Cabinet) (n : Notice) (rest : List Bool) : contentBits src n ++ rest
    = frameFields (arbClass n) (arbKey n) (kindCode n) src (payloadBytes n) rest := by
  simp only [contentBits, fieldBits, frameFields, List.append_assoc]

theorem length_contentBits (src : Cabinet) (n : Notice) :
    (contentBits src n).length = 26 + 8 * (payloadBytes n).length := by
  simp only [contentBits, fieldBits, List.length_append, length_natBits, length_byteBits]

section
variable {cls key kind : Nat} {src : Cabinet} {p : List Byte} {rest : List Bool}

theorem frameKey_fields (fits : key < 1024) : frameKey (frameFields cls key kind src p rest) = ⟨key, fits⟩ := by
  have read : bitsNat (((frameFields cls key kind src p rest).drop 2).take 10) = key % 2 ^ 10 :=
    bitsNat_field (length_natBits ..)
  refine Fin.ext ?_
  show bitsNat _ % 1024 = key
  rw [read]
  omega

theorem frameSource_fields : frameSource (frameFields cls key kind src p rest) = src := by
  have read : bitsNat (((frameFields cls key kind src p rest).drop 12).take 4) = src.val % 2 ^ 4 := by
    rw [frameFields, ← List.append_assoc]
    exact bitsNat_field (by simp)
  refine Fin.ext ?_
  show bitsNat _ % 16 = src.val
  rw [read]
  omega

theorem frameKind_fields : frameKind (frameFields cls key kind src p rest) = BitVec.ofNat 5 kind := by
  have read : bitsNat (((frameFields cls key kind src p rest).drop 16).take 5) = kind % 2 ^ 5 := by
    rw [frameFields, ← List.append_assoc, ← List.append_assoc]
    exact bitsNat_field (by simp)
  rw [frameKind, read]
  exact BitVec.eq_of_toNat_eq (by simp)

theorem frameLength_fields (short : p.length < 32) : frameLength (frameFields cls key kind src p rest) = p.length := by
  rw [frameLength, frameFields, ← List.append_assoc, ← List.append_assoc, ← List.append_assoc, bitsNat_field (by simp)]
  exact Nat.mod_eq_of_lt short

theorem framePayload_fields : bitsBytes p.length ((frameFields cls key kind src p rest).drop 26) = p := by
  rw [frameFields, ← List.append_assoc, ← List.append_assoc, ← List.append_assoc, ← List.append_assoc,
    List.drop_left' (by simp), bitsBytes_byteBits]

end

/-! ### Payloads (table 12-3) -/

theorem slotBytes_eq (x : Option ChannelHold) :
    slotBytes x = [(rawSlot x).cls, (rawSlot x).page.cab, (rawSlot x).page.seq] := by
  cases x <;> rfl

theorem evacuationBytes_eq (e : Option PageId) : evacuationBytes e = [if e.isSome then 1 else 0,
    ((e.map rawPage).getD ⟨0, 0⟩).cab, ((e.map rawPage).getD ⟨0, 0⟩).seq] := by
  cases e <;> rfl

theorem channels_rows (t : Table 4 (Option ChannelHold)) : t.rows = [t.get 0, t.get 1, t.get 2, t.get 3] := by
  obtain ⟨rows, size⟩ := t
  match rows, size with
  | [a, b, c, d], _ => rfl

theorem statusBytes_eq (link : LinkField) (b : StatusBody) : payloadBytes (.status link b)
    = [linkByte link] ++ [if b.evac.isSome then 1 else 0, ((b.evac.map rawPage).getD ⟨0, 0⟩).cab,
        ((b.evac.map rawPage).getD ⟨0, 0⟩).seq]
      ++ ([0, 1, 2, 3].map fun c => [(rawSlot (b.channels.get c)).cls, (rawSlot (b.channels.get c)).page.cab,
        (rawSlot (b.channels.get c)).page.seq]).flatten ++ [byteOf b.offers] := by
  rw [payloadBytes, evacuationBytes_eq, channels_rows]
  simp only [List.map_cons, List.map_nil, slotBytes_eq]

theorem wordOf_bytes (w : Word16) : wordOf (highByte w) (lowByte w) = w :=
  BitVec.extractLsb'_append_extractLsb' (w := 8) (len := 8)

theorem setBytes_append (t : IndexSet) :
    t.extractLsb' 24 8 ++ t.extractLsb' 16 8 ++ t.extractLsb' 8 8 ++ t.extractLsb' 0 8 = t := by
  have upper : t.extractLsb' 24 8 ++ t.extractLsb' 16 8 = t.extractLsb' 16 16 :=
    BitVec.extractLsb'_append_extractLsb'_eq_extractLsb' rfl
  have high : t.extractLsb' 16 16 ++ t.extractLsb' 8 8 = t.extractLsb' 8 24 :=
    BitVec.extractLsb'_append_extractLsb'_eq_extractLsb' rfl
  rw [upper, high]
  exact BitVec.extractLsb'_append_extractLsb' (w := 24) (len := 8)

/-- A payload is at most the 17 bytes of a STATUS (table 12-2). -/
theorem length_payloadBytes (n : Notice) : (payloadBytes n).length ≤ 17 := by
  cases n with
  | status link b => rw [statusBytes_eq]; exact Nat.le_refl 17
  | claim t cab l => cases t <;> simp [payloadBytes, claimBytes, callBytes]
  | refused t cab l r => cases t <;> simp [payloadBytes, claimBytes, callBytes]
  | _ => simp [payloadBytes, callBytes, setBytes, twoBytes, pageBytes]

theorem arbKey_lt (n : Notice) : arbKey n < 1024 := by
  cases n with
  | bid c l i k => exact k.isLt
  | _ => exact Nat.succ_pos _

/-- Each kind's payload is read as the fields that it was written from (table 12-3). -/
theorem noticeCommand_eq (src : Cabinet) (n : Notice) :
    noticeCommand src ⟨arbKey n, arbKey_lt n⟩ (BitVec.ofNat 5 (kindCode n)) (payloadBytes n) = heardAs src n := by
  cases n with
  | status link b => rw [statusBytes_eq]; rfl
  | claim t cab l => cases t <;> rfl
  | refused t cab l r => cases t <;> rfl
  | offer c g a t => exact congrArg (Instr.offer src (rawCall c) (byteOf g.val) (byteOf a)) (setBytes_append t)
  | bid c l i k => exact congrArg (Instr.bid src k (rawCall c) (byteOf l.val) (byteOf i.val)) (wordOf_bytes _)
  | available g => exact congrArg (Instr.available src) (wordOf_bytes g)
  | _ => rfl

/-! ### Frames (R4, R12) -/

theorem judgeFrame_content (src : Cabinet) (n : Notice) :
    judgeFrame (contentBits src n ++ natBits 16 (crc (contentBits src n)).toNat) = heardAs src n := by
  have short := length_payloadBytes n
  have content := length_contentBits src n
  have sum : bitsNat (natBits 16 (crc (contentBits src n)).toNat) = (crc (contentBits src n)).toNat := by
    rw [bitsNat_natBits]
    exact Nat.mod_eq_of_lt (BitVec.isLt _)
  have length_ : frameLength (contentBits src n ++ natBits 16 (crc (contentBits src n)).toNat)
      = (payloadBytes n).length := by
    rw [contentBits_append]
    exact frameLength_fields (by omega)
  unfold judgeFrame
  dsimp only
  rw [length_, if_neg (by omega), List.drop_left' content, List.take_left' content, List.take_of_length_le (by simp), sum,
    if_neg (by simp), contentBits_append, frameSource_fields, frameKey_fields (arbKey_lt n), frameKind_fields,
    framePayload_fields]
  exact noticeCommand_eq src n

/-- Settles O57: the receiver drops the inserted bits, finds each field where it stands, and its CRC is the sender's. -/
theorem framesAreReadAsTheNoticesSent : Obligations.FramesAreReadAsTheNoticesSent := by
  intro src n
  unfold frameCommand
  rw [unstuff_stuff]
  exact judgeFrame_content src n

end Sys2Proof.Machine
end
